-- ==== Sys2Proof/Word.lean ====
section
/-! DEFINITION. The word types of the coordinator, its small numbers, and reading and writing one place of a fixed
number of like things. -/

namespace Sys2Proof

/-- One backplane word: a register of the window, an address, a token (R15, R149, R152). -/
abbrev Word := BitVec 32

/-- A count of lease ticks, 0 to 65535 (R1, R10, R39). -/
abbrev Ticks := BitVec 16

/-- The number of a backplane slot, 0 to 15. -/
abbrev Slot := BitVec 4

/-- The agents A0 to A7. -/
abbrev AgentId := Fin 8

/-- The locks L0 to L63 (R1). -/
abbrev LockId := Fin 64

/-- The place `i` of a row of `n` like things. -/
def pick {α : Type} {n : Nat} (v : Vector α n) (i : Fin n) : α := v[i]

/-- The row with `x` at place `i`. -/
def put {α : Type} {n : Nat} (v : Vector α n) (i : Fin n) (x : α) : Vector α n := v.set i x

/-- The row with `f` applied at every place. -/
def each {α β : Type} {n : Nat} (f : α → β) (v : Vector α n) : Vector β n :=
  ⟨⟨v.toList.map f⟩, by simp⟩

end Sys2Proof
end

