-- ==== Sys2Proof/Syntax.lean ====
section
/-! DEFINITION. The commands of the coordinator, one constructor per row of spec/opcode_table.json, and their operands. -/

namespace Sys2Proof

/-- The nine pages of the window: one for each agent and the supervisor page (9.2). -/
inductive PageId where
  | agent (a : AgentId)
  | supervisor
  deriving DecidableEq, Repr

/-- The two transfer channels. -/
inductive ChanId where
  | c0
  | c1
  deriving DecidableEq, Repr

/-- The commands that a COMMAND write starts, by name (R158). -/
inductive Cmd where
  | attach | detach | acquire | cancelWait | release | renew | downgrade | query | post | withdraw
  | enableAgent | disableAgent | evict | configureLock | closeLock | breakLock | pauseChannel | resumeChannel
  | setTimebase | setBusWait | inspectLock | inspectRecord | inspectChannel | inspectAgent | clear
  deriving DecidableEq, Repr

/-- The two moments of a page command (R153, log 4). -/
inductive Moment where
  /-- The COMMAND write, from a slot; `high` is bits 31 to 8 of the value, which the port ignores. -/
  | write (slot : Slot) (high : BitVec 24)
  /-- The owning block takes the command, carries it out, and its result is presented. -/
  | take
  deriving DecidableEq, Repr

/-- The moments of a page command in which more than one block has a part (R30, R102, R141, R142, R143, log 4). -/
inductive LongMoment where
  /-- The COMMAND write, from a slot; `high` is bits 31 to 8 of the value, which the port ignores. -/
  | write (slot : Slot) (high : BitVec 24)
  /-- The owning block takes the command. -/
  | take
  /-- The next block does its part of the command in flight, or the owning block ends it. -/
  | proceed
  deriving DecidableEq, Repr

/-- One access of a backplane master to an address (R149, R150). -/
structure Access where
  address : Word
  /-- The four byte-lane enables. -/
  lanes : BitVec 4
  slot : Slot
  /-- A write, or a read. -/
  isWrite : Bool
  /-- The word written; not used by a read. -/
  data : Word
  deriving DecidableEq, Repr

/-- The levels sampled from the strap pins at the release of RESET (R149). -/
structure Straps where
  base : BitVec 22
  supervisorSlot : Slot
  masterSlot : Slot
  deriving DecidableEq, Repr

/-- What a backplane grant is given on (R129). -/
inductive GrantFor where
  /-- The request the master is asserting. -/
  | asserted
  /-- A request that the master has withdrawn. -/
  | withdrawn
  deriving DecidableEq, Repr

/-- A board's answer to a read cycle of the master (R131). -/
inductive ReadAnswer where
  | data (w : Word)
  | busError
  deriving DecidableEq, Repr

/-- A board's answer to a write cycle of the master (R132). -/
inductive WriteAnswer where
  | acknowledged
  | busError
  deriving DecidableEq, Repr

/-- The commands: the rows of spec/opcode_table.json, in the table's order. -/
inductive Instr where
  | attach (a : AgentId) (m : Moment)
  | detach (a : AgentId) (m : LongMoment)
  | acquire (a : AgentId) (m : Moment)
  | cancelWait (a : AgentId) (m : Moment)
  | release (a : AgentId) (m : Moment)
  | renew (a : AgentId) (m : Moment)
  | downgrade (a : AgentId) (m : Moment)
  | query (a : AgentId) (m : Moment)
  | post (a : AgentId) (m : LongMoment)
  | withdraw (a : AgentId) (m : Moment)
  | enableAgent (m : Moment)
  | disableAgent (m : Moment)
  | evict (m : Moment)
  | configureLock (m : Moment)
  | closeLock (m : Moment)
  | breakLock (m : Moment)
  | pauseChannel (m : Moment)
  | resumeChannel (m : Moment)
  | setTimebase (m : Moment)
  | setBusWait (m : Moment)
  | inspectLock (m : Moment)
  | inspectRecord (m : Moment)
  | inspectChannel (m : LongMoment)
  | inspectAgent (m : LongMoment)
  | clear (m : LongMoment)
  | undefinedCommandCode (page : PageId) (slot : Slot) (value : Word)
  | collision (page : PageId) (slot : Slot) (value : Word)
  | pop (page : PageId) (slot : Slot) (value : Word)
  | controlWrite (page : PageId) (slot : Slot) (value : Word)
  | registerWrite (access : Access)
  | busError (access : Access)
  | hardwareReset (straps : Straps)
  | tickBoundary
  | leaseRunsOut
  | waitRunsOut
  | leaseExpiry
  | waitExpiry
  | purge
  | postLockCheck (a : AgentId)
  | detachRecordCount (a : AgentId)
  | inspectAgentRecordCount
  | channelAcquisition (c : ChanId)
  | channelWaiterRemoval (c : ChanId)
  | channelRelease (c : ChanId)
  | acquireGuardCheck (c : ChanId)
  | fenceGuardCheck (c : ChanId)
  | acquisitionAnswer
  | channelGrantReport
  | channelWaitEndedReport
  | holdingEndedReport
  | waiterRemovalAnswer
  | guardCheckAnswer
  | releaseAnswer
  | burstOutcome
  | withdrawAll
  | purgeDoneReport
  | noDescriptorLeftReport
  | channelsAtRestReport
  | clearLockTableStep
  | clearTransferStep
  | clearAgentStep
  | busGrant (g : GrantFor)
  | busTimeout
  | readCycleAnswered (answer : ReadAnswer)
  | writeCycleAnswered (answer : WriteAnswer)
  | lockTableStepReport
  deriving DecidableEq, Repr

end Sys2Proof
end

