-- ==== Sys2Proof/Decode.lean ====
section
/-! DEFINITION. The commands that words spell by the opcode table's bits. -/

namespace Sys2Proof

/-- The command a word of the opcode table spells: none, for the table gives bits to no row (log 20). The codes by which a
COMMAND write names a command (R158) are in Machine/Operands.lean. -/
def decodeTableWord (_nbits _w : Nat) : Option Instr := none

end Sys2Proof
end

