-- ==== Sys2Proof/Config.lean ====
section
/-! DEFINITION. What is fixed for the part, and the free values: the values the manual leaves open. -/

namespace Sys2Proof.Config

/-- The agent records of the lock record pool (R9). -/
def agentRecords : Nat := 94

/-- The records of the descriptor store (R98). -/
def descriptorRecords : Nat := 32

/-- The places of a notice queue (R81). -/
def queuePlaces : Nat := 16

/-- The number of bytes of the register window (R149). -/
def windowBytes : Nat := 1024

/-- IDENT.PART (R157). -/
def partNumber : BitVec 16 := 0x2408

/-- IDENT.ISSUE (R157). -/
def issue : BitVec 4 := 1

/-- A FREE VALUE: RESULT0 of a DETACH that is carried out. R30 gives the result OK and states no result word for it
(DESIGN CHOICE, log 6). -/
opaque detachResult0 : Nat → Word

/-- A FREE VALUE: RESULT1 of a DETACH that is carried out (DESIGN CHOICE, log 6). -/
opaque detachResult1 : Nat → Word

/-- A FREE VALUE: whether a failed ACQUIRE guard check gives LEASE_LOST, not LOCK_BROKEN, where the channel has no loss
reason recorded. R110 says that a channel whose check fails always has one (DESIGN CHOICE, log 6). -/
opaque unrecordedLossIsLease : Nat → Bool

end Sys2Proof.Config
end

