-- ==== Sys2Proof/Machine/State.lean ====
section
/-! DEFINITION. The state of the coordinator: plain data, block by block as chapter 3 of 00_scope.md lists them, its value
after hardware reset, and the queue of commands that wait. -/

namespace Sys2Proof.Machine

/-- A thing for each of the two channels. -/
structure PerChan (α : Type) where
  c0 : α
  c1 : α
  deriving DecidableEq, Repr

/-! ### Locks (Chapter 1) -/

/-- The mode of a lock record (R10). -/
inductive Mode where
  | shared
  | exclusive
  deriving DecidableEq, Repr

/-- The life-cycle state of a lock (R1). `opened` is the manual's OPEN. -/
inductive LockState where
  | disabled
  | opened
  | closing
  deriving DecidableEq, Repr

/-- The class of a lock (R1). -/
inductive LockClass where
  | exclusiveOnly
  | sharedAllowed
  deriving DecidableEq, Repr

/-- What can hold or wait for a lock. -/
inductive Party where
  | agent (a : AgentId)
  | chan (c : ChanId)
  deriving DecidableEq, Repr

/-- A lock record of kind HOLDING (R10). Its lock is the entry whose holder list it stands on. -/
structure Holding where
  party : Party
  owner : AgentId
  mode : Mode
  token : Word
  /-- Absent on a lock whose maximum lease is 0. -/
  remaining : Option Ticks
  deriving DecidableEq, Repr

/-- A lock record of kind WAITING (R10). Its lock is the entry whose waiter list it stands on. -/
structure Waiting where
  party : Party
  owner : AgentId
  mode : Mode
  requested : Ticks
  /-- Absent when the wait has no limit. -/
  remaining : Option Ticks
  deriving DecidableEq, Repr

/-- One of the 64 lock entries (R1). -/
structure LockEntry where
  state : LockState
  cls : LockClass
  defaultLease : Ticks
  maxLease : Ticks
  queueLimit : Nat
  mask : BitVec 8
  generation : Word
  holders : List Holding
  waiters : List Waiting
  deriving DecidableEq, Repr

/-- Whether an expiry claim is of a lease or of a wait (R66). -/
inductive CountKind where
  | lease
  | wait
  deriving DecidableEq, Repr

/-- A claim of the expiry source (R21, R66). -/
structure ExpiryClaim where
  lock : LockId
  party : Party
  kind : CountKind
  deriving DecidableEq, Repr

/-- A claim of a channel at the lock engine (R62, R63, R64, R110, R111). -/
inductive ChanClaim where
  | acquisition (lock : LockId) (mode : Mode) (requested waitLimit : Ticks) (owner : AgentId)
  | removal (lock : LockId)
  | release (lock : LockId)
  | acquireGuard (lock : LockId)
  | fenceGuard (lock : LockId) (owner : AgentId) (token : Word)
  deriving DecidableEq, Repr

/-- The lock engine. The pool's free counts are computed from the lists (R9, log 9). -/
structure Engine where
  locks : Vector LockEntry 64
  /-- The arbiter position served last: A0 to A7, supervisor, C0, C1, expiry source, agent table (R20). -/
  lastServed : Fin 13
  /-- For each channel, the claim pending at its position. -/
  claims : PerChan (Option ChanClaim)
  /-- The expiry source's list (R21). -/
  expiry : List ExpiryClaim
  /-- The counts a tick boundary has brought to zero, whose claims are not yet appended (R66, log 7). -/
  ranOut : List ExpiryClaim
  deriving DecidableEq, Repr

/-! ### Notices (Chapter 5) -/

/-- Why a wait was cancelled (R82). -/
inductive CancelReason where
  | closed
  | broken
  deriving DecidableEq, Repr

/-- Why a holding was revoked (R82). -/
inductive RevokeReason where
  | leaseExpired
  | broken
  deriving DecidableEq, Repr

/-- The reason of a TRANSFER_FAULT (R82). -/
inductive TransferFault where
  | holdingLost | leaseLost | lockBroken | lockClosed | acquireTimeout | sourceError | destError | busTimeout | withdrawn
  deriving DecidableEq, Repr

/-- A notice record: kinds of R82 in agent queues, of R83 in the supervisor's queue. -/
inductive Notice where
  | granted (lock : LockId) (token : Word) (mode : Mode) (lease : Ticks)
  | waitExpired (lock : LockId)
  | waitCancelled (lock : LockId) (reason : CancelReason)
  | revoked (lock : LockId) (token : Word) (reason : RevokeReason)
  | transferDone (tag : BitVec 16) (chan : ChanId) (bytes : Nat) (value : Option Word)
  | transferFault (tag : BitVec 16) (chan : ChanId) (reason : TransferFault) (bytes : Nat)
  | lockClosed (lock : LockId)
  | agentEvicted (a : AgentId)
  | channelPaused (c : ChanId)
  | clearDone
  deriving DecidableEq, Repr

/-- A notice queue with its reserved count R; its queued count Q is the number of notices (R81). -/
structure Queue where
  notices : List Notice
  reserved : Nat
  deriving DecidableEq, Repr

/-- The notice unit: nine queues (R81). -/
structure Notices where
  agents : Vector Queue 8
  supervisor : Queue
  deriving DecidableEq, Repr

/-! ### Transfers (Chapter 6) -/

/-- The kind of a descriptor with the fields it carries (R99). -/
inductive TransferOp where
  | copy (source dest : Word) (length : Nat)
  | writeWord (dest value : Word)
  | readWord (source : Word) (value : Option Word)
  deriving DecidableEq, Repr

/-- The guard of a descriptor with the fields it carries (R99). -/
inductive Guard where
  | none
  | acquire (lock : LockId) (mode : Mode) (requested waitLimit : Ticks)
  | fence (lock : LockId) (token : Word)
  deriving DecidableEq, Repr

/-- A descriptor in use (R99). Its channel is the one whose list it stands on. -/
structure Descriptor where
  tag : BitVec 16
  owner : AgentId
  op : TransferOp
  guard : Guard
  moved : Nat
  started : Bool
  deriving DecidableEq, Repr

/-- The state of a channel (R105). -/
inductive ChanState where
  | idle | acquiring | moving | stopping | paused
  deriving DecidableEq, Repr

/-- Why a started head is being stopped (R105). -/
inductive StopReason where
  | withdrawn | evicted | cleared
  deriving DecidableEq, Repr

/-- How a channel's holding ended (R105). -/
inductive LossReason where
  | leaseLost | lockBroken
  deriving DecidableEq, Repr

/-- What a channel is waiting for (R105). -/
inductive InFlight where
  | nothing | acquisition | removal | guardCheck | release | burst
  deriving DecidableEq, Repr

/-- The outcome with which a descriptor ends (R114). -/
inductive EndOutcome where
  | done
  | fault (reason : TransferFault)
  deriving DecidableEq, Repr

/-- A channel record and the channel's list (R98, R105). -/
structure Channel where
  state : ChanState
  pausePending : Bool
  stop : Option StopReason
  /-- Present, with the token, when the channel holds the lock of its started head. -/
  holding : Option Word
  currentLock : Option LockId
  loss : Option LossReason
  inFlight : InFlight
  /-- The outcome of an end that waits for its release (R113, log 14). -/
  ending : Option EndOutcome
  list : List Descriptor
  deriving DecidableEq, Repr

/-- The lock engine's answer to an acquisition claim (R62, R107). -/
inductive AcquisitionAnswer where
  | closed
  | granted (token : Word) (lease : Ticks)
  | waits
  deriving DecidableEq, Repr

/-- How a channel's wait ended without a grant (R107). -/
inductive WaitEnd where
  | expired | closed | broken
  deriving DecidableEq, Repr

/-- The lock engine's answer to a removal claim (R63, R116). -/
inductive RemovalAnswer where
  | gone
  | holds (token : Word)
  | noRecord
  deriving DecidableEq, Repr

/-- A burst's outcome (R133). -/
inductive BurstResult where
  | completed (length : Nat) (word : Option Word)
  | sourceError | destError | busTimeout
  deriving DecidableEq, Repr

/-- An item of the transfer engine's list (R104). -/
inductive TransferItem where
  | acquisitionAnswer (c : ChanId) (answer : AcquisitionAnswer)
  | grantReport (c : ChanId) (token : Word) (lease : Ticks)
  | waitEnded (c : ChanId) (how : WaitEnd)
  | holdingEnded (c : ChanId) (reason : LossReason)
  | removalAnswer (c : ChanId) (answer : RemovalAnswer)
  | guardAnswer (c : ChanId) (passes : Bool)
  | releaseAnswer (c : ChanId) (held : Bool)
  | burstOutcome (c : ChanId) (result : BurstResult)
  | withdrawAll (a : AgentId)
  | clearStop
  | clearTransferStep
  deriving DecidableEq, Repr

/-- The transfer engine. The free list's length is computed from the channel lists (R98, log 9). -/
structure Transfer where
  chans : PerChan Channel
  inbox : List TransferItem
  /-- The agent whose POST waits for its lock check (R102, R104). -/
  serving : Option AgentId
  /-- The agents whose withdraw-all has been taken and who have a descriptor left (R34). -/
  withdrawing : List AgentId
  deriving DecidableEq, Repr

/-! ### The backplane master (Chapter 7) -/

/-- The phase of the master (R124). -/
inductive Phase where
  | idle | requesting | reading | writing
  deriving DecidableEq, Repr

/-- One burst, with the addresses its kind has (R124 to R126). -/
inductive Burst where
  | copy (source dest : Word) (length : Nat)
  | write (dest value : Word)
  | read (source : Word)
  deriving DecidableEq, Repr

/-- The burst being carried out and its channel (R124). -/
structure CurrentBurst where
  chan : ChanId
  burst : Burst
  deriving DecidableEq, Repr

/-- The backplane master (R124). -/
structure Master where
  phase : Phase
  current : Option CurrentBurst
  pending : PerChan (Option Burst)
  lastServed : ChanId
  /-- The words of the current burst read so far, or the word a WRITE_WORD writes. -/
  staging : List Word
  /-- The write cycles of the current burst already acknowledged. -/
  written : Nat
  /-- The grant-wait limit, in lease ticks. -/
  limit : BitVec 8
  /-- The grant-wait count; present in REQUESTING. -/
  count : Option (BitVec 8)
  deriving DecidableEq, Repr

/-! ### Agents and the agent table (Chapter 2) -/

/-- Where an agent stands in its life cycle (R23). -/
inductive AgentState where
  | disabled | detached | attached | evicting
  deriving DecidableEq, Repr

/-- An entry of the agent table, and the window port's copy of one (R23, R24). -/
structure AgentEntry where
  state : AgentState
  slot : Option Slot
  evicted : Bool
  deriving DecidableEq, Repr

/-- How far the agent table has carried an eviction: the purge is not yet reported done, or the withdraw-all is sent
(R31 to R35). -/
inductive EvictionStage where
  | purge | withdraw
  deriving DecidableEq, Repr

/-- An eviction in flight. -/
structure Eviction where
  agent : AgentId
  stage : EvictionStage
  deriving DecidableEq, Repr

/-- How far a CLEAR in flight has come (R143 to R147). -/
inductive ClearPhase where
  /-- Accepted; the transfer engine has not yet taken the stop. -/
  | stopSent
  /-- The stop has been given; the channels are coming to rest. -/
  | stopping
  /-- The channels' rest has been reported to the agent table. -/
  | atRest
  /-- The lock-table step waits for the supervisor page's pending claim to be taken. -/
  | stepDue
  /-- The lock-table step is pending at the supervisor page's position. -/
  | stepPending
  /-- The lock-table step has been reported. -/
  | stepDone
  /-- The transfer step has been asked for. -/
  | transferSent
  /-- The transfer step has been reported. -/
  | transferDone
  deriving DecidableEq, Repr

/-- An item of the agent table's list of reports (R24). -/
inductive Report where
  | purgeDone (a : AgentId)
  | noDescriptorLeft (a : AgentId)
  | channelsAtRest
  | lockTableStep
  | transferStep
  deriving DecidableEq, Repr

/-- The agent table (R21, R23, R24). -/
structure Table where
  agents : Vector AgentEntry 8
  /-- The purge claims not yet taken, in eviction order (R21). -/
  purges : List AgentId
  /-- The evictions in flight, in the order they began (R36). -/
  evictions : List Eviction
  reports : List Report
  /-- The page whose request the agent table is carrying out while it waits for another block (R24). -/
  serving : Option PageId
  /-- The clear-in-flight mark with the CLEAR's stage (R143). -/
  clear : Option ClearPhase
  deriving DecidableEq, Repr

/-! ### The window port (Chapter 9) -/

/-- The result codes (R165). `busy` is the refusal of ACQUIRE, `accepted` the manual's OK. -/
inductive ResultCode where
  | noResult | accepted | granted | queued
  | busy | badArgument | lockDisabled | lockClosing | modeNotAllowed | notPermitted | alreadyHeld | alreadyWaiting
  | queueFull | noRecord | noNoticeRoom | notHolder | staleToken | notWaiting | wrongMode | notAttached | notEnabled
  | evicting | inUse | wrongState | noDescriptor | duplicateTag | noSuchTag | badAddress | clearing
  deriving DecidableEq, Repr

/-- The standing of a lock that the lock check of a POST answers (R102). -/
structure LockStanding where
  state : LockState
  cls : LockClass
  mask : BitVec 8
  deriving DecidableEq, Repr

/-- The channel part of an INSPECT_CHANNEL, as the transfer engine read it (R141). -/
structure ChannelReading where
  chan : ChanId
  view : Bool
  record : Channel
  deriving DecidableEq, Repr

/-- How far a command in flight has come (R153, log 4). -/
inductive Stage where
  /-- Waits to be taken by its block. -/
  | written
  /-- Its claim is pending at the page's arbiter position. -/
  | claimed
  /-- Its claim is kept back while the lock-table step of a CLEAR holds the supervisor page's position (R145). -/
  | held
  /-- The lock engine has refused the claim a POST or DETACH raised (R19). -/
  | turnedAway (code : ResultCode)
  /-- A POST's lock check has been answered (R102). -/
  | checked (standing : LockStanding)
  /-- A DETACH's lock records have been counted (R30). -/
  | counted (records : Nat)
  /-- A DETACH's descriptors have been counted too. -/
  | countedBoth (records descriptors : Nat)
  /-- An INSPECT_AGENT has read the entry; its claim is pending (R142). -/
  | entryClaimed (e : AgentEntry)
  /-- An INSPECT_AGENT has read the entry; its claim is kept back (R145). -/
  | entryHeld (e : AgentEntry)
  /-- An INSPECT_AGENT's lock records have been counted. -/
  | entryCounted (e : AgentEntry) (records : Nat)
  /-- An INSPECT_AGENT's descriptors have been counted too. -/
  | entryCountedBoth (e : AgentEntry) (records descriptors : Nat)
  /-- An INSPECT_CHANNEL has read the channel; the master is read next (R141). -/
  | channelRead (r : ChannelReading)
  /-- A CLEAR has been accepted and waits for the transfer engine to take the stop (R143). -/
  | stopAwaited
  deriving DecidableEq, Repr

/-- A command in flight with its copied arguments (R153). -/
structure Command where
  cmd : Cmd
  args : Vector Word 6
  stage : Stage
  deriving DecidableEq, Repr

/-- A page of the window: its registers and its command latch (R152, R153). -/
structure Page where
  /-- ARG0 to ARG5; ARG5 is used on the supervisor page alone. -/
  args : Vector Word 6
  command : BitVec 8
  /-- The command latch; BUSY shows that it holds a command. -/
  inFlight : Option Command
  done : Bool
  collide : Bool
  code : ResultCode
  result0 : Word
  result1 : Word
  noticeEnable : Bool
  doneEnable : Bool
  deriving DecidableEq, Repr

/-- The window port: the nine pages and the copies of the agent table's entries (R24). -/
structure Port where
  agents : Vector Page 8
  supervisor : Page
  copies : Vector AgentEntry 8
  deriving DecidableEq, Repr

/-- The selected tick period (R65). -/
inductive Period where
  | us10 | us100 | ms1 | ms10
  deriving DecidableEq, Repr

/-- The coordinator: its straps and its seven blocks (00_scope.md section 3). -/
structure Part where
  straps : Straps
  port : Port
  table : Table
  engine : Engine
  period : Period
  notices : Notices
  transfer : Transfer
  master : Master
  /-- The model's own counter, the argument of the next free value (log 6). -/
  fresh : Nat
  deriving DecidableEq, Repr

/-- The machine: the commands that wait, first in first out, and the coordinator. -/
structure State where
  pending : List Instr
  part : Part
  deriving DecidableEq, Repr

/-- No command of the coordinator stops it: a refusal is a result code, a bad access a bus error, a failed transfer a
notice (R150, R154, R114). Nobody raises a fault. -/
inductive Fault where
  deriving DecidableEq, Repr

/-- Why a command is refused by the model. -/
inductive Refusal where
  /-- Raised by an arm of `exec` alone, for a command that has no meaning yet. No arm raises it. Safe: the machine stops. -/
  | notModelled (mnemonic : String)
  deriving DecidableEq, Repr

/-! ### The values after hardware reset -/

/-- R1. -/
def LockEntry.reset : LockEntry :=
  { state := .disabled, cls := .exclusiveOnly, defaultLease := 0, maxLease := 0, queueLimit := 0, mask := 0,
    generation := 0, holders := [], waiters := [] }

/-- R9, R20, R21. -/
def Engine.reset : Engine :=
  { locks := Vector.replicate 64 LockEntry.reset, lastServed := 12, claims := ⟨none, none⟩, expiry := [], ranOut := [] }

/-- R81. -/
def Queue.reset : Queue := { notices := [], reserved := 0 }

/-- R81. -/
def Notices.reset : Notices := { agents := Vector.replicate 8 Queue.reset, supervisor := Queue.reset }

/-- R98, R105. -/
def Channel.reset : Channel :=
  { state := .idle, pausePending := false, stop := none, holding := none, currentLock := none, loss := none,
    inFlight := .nothing, ending := none, list := [] }

/-- R98, R105; the lists by log 3. -/
def Transfer.reset : Transfer :=
  { chans := ⟨Channel.reset, Channel.reset⟩, inbox := [], serving := none, withdrawing := [] }

/-- R124. -/
def Master.reset : Master :=
  { phase := .idle, current := none, pending := ⟨none, none⟩, lastServed := .c1, staging := [], written := 0, limit := 4,
    count := none }

/-- R23. -/
def AgentEntry.reset : AgentEntry := { state := .disabled, slot := none, evicted := false }

/-- R21, R23, R36, R143; the reports by log 3. -/
def Table.reset : Table :=
  { agents := Vector.replicate 8 AgentEntry.reset, purges := [], evictions := [], reports := [], serving := none,
    clear := none }

/-- R96, R97, R152. -/
def Page.reset : Page :=
  { args := Vector.replicate 6 0, command := 0, inFlight := none, done := false, collide := false, code := .noResult,
    result0 := 0, result1 := 0, noticeEnable := false, doneEnable := false }

/-- R23, R152. -/
def Port.reset : Port :=
  { agents := Vector.replicate 8 Page.reset, supervisor := Page.reset, copies := Vector.replicate 8 AgentEntry.reset }

/-- Every block at its reset value, with the straps sampled at the release of RESET (R148, R149). -/
def Part.reset (straps : Straps) : Part :=
  { straps, port := Port.reset, table := Table.reset, engine := Engine.reset, period := .ms1, notices := Notices.reset,
    transfer := Transfer.reset, master := Master.reset, fresh := 0 }

/-- The strap levels of `State.reset`. The manual gives none: DESIGN CHOICE 0 (log 2). -/
def Straps.atReset : Straps := { base := 0, supervisorSlot := 0, masterSlot := 0 }

/-- The machine right after reset, with no command waiting. -/
def State.reset : State := { pending := [], part := Part.reset Straps.atReset }

/-- The machine with its coordinator changed by `f`; the queue stays. -/
def State.onPart (s : State) (f : Part → Part) : State := { s with part := f s.part }

end Sys2Proof.Machine
end

