-- ==== Sys2Proof/Machine/Operands.lean ====
section
/-! DEFINITION. The operands of the page commands: command codes (R158) and the fields of the argument registers
(R159 to R161). -/

namespace Sys2Proof.Machine

/-- The blocks that take commands (R158). -/
inductive Block where
  | agentTable | lockEngine | transferEngine | timebase | backplaneMaster
  deriving DecidableEq, Repr

/-- The command code of R158. -/
def cmdCode (c : Cmd) : BitVec 8 :=
  match c with
  | .attach => 0x01
  | .detach => 0x02
  | .acquire => 0x03
  | .cancelWait => 0x04
  | .release => 0x05
  | .renew => 0x06
  | .downgrade => 0x07
  | .query => 0x08
  | .post => 0x09
  | .withdraw => 0x0A
  | .enableAgent => 0x11
  | .disableAgent => 0x12
  | .evict => 0x13
  | .configureLock => 0x14
  | .closeLock => 0x15
  | .breakLock => 0x16
  | .pauseChannel => 0x17
  | .resumeChannel => 0x18
  | .setTimebase => 0x19
  | .setBusWait => 0x1A
  | .inspectLock => 0x1B
  | .inspectRecord => 0x1C
  | .inspectChannel => 0x1D
  | .inspectAgent => 0x1E
  | .clear => 0x1F

/-- The block that takes a command (R158). -/
def cmdBlock (c : Cmd) : Block :=
  match c with
  | .attach | .detach | .enableAgent | .disableAgent | .evict | .inspectAgent | .clear => .agentTable
  | .acquire | .cancelWait | .release | .renew | .downgrade | .query => .lockEngine
  | .configureLock | .closeLock | .breakLock | .inspectLock | .inspectRecord => .lockEngine
  | .post | .withdraw | .pauseChannel | .resumeChannel | .inspectChannel => .transferEngine
  | .setTimebase => .timebase
  | .setBusWait => .backplaneMaster

/-- The commands of an agent page, in the order of R158. -/
def agentCmds : List Cmd :=
  [.attach, .detach, .acquire, .cancelWait, .release, .renew, .downgrade, .query, .post, .withdraw]

/-- The commands of the supervisor page, in the order of R158. -/
def supervisorCmds : List Cmd :=
  [.enableAgent, .disableAgent, .evict, .configureLock, .closeLock, .breakLock, .pauseChannel, .resumeChannel,
   .setTimebase, .setBusWait, .inspectLock, .inspectRecord, .inspectChannel, .inspectAgent, .clear]

/-- The commands of a page (R158). -/
def pageCmds (page : PageId) : List Cmd :=
  match page with
  | .agent _ => agentCmds
  | .supervisor => supervisorCmds

/-- The command a code names on a page; none for 0, a code not in the table, and a code of the other kind of page
(R153). -/
def cmdOfCode (page : PageId) (code : BitVec 8) : Option Cmd :=
  (pageCmds page).find? fun c => cmdCode c == code

/-- Whether a command is one of the four INSPECT commands (R136, R138). -/
def isInspect (c : Cmd) : Bool :=
  match c with
  | .inspectLock | .inspectRecord | .inspectChannel | .inspectAgent => true
  | _ => false

/-- A number that names a lock, agent, or other thing of `n` (R2). -/
def asIndex (n v : Nat) : Option (Fin n) :=
  if h : v < n then some ⟨v, h⟩ else none

/-- A lock number in bits 7 to 0 (R159). -/
def lockField (w : Word) : Option LockId := asIndex 64 (w.extractLsb' 0 8).toNat

/-- A number given as a whole register (R159). -/
def wholeIndex (n : Nat) (w : Word) : Option (Fin n) := asIndex n w.toNat

/-- A mode field: 1 SHARED, 2 EXCLUSIVE; 0 and 3 name neither (R159, R160). -/
def modeField (f : BitVec 2) : Option Mode :=
  if f = 1 then some .shared else if f = 2 then some .exclusive else none

/-- A count of ticks given as a whole register, refused above 65535 (R39, R70, R159). -/
def wholeTicks (w : Word) : Option Ticks :=
  if w.toNat ≤ 65535 then some (w.setWidth 16) else none

/-- A channel number given as a whole register: 0 C0, 1 C1 (R161). -/
def wholeChan (w : Word) : Option ChanId :=
  if w = 0 then some .c0 else if w = 1 then some .c1 else none

/-- A view or list argument: 0 or 1 (R161). -/
def wholeBit (w : Word) : Option Bool :=
  if w = 0 then some false else if w = 1 then some true else none

/-- ACQUIRE's arguments (R159). -/
structure AcquireArgs where
  lock : LockId
  mode : Mode
  queue : Bool
  requested : Ticks
  waitLimit : Ticks
  deriving DecidableEq, Repr

/-- ACQUIRE's arguments, or none in the cases of R39. -/
def acquireArgs (args : Vector Word 6) : Option AcquireArgs := do
  let w := pick args 0
  let lock ← lockField w
  let mode ← modeField (w.extractLsb' 8 2)
  let requested ← wholeTicks (pick args 1)
  let waitLimit ← wholeTicks (pick args 2)
  return { lock, mode, queue := w.extractLsb' 12 1 == 1, requested, waitLimit }

/-- CONFIGURE_LOCK's arguments (R161). -/
structure ConfigureArgs where
  lock : LockId
  cls : LockClass
  defaultLease : Ticks
  maxLease : Ticks
  queueLimit : Nat
  mask : BitVec 8
  deriving DecidableEq, Repr

/-- A class argument: 1 EXCLUSIVE_ONLY, 2 SHARED_ALLOWED (R161). -/
def wholeClass (w : Word) : Option LockClass :=
  if w = 1 then some .exclusiveOnly else if w = 2 then some .sharedAllowed else none

/-- CONFIGURE_LOCK's arguments, or none in the cases of check 2 of R5. -/
def configureArgs (args : Vector Word 6) : Option ConfigureArgs := do
  let lock ← wholeIndex 64 (pick args 0)
  let cls ← wholeClass (pick args 1)
  let defaultLease := (pick args 2).extractLsb' 0 16
  let maxLease := (pick args 3).extractLsb' 0 16
  let limit ← wholeIndex 17 (pick args 4)
  if defaultLease = 0 ∧ maxLease ≠ 0 then none
  else return { lock, cls, defaultLease, maxLease, queueLimit := limit.val, mask := (pick args 5).extractLsb' 0 8 }

/-- The period of a code: 0 for 10 µs, 1 for 100 µs, 2 for 1 ms, 3 for 10 ms (R161). -/
def periodOfCode (w : Word) : Option Period :=
  if w = 0 then some .us10 else if w = 1 then some .us100 else if w = 2 then some .ms1
  else if w = 3 then some .ms10 else none

/-- A channel field: 0 C0, 1 C1; 2 and 3 name none (R160). -/
def chanField (f : BitVec 2) : Option ChanId :=
  if f = 0 then some .c0 else if f = 1 then some .c1 else none

/-- The kind of a POST with the fields the kind carries; none where R100 refuses it: a kind of 0, or the length of a
COPY below 4, above 65536 or not a multiple of 4. -/
def postOp (args : Vector Word 6) : Option TransferOp :=
  let kind : BitVec 2 := (pick args 3).extractLsb' 16 2
  if kind = 1 then
    let n := (pick args 2).toNat
    if 4 ≤ n ∧ n ≤ 65536 ∧ n % 4 = 0 then some (.copy (pick args 0) (pick args 1) n) else none
  else if kind = 2 then some (.writeWord (pick args 1) (pick args 2))
  else if kind = 3 then some (.readWord (pick args 0) none)
  else none

/-- The guard of a POST with the fields the guard carries; none where R100 refuses it: a guard of 3, a lock number above
63, or for ACQUIRE a mode that names neither mode. -/
def postGuard (args : Vector Word 6) : Option Guard :=
  let g : BitVec 2 := (pick args 3).extractLsb' 20 2
  let lock := asIndex 64 ((pick args 3).extractLsb' 24 8).toNat
  let w := pick args 4
  if g = 0 then some .none
  else if g = 1 then do
    let mode ← modeField ((pick args 3).extractLsb' 22 2)
    let l ← lock
    return .acquire l mode (w.extractLsb' 0 16) (w.extractLsb' 16 16)
  else if g = 2 then do
    let l ← lock
    return .fence l w
  else none

/-- The channel and the descriptor a POST describes, not started and with nothing moved (R99, R160), or none where R100
refuses it BAD_ARGUMENT. -/
def postArgs (owner : AgentId) (args : Vector Word 6) : Option (ChanId × Descriptor) := do
  let op ← postOp args
  let c ← chanField ((pick args 3).extractLsb' 18 2)
  let guard ← postGuard args
  return (c, { tag := (pick args 3).extractLsb' 0 16, owner, op, guard, moved := 0, started := false })

/-- The bytes a transfer moves: a word operation has the length 4 (R99). -/
def TransferOp.length (op : TransferOp) : Nat :=
  match op with
  | .copy _ _ n => n
  | .writeWord _ _ => 4
  | .readWord _ _ => 4

/-- The ranges a transfer uses: first address and length (R101). -/
def TransferOp.ranges (op : TransferOp) : List (Word × Nat) :=
  match op with
  | .copy s d n => [(s, n), (d, n)]
  | .writeWord d _ => [(d, 4)]
  | .readWord s _ => [(s, 4)]

/-- The first byte address of the window (R149). -/
def windowBase (straps : Straps) : Nat := straps.base.toNat * Config.windowBytes

/-- Whether a range passes the address checks of R101: aligned, not past the top of the address space, and without a
byte in the coordinator's own window. -/
def rangeAllowed (straps : Straps) (r : Word × Nat) : Bool :=
  let a := r.1.toNat
  a % 4 == 0 && a + r.2 ≤ 2 ^ 32 &&
    (a + r.2 ≤ windowBase straps || windowBase straps + Config.windowBytes ≤ a)

/-- The lock a guard names (R99). -/
def Guard.lock (g : Guard) : Option LockId :=
  match g with
  | .none => Option.none
  | .acquire l _ _ _ => some l
  | .fence l _ => some l

end Sys2Proof.Machine
end

