-- ==== Sys2Proof/Machine/Flags.lean ====
section
/-! DEFINITION. The codes and layouts software sees: result codes (R165), packed results (R162, R163), STATUS, CONTROL and
IDENT (R157), and the notice words (R164). -/

namespace Sys2Proof.Machine

/-- A field of a word whose lowest bit is bit `lo`. -/
def fieldAt {w : Nat} (lo : Nat) (x : BitVec w) : Word := x.setWidth 32 <<< lo

/-- One bit of a word. -/
def bitAt (lo : Nat) (b : Bool) : Word := fieldAt lo (BitVec.ofBool b)

/-- A whole number as a result word. -/
def wordOf (n : Nat) : Word := BitVec.ofNat 32 n

/-- The code of a result (R165). -/
def ResultCode.bits (r : ResultCode) : BitVec 6 :=
  match r with
  | .noResult => 0x00
  | .accepted => 0x01
  | .granted => 0x02
  | .queued => 0x03
  | .busy => 0x08
  | .badArgument => 0x09
  | .lockDisabled => 0x0A
  | .lockClosing => 0x0B
  | .modeNotAllowed => 0x0C
  | .notPermitted => 0x0D
  | .alreadyHeld => 0x0E
  | .alreadyWaiting => 0x0F
  | .queueFull => 0x10
  | .noRecord => 0x11
  | .noNoticeRoom => 0x12
  | .notHolder => 0x13
  | .staleToken => 0x14
  | .notWaiting => 0x15
  | .wrongMode => 0x16
  | .notAttached => 0x17
  | .notEnabled => 0x18
  | .evicting => 0x19
  | .inUse => 0x1A
  | .wrongState => 0x1B
  | .noDescriptor => 0x1C
  | .duplicateTag => 0x1D
  | .noSuchTag => 0x1E
  | .badAddress => 0x1F
  | .clearing => 0x20

/-- R162: 0 DISABLED, 1 OPEN, 2 CLOSING. -/
def LockState.bits (s : LockState) : BitVec 2 :=
  match s with
  | .disabled => 0
  | .opened => 1
  | .closing => 2

/-- R159, R162: 1 SHARED, 2 EXCLUSIVE. -/
def Mode.bits (m : Mode) : BitVec 2 :=
  match m with
  | .shared => 1
  | .exclusive => 2

/-- R162: 0 NONE, 1 SHARED, 2 EXCLUSIVE. -/
def holdingModeBits (m : Option Mode) : BitVec 2 :=
  match m with
  | none => 0
  | some m => m.bits

/-- R161, R162: 1 EXCLUSIVE_ONLY, 2 SHARED_ALLOWED. -/
def LockClass.bits (c : LockClass) : BitVec 2 :=
  match c with
  | .exclusiveOnly => 1
  | .sharedAllowed => 2

/-- R161: 0 for 10 µs, 1 for 100 µs, 2 for 1 ms, 3 for 10 ms. -/
def Period.bits (p : Period) : BitVec 2 :=
  match p with
  | .us10 => 0
  | .us100 => 1
  | .ms1 => 2
  | .ms10 => 3

/-- R157: 0 DISABLED, 1 DETACHED, 2 ATTACHED, 3 EVICTING. -/
def AgentState.bits (s : AgentState) : BitVec 2 :=
  match s with
  | .disabled => 0
  | .detached => 1
  | .attached => 2
  | .evicting => 3

/-- R163: 0 to 7 for A0 to A7, 8 C0, 9 C1. -/
def Party.bits (p : Party) : BitVec 4 :=
  match p with
  | .agent a => BitVec.ofNat 4 a.val
  | .chan .c0 => 8
  | .chan .c1 => 9

/-- R163: 0 IDLE, 1 ACQUIRING, 2 MOVING, 3 STOPPING, 4 PAUSED. -/
def ChanState.bits (s : ChanState) : BitVec 3 :=
  match s with
  | .idle => 0
  | .acquiring => 1
  | .moving => 2
  | .stopping => 3
  | .paused => 4

/-- R163: 0 none, 1 WITHDRAWN, 2 EVICTED, 3 CLEARED. -/
def stopBits (r : Option StopReason) : BitVec 2 :=
  match r with
  | none => 0
  | some .withdrawn => 1
  | some .evicted => 2
  | some .cleared => 3

/-- R163: 0 none, 1 LEASE_LOST, 2 LOCK_BROKEN. -/
def lossBits (r : Option LossReason) : BitVec 2 :=
  match r with
  | none => 0
  | some .leaseLost => 1
  | some .lockBroken => 2

/-- R163: 0 nothing, 1 acquisition, 2 removal of waiter, 3 guard check, 4 release, 5 burst. -/
def InFlight.bits (f : InFlight) : BitVec 3 :=
  match f with
  | .nothing => 0
  | .acquisition => 1
  | .removal => 2
  | .guardCheck => 3
  | .release => 4
  | .burst => 5

/-- The channel bit of a notice: 0 C0, 1 C1 (R164). -/
def chanBit (c : ChanId) : Bool :=
  match c with
  | .c0 => false
  | .c1 => true

/-- The reasons of R164, coded. -/
def TransferFault.bits (r : TransferFault) : BitVec 4 :=
  match r with
  | .holdingLost => 1
  | .leaseLost => 2
  | .lockBroken => 3
  | .lockClosed => 4
  | .acquireTimeout => 5
  | .sourceError => 6
  | .destError => 7
  | .busTimeout => 8
  | .withdrawn => 9

/-- R164: 1 CLOSED, 2 BROKEN. -/
def CancelReason.bits (r : CancelReason) : BitVec 2 :=
  match r with
  | .closed => 1
  | .broken => 2

/-- R164: 1 LEASE_EXPIRED, 2 BROKEN. -/
def RevokeReason.bits (r : RevokeReason) : BitVec 2 :=
  match r with
  | .leaseExpired => 1
  | .broken => 2

/-- The lock field of a notice, bits 13 to 8 (R164). -/
def noticeLock (l : LockId) : Word := fieldAt 8 (BitVec.ofNat 6 l.val)

/-- NOTICE0 of a notice (R164). -/
def Notice.word0 (n : Notice) : Word :=
  match n with
  | .granted l _ m _ => 1 ||| noticeLock l ||| fieldAt 16 m.bits
  | .waitExpired l => 2 ||| noticeLock l
  | .waitCancelled l r => 3 ||| noticeLock l ||| fieldAt 20 r.bits
  | .revoked l _ r => 4 ||| noticeLock l ||| fieldAt 20 r.bits
  | .transferDone tag c _ _ => 5 ||| bitAt 4 (chanBit c) ||| fieldAt 16 tag
  | .transferFault tag c r _ => 6 ||| bitAt 4 (chanBit c) ||| fieldAt 8 r.bits ||| fieldAt 16 tag
  | .lockClosed l => 8 ||| noticeLock l
  | .agentEvicted a => 9 ||| fieldAt 8 (BitVec.ofNat 3 a.val)
  | .channelPaused c => 10 ||| bitAt 4 (chanBit c)
  | .clearDone => 11

/-- NOTICE1 of a notice (R164). -/
def Notice.word1 (n : Notice) : Word :=
  match n with
  | .granted _ token _ _ => token
  | .revoked _ token _ => token
  | .transferDone _ _ bytes _ => wordOf bytes
  | .transferFault _ _ _ bytes => wordOf bytes
  | .waitExpired _ | .waitCancelled _ _ | .lockClosed _ | .agentEvicted _ | .channelPaused _ | .clearDone => 0

/-- NOTICE2 of a notice (R164). -/
def Notice.word2 (n : Notice) : Word :=
  match n with
  | .granted _ _ _ lease => fieldAt 0 lease
  | .transferDone _ _ _ value => value.getD 0
  | .waitExpired _ | .waitCancelled _ _ | .revoked _ _ _ | .transferFault _ _ _ _ => 0
  | .lockClosed _ | .agentEvicted _ | .channelPaused _ | .clearDone => 0

/-- A word of the notice at the head of a queue; 0 when the queue is empty (R91). -/
def Queue.headWord (q : Queue) (f : Notice → Word) : Word :=
  match q.notices with
  | [] => 0
  | n :: _ => f n

/-- STATUS of a page (R157): the latch, the port's copy (none for the supervisor page), the clear-in-flight mark and the
page's queue. -/
def statusWord (pg : Page) (copy : Option AgentEntry) (clear : Bool) (q : Queue) : Word :=
  bitAt 0 pg.inFlight.isSome ||| bitAt 1 pg.done ||| bitAt 2 pg.collide
    ||| (match copy with
         | some e => fieldAt 3 e.state.bits ||| bitAt 5 e.evicted
         | none => 0)
    ||| bitAt 6 clear
    ||| fieldAt 8 (BitVec.ofNat 5 q.reserved) ||| fieldAt 16 (BitVec.ofNat 5 q.notices.length)
    ||| fieldAt 24 pg.code.bits

/-- CONTROL as read: ACK reads 0 (R157). -/
def controlWord (pg : Page) : Word := bitAt 0 pg.noticeEnable ||| bitAt 1 pg.doneEnable

/-- IDENT.PAGE: 0 to 7 for A0 to A7, 15 for the supervisor page (R157). -/
def identPage (page : PageId) : BitVec 4 :=
  match page with
  | .agent a => BitVec.ofNat 4 a.val
  | .supervisor => 15

/-- IDENT (R157). -/
def identWord (straps : Straps) (page : PageId) : Word :=
  fieldAt 0 Config.partNumber ||| fieldAt 16 (identPage page) ||| fieldAt 20 straps.supervisorSlot
    ||| fieldAt 24 straps.masterSlot ||| fieldAt 28 Config.issue

/-- The level of a page's interrupt line (R95). -/
def lineLevel (pg : Page) (q : Queue) : Bool :=
  (pg.noticeEnable && !q.notices.isEmpty) || (pg.doneEnable && pg.done)

/-! ### What results pack of a lock -/

/-- The holding mode of a lock as a whole: none for NONE (R3). -/
def LockEntry.holdingMode (e : LockEntry) : Option Mode :=
  if e.holders.isEmpty then none
  else if e.holders.any fun h => h.mode == .exclusive then some .exclusive else some .shared

/-- Whether a party is an agent. -/
def Party.isAgent (p : Party) : Bool :=
  match p with
  | .agent _ => true
  | .chan _ => false

/-- The number of agent waiter records of a lock (R12, R44). -/
def LockEntry.agentWaiters (e : LockEntry) : Nat := e.waiters.countP fun w => w.party.isAgent

/-- The number of channel waiter records of a lock (R61). -/
def LockEntry.channelWaiters (e : LockEntry) : Nat := e.waiters.countP fun w => !w.party.isAgent

/-- RESULT0 of QUERY, and of INSPECT_LOCK view 0 before its period code (R162). -/
def LockEntry.standingWord (e : LockEntry) : Word :=
  fieldAt 0 e.state.bits ||| fieldAt 2 (holdingModeBits e.holdingMode)
    ||| fieldAt 8 (BitVec.ofNat 4 e.holders.length) ||| fieldAt 16 (BitVec.ofNat 5 e.agentWaiters)
    ||| fieldAt 24 (BitVec.ofNat 2 e.channelWaiters)

/-- The tick period code of INSPECT_LOCK, bits 29 and 28 (R162). -/
def periodField (p : Period) : Word := fieldAt 28 p.bits

/-- RESULT0 of INSPECT_LOCK view 1 before its period code (R162). -/
def LockEntry.configWord (e : LockEntry) : Word :=
  fieldAt 0 e.state.bits ||| fieldAt 4 e.cls.bits ||| fieldAt 8 (BitVec.ofNat 5 e.queueLimit) ||| fieldAt 16 e.mask

/-- RESULT1 of INSPECT_LOCK view 1 (R162). -/
def LockEntry.leaseWord (e : LockEntry) : Word := fieldAt 0 e.defaultLease ||| fieldAt 16 e.maxLease

/-- RESULT0 of INSPECT_RECORD for a record found (R163). -/
def recordWord (kind : BitVec 2) (party : Party) (owner : AgentId) (mode : Mode) (count : Option Ticks) : Word :=
  fieldAt 0 kind ||| fieldAt 4 party.bits ||| fieldAt 8 (BitVec.ofNat 3 owner.val) ||| fieldAt 12 mode.bits
    ||| bitAt 15 count.isSome ||| fieldAt 16 (count.getD 0)

/-- RESULT0 of INSPECT_RECORD for a HOLDING record: kind 2 (R163). -/
def Holding.word (h : Holding) : Word := recordWord 2 h.party h.owner h.mode h.remaining

/-- RESULT0 of INSPECT_RECORD for a WAITING record: kind 1 (R163). -/
def Waiting.word (w : Waiting) : Word := recordWord 1 w.party w.owner w.mode w.remaining

/-! ### What results pack of a channel and of an agent -/

/-- The head descriptor's bytes moved, 0 when the list is empty (R141). -/
def Channel.headMoved (ch : Channel) : Nat :=
  match ch.list with
  | [] => 0
  | d :: _ => d.moved

/-- RESULT0 of INSPECT_CHANNEL view 0, with the master's phase for the channel (R163). -/
def Channel.stateWord (ch : Channel) (phase : BitVec 3) : Word :=
  fieldAt 0 ch.state.bits ||| bitAt 3 ch.pausePending ||| fieldAt 4 (stopBits ch.stop) ||| fieldAt 6 (lossBits ch.loss)
    ||| bitAt 8 ch.holding.isSome ||| fieldAt 9 ch.inFlight.bits ||| fieldAt 12 phase
    ||| bitAt 15 ch.currentLock.isSome
    ||| (match ch.currentLock with
         | some l => fieldAt 16 (BitVec.ofNat 6 l.val)
         | none => 0)
    ||| fieldAt 24 (BitVec.ofNat 6 ch.list.length)

/-- RESULT1 of INSPECT_CHANNEL view 0, with the grant-wait limit (R163). -/
def Channel.headWord (ch : Channel) (limit : BitVec 8) : Word :=
  (match ch.list with
   | [] => 0
   | d :: _ => fieldAt 0 d.tag ||| fieldAt 16 (BitVec.ofNat 3 d.owner.val) ||| bitAt 19 d.started)
    ||| fieldAt 24 limit

/-- RESULT0 of INSPECT_AGENT (R163). -/
def agentWord (e : AgentEntry) (q : Queue) : Word :=
  fieldAt 0 e.state.bits ||| bitAt 2 e.evicted ||| bitAt 3 e.slot.isSome ||| fieldAt 4 (e.slot.getD 0)
    ||| fieldAt 8 (BitVec.ofNat 5 q.reserved) ||| fieldAt 16 (BitVec.ofNat 5 q.notices.length)

/-- RESULT1 of INSPECT_AGENT (R163). -/
def agentCountsWord (records descriptors : Nat) : Word :=
  fieldAt 0 (BitVec.ofNat 16 records) ||| fieldAt 16 (BitVec.ofNat 16 descriptors)

end Sys2Proof.Machine
end

