-- ==== Sys2Proof/Machine/Ops.lean ====
section
/-! DEFINITION. The named operations that every block uses: reaching a page, a lock, an agent, a queue, a channel; the
notice unit's accounting (R84 to R90); handing an item to a block's list (R24, R104); a page's command latch (R153, R154);
the lock engine's arbiter (R20). -/

namespace Sys2Proof.Machine

/-! ### Reaching one thing -/

/-- The thing of a channel. -/
def PerChan.get {α : Type} (x : PerChan α) (c : ChanId) : α :=
  match c with
  | .c0 => x.c0
  | .c1 => x.c1

/-- The two things with that of channel `c` replaced. -/
def PerChan.set {α : Type} (x : PerChan α) (c : ChanId) (v : α) : PerChan α :=
  match c with
  | .c0 => { x with c0 := v }
  | .c1 => { x with c1 := v }

/-- A page's registers and latch. -/
def Part.page (p : Part) (page : PageId) : Page :=
  match page with
  | .agent a => pick p.port.agents a
  | .supervisor => p.port.supervisor

/-- The coordinator with one page replaced. -/
def Part.setPage (p : Part) (page : PageId) (pg : Page) : Part :=
  match page with
  | .agent a => { p with port := { p.port with agents := put p.port.agents a pg } }
  | .supervisor => { p with port := { p.port with supervisor := pg } }

/-- The lock entry a number selects (R2). -/
def Part.lock (p : Part) (l : LockId) : LockEntry := pick p.engine.locks l

/-- The coordinator with all lock entries replaced. -/
def Part.setLocks (p : Part) (ls : Vector LockEntry 64) : Part := { p with engine := { p.engine with locks := ls } }

/-- The coordinator with one lock entry replaced. -/
def Part.setLock (p : Part) (l : LockId) (e : LockEntry) : Part := p.setLocks (put p.engine.locks l e)

/-- An agent's entry in the agent table (R23). -/
def Part.agent (p : Part) (a : AgentId) : AgentEntry := pick p.table.agents a

/-- The coordinator with an agent's entry replaced, in the agent table and in the window port's copy (R24). -/
def Part.setAgent (p : Part) (a : AgentId) (e : AgentEntry) : Part :=
  { p with table := { p.table with agents := put p.table.agents a e },
           port := { p.port with copies := put p.port.copies a e } }

/-- The coordinator with every agent's entry replaced, in the agent table and in the window port's copies (R147). -/
def Part.setAgents (p : Part) (es : Vector AgentEntry 8) : Part :=
  { p with table := { p.table with agents := es }, port := { p.port with copies := es } }

/-- The coordinator with every agent's queue replaced. -/
def Part.setQueues (p : Part) (qs : Vector Queue 8) : Part := { p with notices := { p.notices with agents := qs } }

/-- A page's notice queue (R81). -/
def Part.queue (p : Part) (page : PageId) : Queue :=
  match page with
  | .agent a => pick p.notices.agents a
  | .supervisor => p.notices.supervisor

/-- The coordinator with one notice queue replaced. -/
def Part.setQueue (p : Part) (page : PageId) (q : Queue) : Part :=
  match page with
  | .agent a => p.setQueues (put p.notices.agents a q)
  | .supervisor => { p with notices := { p.notices with supervisor := q } }

/-- A channel's record and list. -/
def Part.chan (p : Part) (c : ChanId) : Channel := p.transfer.chans.get c

/-- The coordinator with one channel replaced. -/
def Part.setChan (p : Part) (c : ChanId) (ch : Channel) : Part :=
  { p with transfer := { p.transfer with chans := p.transfer.chans.set c ch } }

/-- Whether a CLEAR is in flight (R143). -/
def Part.clearing (p : Part) : Bool := p.table.clear.isSome

/-- The coordinator with the CLEAR's mark and stage replaced. -/
def Part.setClear (p : Part) (c : Option ClearPhase) : Part := { p with table := { p.table with clear := c } }

/-- The coordinator with the pending purge claims replaced (R21). -/
def Part.setPurges (p : Part) (as : List AgentId) : Part := { p with table := { p.table with purges := as } }

/-- The coordinator with the evictions in flight replaced (R36). -/
def Part.setEvictions (p : Part) (vs : List Eviction) : Part := { p with table := { p.table with evictions := vs } }

/-- The coordinator with the agent table's list of reports replaced (R24). -/
def Part.setReports (p : Part) (rs : List Report) : Part := { p with table := { p.table with reports := rs } }

/-- The coordinator with the transfer engine's list replaced (R104). -/
def Part.setInbox (p : Part) (is : List TransferItem) : Part := { p with transfer := { p.transfer with inbox := is } }

/-- The coordinator with the evicted agents that have descriptors left replaced (R34). -/
def Part.setWithdrawing (p : Part) (as : List AgentId) : Part :=
  { p with transfer := { p.transfer with withdrawing := as } }

/-- The coordinator with the expiry source's list replaced (R21). -/
def Part.setExpiry (p : Part) (xs : List ExpiryClaim) : Part := { p with engine := { p.engine with expiry := xs } }

/-- The coordinator with the counts that have run out replaced (R66, log 7). -/
def Part.setRanOut (p : Part) (xs : List ExpiryClaim) : Part := { p with engine := { p.engine with ranOut := xs } }

/-- The coordinator with the tick period replaced (R67). -/
def Part.setPeriod (p : Part) (t : Period) : Part := { p with period := t }

/-- The coordinator with the backplane master replaced. -/
def Part.setMaster (p : Part) (m : Master) : Part := { p with master := m }

/-- The next free value takes a fresh argument (log 6). -/
def Part.freshen (p : Part) : Part := { p with fresh := p.fresh + 1 }

/-- The locks in ascending number (R22). -/
def allLocks : List LockId := List.finRange 64

/-- The agents in ascending number. -/
def allAgents : List AgentId := List.finRange 8

/-! ### Counts of the pools (R9, R98, log 9) -/

/-- The lock records of a lock whose party satisfies `f`, holdings and waits together. -/
def LockEntry.records (e : LockEntry) (f : Party → Bool) : Nat :=
  e.holders.countP (fun h => f h.party) + e.waiters.countP (fun w => f w.party)

/-- The lock records in use whose party satisfies `f`. -/
def Part.recordsInUse (p : Part) (f : Party → Bool) : Nat :=
  (allLocks.map fun l => (p.lock l).records f).sum

/-- The free agent records (R9). -/
def Part.agentFree (p : Part) : Nat := Config.agentRecords - p.recordsInUse Party.isAgent

/-- Whether a channel's set-aside record is free (R9). -/
def Part.setAsideFree (p : Part) (c : ChanId) : Bool := p.recordsInUse (fun q => q == .chan c) == 0

/-- The lock records whose party is an agent (R30, R142). -/
def Part.agentRecordCount (p : Part) (a : AgentId) : Nat := p.recordsInUse fun q => q == .agent a

/-- The free records of the descriptor store (R98). -/
def Part.descriptorsFree (p : Part) : Nat :=
  Config.descriptorRecords - ((p.chan .c0).list.length + (p.chan .c1).list.length)

/-- The descriptors in the store whose owner is an agent (R30, R142). -/
def Part.descriptorCount (p : Part) (a : AgentId) : Nat :=
  (p.chan .c0).list.countP (fun d => d.owner == a) + (p.chan .c1).list.countP (fun d => d.owner == a)

/-! ### The notice unit -/

/-- The room check of R84: whether R + Q + k is at most 16. -/
def Queue.hasRoom (q : Queue) (k : Nat) : Bool := q.reserved + q.notices.length + k ≤ Config.queuePlaces

/-- `k` places set aside (R84). -/
def Queue.reserve (k : Nat) (q : Queue) : Queue := { q with reserved := q.reserved + k }

/-- `k` places returned, or dropped with a notice that is discarded (R87, R88). -/
def Queue.giveBack (k : Nat) (q : Queue) : Queue := { q with reserved := q.reserved - k }

/-- A notice appended, accounting for `k` places (R86). -/
def Queue.deliver (n : Notice) (k : Nat) (q : Queue) : Queue :=
  { notices := q.notices ++ [n], reserved := q.reserved - k }

/-- The head notice removed; nothing on an empty queue (R93). -/
def Queue.pop (q : Queue) : Queue := { q with notices := q.notices.tail }

/-- The queue emptied, with R and Q 0 (R90). -/
def Queue.emptied : Queue := { notices := [], reserved := 0 }

/-- The coordinator with one queue changed. -/
def Part.onQueue (p : Part) (page : PageId) (f : Queue → Queue) : Part := p.setQueue page (f (p.queue page))

/-- The room check for a page's queue (R84). -/
def Part.hasRoom (p : Part) (page : PageId) (k : Nat) : Bool := (p.queue page).hasRoom k

/-- `k` places set aside in a page's queue (R84, R85). -/
def Part.reserve (p : Part) (page : PageId) (k : Nat) : Part := p.onQueue page (Queue.reserve k)

/-- `k` places of a page's queue returned (R87). -/
def Part.giveBack (p : Part) (page : PageId) (k : Nat) : Part := p.onQueue page (Queue.giveBack k)

/-- Whether the notice unit discards a notice addressed to an agent: its eviction has begun, or a CLEAR is in flight
(R88, R89). -/
def Part.discards (p : Part) (a : AgentId) : Bool := (p.agent a).state == .evicting || p.clearing

/-- A notice for an agent handed to the notice unit, accounting for `k` places: appended, or discarded with its places
dropped (R86, R88, R89). -/
def Part.notify (p : Part) (a : AgentId) (n : Notice) (k : Nat) : Part :=
  if p.discards a then p.giveBack (.agent a) k else p.onQueue (.agent a) (Queue.deliver n k)

/-- A notice for the supervisor; it is never discarded and accounts for one place (R83, R86). -/
def Part.notifySupervisor (p : Part) (n : Notice) : Part := p.onQueue .supervisor (Queue.deliver n 1)

/-! ### The lists of the transfer engine and the agent table -/

/-- An item placed in the transfer engine's list (R104). -/
def Part.toTransfer (p : Part) (i : TransferItem) : Part := p.setInbox (p.transfer.inbox ++ [i])

/-- A report placed in the agent table's list (R24). -/
def Part.toTable (p : Part) (r : Report) : Part := p.setReports (p.table.reports ++ [r])

/-! ### The command latch of a page -/

/-- What a block answers to a command: the result code and the two result words (R154). -/
structure Answer where
  code : ResultCode
  result0 : Word
  result1 : Word
  deriving DecidableEq, Repr

/-- A refusal with 0 in both result words (R37, 9.6). -/
def refuse (code : ResultCode) : Answer := { code, result0 := 0, result1 := 0 }

/-- OK with two result words. -/
def accept (r0 r1 : Word) : Answer := { code := .accepted, result0 := r0, result1 := r1 }

/-- The result presented in a page: code and result words written, BUSY cleared, DONE set (R154). -/
def Page.present (pg : Page) (ans : Answer) : Page :=
  { pg with inFlight := none, done := true, code := ans.code, result0 := ans.result0, result1 := ans.result1 }

/-- The result of a page's command presented (R154). -/
def Part.present (p : Part) (page : PageId) (ans : Answer) : Part := p.setPage page ((p.page page).present ans)

/-- The command in flight of a page moved to another stage. -/
def Part.setStage (p : Part) (page : PageId) (stage : Stage) : Part :=
  p.setPage page
    { p.page page with inFlight := (p.page page).inFlight.map fun c => { c with stage } }

/-- The arguments of a page's command `c` that waits to be taken by its block. -/
def Part.writtenArgs (p : Part) (page : PageId) (c : Cmd) : Option (Vector Word 6) :=
  match (p.page page).inFlight with
  | some x => if x.cmd = c ∧ x.stage = .written then some x.args else none
  | none => none

/-- The checks that come before a block's own: R28, in the order EVICTING, CLEARING. They read the state at the taking (R24,
R29), also for a command that was written before an eviction's first stage and is taken after the eviction's end (log 24). -/
def Part.agentBar (p : Part) (a : AgentId) : Option ResultCode :=
  if (p.agent a).state = .evicting then some .evicting
  else if p.clearing then some .clearing
  else none

/-- R28, and then NOT_ATTACHED for an agent that is not ATTACHED (R37, R100, R117). -/
def Part.attachedBar (p : Part) (a : AgentId) : Option ResultCode :=
  match p.agentBar a with
  | some code => some code
  | none => if (p.agent a).state = .attached then none else some .notAttached

/-! ### The lock engine's arbiter (R20, R21) -/

/-- The position of an agent page. -/
def agentPos (a : AgentId) : Fin 13 := ⟨a.val, by omega⟩

/-- The position of the supervisor page. -/
def supervisorPos : Fin 13 := 8

/-- The position of a channel. -/
def chanPos (c : ChanId) : Fin 13 :=
  match c with
  | .c0 => 9
  | .c1 => 10

/-- The position of the expiry source. -/
def expiryPos : Fin 13 := 11

/-- The position of the agent table. -/
def tablePos : Fin 13 := 12

/-- Whether a command's stage stands for a claim at its page's position. -/
def Stage.isClaim (s : Stage) : Bool :=
  match s with
  | .claimed => true
  | .entryClaimed _ => true
  | _ => false

/-- Whether a page has a claim of its command pending. -/
def Part.pageClaims (p : Part) (page : PageId) : Bool :=
  match (p.page page).inFlight with
  | some x => x.stage.isClaim
  | none => false

/-- Whether an arbiter position has a claim pending (R20). -/
def Part.pendingAt (p : Part) (pos : Fin 13) : Bool :=
  if h : pos.val < 8 then p.pageClaims (.agent ⟨pos.val, h⟩)
  else if pos = supervisorPos then p.pageClaims .supervisor || p.table.clear == some .stepPending
  else if pos = chanPos .c0 then p.engine.claims.c0.isSome
  else if pos = chanPos .c1 then p.engine.claims.c1.isSome
  else if pos = expiryPos then !p.engine.expiry.isEmpty
  else !p.table.purges.isEmpty

/-- The circular search of R20, from the position after the one served last. -/
def Part.nextPosition (p : Part) : Option (Fin 13) :=
  ((List.finRange 13).map fun k => p.engine.lastServed + 1 + k).find? p.pendingAt

/-- Whether the engine may take the claim of a position now: no tick boundary is part-way applied (R66), and the arbiter
comes to the position (R20). -/
def Part.mayServe (p : Part) (pos : Fin 13) : Bool := p.engine.ranOut.isEmpty && p.nextPosition == some pos

/-- The position becomes the one served last (R20). -/
def Part.served (p : Part) (pos : Fin 13) : Part := { p with engine := { p.engine with lastServed := pos } }

/-- The coordinator with the claim pending at a channel's position replaced. -/
def Part.setClaim (p : Part) (c : ChanId) (cl : Option ChanClaim) : Part :=
  { p with engine := { p.engine with claims := p.engine.claims.set c cl } }

/-- The lock-table step of a CLEAR that waited for the supervisor page's claim is raised (R145). -/
def Part.raiseDueStep (p : Part) : Part :=
  if p.table.clear = some .stepDue then p.setClear (some .stepPending) else p

/-- The lock engine takes the claim of a lock command of an agent page: the checks of R28 and R37, then the command's own
checks and effect, then its result presented. Nothing, when the arbiter does not come to such a claim. -/
def Part.serveAgent (p : Part) (a : AgentId) (c : Cmd) (body : Vector Word 6 → Part → Part × Answer) : Part :=
  match (p.page (.agent a)).inFlight with
  | some x =>
    if x.cmd = c ∧ x.stage = .claimed ∧ p.mayServe (agentPos a) then
      let p1 := p.served (agentPos a)
      match p1.attachedBar a with
      | some code => p1.present (.agent a) (refuse code)
      | none =>
        let r := body x.args p1
        r.1.present (.agent a) r.2
    else p
  | none => p

/-- The lock engine takes the claim of a command of the supervisor page: refused CLEARING while a CLEAR is in flight unless
it is an INSPECT (R136), then its own checks and effect, then its result presented. -/
def Part.serveSupervisor (p : Part) (c : Cmd) (body : Vector Word 6 → Part → Part × Answer) : Part :=
  match p.port.supervisor.inFlight with
  | some x =>
    if x.cmd = c ∧ x.stage = .claimed ∧ p.mayServe supervisorPos then
      let p1 := (p.served supervisorPos).raiseDueStep
      if p.clearing && !isInspect c then p1.present .supervisor (refuse .clearing)
      else
        let r := body x.args p1
        r.1.present .supervisor r.2
    else p
  | none => p

/-- The lock engine takes a channel's claim, where `body` knows it; the claim leaves the position. -/
def Part.serveChannel (p : Part) (c : ChanId) (body : ChanClaim → Option (Part → Part)) : Part :=
  match p.engine.claims.get c with
  | some cl =>
    match body cl with
    | some f => if p.mayServe (chanPos c) then f ((p.served (chanPos c)).setClaim c none) else p
    | none => p
  | none => p

/-- A block other than the lock engine takes a command of the supervisor page that it carries out whole: refused CLEARING
while a CLEAR is in flight (R136), then its own checks and effect, then its result presented. -/
def Part.takeSupervisor (p : Part) (c : Cmd) (free : Bool) (body : Vector Word 6 → Part → Part × Answer) : Part :=
  match p.writtenArgs .supervisor c with
  | some args =>
    if free then
      if p.clearing then p.present .supervisor (refuse .clearing)
      else
        let r := body args p
        r.1.present .supervisor r.2
    else p
  | none => p

/-- Whether the agent table can take a request: it waits for no reply (R24). -/
def Part.tableFree (p : Part) : Bool := p.table.serving.isNone

/-- Whether the transfer engine can take an event: it waits for no reply (R104). -/
def Part.transferFree (p : Part) : Bool := p.transfer.serving.isNone

/-- The request the agent table is carrying out, or none. -/
def Part.setTableServing (p : Part) (page : Option PageId) : Part := { p with table := { p.table with serving := page } }

/-- The POST the transfer engine is carrying out, or none. -/
def Part.setTransferServing (p : Part) (a : Option AgentId) : Part :=
  { p with transfer := { p.transfer with serving := a } }

/-- The agent table takes the oldest report of its list, where `body` knows it (R24). -/
def Part.takeReport (p : Part) (body : Report → Option (Part → Part)) : Part :=
  match p.table.reports with
  | r :: rest =>
    match body r with
    | some f => if p.tableFree then f (p.setReports rest) else p
    | none => p
  | [] => p

end Sys2Proof.Machine
end

