-- ==== Sys2Proof/Machine/LockOps.lean ====
section
/-! DEFINITION. The lock engine's operations on one lock: tokens (R15), leases (R68), grants (R17), the grant pass (R16),
draining (R7), and the reports of what became of a record. -/

namespace Sys2Proof.Machine

/-! ### On one lock entry -/

/-- The HOLDING record of a party on a lock (R11). -/
def LockEntry.holderOf (e : LockEntry) (q : Party) : Option Holding := e.holders.find? fun h => h.party == q

/-- The WAITING record of a party on a lock (R11). -/
def LockEntry.waiterOf (e : LockEntry) (q : Party) : Option Waiting := e.waiters.find? fun w => w.party == q

/-- The place of a party's wait in the waiter list, counted from 1 at the head (R47). -/
def LockEntry.position (e : LockEntry) (q : Party) : Nat := e.waiters.findIdx (fun w => w.party == q) + 1

/-- The lock without a party's holding; the order of the others is kept (R14). -/
def LockEntry.withoutHolder (e : LockEntry) (q : Party) : LockEntry :=
  { e with holders := e.holders.eraseP fun h => h.party == q }

/-- The lock without a party's wait; the order of the others is kept (R14). -/
def LockEntry.withoutWaiter (e : LockEntry) (q : Party) : LockEntry :=
  { e with waiters := e.waiters.eraseP fun w => w.party == q }

/-- One step of a generation: 2³² − 1 goes to 1 (R15). -/
def nextGeneration (g : Word) : Word := if g = BitVec.allOnes 32 then 1 else g + 1

/-- The advance of R15: the step repeated while the value reached is a token still held, at most `fuel` times more. -/
def advance (fuel : Nat) (g : Word) (held : List Word) : Word :=
  match fuel with
  | 0 => nextGeneration g
  | n + 1 => if nextGeneration g ∈ held then advance n (nextGeneration g) held else nextGeneration g

/-- The token of the next grant: with n holdings the advance passes at most n values (R15). -/
def LockEntry.nextToken (e : LockEntry) : Word :=
  advance e.holders.length e.generation (e.holders.map Holding.token)

/-- The effective lease of a grant or of RENEW (R68). -/
def LockEntry.effectiveLease (e : LockEntry) (requested : Ticks) : Ticks :=
  if e.maxLease = 0 then 0
  else
    let r := if requested = 0 then e.defaultLease else requested
    if e.maxLease < r then e.maxLease else r

/-- The remaining lease a holding is given: absent on a lock with no lease (R68). -/
def LockEntry.leaseGiven (e : LockEntry) (requested : Ticks) : Option Ticks :=
  if e.maxLease = 0 then none else some (e.effectiveLease requested)

/-- Whether a record of a mode fits beside the current holdings (R13, R16). -/
def LockEntry.fits (e : LockEntry) (m : Mode) : Bool :=
  match m with
  | .exclusive => e.holders.isEmpty
  | .shared => e.holdingMode != some .exclusive

/-- Whether a request is grantable now (R41). -/
def LockEntry.grantableNow (e : LockEntry) (m : Mode) : Bool := e.fits m && e.waiters.isEmpty

/-- The holding a grant makes (R15, R17, R42). -/
def LockEntry.newHolding (e : LockEntry) (party : Party) (owner : AgentId) (mode : Mode) (requested : Ticks) : Holding :=
  { party, owner, mode, token := e.nextToken, remaining := e.leaseGiven requested }

/-- A holding appended at the tail of the holder list, its token the lock's new generation (R13, R15). -/
def LockEntry.withHolding (e : LockEntry) (h : Holding) : LockEntry :=
  { e with generation := h.token, holders := e.holders ++ [h] }

/-- The steps of a grant pass over the waiters that remain, `ws`; it answers the lock and the holdings made, in order
(R16, R17). -/
def LockEntry.passOver (e : LockEntry) (ws : List Waiting) : LockEntry × List Holding :=
  match ws with
  | [] => ({ e with waiters := [] }, [])
  | w :: rest =>
    if e.fits w.mode then
      let h := e.newHolding w.party w.owner w.mode w.requested
      let r := (e.withHolding h).passOver rest
      (r.1, h :: r.2)
    else ({ e with waiters := w :: rest }, [])

/-- The grant pass on a lock entry (R16). -/
def LockEntry.grantPass (e : LockEntry) : LockEntry × List Holding :=
  if e.state = .opened then e.passOver e.waiters else (e, [])

/-! ### On the coordinator -/

/-- The report of a grant made by the grant pass (R17). -/
def Part.reportGrant (l : LockId) (p : Part) (h : Holding) : Part :=
  match h.party with
  | .agent a => p.notify a (.granted l h.token h.mode (h.remaining.getD 0)) 1
  | .chan c => p.toTransfer (.grantReport c h.token (h.remaining.getD 0))

/-- A grant pass on a lock: the coordinator after it, with the grants reported in order, and the number of parties granted
(R16, R17, R19). -/
def Part.runPass (p : Part) (l : LockId) : Part × Nat :=
  let r := (p.lock l).grantPass
  (r.2.foldl (Part.reportGrant l) (p.setLock l r.1), r.2.length)

/-- A closing lock becomes DISABLED and LOCK_CLOSED is delivered (R7). -/
def Part.drain (p : Part) (l : LockId) : Part :=
  (p.setLock l { p.lock l with state := .disabled }).notifySupervisor (.lockClosed l)

/-- The end of a claim's work on a lock that has lost a holding: the grant pass on an OPEN lock, the draining of a CLOSING
lock whose last holding has gone (R7, R14). It answers the number of parties granted. -/
def Part.settle (p : Part) (l : LockId) : Part × Nat :=
  match (p.lock l).state with
  | .opened => p.runPass l
  | .closing => if (p.lock l).holders.isEmpty then (p.drain l, 0) else (p, 0)
  | .disabled => (p, 0)

/-- The report of a holding revoked: REVOKED to an agent, the loss to the transfer engine for a channel (R8, R73, R75). -/
def Part.reportRevoked (l : LockId) (why : RevokeReason) (p : Part) (h : Holding) : Part :=
  match h.party with
  | .agent a => p.notify a (.revoked l h.token why) 1
  | .chan c =>
    p.toTransfer (.holdingEnded c (match why with | .leaseExpired => .leaseLost | .broken => .lockBroken))

/-- The report of a wait cancelled by CLOSE_LOCK or BREAK_LOCK (R6, R8). -/
def Part.reportCancelled (l : LockId) (why : CancelReason) (p : Part) (w : Waiting) : Part :=
  match w.party with
  | .agent a => p.notify a (.waitCancelled l why) 2
  | .chan c => p.toTransfer (.waitEnded c (match why with | .closed => .closed | .broken => .broken))

/-- The purge of an agent's records on one lock, their places dropped, and the grant pass or the draining there; a lock with
no record of the agent is left as it was (R22, R33). -/
def Part.purgeLock (a : AgentId) (p : Part) (l : LockId) : Part :=
  let e := p.lock l
  let mine := fun (q : Party) => q == .agent a
  let hs := e.holders.countP fun h => mine h.party
  let ws := e.waiters.countP fun w => mine w.party
  if hs + ws = 0 then p
  else
    let e1 := { e with holders := e.holders.filter (fun h => !mine h.party),
                       waiters := e.waiters.filter (fun w => !mine w.party) }
    (((p.setLock l e1).giveBack (.agent a) (hs + 2 * ws)).settle l).1

/-- CLEAR's lock-table step on one lock (R145). -/
def Part.clearLock (p : Part) (l : LockId) : Part :=
  let e := { p.lock l with holders := [], waiters := [] }
  match e.state with
  | .closing => (p.setLock l e).drain l
  | .opened => ((p.setLock l e).runPass l).1
  | .disabled => p.setLock l e

/-! ### Tick boundaries (R66) -/

/-- A count after a boundary: present and above zero, it falls by one. -/
def tickCount (t : Option Ticks) : Option Ticks := t.map fun n => if n = 0 then 0 else n - 1

/-- The counts of a lock after a boundary (R66). -/
def LockEntry.tick (e : LockEntry) : LockEntry :=
  { e with holders := e.holders.map fun h => { h with remaining := tickCount h.remaining },
           waiters := e.waiters.map fun w => { w with remaining := tickCount w.remaining } }

/-- The counts of a lock that a boundary brings to zero: its holdings in order ahead of its waits in order (R21, R66). -/
def LockEntry.runsOut (e : LockEntry) (l : LockId) : List ExpiryClaim :=
  (e.holders.filter fun h => h.remaining == some 1).map (fun h => { lock := l, party := h.party, kind := .lease })
    ++ (e.waiters.filter fun w => w.remaining == some 1).map (fun w => { lock := l, party := w.party, kind := .wait })

end Sys2Proof.Machine
end

