-- ==== Sys2Proof/Machine/MasterOps.lean ====
section
/-! DEFINITION. The backplane master: its arbiter (R127, R128), the course of a burst (R129 to R133), and what it drives on
the backplane. -/

namespace Sys2Proof.Machine

/-- The bytes of a burst (R125, R126). -/
def Burst.length (b : Burst) : Nat :=
  match b with
  | .copy _ _ n => n
  | .write _ _ => 4
  | .read _ => 4

/-- The channel whose pending request the arbiter takes (R128). -/
def Master.choice (m : Master) : Option ChanId :=
  match m.pending.c0, m.pending.c1 with
  | some _, some _ => some (match m.lastServed with | .c0 => .c1 | .c1 => .c0)
  | some _, none => some .c0
  | none, some _ => some .c1
  | none, none => none

/-- The arbiter takes a channel's burst: last served, current burst, REQUESTING with the count set to the limit; the word of
a WRITE_WORD goes into the staging buffer (R126, R128, R129). -/
def Master.take (m : Master) (c : ChanId) (b : Burst) : Master :=
  { m with phase := .requesting, current := some { chan := c, burst := b }, pending := m.pending.set c none,
           lastServed := c,
           staging := (match b with | .write _ w => [w] | .copy _ _ _ | .read _ => []),
           written := 0, count := some m.limit }

/-- The arbiter looks for a burst: an IDLE master takes the request it chooses (R127, R128). -/
def Master.arbitrate (m : Master) : Master :=
  match m.phase with
  | .idle =>
    match m.choice with
    | some c =>
      match m.pending.get c with
      | some b => m.take c b
      | none => m
    | none => m
  | .requesting | .reading | .writing => m

/-- A channel's burst request handed over; an IDLE master takes it at once (R127). -/
def Master.offer (m : Master) (c : ChanId) (b : Burst) : Master :=
  { m with pending := m.pending.set c (some b) }.arbitrate

/-- The master back in IDLE with no current burst and no count (R133). -/
def Master.released (m : Master) : Master := { m with phase := .idle, current := none, count := none, staging := [], written := 0 }

/-- The current burst reaches its outcome: the backplane released, the outcome reported to its channel, and the next pending
request taken (R133). -/
def Part.endBurst (p : Part) (c : ChanId) (r : BurstResult) : Part :=
  (p.setMaster p.master.released.arbitrate).toTransfer (.burstOutcome c r)

/-- The grant-wait count after a tick boundary (R129). -/
def Master.tick (m : Master) : Master := { m with count := m.count.map fun n => if n = 0 then 0 else n - 1 }

/-- The master's phase as it concerns a channel: 0 NONE, 1 PENDING, 2 REQUESTING, 3 READING, 4 WRITING (R141, R163). -/
def Master.phaseFor (m : Master) (c : ChanId) : BitVec 3 :=
  if m.current.any (fun b => b.chan == c) then
    match m.phase with
    | .idle => 0
    | .requesting => 2
    | .reading => 3
    | .writing => 4
  else if (m.pending.get c).isSome then 1
  else 0

/-- A backplane cycle that the master drives: the slot number and the byte lanes it presents (R124), its address and, for a
write cycle, its word (R131, R132). -/
structure BusCycle where
  slot : Slot
  lanes : BitVec 4
  address : Word
  word : Option Word
  deriving DecidableEq, Repr

/-- The words still to be read are addressed in ascending order from the source (R131). -/
def Burst.source (b : Burst) : Option Word :=
  match b with
  | .copy s _ _ => some s
  | .write _ _ => none
  | .read s => some s

/-- The first address a burst writes (R132). -/
def Burst.dest (b : Burst) : Option Word :=
  match b with
  | .copy _ d _ => some d
  | .write d _ => some d
  | .read _ => none

/-- Whether the master asserts its request for the backplane: in REQUESTING, until the grant-wait count reaches zero and the
request is withdrawn (R129). -/
def Part.requesting (p : Part) : Bool := p.master.phase == .requesting && p.master.count != some 0

/-- A cycle of the coordinator's own: it presents the strapped master slot and moves a full word on all four lanes (R124). -/
def Part.ownCycle (p : Part) (address : Word) (word : Option Word) : BusCycle :=
  { slot := p.straps.masterSlot, lanes := 15, address, word }

/-- The cycle the master drives now, if any: in READING the next word of the source, in WRITING the next word of the staging
buffer to the destination (R131, R132). -/
def Part.driven (p : Part) : Option BusCycle :=
  match p.master.phase, p.master.current with
  | .reading, some b => b.burst.source.map fun s => p.ownCycle (s + wordOf (4 * p.master.staging.length)) none
  | .writing, some b =>
    match b.burst.dest, p.master.staging[p.master.written]? with
    | some d, some w => some (p.ownCycle (d + wordOf (4 * p.master.written)) (some w))
    | _, _ => none
  | _, _ => none

end Sys2Proof.Machine
end

