-- ==== Sys2Proof/Machine/TransferOps.lean ====
section
/-! DEFINITION. The transfer engine's operations on a channel: burst requests (R125), guard checks (R109 to R111), taking
the head (R106), the end of a descriptor (R113), stops (R115), pauses (R120), and rest during a CLEAR (R145). -/

namespace Sys2Proof.Machine

/-- The head of a channel's list. -/
def Channel.head (ch : Channel) : Option Descriptor := ch.list.head?

/-- The started head of a channel, if it has one (R99). -/
def Channel.startedHead (ch : Channel) : Option Descriptor := ch.list.head?.filter Descriptor.started

/-- The channel with its head descriptor changed. -/
def Channel.onHead (ch : Channel) (f : Descriptor → Descriptor) : Channel :=
  match ch.list with
  | [] => ch
  | d :: ds => { ch with list := f d :: ds }

/-- The coordinator with one channel changed. -/
def Part.onChan (p : Part) (c : ChanId) (f : Channel → Channel) : Part := p.setChan c (f (p.chan c))

/-- The next burst of a descriptor as it stands (R125, R126). -/
def Descriptor.nextBurst (d : Descriptor) : Burst :=
  match d.op with
  | .copy s t n =>
    let src := s + wordOf d.moved
    let dst := t + wordOf d.moved
    .copy src dst (min (n - d.moved) (min (64 - src.toNat % 64) (64 - dst.toNat % 64)))
  | .writeWord t v => .write t v
  | .readWord s _ => .read s

/-- The channel hands the master the request for its head's next burst (R125, R127). -/
def Part.handBurst (p : Part) (c : ChanId) (d : Descriptor) : Part :=
  (p.onChan c fun ch => { ch with inFlight := .burst }).setMaster (p.master.offer c d.nextBurst)

/-- The channel raises a claim at its own arbiter position and waits for it (R105). -/
def Part.raiseClaim (p : Part) (c : ChanId) (cl : ChanClaim) (f : InFlight) : Part :=
  (p.onChan c fun ch => { ch with inFlight := f }).setClaim c (some cl)

/-- The guard check of a descriptor; none for an unguarded one (R109 to R111). -/
def Descriptor.guardClaim (d : Descriptor) : Option ChanClaim :=
  match d.guard with
  | .none => none
  | .acquire l _ _ _ => some (.acquireGuard l)
  | .fence l t => some (.fenceGuard l d.owner t)

/-- The channel becomes PAUSED, its pending mark is cleared, and CHANNEL_PAUSED is delivered (R120). -/
def Part.pauseNow (p : Part) (c : ChanId) : Part :=
  (p.onChan c fun ch => { ch with state := .paused, pausePending := false, inFlight := .nothing }).notifySupervisor
    (.channelPaused c)

/-- A started head set to work by its guard (R106): an unguarded one hands its first burst, a FENCE raises its first guard
check, an ACQUIRE raises its acquisition claim. -/
def Part.beginHead (p : Part) (c : ChanId) (d : Descriptor) : Part :=
  match d.guard with
  | .none => (p.onChan c fun ch => { ch with state := .moving }).handBurst c d
  | .fence l t =>
    (p.onChan c fun ch => { ch with state := .moving }).raiseClaim c (.fenceGuard l d.owner t) .guardCheck
  | .acquire l m r w =>
    (p.onChan c fun ch => { ch with state := .acquiring, currentLock := some l }).raiseClaim c
      (.acquisition l m r w d.owner) .acquisition

/-- Whether an IDLE channel takes its head: no pause pending, no CLEAR in flight, a list that is not empty (R106). -/
def Part.mayTakeHead (p : Part) (c : ChanId) : Bool :=
  (p.chan c).state == .idle && !(p.chan c).pausePending && !p.clearing

/-- The channel takes its head where it may: the head is marked started, the stop and loss reasons become none (R106). -/
def Part.takeHead (p : Part) (c : ChanId) : Part :=
  match (p.chan c).list with
  | [] => p
  | d :: _ =>
    if p.mayTakeHead c then
      (p.onChan c fun ch => { ch.onHead (fun d => { d with started := true }) with stop := none, loss := none }).beginHead c
        { d with started := true }
    else p

/-- The notice that ends a descriptor (R114). -/
def Descriptor.endNotice (d : Descriptor) (c : ChanId) (o : EndOutcome) : Notice :=
  match o with
  | .done =>
    .transferDone d.tag c d.moved (match d.op with | .readWord _ v => v | .copy _ _ _ | .writeWord _ _ => none)
  | .fault r => .transferFault d.tag c r d.moved

/-- The report that an evicted agent has no descriptor left, once its withdraw-all has been taken (R34, R113). -/
def Part.reportIfNone (p : Part) (a : AgentId) : Part :=
  if a ∈ p.transfer.withdrawing ∧ p.descriptorCount a = 0 then
    (p.setWithdrawing (p.transfer.withdrawing.erase a)).toTable (.noDescriptorLeft a)
  else p

/-- Step 4 of the end of a descriptor (R113, R123): during a CLEAR a channel that was PAUSED stays PAUSED and any other
becomes IDLE; otherwise a pending pause takes effect, or the next head is taken. -/
def Part.afterEnd (p : Part) (c : ChanId) : Part :=
  if (p.chan c).state = .paused then p
  else
    let p1 := p.onChan c fun ch => { ch with state := .idle }
    if p.clearing then p1
    else if (p1.chan c).pausePending then p1.pauseNow c
    else p1.takeHead c

/-- Steps 2 to 4 of the end of a descriptor (R113). -/
def Part.finishEnd (p : Part) (c : ChanId) (o : EndOutcome) : Part :=
  match (p.chan c).list with
  | [] => p
  | d :: rest =>
    ((((p.notify d.owner (d.endNotice c o) 1).onChan c fun ch =>
        { ch with list := rest, stop := none, loss := none, currentLock := none, holding := none, inFlight := .nothing,
                  ending := none }).reportIfNone d.owner).afterEnd c)

/-- The end of a descriptor (R113): step 1 where the channel holds its lock, and otherwise steps 2 to 4 at once. -/
def Part.endDescriptor (p : Part) (c : ChanId) (o : EndOutcome) : Part :=
  match (p.chan c).holding, (p.chan c).currentLock with
  | some _, some l =>
    (p.onChan c fun ch =>
      { ch with ending := some o, state := (if ch.state = .paused then .paused else .stopping) }).raiseClaim c (.release l)
        .release
  | _, _ => p.finishEnd c o

/-- The end with a fault: where a stop has been recorded the reason is WITHDRAWN (R114). -/
def Part.endFault (p : Part) (c : ChanId) (r : TransferFault) : Part :=
  p.endDescriptor c (.fault (if (p.chan c).stop.isSome then .withdrawn else r))

/-- Step 2 of R109: a pending pause takes effect, or the next burst is handed over, or the descriptor ends. -/
def Part.afterGuard (p : Part) (c : ChanId) : Part :=
  match (p.chan c).head with
  | some d =>
    if (p.chan c).pausePending then p.pauseNow c
    else if d.moved < d.op.length then p.handBurst c d
    else p.endDescriptor c .done
  | none => p

/-- Step 1 of R109: a guarded descriptor raises a guard check, an unguarded one goes on. -/
def Part.goOn (p : Part) (c : ChanId) : Part :=
  match (p.chan c).head with
  | some d =>
    match d.guardClaim with
    | some cl => p.raiseClaim c cl .guardCheck
    | none => p.afterGuard c
  | none => p

/-- A channel that is granted its lock while it acquires: a pending pause takes effect, or it becomes MOVING with its first
guard check (R107, R120). -/
def Part.granted (p : Part) (c : ChanId) (token : Word) : Part :=
  let p1 := p.onChan c fun ch => { ch with holding := some token, inFlight := .nothing }
  if (p1.chan c).pausePending then p1.pauseNow c
  else (p1.onChan c fun ch => { ch with state := .moving }).goOn c

/-- The claim to remove the channel's own waiter record is raised (R63, R115, R116). -/
def Part.raiseRemoval (p : Part) (c : ChanId) : Part :=
  match (p.chan c).currentLock with
  | some l => p.raiseClaim c (.removal l) .removal
  | none => p

/-- A stop given to a channel's started head (R115). -/
def Part.giveStop (p : Part) (c : ChanId) (r : StopReason) : Part :=
  match (p.chan c).startedHead with
  | none => p
  | some _ =>
    let stopped := p.onChan c fun ch => { ch with stop := some r, state := .stopping }
    match (p.chan c).state with
    | .idle => p
    | .acquiring => if (p.chan c).inFlight = .nothing then stopped.raiseRemoval c else stopped
    | .moving => stopped
    | .stopping => p
    | .paused =>
      if (p.chan c).inFlight = .nothing then
        (p.onChan c fun ch => { ch with stop := some r }).endDescriptor c (.fault .withdrawn)
      else p

/-- Whether a channel is at rest for a CLEAR: IDLE, or PAUSED with no end in progress, with nothing in flight (R145). -/
def Channel.atRest (ch : Channel) : Bool :=
  (ch.state == .idle || ch.state == .paused) && ch.inFlight == .nothing

/-- The report that both channels have come to rest, made once a CLEAR's stop has been given (R145). -/
def Part.reportRest (p : Part) : Part :=
  if p.table.clear = some .stopping ∧ (p.chan .c0).atRest ∧ (p.chan .c1).atRest then
    (p.setClear (some .atRest)).toTable .channelsAtRest
  else p

/-- The transfer engine takes the oldest item of its list, where `body` knows it; what it does may bring the channels to rest
(R104, R145). -/
def Part.takeItem (p : Part) (body : TransferItem → Option (Part → Part)) : Part :=
  match p.transfer.inbox with
  | i :: rest =>
    match body i with
    | some f =>
      if p.transferFree then (f (p.setInbox rest)).reportRest else p
    | none => p
  | [] => p

/-- The reason of a failed ACQUIRE guard check: the loss the channel recorded; a free value where it recorded none, which
R110 rules out (log 6). -/
def Part.lossFault (p : Part) (c : ChanId) : TransferFault :=
  match (p.chan c).loss with
  | some .leaseLost => .leaseLost
  | some .lockBroken => .lockBroken
  | none => if Config.unrecordedLossIsLease p.fresh then .leaseLost else .lockBroken

/-- The reason of a failed guard check of a channel's head (R110, R111). -/
def Part.guardFault (p : Part) (c : ChanId) : TransferFault :=
  match (p.chan c).head with
  | some d =>
    match d.guard with
    | .fence _ _ => .holdingLost
    | .acquire _ _ _ _ => p.lossFault c
    | .none => p.lossFault c
  | none => p.lossFault c

/-- The descriptor of an agent with a tag, with its channel (R99, R103, R117). -/
def Part.findDescriptor (p : Part) (a : AgentId) (tag : BitVec 16) : Option (ChanId × Descriptor) :=
  match (p.chan .c0).list.find? fun d => d.owner == a && d.tag == tag with
  | some d => some (.c0, d)
  | none =>
    match (p.chan .c1).list.find? fun d => d.owner == a && d.tag == tag with
    | some d => some (.c1, d)
    | none => none

end Sys2Proof.Machine
end

