-- ==== Sys2Proof/Machine/WindowOps.lean ====
section
/-! DEFINITION. The window port: decode (R149 to R151), the registers of a page (R152, R157), the COMMAND write (R153, R155),
POP (R93) and CONTROL (R97), and the interrupt lines (R95). -/

namespace Sys2Proof.Machine

/-- The registers of a page (9.2). `arg5` is offset 0x3C. -/
inductive Reg where
  | arg0 | arg1 | arg2 | arg3 | arg4 | command | status | result0 | result1 | notice0 | notice1 | notice2 | control | pop
  | ident | arg5
  deriving DecidableEq, Repr

/-- The registers in the order of their offsets, 4 bytes each (9.2). -/
def allRegs : List Reg :=
  [.arg0, .arg1, .arg2, .arg3, .arg4, .command, .status, .result0, .result1, .notice0, .notice1, .notice2, .control, .pop,
   .ident, .arg5]

/-- The register at word `i` of a page (9.2). -/
def regAt (i : BitVec 4) : Reg := (allRegs[i.toNat]?).getD .arg5

/-- The 64-byte block `i` of the window as a page, or none for offsets 0x040 to 0x0FF and 0x300 to 0x3FF (R150, 9.2). -/
def pageAt (i : BitVec 4) : Option PageId :=
  if i = 0 then some .supervisor
  else if 4 ≤ i.toNat then (asIndex 8 (i.toNat - 4)).map .agent
  else none

/-- The window port's copy of the entry behind an agent page; none for the supervisor page (R24). -/
def Part.copyOf (p : Part) (page : PageId) : Option AgentEntry :=
  match page with
  | .agent a => some (pick p.port.copies a)
  | .supervisor => none

/-- The slot check of a page (R25, R136, R151). -/
def Part.slotPasses (p : Part) (page : PageId) (slot : Slot) : Bool :=
  match page with
  | .agent a => (pick p.port.copies a).slot == some slot
  | .supervisor => slot == p.straps.supervisorSlot

/-- How the port judges an access (R149, R150). -/
inductive Judgement where
  /-- Outside the window: not answered at all. -/
  | notOurs
  /-- Answered with a bus error. -/
  | busError
  /-- Accepted at an offset that belongs to no page. -/
  | unused
  /-- Accepted at a register of a page. -/
  | register (page : PageId) (r : Reg)
  deriving DecidableEq, Repr

/-- The order of R150. -/
def Part.judge (p : Part) (acc : Access) : Judgement :=
  if acc.address.extractLsb' 10 22 ≠ p.straps.base then .notOurs
  else if acc.address.extractLsb' 0 2 ≠ 0 ∨ acc.lanes ≠ 15 then .busError
  else
    match pageAt (acc.address.extractLsb' 6 4) with
    | none => .unused
    | some page => if p.slotPasses page acc.slot then .register page (regAt (acc.address.extractLsb' 2 4)) else .busError

/-- The stage a command starts in: a lock engine's command raises its claim at once, kept back on the supervisor page while
the lock-table step of a CLEAR stands there; any other waits to be taken by its block (R37, R145, R153). -/
def Part.firstStage (p : Part) (page : PageId) (c : Cmd) : Stage :=
  match cmdBlock c with
  | .lockEngine => if page = .supervisor ∧ p.table.clear = some .stepPending then .held else .claimed
  | .agentTable | .transferEngine | .timebase | .backplaneMaster => .written

/-- Whether the window port refuses a page's commands EVICTING itself (R28, R153). -/
def Part.portRefuses (p : Part) (page : PageId) : Bool :=
  match p.copyOf page with
  | some e => e.state == .evicting
  | none => false

/-- A COMMAND write that has passed the slot check: a collision when the page is BUSY (R155), otherwise taken as a command
(R153). -/
def Part.commandWrite (p : Part) (page : PageId) (value : Word) : Part :=
  let pg := p.page page
  match pg.inFlight with
  | some _ => p.setPage page { pg with collide := true }
  | none =>
    let code := value.extractLsb' 0 8
    let pg1 := { pg with command := code, done := false, code := .noResult }
    if p.portRefuses page then p.setPage page (pg1.present (refuse .evicting))
    else
      match cmdOfCode page code with
      | none => p.setPage page (pg1.present (refuse .badArgument))
      | some c => p.setPage page { pg1 with inFlight := some { cmd := c, args := pg.args, stage := p.firstStage page c } }

/-- A CONTROL write that has passed the slot check (R97). -/
def Page.control (pg : Page) (value : Word) : Page :=
  let pg1 := { pg with noticeEnable := value.getLsbD 0, doneEnable := value.getLsbD 1 }
  if value.getLsbD 2 then { pg1 with done := false, collide := false } else pg1

/-- A page with argument register `i` written (R152). -/
def Page.setArg (pg : Page) (i : Fin 6) (value : Word) : Page := { pg with args := put pg.args i value }

/-- An accepted write to a register of a page (R152). -/
def Part.writeRegister (p : Part) (page : PageId) (r : Reg) (value : Word) : Part :=
  let pg := p.page page
  match r with
  | .arg0 => p.setPage page (pg.setArg 0 value)
  | .arg1 => p.setPage page (pg.setArg 1 value)
  | .arg2 => p.setPage page (pg.setArg 2 value)
  | .arg3 => p.setPage page (pg.setArg 3 value)
  | .arg4 => p.setPage page (pg.setArg 4 value)
  | .arg5 => if page = .supervisor then p.setPage page (pg.setArg 5 value) else p
  | .command => p.commandWrite page value
  | .control => p.setPage page (pg.control value)
  | .pop => p.onQueue page Queue.pop
  | .status | .result0 | .result1 | .notice0 | .notice1 | .notice2 | .ident => p

/-- A read of a register of a page; it has no side effect (R150, R152, R157). -/
def Part.readRegister (p : Part) (page : PageId) (r : Reg) : Word :=
  let pg := p.page page
  match r with
  | .arg0 => pick pg.args 0
  | .arg1 => pick pg.args 1
  | .arg2 => pick pg.args 2
  | .arg3 => pick pg.args 3
  | .arg4 => pick pg.args 4
  | .arg5 => if page = .supervisor then pick pg.args 5 else 0
  | .command => fieldAt 0 pg.command
  | .status => statusWord pg (p.copyOf page) p.clearing (p.queue page)
  | .result0 => pg.result0
  | .result1 => pg.result1
  | .notice0 => (p.queue page).headWord Notice.word0
  | .notice1 => (p.queue page).headWord Notice.word1
  | .notice2 => (p.queue page).headWord Notice.word2
  | .control => controlWord pg
  | .pop => 0
  | .ident => identWord p.straps page

/-- A write of value `value` to register `r` of a page from slot `slot`: answered with a bus error, and nothing changed, when
the slot check fails (R25, R136, R150). -/
def Part.writeFrom (p : Part) (page : PageId) (slot : Slot) (r : Reg) (value : Word) : Part :=
  if p.slotPasses page slot then p.writeRegister page r value else p

/-- The COMMAND write that starts command `c` on a page; bits 31 to 8 are ignored (R153, R158). -/
def Part.startFrom (p : Part) (page : PageId) (slot : Slot) (high : BitVec 24) (c : Cmd) : Part :=
  p.writeFrom page slot .command (high ++ cmdCode c)

/-- An access of the window: what it changes (R150). A read changes nothing. -/
def Part.access (p : Part) (acc : Access) : Part :=
  match p.judge acc with
  | .notOurs | .busError | .unused => p
  | .register page r => if acc.isWrite then p.writeRegister page r acc.data else p

/-- What the part answers to a read of the window (R150). -/
inductive ReadReply where
  | none
  | busError
  | data (w : Word)
  deriving DecidableEq, Repr

/-- The answer to a read (R150): offsets of no page read 0. -/
def Part.windowRead (p : Part) (acc : Access) : ReadReply :=
  match p.judge acc with
  | .notOurs => .none
  | .busError => .busError
  | .unused => .data 0
  | .register page r => .data (p.readRegister page r)

/-- The level of a page's interrupt line (R95). -/
def Part.line (p : Part) (page : PageId) : Bool := lineLevel (p.page page) (p.queue page)

end Sys2Proof.Machine
end

