-- ==== Sys2Proof/Machine/LockCommands.lean ====
section
/-! DEFINITION. The lock commands of an agent page: ACQUIRE, CANCEL_WAIT, RELEASE, RENEW, DOWNGRADE, QUERY (Chapters 3
and 4). Each body follows the checks of R28 and R37, which `Part.serveAgent` makes. -/

namespace Sys2Proof.Machine

/-- A moment of a lock command: its COMMAND write, or the engine taking its claim. -/
def Part.lockCommand (p : Part) (a : AgentId) (c : Cmd) (m : Moment) (body : Vector Word 6 → Part → Part × Answer) : Part :=
  match m with
  | .write slot high => p.startFrom (.agent a) slot high c
  | .take => p.serveAgent a c body

/-- The checks of R40 on the lock and the agent's standing on it: the refusal, if one fails. -/
def LockEntry.admission (e : LockEntry) (a : AgentId) (m : Mode) : Option Answer :=
  match e.state with
  | .disabled => some (refuse .lockDisabled)
  | .closing => some (refuse .lockClosing)
  | .opened =>
    if m = .shared ∧ e.cls = .exclusiveOnly then some (refuse .modeNotAllowed)
    else if !e.mask.getLsbD a.val then some (refuse .notPermitted)
    else
      match e.holderOf (.agent a) with
      | some h =>
        some { code := .alreadyHeld, result0 := h.token, result1 := (match h.mode with | .exclusive => 1 | .shared => 0) }
      | none =>
        if (e.waiterOf (.agent a)).isSome then
          some { code := .alreadyWaiting, result0 := wordOf (e.position (.agent a)), result1 := 0 }
        else none

/-- A request that is grantable now (R42). -/
def Part.acquireNow (p : Part) (a : AgentId) (r : AcquireArgs) : Part × Answer :=
  if !p.hasRoom (.agent a) 1 then (p, refuse .noNoticeRoom)
  else if p.agentFree = 0 then (p, refuse .noRecord)
  else
    let h := (p.lock r.lock).newHolding (.agent a) a r.mode r.requested
    ((p.setLock r.lock ((p.lock r.lock).withHolding h)).reserve (.agent a) 1,
      { code := .granted, result0 := h.token, result1 := fieldAt 0 (h.remaining.getD 0) })

/-- The WAITING record a queued request makes (R45, R48, R62). -/
def newWait (party : Party) (owner : AgentId) (mode : Mode) (requested waitLimit : Ticks) : Waiting :=
  { party, owner, mode, requested, remaining := if waitLimit = 0 then none else some waitLimit }

/-- A wait appended at the tail of the waiter list (R12). -/
def LockEntry.withWait (e : LockEntry) (w : Waiting) : LockEntry := { e with waiters := e.waiters ++ [w] }

/-- A request that is queued (R45). -/
def Part.acquireLater (p : Part) (a : AgentId) (r : AcquireArgs) : Part × Answer :=
  if !p.hasRoom (.agent a) 2 then (p, refuse .noNoticeRoom)
  else if p.agentFree = 0 then (p, refuse .noRecord)
  else
    let e := (p.lock r.lock).withWait (newWait (.agent a) a r.mode r.requested r.waitLimit)
    ((p.setLock r.lock e).reserve (.agent a) 2,
      { code := .queued, result0 := wordOf e.waiters.length, result1 := 0 })

/-- ACQUIRE's own checks and effect (R39 to R45). -/
def Part.acquireBody (a : AgentId) (args : Vector Word 6) (p : Part) : Part × Answer :=
  match acquireArgs args with
  | none => (p, refuse .badArgument)
  | some r =>
    let e := p.lock r.lock
    match e.admission a r.mode with
    | some ans => (p, ans)
    | none =>
      if e.grantableNow r.mode then p.acquireNow a r
      else if !r.queue then
        (p, { code := .busy, result0 := wordOf e.holders.length, result1 := wordOf e.waiters.length })
      else if e.queueLimit ≤ e.agentWaiters then (p, refuse .queueFull)
      else p.acquireLater a r

/-- ACQUIRE (R37 to R45). -/
def execAcquire (a : AgentId) (m : Moment) (s : State) : Host.Outcome State Fault Refusal :=
  .next (s.onPart fun p => p.lockCommand a .acquire m (Part.acquireBody a))

/-- CANCEL_WAIT's own checks and effect (R50). -/
def Part.cancelWaitBody (a : AgentId) (args : Vector Word 6) (p : Part) : Part × Answer :=
  match lockField (pick args 0) with
  | none => (p, refuse .badArgument)
  | some l =>
    let e := p.lock l
    match e.waiterOf (.agent a) with
    | some _ =>
      let r := ((p.setLock l (e.withoutWaiter (.agent a))).giveBack (.agent a) 2).runPass l
      (r.1, accept (wordOf (e.position (.agent a))) (wordOf r.2))
    | none =>
      match e.holderOf (.agent a) with
      | some h => (p, { code := .notWaiting, result0 := h.token, result1 := 1 })
      | none => (p, refuse .notWaiting)

/-- CANCEL_WAIT (R50). -/
def execCancelWait (a : AgentId) (m : Moment) (s : State) : Host.Outcome State Fault Refusal :=
  .next (s.onPart fun p => p.lockCommand a .cancelWait m (Part.cancelWaitBody a))

/-- The checks that RELEASE, RENEW and DOWNGRADE share: NOT_HOLDER without a holding, STALE_TOKEN with the current token for
another token (R54, R58, R70). -/
def LockEntry.heldUnder (e : LockEntry) (a : AgentId) (token : Word) : Except Answer Holding :=
  match e.holderOf (.agent a) with
  | none => .error (refuse .notHolder)
  | some h => if h.token = token then .ok h else .error { code := .staleToken, result0 := h.token, result1 := 0 }

/-- RELEASE's own checks and effect (R54, R55). -/
def Part.releaseBody (a : AgentId) (args : Vector Word 6) (p : Part) : Part × Answer :=
  match lockField (pick args 0) with
  | none => (p, refuse .badArgument)
  | some l =>
    match (p.lock l).heldUnder a (pick args 1) with
    | .error ans => (p, ans)
    | .ok _ =>
      let r := ((p.setLock l ((p.lock l).withoutHolder (.agent a))).giveBack (.agent a) 1).settle l
      (r.1, accept (wordOf (r.1.lock l).holders.length) (wordOf r.2))

/-- RELEASE (R54, R55). -/
def execRelease (a : AgentId) (m : Moment) (s : State) : Host.Outcome State Fault Refusal :=
  .next (s.onPart fun p => p.lockCommand a .release m (Part.releaseBody a))

/-- The lock with the holding of a party changed in place. -/
def LockEntry.onHolder (e : LockEntry) (q : Party) (f : Holding → Holding) : LockEntry :=
  { e with holders := e.holders.map fun h => if h.party = q then f h else h }

/-- RENEW's own checks and effect (R70, R71). -/
def Part.renewBody (a : AgentId) (args : Vector Word 6) (p : Part) : Part × Answer :=
  match lockField (pick args 0), wholeTicks (pick args 2) with
  | some l, some lease =>
    let e := p.lock l
    match e.heldUnder a (pick args 1) with
    | .error ans => (p, ans)
    | .ok h =>
      (p.setLock l (e.onHolder (.agent a) fun h => { h with remaining := e.leaseGiven lease }),
        accept h.token (fieldAt 0 (e.effectiveLease lease)))
  | _, _ => (p, refuse .badArgument)

/-- RENEW (R70, R71). -/
def execRenew (a : AgentId) (m : Moment) (s : State) : Host.Outcome State Fault Refusal :=
  .next (s.onPart fun p => p.lockCommand a .renew m (Part.renewBody a))

/-- DOWNGRADE's own checks and effect (R58, R59). -/
def Part.downgradeBody (a : AgentId) (args : Vector Word 6) (p : Part) : Part × Answer :=
  match lockField (pick args 0) with
  | none => (p, refuse .badArgument)
  | some l =>
    let e := p.lock l
    match e.heldUnder a (pick args 1) with
    | .error ans => (p, ans)
    | .ok h =>
      if e.cls = .exclusiveOnly then (p, refuse .modeNotAllowed)
      else if h.mode = .shared then (p, refuse .wrongMode)
      else
        let r := (p.setLock l (e.onHolder (.agent a) fun h => { h with mode := .shared })).runPass l
        (r.1, accept h.token (wordOf r.2))

/-- DOWNGRADE (R58, R59). -/
def execDowngrade (a : AgentId) (m : Moment) (s : State) : Host.Outcome State Fault Refusal :=
  .next (s.onPart fun p => p.lockCommand a .downgrade m (Part.downgradeBody a))

/-- QUERY's own check and answer (R61, R162). -/
def Part.queryBody (args : Vector Word 6) (p : Part) : Part × Answer :=
  match lockField (pick args 0) with
  | none => (p, refuse .badArgument)
  | some l => (p, accept (p.lock l).standingWord (p.lock l).generation)

/-- QUERY (R61). -/
def execQuery (a : AgentId) (m : Moment) (s : State) : Host.Outcome State Fault Refusal :=
  .next (s.onPart fun p => p.lockCommand a .query m Part.queryBody)

end Sys2Proof.Machine
end

