-- ==== Sys2Proof/Machine/LockSupervision.lean ====
section
/-! DEFINITION. The supervisor's lock commands: CONFIGURE_LOCK, CLOSE_LOCK, BREAK_LOCK (Chapter 1), INSPECT_LOCK and
INSPECT_RECORD (Chapter 8). The check for a CLEAR in flight is made by `Part.serveSupervisor`. -/

namespace Sys2Proof.Machine

/-- A moment of a lock command of the supervisor page. -/
def Part.lockSupervision (p : Part) (c : Cmd) (m : Moment) (body : Vector Word 6 → Part → Part × Answer) : Part :=
  match m with
  | .write slot high => p.startFrom .supervisor slot high c
  | .take => p.serveSupervisor c body

/-- CONFIGURE_LOCK's own checks and effect (R5). -/
def Part.configureBody (args : Vector Word 6) (p : Part) : Part × Answer :=
  match configureArgs args with
  | none => (p, refuse .badArgument)
  | some r =>
    let e := p.lock r.lock
    if e.state ≠ .disabled then (p, refuse .wrongState)
    else
      (p.setLock r.lock
        { state := .opened, cls := r.cls, defaultLease := r.defaultLease, maxLease := r.maxLease,
          queueLimit := r.queueLimit, mask := r.mask, generation := e.generation, holders := [], waiters := [] },
        accept e.generation 0)

/-- CONFIGURE_LOCK (R5). -/
def execConfigureLock (m : Moment) (s : State) : Host.Outcome State Fault Refusal :=
  .next (s.onPart fun p => p.lockSupervision .configureLock m Part.configureBody)

/-- CLOSE_LOCK's own checks and effect (R6). -/
def Part.closeBody (args : Vector Word 6) (p : Part) : Part × Answer :=
  match wholeIndex 64 (pick args 0) with
  | none => (p, refuse .badArgument)
  | some l =>
    let e := p.lock l
    if e.state ≠ .opened then (p, refuse .wrongState)
    else if !p.hasRoom .supervisor 1 then (p, refuse .noNoticeRoom)
    else
      let p1 := (p.reserve .supervisor 1).setLock l { e with state := .closing, waiters := [] }
      let p2 := e.waiters.foldl (Part.reportCancelled l .closed) p1
      (if e.holders.isEmpty then p2.drain l else p2,
        accept (wordOf e.holders.length) (wordOf e.waiters.length))

/-- CLOSE_LOCK (R6). -/
def execCloseLock (m : Moment) (s : State) : Host.Outcome State Fault Refusal :=
  .next (s.onPart fun p => p.lockSupervision .closeLock m Part.closeBody)

/-- BREAK_LOCK's own checks and effect (R8, R75). -/
def Part.breakBody (args : Vector Word 6) (p : Part) : Part × Answer :=
  match wholeIndex 64 (pick args 0) with
  | none => (p, refuse .badArgument)
  | some l =>
    let e := p.lock l
    if e.state = .disabled then (p, refuse .wrongState)
    else
      let p1 := p.setLock l { e with holders := [], waiters := [] }
      let p2 := e.holders.foldl (Part.reportRevoked l .broken) p1
      let p3 := e.waiters.foldl (Part.reportCancelled l .broken) p2
      (if e.state = .closing then p3.drain l else p3,
        accept (wordOf e.holders.length) (wordOf e.waiters.length))

/-- BREAK_LOCK (R8, R75). -/
def execBreakLock (m : Moment) (s : State) : Host.Outcome State Fault Refusal :=
  .next (s.onPart fun p => p.lockSupervision .breakLock m Part.breakBody)

/-- INSPECT_LOCK's checks and answer (R138, R139, R162). -/
def Part.inspectLockBody (args : Vector Word 6) (p : Part) : Part × Answer :=
  match wholeIndex 64 (pick args 0), wholeBit (pick args 1) with
  | some l, some false => (p, accept ((p.lock l).standingWord ||| periodField p.period) (p.lock l).generation)
  | some l, some true => (p, accept ((p.lock l).configWord ||| periodField p.period) (p.lock l).leaseWord)
  | _, _ => (p, refuse .badArgument)

/-- INSPECT_LOCK (R139). -/
def execInspectLock (m : Moment) (s : State) : Host.Outcome State Fault Refusal :=
  .next (s.onPart fun p => p.lockSupervision .inspectLock m Part.inspectLockBody)

/-- What INSPECT_RECORD finds at position `n` of a list: kind NONE, all 0, beyond its length (R140, R163). -/
def LockEntry.recordAnswer (e : LockEntry) (waiterList : Bool) (n : Nat) : Answer :=
  match waiterList with
  | false =>
    match e.holders[n - 1]? with
    | some h => accept h.word h.token
    | none => accept 0 0
  | true =>
    match e.waiters[n - 1]? with
    | some w => accept w.word (fieldAt 0 w.requested)
    | none => accept 0 0

/-- INSPECT_RECORD's checks and answer (R138, R140). -/
def Part.inspectRecordBody (args : Vector Word 6) (p : Part) : Part × Answer :=
  match wholeIndex 64 (pick args 0), wholeBit (pick args 1) with
  | some l, some list =>
    let n := (pick args 2).toNat
    if 1 ≤ n ∧ n ≤ 18 then (p, (p.lock l).recordAnswer list n) else (p, refuse .badArgument)
  | _, _ => (p, refuse .badArgument)

/-- INSPECT_RECORD (R140). -/
def execInspectRecord (m : Moment) (s : State) : Host.Outcome State Fault Refusal :=
  .next (s.onPart fun p => p.lockSupervision .inspectRecord m Part.inspectRecordBody)

end Sys2Proof.Machine
end

