-- ==== Sys2Proof/Machine/AgentTable.lean ====
section
/-! DEFINITION. The agent table: attachment, enabling, eviction (Chapter 2), INSPECT_AGENT, and the stages of CLEAR
(Chapter 8). -/

namespace Sys2Proof.Machine

/-! ### ATTACH and DETACH -/

/-- ATTACH's checks and effect (R28, R29). -/
def Part.attachBody (p : Part) (a : AgentId) : Part × Answer :=
  match p.agentBar a with
  | some code => (p, refuse code)
  | none =>
    match (p.agent a).state with
    | .disabled => (p, refuse .notEnabled)
    | .attached => (p, refuse .wrongState)
    | .evicting => (p, refuse .evicting)
    | .detached => (p.setAgent a { p.agent a with state := .attached, evicted := false }, accept 0 0)

/-- The agent table takes ATTACH. -/
def Part.takeAttach (p : Part) (a : AgentId) : Part :=
  match p.writtenArgs (.agent a) .attach with
  | some _ =>
    if p.tableFree then
      let r := p.attachBody a
      r.1.present (.agent a) r.2
    else p
  | none => p

/-- ATTACH (R29). -/
def execAttach (a : AgentId) (m : Moment) (s : State) : Host.Outcome State Fault Refusal :=
  .next (s.onPart fun p =>
    match m with
    | .write slot high => p.startFrom (.agent a) slot high .attach
    | .take => p.takeAttach a)

/-- The refusal of DETACH before its counts are read, if any (R28, R30). -/
def Part.detachBar (p : Part) (a : AgentId) : Option ResultCode :=
  match p.agentBar a with
  | some code => some code
  | none =>
    match (p.agent a).state with
    | .disabled => some .notEnabled
    | .detached => some .notAttached
    | .attached => none
    | .evicting => some .evicting

/-- The agent table takes DETACH: refused, or its claim for the number of lock records raised at the page's position, while
the agent table waits (R24, R30). -/
def Part.takeDetach (p : Part) (a : AgentId) : Part :=
  match p.writtenArgs (.agent a) .detach with
  | some _ =>
    if p.tableFree then
      match p.detachBar a with
      | some code => p.present (.agent a) (refuse code)
      | none => (p.setStage (.agent a) .claimed).setTableServing (some (.agent a))
    else p
  | none => p

/-- The end of a DETACH with its counts read (R30). The result words of an accepted DETACH are free values (log 6). -/
def Part.concludeDetach (p : Part) (a : AgentId) (records descriptors : Nat) : Part × Answer :=
  let q := p.queue (.agent a)
  if records = 0 ∧ descriptors = 0 ∧ q.reserved = 0 ∧ q.notices.length = 0 then
    ((p.setAgent a { p.agent a with state := .detached }).freshen,
      accept (Config.detachResult0 p.fresh) (Config.detachResult1 p.fresh))
  else (p, { code := .inUse, result0 := wordOf records, result1 := wordOf descriptors })

/-- DETACH goes on: the transfer engine counts the descriptors, and then the notice unit's counts are read and the command
ends (R30). -/
def Part.proceedDetach (p : Part) (a : AgentId) : Part :=
  match (p.page (.agent a)).inFlight with
  | some x =>
    if x.cmd = .detach then
      match x.stage with
      | .turnedAway code => (p.present (.agent a) (refuse code)).setTableServing none
      | .counted n =>
        if p.transferFree then p.setStage (.agent a) (.countedBoth n (p.descriptorCount a)) else p
      | .countedBoth n d =>
        let r := p.concludeDetach a n d
        (r.1.present (.agent a) r.2).setTableServing none
      | .written | .claimed | .held | .checked _ | .entryClaimed _ | .entryHeld _ | .entryCounted _ _
      | .entryCountedBoth _ _ _ | .channelRead _ | .stopAwaited => p
    else p
  | none => p

/-- DETACH (R30). -/
def execDetach (a : AgentId) (m : LongMoment) (s : State) : Host.Outcome State Fault Refusal :=
  .next (s.onPart fun p =>
    match m with
    | .write slot high => p.startFrom (.agent a) slot high .detach
    | .take => p.takeDetach a
    | .proceed => p.proceedDetach a)

/-- The lock engine takes a claim that a block has raised for an agent page's command `c`: refused EVICTING or CLEARING as
R19 says, or answered with the stage `answer` gives. -/
def Part.serveRaised (p : Part) (a : AgentId) (c : Cmd) (answer : Vector Word 6 → Part → Stage) : Part :=
  match (p.page (.agent a)).inFlight with
  | some x =>
    if x.cmd = c ∧ x.stage = .claimed ∧ p.mayServe (agentPos a) then
      let p1 := p.served (agentPos a)
      match p1.agentBar a with
      | some code => p1.setStage (.agent a) (.turnedAway code)
      | none => p1.setStage (.agent a) (answer x.args p1)
    else p
  | none => p

/-- DETACH_RECORD_COUNT (R30). -/
def execDetachRecordCount (a : AgentId) (s : State) : Host.Outcome State Fault Refusal :=
  .next (s.onPart fun p => p.serveRaised a .detach fun _ q => .counted (q.agentRecordCount a))

/-! ### ENABLE_AGENT, DISABLE_AGENT, EVICT -/

/-- ENABLE_AGENT's own checks and effect (R26). -/
def Part.enableBody (args : Vector Word 6) (p : Part) : Part × Answer :=
  match wholeIndex 8 (pick args 0), wholeIndex 16 (pick args 1) with
  | some a, some slot =>
    if (p.agent a).state ≠ .disabled then (p, refuse .wrongState)
    else
      (p.setAgent a { p.agent a with state := .detached, slot := some (BitVec.ofNat 4 slot.val) }, accept 0 0)
  | _, _ => (p, refuse .badArgument)

/-- ENABLE_AGENT (R26). -/
def execEnableAgent (m : Moment) (s : State) : Host.Outcome State Fault Refusal :=
  .next (s.onPart fun p =>
    match m with
    | .write slot high => p.startFrom .supervisor slot high .enableAgent
    | .take => p.takeSupervisor .enableAgent p.tableFree Part.enableBody)

/-- A page with its enables, DONE and COLLIDE cleared (R27). -/
def Page.quieted (pg : Page) : Page :=
  { pg with noticeEnable := false, doneEnable := false, done := false, collide := false }

/-- DISABLE_AGENT's own checks and effect (R27). -/
def Part.disableBody (args : Vector Word 6) (p : Part) : Part × Answer :=
  match wholeIndex 8 (pick args 0) with
  | some a =>
    if (p.agent a).state ≠ .detached then (p, refuse .wrongState)
    else
      let p1 := p.setAgent a { p.agent a with state := .disabled, slot := none }
      (p1.setPage (.agent a) (p1.page (.agent a)).quieted, accept 0 0)
  | none => (p, refuse .badArgument)

/-- DISABLE_AGENT (R27). -/
def execDisableAgent (m : Moment) (s : State) : Host.Outcome State Fault Refusal :=
  .next (s.onPart fun p =>
    match m with
    | .write slot high => p.startFrom .supervisor slot high .disableAgent
    | .take => p.takeSupervisor .disableAgent p.tableFree Part.disableBody)

/-- EVICT's own checks and the first stage of the eviction (R31). -/
def Part.evictBody (args : Vector Word 6) (p : Part) : Part × Answer :=
  match wholeIndex 8 (pick args 0) with
  | some a =>
    if (p.agent a).state ≠ .attached then (p, refuse .wrongState)
    else if !p.hasRoom .supervisor 1 then (p, refuse .noNoticeRoom)
    else
      let p1 := (p.reserve .supervisor 1).setAgent a { p.agent a with state := .evicting }
      ((p1.setPurges (p.table.purges ++ [a])).setEvictions (p.table.evictions ++ [{ agent := a, stage := .purge }]),
        accept 0 0)
  | none => (p, refuse .badArgument)

/-- EVICT (R31). -/
def execEvict (m : Moment) (s : State) : Host.Outcome State Fault Refusal :=
  .next (s.onPart fun p =>
    match m with
    | .write slot high => p.startFrom .supervisor slot high .evict
    | .take => p.takeSupervisor .evict p.tableFree Part.evictBody)

/-! ### The stages of an eviction -/

/-- PURGE (R22, R33): the lock engine takes the oldest purge claim and reports to the agent table. -/
def execPurge (s : State) : Host.Outcome State Fault Refusal :=
  .next (s.onPart fun p =>
    match p.table.purges with
    | a :: rest =>
      if p.mayServe tablePos then
        (allLocks.foldl (Part.purgeLock a) ((p.served tablePos).setPurges rest)).toTable (.purgeDone a)
      else p
    | [] => p)

/-- The stage of an agent's eviction, if one is in flight. -/
def Part.evictionStage (p : Part) (a : AgentId) : Option EvictionStage :=
  (p.table.evictions.find? fun v => v.agent == a).map Eviction.stage

/-- An eviction moved to its third stage where it is the agent's. -/
def Eviction.advanced (a : AgentId) (v : Eviction) : Eviction :=
  if v.agent = a then { v with stage := .withdraw } else v

/-- Evictions go on through their stages until the agent table takes the report that a CLEAR's channels are at rest (R36,
R144); from then on the CLEAR finishes those still in flight (R145, R147, log 23). -/
def Part.evictionsGoOn (p : Part) : Bool :=
  match p.table.clear with
  | none | some .stopSent | some .stopping | some .atRest => true
  | some .stepDue | some .stepPending | some .stepDone | some .transferSent | some .transferDone => false

/-- The third stage begins: the withdraw-all is sent to the transfer engine (R34), while evictions go on (log 23). -/
def Part.sendWithdrawAll (a : AgentId) (p : Part) : Part :=
  if p.evictionsGoOn = true ∧ p.evictionStage a = some .purge then
    (p.setEvictions (p.table.evictions.map (Eviction.advanced a))).toTransfer (.withdrawAll a)
  else p

/-- PURGE_DONE_REPORT (R33, R34): ignored where a CLEAR has finished the eviction or is to finish it (R147, log 23). -/
def execPurgeDoneReport (s : State) : Host.Outcome State Fault Refusal :=
  .next (s.onPart fun p => p.takeReport fun r =>
    match r with
    | .purgeDone a => some (Part.sendWithdrawAll a)
    | .noDescriptorLeft _ | .channelsAtRest | .lockTableStep | .transferStep => none)

/-- The fourth stage: the queue emptied, the agent DETACHED with its evicted flag set, AGENT_EVICTED delivered (R35), while
evictions go on. An eviction that comes here after a CLEAR's channels have come to rest is finished by the CLEAR's agent step,
so that its AGENT_EVICTED stands where R147 places it (log 23). -/
def Part.completeEviction (a : AgentId) (p : Part) : Part :=
  if p.evictionsGoOn = true ∧ p.evictionStage a = some .withdraw then
    let p1 := (p.setQueue (.agent a) Queue.emptied).setAgent a { p.agent a with state := .detached, evicted := true }
    (p1.setEvictions (p.table.evictions.filter fun v => v.agent != a)).notifySupervisor (.agentEvicted a)
  else p

/-- NO_DESCRIPTOR_LEFT_REPORT (R35): ignored where a CLEAR has finished the eviction or is to finish it (R147, log 23). -/
def execNoDescriptorLeftReport (s : State) : Host.Outcome State Fault Refusal :=
  .next (s.onPart fun p => p.takeReport fun r =>
    match r with
    | .noDescriptorLeft a => some (Part.completeEviction a)
    | .purgeDone _ | .channelsAtRest | .lockTableStep | .transferStep => none)

/-! ### INSPECT_AGENT -/

/-- The agent table takes the first part of INSPECT_AGENT: the entry read, and the claim for the lock record count raised, or
kept back while the lock-table step of a CLEAR stands at the position (R142, R145). -/
def Part.takeInspectAgent (p : Part) : Part :=
  match p.writtenArgs .supervisor .inspectAgent with
  | some args =>
    if p.tableFree then
      match wholeIndex 8 (pick args 0) with
      | none => p.present .supervisor (refuse .badArgument)
      | some a =>
        let e := p.agent a
        (p.setStage .supervisor (if p.table.clear = some .stepPending then .entryHeld e else .entryClaimed e)).setTableServing
          (some .supervisor)
    else p
  | none => p

/-- INSPECT_AGENT goes on: the transfer engine counts the descriptors, and then the notice unit's counts are read and the
result is presented (R142). -/
def Part.proceedInspectAgent (p : Part) : Part :=
  match p.port.supervisor.inFlight with
  | some x =>
    match x.cmd, wholeIndex 8 (pick x.args 0) with
    | .inspectAgent, some a =>
      match x.stage with
      | .entryCounted e n =>
        if p.transferFree then p.setStage .supervisor (.entryCountedBoth e n (p.descriptorCount a)) else p
      | .entryCountedBoth e n d =>
        (p.present .supervisor (accept (agentWord e (p.queue (.agent a))) (agentCountsWord n d))).setTableServing none
      | .written | .claimed | .held | .turnedAway _ | .checked _ | .counted _ | .countedBoth _ _ | .entryClaimed _
      | .entryHeld _ | .channelRead _ | .stopAwaited => p
    | _, _ => p
  | none => p

/-- INSPECT_AGENT (R142). -/
def execInspectAgent (m : LongMoment) (s : State) : Host.Outcome State Fault Refusal :=
  .next (s.onPart fun p =>
    match m with
    | .write slot high => p.startFrom .supervisor slot high .inspectAgent
    | .take => p.takeInspectAgent
    | .proceed => p.proceedInspectAgent)

/-- INSPECT_AGENT_RECORD_COUNT (R142). -/
def Part.countForInspection (p : Part) : Part :=
  match p.port.supervisor.inFlight with
  | some x =>
    match x.stage, wholeIndex 8 (pick x.args 0) with
    | .entryClaimed e, some a =>
      if p.mayServe supervisorPos then
        (p.served supervisorPos).raiseDueStep.setStage .supervisor (.entryCounted e (p.agentRecordCount a))
      else p
    | _, _ => p
  | none => p

/-- INSPECT_AGENT_RECORD_COUNT (R142). -/
def execInspectAgentRecordCount (s : State) : Host.Outcome State Fault Refusal := .next (s.onPart Part.countForInspection)

/-! ### CLEAR -/

/-- The agent table takes CLEAR (R143): its checks, the place, the mark, and the stop sent to the transfer engine; the result
is presented when the stop has been given. -/
def Part.takeClear (p : Part) : Part :=
  match p.writtenArgs .supervisor .clear with
  | some _ =>
    if p.tableFree then
      if p.clearing then p.present .supervisor (refuse .clearing)
      else if !p.hasRoom .supervisor 1 then p.present .supervisor (refuse .noNoticeRoom)
      else
        ((((p.reserve .supervisor 1).setClear (some .stopSent)).setStage .supervisor .stopAwaited).setTableServing
          (some .supervisor)).toTransfer .clearStop
    else p
  | none => p

/-- The number of channels with a started head (R143). -/
def Part.startedHeads (p : Part) : Nat :=
  (if (p.chan .c0).startedHead.isSome then 1 else 0) + (if (p.chan .c1).startedHead.isSome then 1 else 0)

/-- The transfer engine takes the stop of a CLEAR, and CLEAR's result is presented (R123, R143). -/
def Part.giveClearStop (p : Part) : Part :=
  let p1 := ((p.giveStop .c0 .cleared).giveStop .c1 .cleared).setClear (some .stopping)
  (p1.present .supervisor (accept (wordOf p.startedHeads) (wordOf p.table.evictions.length))).setTableServing none

/-- CLEAR (R123, R143). -/
def execClear (m : LongMoment) (s : State) : Host.Outcome State Fault Refusal :=
  .next (s.onPart fun p =>
    match m with
    | .write slot high => p.startFrom .supervisor slot high .clear
    | .take => p.takeClear
    | .proceed => p.takeItem fun i =>
      match i with
      | .clearStop => some Part.giveClearStop
      | .acquisitionAnswer _ _ | .grantReport _ _ _ | .waitEnded _ _ | .holdingEnded _ _ | .removalAnswer _ _
      | .guardAnswer _ _ | .releaseAnswer _ _ | .burstOutcome _ _ | .withdrawAll _ | .clearTransferStep => none)

/-- The channels are at rest: the pending purge claims are removed and the lock-table step is raised, or waits for the
supervisor page's pending claim to be taken (R145). -/
def Part.raiseLockTableStep (p : Part) : Part :=
  (p.setPurges []).setClear (some (if p.pageClaims .supervisor then .stepDue else .stepPending))

/-- CHANNELS_AT_REST_REPORT (R145). -/
def execChannelsAtRestReport (s : State) : Host.Outcome State Fault Refusal :=
  .next (s.onPart fun p => p.takeReport fun r =>
    match r with
    | .channelsAtRest => some Part.raiseLockTableStep
    | .purgeDone _ | .noDescriptorLeft _ | .lockTableStep | .transferStep => none)

/-- The claim of the supervisor page that was kept back is raised (R145). -/
def Part.raiseHeld (p : Part) : Part :=
  match p.port.supervisor.inFlight with
  | some x =>
    match x.stage with
    | .held => p.setStage .supervisor .claimed
    | .entryHeld e => p.setStage .supervisor (.entryClaimed e)
    | .written | .claimed | .turnedAway _ | .checked _ | .counted _ | .countedBoth _ _ | .entryClaimed _
    | .entryCounted _ _ | .entryCountedBoth _ _ _ | .channelRead _ | .stopAwaited => p
  | none => p

/-- CLEAR_LOCK_TABLE_STEP (R22, R145). -/
def execClearLockTableStep (s : State) : Host.Outcome State Fault Refusal :=
  .next (s.onPart fun p =>
    if p.table.clear = some .stepPending ∧ p.mayServe supervisorPos then
      (((allLocks.foldl Part.clearLock (p.served supervisorPos)).setClear (some .stepDone)).toTable .lockTableStep).raiseHeld
    else p)

/-- The transfer step is asked for (R146). -/
def Part.sendTransferStep (p : Part) : Part := (p.setClear (some .transferSent)).toTransfer .clearTransferStep

/-- LOCK_TABLE_STEP_REPORT (R146). -/
def execLockTableStepReport (s : State) : Host.Outcome State Fault Refusal :=
  .next (s.onPart fun p => p.takeReport fun r =>
    match r with
    | .lockTableStep => some Part.sendTransferStep
    | .purgeDone _ | .noDescriptorLeft _ | .channelsAtRest | .transferStep => none)

/-- An agent's entry after CLEAR: ATTACHED and EVICTING become DETACHED with the evicted flag set (R147). -/
def AgentEntry.cleared (e : AgentEntry) : AgentEntry :=
  match e.state with
  | .disabled | .detached => e
  | .attached | .evicting => { e with state := .detached, evicted := true }

/-- CLEAR is completed (R147): the agents, their queues, the evictions in flight, CLEAR_DONE and the mark. -/
def Part.completeClear (p : Part) : Part :=
  let p1 := (p.setAgents (each AgentEntry.cleared p.table.agents)).setQueues
    (each (fun _ => Queue.emptied) p.notices.agents)
  ((p.table.evictions.foldl (fun q v => q.notifySupervisor (.agentEvicted v.agent)) (p1.setEvictions [])).notifySupervisor
    .clearDone).setClear none

/-- CLEAR_AGENT_STEP (R147). -/
def execClearAgentStep (s : State) : Host.Outcome State Fault Refusal :=
  .next (s.onPart fun p => p.takeReport fun r =>
    match r with
    | .transferStep => some Part.completeClear
    | .purgeDone _ | .noDescriptorLeft _ | .channelsAtRest | .lockTableStep => none)

end Sys2Proof.Machine
end

