-- ==== Sys2Proof/Machine/Timebase.lean ====
section
/-! DEFINITION. The timebase and the expiry source: SET_TIMEBASE, TICK_BOUNDARY, the counts that run out, and the expiry
claims (Chapters 3 and 4). -/

namespace Sys2Proof.Machine

/-- SET_TIMEBASE's own check and effect (R67). The fresh period it starts is not held: no time passes in the model but by
TICK_BOUNDARY (log 16). -/
def Part.setTimebaseBody (args : Vector Word 6) (p : Part) : Part × Answer :=
  match periodOfCode (pick args 0) with
  | none => (p, refuse .badArgument)
  | some t => (p.setPeriod t, accept (fieldAt 0 p.period.bits) 0)

/-- SET_TIMEBASE (R67). -/
def execSetTimebase (m : Moment) (s : State) : Host.Outcome State Fault Refusal :=
  .next (s.onPart fun p =>
    match m with
    | .write slot high => p.startFrom .supervisor slot high .setTimebase
    | .take => p.takeSupervisor .setTimebase true Part.setTimebaseBody)

/-- A tick boundary (R65, R66, R129): the lock engine's counts and the master's grant-wait count fall, and the counts that
reach zero wait, in the order of R21, for their claims to be appended. -/
def Part.tick (p : Part) : Part :=
  ((p.setLocks (each LockEntry.tick p.engine.locks)).setRanOut
    (p.engine.ranOut ++ allLocks.flatMap fun l => (p.lock l).runsOut l)).setMaster p.master.tick

/-- TICK_BOUNDARY (R65, R66, R129). -/
def execTickBoundary (s : State) : Host.Outcome State Fault Refusal := .next (s.onPart Part.tick)

/-- The expiry source appends the claim of the oldest count that has run out, where it is of the kind named (R21, R66). -/
def Part.appendExpiry (p : Part) (k : CountKind) : Part :=
  match p.engine.ranOut with
  | x :: rest =>
    if x.kind = k then (p.setRanOut rest).setExpiry (p.engine.expiry ++ [x]) else p
  | [] => p

/-- LEASE_RUNS_OUT (R66, R69). -/
def execLeaseRunsOut (s : State) : Host.Outcome State Fault Refusal := .next (s.onPart fun p => p.appendExpiry .lease)

/-- WAIT_RUNS_OUT (R48, R66). -/
def execWaitRunsOut (s : State) : Host.Outcome State Fault Refusal := .next (s.onPart fun p => p.appendExpiry .wait)

/-- The lock engine takes the oldest claim of the expiry source, where it is of the kind named (R20, R21). -/
def Part.serveExpiry (p : Part) (k : CountKind) (body : LockId → Party → Part → Part) : Part :=
  match p.engine.expiry with
  | x :: rest =>
    if x.kind = k ∧ p.mayServe expiryPos then
      body x.lock x.party ((p.served expiryPos).setExpiry rest)
    else p
  | [] => p

/-- The lease expiry claim of a party's holding (R73): revoked if it is there with its remaining lease at zero. -/
def Part.expireLease (l : LockId) (q : Party) (p : Part) : Part :=
  match (p.lock l).holderOf q with
  | some h =>
    if h.remaining = some 0 then
      ((Part.reportRevoked l .leaseExpired (p.setLock l ((p.lock l).withoutHolder q)) h).settle l).1
    else p
  | none => p

/-- LEASE_EXPIRY (R73, R74, R78). -/
def execLeaseExpiry (s : State) : Host.Outcome State Fault Refusal :=
  .next (s.onPart fun p => p.serveExpiry .lease Part.expireLease)

/-- The report of a wait that has expired (R49). -/
def Part.reportExpired (l : LockId) (p : Part) (w : Waiting) : Part :=
  match w.party with
  | .agent a => p.notify a (.waitExpired l) 2
  | .chan c => p.toTransfer (.waitEnded c .expired)

/-- The expiry claim of a party's wait (R49): removed if it is there with its remaining wait at zero. -/
def Part.expireWait (l : LockId) (q : Party) (p : Part) : Part :=
  match (p.lock l).waiterOf q with
  | some w =>
    if w.remaining = some 0 then
      ((Part.reportExpired l (p.setLock l ((p.lock l).withoutWaiter q)) w).runPass l).1
    else p
  | none => p

/-- WAIT_EXPIRY (R49). -/
def execWaitExpiry (s : State) : Host.Outcome State Fault Refusal :=
  .next (s.onPart fun p => p.serveExpiry .wait Part.expireWait)

end Sys2Proof.Machine
end

