-- ==== Sys2Proof/Machine/Bursts.lean ====
section
/-! DEFINITION. The backplane master's command and events: SET_BUS_WAIT, BUS_GRANT, BUS_TIMEOUT, and the answers to its read
and write cycles (Chapter 7). -/

namespace Sys2Proof.Machine

/-- A tick count argument from 1 to 255 (R130, R161). -/
def busWaitArg (w : Word) : Option (BitVec 8) :=
  if 1 ≤ w.toNat ∧ w.toNat ≤ 255 then some (w.setWidth 8) else none

/-- SET_BUS_WAIT's own check and effect (R130). -/
def Part.setBusWaitBody (args : Vector Word 6) (p : Part) : Part × Answer :=
  match busWaitArg (pick args 0) with
  | none => (p, refuse .badArgument)
  | some n => (p.setMaster { p.master with limit := n }, accept (fieldAt 0 p.master.limit) 0)

/-- SET_BUS_WAIT (R130). -/
def execSetBusWait (m : Moment) (s : State) : Host.Outcome State Fault Refusal :=
  .next (s.onPart fun p =>
    match m with
    | .write slot high => p.startFrom .supervisor slot high .setBusWait
    | .take => p.takeSupervisor .setBusWait true Part.setBusWaitBody)

/-- The phase a burst enters at its grant: WRITING for a WRITE_WORD, READING otherwise (R126, R129). -/
def Burst.grantedPhase (b : Burst) : Phase :=
  match b with
  | .copy _ _ _ | .read _ => .reading
  | .write _ _ => .writing

/-- A grant of the backplane (R129). A grant on a withdrawn request, on no request, or on one whose count has run out is
released at once. -/
def Master.grant (m : Master) (g : GrantFor) : Master :=
  match g, m.phase, m.current with
  | .asserted, .requesting, some b =>
    if m.count = some 0 then m else { m with phase := b.burst.grantedPhase, count := none }
  | _, _, _ => m

/-- BUS_GRANT (R129). -/
def execBusGrant (g : GrantFor) (s : State) : Host.Outcome State Fault Refusal :=
  .next (s.onPart fun p => p.setMaster (p.master.grant g))

/-- BUS_TIMEOUT (R129): the grant-wait count has reached zero. -/
def execBusTimeout (s : State) : Host.Outcome State Fault Refusal :=
  .next (s.onPart fun p =>
    match p.master.phase, p.master.current with
    | .requesting, some b => if p.master.count = some 0 then p.endBurst b.chan .busTimeout else p
    | _, _ => p)

/-- A word read by a burst (R131): placed in the staging buffer; after the last of a copy the master enters WRITING, and a
READ_WORD completes with its word. -/
def Part.readData (p : Part) (b : CurrentBurst) (w : Word) : Part :=
  match b.burst with
  | .copy _ _ n =>
    let words := p.master.staging ++ [w]
    p.setMaster { p.master with staging := words, phase := (if n ≤ 4 * words.length then .writing else .reading) }
  | .read _ => p.endBurst b.chan (.completed 4 (some w))
  | .write _ _ => p

/-- READ_CYCLE_ANSWERED (R131). -/
def execReadCycleAnswered (answer : ReadAnswer) (s : State) : Host.Outcome State Fault Refusal :=
  .next (s.onPart fun p =>
    match p.master.phase, p.master.current, answer with
    | .reading, some b, .data w => p.readData b w
    | .reading, some b, .busError => p.endBurst b.chan .sourceError
    | _, _, _ => p)

/-- A write cycle acknowledged (R132): the burst completes with its last word. -/
def Part.writeDone (p : Part) (b : CurrentBurst) : Part :=
  if b.burst.length ≤ 4 * (p.master.written + 1) then p.endBurst b.chan (.completed b.burst.length none)
  else p.setMaster { p.master with written := p.master.written + 1 }

/-- WRITE_CYCLE_ANSWERED (R132). -/
def execWriteCycleAnswered (answer : WriteAnswer) (s : State) : Host.Outcome State Fault Refusal :=
  .next (s.onPart fun p =>
    match p.master.phase, p.master.current, answer with
    | .writing, some b, .acknowledged => p.writeDone b
    | .writing, some b, .busError => p.endBurst b.chan .destError
    | _, _, _ => p)

end Sys2Proof.Machine
end

