-- ==== Sys2Proof/Machine/ChannelClaims.lean ====
section
/-! DEFINITION. The lock engine's service of the channels' claims (R62 to R64, R110, R111). -/

namespace Sys2Proof.Machine

/-- Check 1 of R62: the lock is OPEN, allows the mode by its class, and has the owner agent in its party mask. -/
def LockEntry.admitsChannel (e : LockEntry) (m : Mode) (owner : AgentId) : Bool :=
  e.state == .opened && !(m == .shared && e.cls == .exclusiveOnly) && e.mask.getLsbD owner.val

/-- A channel's acquisition claim (R62). -/
def Part.acquireFor (c : ChanId) (l : LockId) (m : Mode) (requested waitLimit : Ticks) (owner : AgentId) (p : Part) : Part :=
  let e := p.lock l
  if !e.admitsChannel m owner then p.toTransfer (.acquisitionAnswer c .closed)
  else if e.grantableNow m then
    let h := e.newHolding (.chan c) owner m requested
    (p.setLock l (e.withHolding h)).toTransfer (.acquisitionAnswer c (.granted h.token (h.remaining.getD 0)))
  else
    (p.setLock l (e.withWait (newWait (.chan c) owner m requested waitLimit))).toTransfer (.acquisitionAnswer c .waits)

/-- CHANNEL_ACQUISITION (R62). -/
def execChannelAcquisition (c : ChanId) (s : State) : Host.Outcome State Fault Refusal :=
  .next (s.onPart fun p => p.serveChannel c fun cl =>
    match cl with
    | .acquisition l m r w owner => some (Part.acquireFor c l m r w owner)
    | .removal _ | .release _ | .acquireGuard _ | .fenceGuard _ _ _ => none)

/-- A channel's claim to remove its own waiter record (R63). -/
def Part.removeWaiterFor (c : ChanId) (l : LockId) (p : Part) : Part :=
  let e := p.lock l
  match e.waiterOf (.chan c) with
  | some _ => ((p.setLock l (e.withoutWaiter (.chan c))).runPass l).1.toTransfer (.removalAnswer c .gone)
  | none =>
    match e.holderOf (.chan c) with
    | some h => p.toTransfer (.removalAnswer c (.holds h.token))
    | none => p.toTransfer (.removalAnswer c .noRecord)

/-- CHANNEL_WAITER_REMOVAL (R63). -/
def execChannelWaiterRemoval (c : ChanId) (s : State) : Host.Outcome State Fault Refusal :=
  .next (s.onPart fun p => p.serveChannel c fun cl =>
    match cl with
    | .removal l => some (Part.removeWaiterFor c l)
    | .acquisition _ _ _ _ _ | .release _ | .acquireGuard _ | .fenceGuard _ _ _ => none)

/-- A channel's release claim (R64). -/
def Part.releaseFor (c : ChanId) (l : LockId) (p : Part) : Part :=
  let e := p.lock l
  match e.holderOf (.chan c) with
  | some _ => ((p.setLock l (e.withoutHolder (.chan c))).settle l).1.toTransfer (.releaseAnswer c true)
  | none => p.toTransfer (.releaseAnswer c false)

/-- CHANNEL_RELEASE (R64). -/
def execChannelRelease (c : ChanId) (s : State) : Host.Outcome State Fault Refusal :=
  .next (s.onPart fun p => p.serveChannel c fun cl =>
    match cl with
    | .release l => some (Part.releaseFor c l)
    | .acquisition _ _ _ _ _ | .removal _ | .acquireGuard _ | .fenceGuard _ _ _ => none)

/-- ACQUIRE_GUARD_CHECK (R110): passes when the channel holds the lock. -/
def execAcquireGuardCheck (c : ChanId) (s : State) : Host.Outcome State Fault Refusal :=
  .next (s.onPart fun p => p.serveChannel c fun cl =>
    match cl with
    | .acquireGuard l => some fun p => p.toTransfer (.guardAnswer c ((p.lock l).holderOf (.chan c)).isSome)
    | .acquisition _ _ _ _ _ | .removal _ | .release _ | .fenceGuard _ _ _ => none)

/-- Whether an agent itself holds a lock under a token (R111). -/
def LockEntry.heldBy (e : LockEntry) (owner : AgentId) (token : Word) : Bool :=
  e.holders.any fun h => h.party == .agent owner && h.token == token

/-- FENCE_GUARD_CHECK (R111): passes when the owner agent holds the lock under the cited token. -/
def execFenceGuardCheck (c : ChanId) (s : State) : Host.Outcome State Fault Refusal :=
  .next (s.onPart fun p => p.serveChannel c fun cl =>
    match cl with
    | .fenceGuard l owner token => some fun p => p.toTransfer (.guardAnswer c ((p.lock l).heldBy owner token))
    | .acquisition _ _ _ _ _ | .removal _ | .release _ | .acquireGuard _ => none)

end Sys2Proof.Machine
end

