-- ==== Sys2Proof/Machine/Transfers.lean ====
section
/-! DEFINITION. The transfer engine's commands and events: POST, WITHDRAW, PAUSE_CHANNEL, RESUME_CHANNEL, INSPECT_CHANNEL,
the answers, reports and outcomes it takes, the withdraw-all of an eviction and the transfer step of a CLEAR (Chapter 6). -/

namespace Sys2Proof.Machine

/-! ### POST -/

/-- The checks of R103 and the acceptance of a descriptor. -/
def Part.acceptPost (p : Part) (a : AgentId) (c : ChanId) (d : Descriptor) : Part × Answer :=
  if (p.findDescriptor a d.tag).isSome then (p, refuse .duplicateTag)
  else if !p.hasRoom (.agent a) 1 then (p, refuse .noNoticeRoom)
  else if p.descriptorsFree = 0 then (p, refuse .noDescriptor)
  else
    let p1 := (p.reserve (.agent a) 1).onChan c fun ch => { ch with list := ch.list ++ [d] }
    (if (p1.chan c).state = .idle then p1.takeHead c else p1,
      accept (wordOf (p1.chan c).list.length) 0)

/-- The transfer engine takes POST (R100 to R102): its checks, and for a guarded descriptor the claim for the lock's standing,
while the transfer engine waits. -/
def Part.takePost (p : Part) (a : AgentId) : Part :=
  match p.writtenArgs (.agent a) .post with
  | some args =>
    if p.transferFree then
      match p.attachedBar a with
      | some code => p.present (.agent a) (refuse code)
      | none =>
        match postArgs a args with
        | none => p.present (.agent a) (refuse .badArgument)
        | some (c, d) =>
          if !d.op.ranges.all (rangeAllowed p.straps) then p.present (.agent a) (refuse .badAddress)
          else
            match d.guard.lock with
            | none =>
              let r := p.acceptPost a c d
              r.1.present (.agent a) r.2
            | some _ => (p.setStage (.agent a) .claimed).setTransferServing (some a)
    else p
  | none => p

/-- The refusals of R102 by the standing of the guard's lock. -/
def LockStanding.refusal (st : LockStanding) (a : AgentId) (g : Guard) : Option ResultCode :=
  let sharedAsked : Bool :=
    match g with
    | .acquire _ .shared _ _ => true
    | .acquire _ .exclusive _ _ | .fence _ _ | .none => false
  if st.state = .disabled then some .lockDisabled
  else if sharedAsked ∧ st.cls = .exclusiveOnly then some .modeNotAllowed
  else if !st.mask.getLsbD a.val then some .notPermitted
  else none

/-- A guarded POST goes on with its lock check answered (R102, R103). -/
def Part.proceedPost (p : Part) (a : AgentId) : Part :=
  match (p.page (.agent a)).inFlight with
  | some x =>
    match x.cmd, x.stage with
    | .post, .turnedAway code => (p.present (.agent a) (refuse code)).setTransferServing none
    | .post, .checked st =>
      match postArgs a x.args with
      | none => (p.present (.agent a) (refuse .badArgument)).setTransferServing none
      | some (c, d) =>
        match st.refusal a d.guard with
        | some code => (p.present (.agent a) (refuse code)).setTransferServing none
        | none =>
          let r := p.acceptPost a c d
          (r.1.present (.agent a) r.2).setTransferServing none
    | _, _ => p
  | none => p

/-- POST (R100 to R103). -/
def execPost (a : AgentId) (m : LongMoment) (s : State) : Host.Outcome State Fault Refusal :=
  .next (s.onPart fun p =>
    match m with
    | .write slot high => p.startFrom (.agent a) slot high .post
    | .take => p.takePost a
    | .proceed => p.proceedPost a)

/-- The standing of the lock a POST's guard names (R102). -/
def Part.standingFor (a : AgentId) (args : Vector Word 6) (p : Part) : Stage :=
  match (postArgs a args).bind fun x => x.2.guard.lock with
  | some l => .checked { state := (p.lock l).state, cls := (p.lock l).cls, mask := (p.lock l).mask }
  | none => .turnedAway .badArgument

/-- POST_LOCK_CHECK (R102). -/
def execPostLockCheck (a : AgentId) (s : State) : Host.Outcome State Fault Refusal :=
  .next (s.onPart fun p => p.serveRaised a .post (Part.standingFor a))

/-! ### WITHDRAW -/

/-- The list without the descriptors of an agent with a tag. -/
def Channel.without (ch : Channel) (a : AgentId) (tag : BitVec 16) : Channel :=
  { ch with list := ch.list.eraseP fun d => d.owner == a && d.tag == tag }

/-- WITHDRAW's own checks and effect (R117, R118). -/
def Part.withdrawBody (p : Part) (a : AgentId) (args : Vector Word 6) : Part × Answer :=
  match wholeTicks (pick args 0) with
  | none => (p, refuse .badArgument)
  | some tag =>
    match p.findDescriptor a tag with
    | none => (p, refuse .noSuchTag)
    | some (c, d) =>
      if d.started then
        if (p.chan c).stop.isSome ∨ (p.chan c).ending.isSome then (p, refuse .wrongState)
        else (p.giveStop c .withdrawn, accept 1 (wordOf d.moved))
      else ((p.onChan c fun ch => ch.without a tag).giveBack (.agent a) 1, accept 0 0)

/-- The transfer engine takes WITHDRAW. -/
def Part.takeWithdraw (p : Part) (a : AgentId) : Part :=
  match p.writtenArgs (.agent a) .withdraw with
  | some args =>
    if p.transferFree then
      match p.attachedBar a with
      | some code => p.present (.agent a) (refuse code)
      | none =>
        let r := p.withdrawBody a args
        r.1.present (.agent a) r.2
    else p
  | none => p

/-- WITHDRAW (R117, R118). -/
def execWithdraw (a : AgentId) (m : Moment) (s : State) : Host.Outcome State Fault Refusal :=
  .next (s.onPart fun p =>
    match m with
    | .write slot high => p.startFrom (.agent a) slot high .withdraw
    | .take => p.takeWithdraw a)

/-! ### PAUSE_CHANNEL, RESUME_CHANNEL, INSPECT_CHANNEL -/

/-- PAUSE_CHANNEL's own checks and effect (R119). -/
def Part.pauseBody (args : Vector Word 6) (p : Part) : Part × Answer :=
  match wholeChan (pick args 0) with
  | none => (p, refuse .badArgument)
  | some c =>
    let ch := p.chan c
    if ch.state = .paused ∨ ch.pausePending then (p, refuse .wrongState)
    else if !p.hasRoom .supervisor 1 then (p, refuse .noNoticeRoom)
    else if ch.state = .idle then ((p.reserve .supervisor 1).pauseNow c, accept 1 0)
    else ((p.reserve .supervisor 1).onChan c fun ch => { ch with pausePending := true }, accept 0 0)

/-- PAUSE_CHANNEL (R119). -/
def execPauseChannel (m : Moment) (s : State) : Host.Outcome State Fault Refusal :=
  .next (s.onPart fun p =>
    match m with
    | .write slot high => p.startFrom .supervisor slot high .pauseChannel
    | .take => p.takeSupervisor .pauseChannel p.transferFree Part.pauseBody)

/-- A PAUSED channel resumed (R122): an end in progress goes on as STOPPING, a started head goes on as MOVING, and without one
the next head is taken. -/
def Part.resume (p : Part) (c : ChanId) : Part :=
  if (p.chan c).ending.isSome then p.onChan c fun ch => { ch with state := .stopping }
  else if (p.chan c).startedHead.isSome then (p.onChan c fun ch => { ch with state := .moving }).goOn c
  else (p.onChan c fun ch => { ch with state := .idle }).takeHead c

/-- RESUME_CHANNEL's own checks and effect (R122). -/
def Part.resumeBody (args : Vector Word 6) (p : Part) : Part × Answer :=
  match wholeChan (pick args 0) with
  | none => (p, refuse .badArgument)
  | some c =>
    let ch := p.chan c
    if ch.pausePending then
      ((p.onChan c fun ch => { ch with pausePending := false }).giveBack .supervisor 1, accept 0 0)
    else if ch.state = .paused then (p.resume c, accept 1 0)
    else (p, refuse .wrongState)

/-- RESUME_CHANNEL (R122). -/
def execResumeChannel (m : Moment) (s : State) : Host.Outcome State Fault Refusal :=
  .next (s.onPart fun p =>
    match m with
    | .write slot high => p.startFrom .supervisor slot high .resumeChannel
    | .take => p.takeSupervisor .resumeChannel p.transferFree Part.resumeBody)

/-- The transfer engine takes INSPECT_CHANNEL and reads the channel (R141). -/
def Part.takeInspectChannel (p : Part) : Part :=
  match p.writtenArgs .supervisor .inspectChannel with
  | some args =>
    if p.transferFree then
      match wholeChan (pick args 0), wholeBit (pick args 1) with
      | some c, some view => p.setStage .supervisor (.channelRead { chan := c, view, record := p.chan c })
      | _, _ => p.present .supervisor (refuse .badArgument)
    else p
  | none => p

/-- The answer of INSPECT_CHANNEL, with the master as it is read after the channel (R141, R163). -/
def ChannelReading.answer (r : ChannelReading) (m : Master) : Answer :=
  if r.view then accept (wordOf r.record.headMoved) (r.record.holding.getD 0)
  else accept (r.record.stateWord (m.phaseFor r.chan)) (r.record.headWord m.limit)

/-- The backplane master is read and INSPECT_CHANNEL's result is presented (R141). -/
def Part.proceedInspectChannel (p : Part) : Part :=
  match p.port.supervisor.inFlight with
  | some x =>
    match x.cmd, x.stage with
    | .inspectChannel, .channelRead r => p.present .supervisor (r.answer p.master)
    | _, _ => p
  | none => p

/-- INSPECT_CHANNEL (R141). -/
def execInspectChannel (m : LongMoment) (s : State) : Host.Outcome State Fault Refusal :=
  .next (s.onPart fun p =>
    match m with
    | .write slot high => p.startFrom .supervisor slot high .inspectChannel
    | .take => p.takeInspectChannel
    | .proceed => p.proceedInspectChannel)

/-! ### The answers and reports of the lock engine -/

/-- The answer to an acquisition (R107, R116). -/
def Part.onAcquisition (c : ChanId) (ans : AcquisitionAnswer) (p : Part) : Part :=
  let p1 := p.onChan c fun ch => { ch with inFlight := .nothing }
  match (p.chan c).state, ans with
  | .acquiring, .closed => p1.endFault c .lockClosed
  | .acquiring, .granted t _ => p1.granted c t
  | .acquiring, .waits => p1
  | .stopping, .closed => p1.endFault c .lockClosed
  | .stopping, .granted t _ => (p1.onChan c fun ch => { ch with holding := some t }).endFault c .withdrawn
  | .stopping, .waits => p1.raiseRemoval c
  | .idle, _ | .moving, _ | .paused, _ => p

/-- ACQUISITION_ANSWER (R107, R116). -/
def execAcquisitionAnswer (s : State) : Host.Outcome State Fault Refusal :=
  .next (s.onPart fun p => p.takeItem fun i =>
    match i with
    | .acquisitionAnswer c ans => some (Part.onAcquisition c ans)
    | .grantReport _ _ _ | .waitEnded _ _ | .holdingEnded _ _ | .removalAnswer _ _ | .guardAnswer _ _ | .releaseAnswer _ _
    | .burstOutcome _ _ | .withdrawAll _ | .clearStop | .clearTransferStep => none)

/-- The report of a grant by the grant pass (R107, R116). -/
def Part.onGrantReport (c : ChanId) (token : Word) (p : Part) : Part :=
  match (p.chan c).state with
  | .acquiring => p.granted c token
  | .stopping => p.onChan c fun ch => { ch with holding := some token }
  | .idle | .moving | .paused => p

/-- CHANNEL_GRANT_REPORT (R107, R116). -/
def execChannelGrantReport (s : State) : Host.Outcome State Fault Refusal :=
  .next (s.onPart fun p => p.takeItem fun i =>
    match i with
    | .grantReport c token _ => some (Part.onGrantReport c token)
    | .acquisitionAnswer _ _ | .waitEnded _ _ | .holdingEnded _ _ | .removalAnswer _ _ | .guardAnswer _ _
    | .releaseAnswer _ _ | .burstOutcome _ _ | .withdrawAll _ | .clearStop | .clearTransferStep => none)

/-- The fault of a wait that ended without a grant (R107). -/
def WaitEnd.fault (w : WaitEnd) : TransferFault :=
  match w with
  | .expired => .acquireTimeout
  | .closed => .lockClosed
  | .broken => .lockBroken

/-- The report of how a wait ended (R107). A STOPPING channel waits for its removal answer (R116); that the report is recorded
there shows in nothing but that it has been taken, for R105 gives the channel no field for it (log 22). -/
def Part.onWaitEnded (c : ChanId) (w : WaitEnd) (p : Part) : Part :=
  match (p.chan c).state with
  | .acquiring => p.endFault c w.fault
  | .idle | .moving | .stopping | .paused => p

/-- CHANNEL_WAIT_ENDED_REPORT (R107, R116). -/
def execChannelWaitEndedReport (s : State) : Host.Outcome State Fault Refusal :=
  .next (s.onPart fun p => p.takeItem fun i =>
    match i with
    | .waitEnded c w => some (Part.onWaitEnded c w)
    | .acquisitionAnswer _ _ | .grantReport _ _ _ | .holdingEnded _ _ | .removalAnswer _ _ | .guardAnswer _ _
    | .releaseAnswer _ _ | .burstOutcome _ _ | .withdrawAll _ | .clearStop | .clearTransferStep => none)

/-- HOLDING_ENDED_REPORT (R108): the mark is cleared and the reason recorded, and nothing else. -/
def execHoldingEndedReport (s : State) : Host.Outcome State Fault Refusal :=
  .next (s.onPart fun p => p.takeItem fun i =>
    match i with
    | .holdingEnded c why => some fun p => p.onChan c fun ch => { ch with holding := none, loss := some why }
    | .acquisitionAnswer _ _ | .grantReport _ _ _ | .waitEnded _ _ | .removalAnswer _ _ | .guardAnswer _ _
    | .releaseAnswer _ _ | .burstOutcome _ _ | .withdrawAll _ | .clearStop | .clearTransferStep => none)

/-- The answer to a removal claim (R116). -/
def Part.onRemoval (c : ChanId) (ans : RemovalAnswer) (p : Part) : Part :=
  let p1 := p.onChan c fun ch => { ch with inFlight := .nothing }
  match (p.chan c).state, ans with
  | .stopping, .gone => p1.endFault c .withdrawn
  | .stopping, .holds t => (p1.onChan c fun ch => { ch with holding := some t }).endFault c .withdrawn
  | .stopping, .noRecord => p1.endFault c .withdrawn
  | .idle, _ | .acquiring, _ | .moving, _ | .paused, _ => p

/-- WAITER_REMOVAL_ANSWER (R116). -/
def execWaiterRemovalAnswer (s : State) : Host.Outcome State Fault Refusal :=
  .next (s.onPart fun p => p.takeItem fun i =>
    match i with
    | .removalAnswer c ans => some (Part.onRemoval c ans)
    | .acquisitionAnswer _ _ | .grantReport _ _ _ | .waitEnded _ _ | .holdingEnded _ _ | .guardAnswer _ _
    | .releaseAnswer _ _ | .burstOutcome _ _ | .withdrawAll _ | .clearStop | .clearTransferStep => none)

/-- The answer to a guard check (R109, R116). -/
def Part.onGuard (c : ChanId) (passes : Bool) (p : Part) : Part :=
  let p1 := p.onChan c fun ch => { ch with inFlight := .nothing }
  match (p.chan c).state, passes with
  | .moving, true => p1.afterGuard c
  | .moving, false => p1.freshen.endDescriptor c (.fault (p.guardFault c))
  | .stopping, true => p1.endFault c .withdrawn
  | .stopping, false => p1.freshen.endFault c (p.guardFault c)
  | .idle, _ | .acquiring, _ | .paused, _ => p

/-- GUARD_CHECK_ANSWER (R109, R116). -/
def execGuardCheckAnswer (s : State) : Host.Outcome State Fault Refusal :=
  .next (s.onPart fun p => p.takeItem fun i =>
    match i with
    | .guardAnswer c passes => some (Part.onGuard c passes)
    | .acquisitionAnswer _ _ | .grantReport _ _ _ | .waitEnded _ _ | .holdingEnded _ _ | .removalAnswer _ _
    | .releaseAnswer _ _ | .burstOutcome _ _ | .withdrawAll _ | .clearStop | .clearTransferStep => none)

/-- The answer to a release claim: the holding-present mark is cleared and the end goes on at its step 2 (R113). -/
def Part.onRelease (c : ChanId) (p : Part) : Part :=
  match (p.chan c).ending with
  | some o => (p.onChan c fun ch => { ch with holding := none, inFlight := .nothing, ending := none }).finishEnd c o
  | none => p

/-- RELEASE_ANSWER (R113). -/
def execReleaseAnswer (s : State) : Host.Outcome State Fault Refusal :=
  .next (s.onPart fun p => p.takeItem fun i =>
    match i with
    | .releaseAnswer c _ => some (Part.onRelease c)
    | .acquisitionAnswer _ _ | .grantReport _ _ _ | .waitEnded _ _ | .holdingEnded _ _ | .removalAnswer _ _
    | .guardAnswer _ _ | .burstOutcome _ _ | .withdrawAll _ | .clearStop | .clearTransferStep => none)

/-! ### Burst outcomes -/

/-- A descriptor after a completed burst: bytes moved rise, and a READ_WORD keeps the word read (R112). -/
def Descriptor.afterBurst (d : Descriptor) (n : Nat) (w : Option Word) : Descriptor :=
  { d with moved := d.moved + n,
           op := (match d.op, w with
                  | .readWord s _, some v => .readWord s (some v)
                  | .readWord s v, none => .readWord s v
                  | .copy s t k, _ => .copy s t k
                  | .writeWord t v, _ => .writeWord t v) }

/-- The error of a burst that failed (R133). -/
def BurstResult.error (r : BurstResult) : Option TransferFault :=
  match r with
  | .completed _ _ => none
  | .sourceError => some .sourceError
  | .destError => some .destError
  | .busTimeout => some .busTimeout

/-- The outcome of a channel's burst (R109, R112, R116). -/
def Part.onBurst (c : ChanId) (r : BurstResult) (p : Part) : Part :=
  let p1 := p.onChan c fun ch => { ch with inFlight := .nothing }
  match (p.chan c).state, r with
  | .moving, .completed n w =>
    let p2 := p1.onChan c fun ch => ch.onHead fun d => d.afterBurst n w
    if (p.chan c).pausePending then p2.pauseNow c else p2.goOn c
  | .stopping, .completed n w => (p1.onChan c fun ch => ch.onHead fun d => d.afterBurst n w).endFault c .withdrawn
  | .moving, .sourceError | .stopping, .sourceError => p1.endDescriptor c (.fault .sourceError)
  | .moving, .destError | .stopping, .destError => p1.endDescriptor c (.fault .destError)
  | .moving, .busTimeout | .stopping, .busTimeout => p1.endDescriptor c (.fault .busTimeout)
  | .idle, _ | .acquiring, _ | .paused, _ => p

/-- BURST_OUTCOME (R109, R112, R116). -/
def execBurstOutcome (s : State) : Host.Outcome State Fault Refusal :=
  .next (s.onPart fun p => p.takeItem fun i =>
    match i with
    | .burstOutcome c r => some (Part.onBurst c r)
    | .acquisitionAnswer _ _ | .grantReport _ _ _ | .waitEnded _ _ | .holdingEnded _ _ | .removalAnswer _ _
    | .guardAnswer _ _ | .releaseAnswer _ _ | .withdrawAll _ | .clearStop | .clearTransferStep => none)

/-! ### The withdraw-all of an eviction and the transfer step of a CLEAR -/

/-- The descriptors of an agent on a list that have not started. -/
def Channel.unstartedOf (ch : Channel) (a : AgentId) : Nat := ch.list.countP fun d => d.owner == a && !d.started

/-- The channel without the descriptors of an agent that have not started (R34). -/
def Channel.withoutUnstarted (ch : Channel) (a : AgentId) : Channel :=
  { ch with list := ch.list.filter fun d => !(d.owner == a && !d.started) }

/-- The stop of an eviction, given to a channel whose started head the agent owns (R34, R115). -/
def Part.stopFor (p : Part) (a : AgentId) (c : ChanId) : Part :=
  match (p.chan c).startedHead with
  | some d => if d.owner = a then p.giveStop c .evicted else p
  | none => p

/-- The withdraw-all of an agent's eviction (R34). -/
def Part.onWithdrawAll (a : AgentId) (p : Part) : Part :=
  let n := (p.chan .c0).unstartedOf a + (p.chan .c1).unstartedOf a
  let p1 := ((p.onChan .c0 fun ch => ch.withoutUnstarted a).onChan .c1 fun ch => ch.withoutUnstarted a).giveBack (.agent a) n
  let p2 := (p1.stopFor a .c0).stopFor a .c1
  (p2.setWithdrawing (p2.transfer.withdrawing ++ [a])).reportIfNone a

/-- WITHDRAW_ALL (R34). -/
def execWithdrawAll (s : State) : Host.Outcome State Fault Refusal :=
  .next (s.onPart fun p => p.takeItem fun i =>
    match i with
    | .withdrawAll a => some (Part.onWithdrawAll a)
    | .acquisitionAnswer _ _ | .grantReport _ _ _ | .waitEnded _ _ | .holdingEnded _ _ | .removalAnswer _ _
    | .guardAnswer _ _ | .releaseAnswer _ _ | .burstOutcome _ _ | .clearStop | .clearTransferStep => none)

/-- A channel settled by CLEAR's transfer step (R146). -/
def Channel.cleared (ch : Channel) : Channel :=
  { state := (if ch.state = .paused ∨ ch.pausePending then .paused else .idle), pausePending := false, stop := none,
    holding := none, currentLock := none, loss := none, inFlight := .nothing, ending := none, list := [] }

/-- CLEAR's transfer step (R146): every descriptor freed, the channels settled, CHANNEL_PAUSED for each pause that was
pending, C0 before C1, and the report to the agent table. -/
def Part.clearTransfer (p : Part) : Part :=
  let p0 := p.setWithdrawing []
  let p1 := (p0.onChan .c0 Channel.cleared).onChan .c1 Channel.cleared
  let p2 := if (p.chan .c0).pausePending then p1.notifySupervisor (.channelPaused .c0) else p1
  let p3 := if (p.chan .c1).pausePending then p2.notifySupervisor (.channelPaused .c1) else p2
  (p3.setClear (some .transferDone)).toTable .transferStep

/-- CLEAR_TRANSFER_STEP (R146). -/
def execClearTransferStep (s : State) : Host.Outcome State Fault Refusal :=
  .next (s.onPart fun p => p.takeItem fun i =>
    match i with
    | .clearTransferStep => some Part.clearTransfer
    | .acquisitionAnswer _ _ | .grantReport _ _ _ | .waitEnded _ _ | .holdingEnded _ _ | .removalAnswer _ _
    | .guardAnswer _ _ | .releaseAnswer _ _ | .burstOutcome _ _ | .withdrawAll _ | .clearStop => none)

end Sys2Proof.Machine
end

