-- ==== Sys2Proof/Machine/Window.lean ====
section
/-! DEFINITION. The commands that are accesses of the window and not page commands, and hardware reset. -/

namespace Sys2Proof.Machine

/-- UNDEFINED_COMMAND_CODE (R153): a COMMAND write of `value`. A code that names no command of the page is refused
BAD_ARGUMENT by the window port. -/
def execUndefinedCommandCode (page : PageId) (slot : Slot) (value : Word) (s : State) : Host.Outcome State Fault Refusal :=
  .next (s.onPart fun p => p.writeFrom page slot .command value)

/-- COLLISION (R155): a COMMAND write of `value`. On a BUSY page it is ignored and sets COLLIDE. -/
def execCollision (page : PageId) (slot : Slot) (value : Word) (s : State) : Host.Outcome State Fault Refusal :=
  .next (s.onPart fun p => p.writeFrom page slot .command value)

/-- POP (R93): the value written is ignored. -/
def execPop (page : PageId) (slot : Slot) (value : Word) (s : State) : Host.Outcome State Fault Refusal :=
  .next (s.onPart fun p => p.writeFrom page slot .pop value)

/-- CONTROL_WRITE (R97). -/
def execControlWrite (page : PageId) (slot : Slot) (value : Word) (s : State) : Host.Outcome State Fault Refusal :=
  .next (s.onPart fun p => p.writeFrom page slot .control value)

/-- REGISTER_WRITE (R152): an access of the window, judged and carried out as R150 and R152 say. -/
def execRegisterWrite (access : Access) (s : State) : Host.Outcome State Fault Refusal :=
  .next (s.onPart fun p => p.access access)

/-- BUS_ERROR (R150): an access of the window; one that is misaligned, is not a full word, or fails the slot check changes
nothing. -/
def execBusError (access : Access) (s : State) : Host.Outcome State Fault Refusal :=
  .next (s.onPart fun p => p.access access)

/-- HARDWARE_RESET (R135, R148, R149): every block returns to its reset values, and the straps are sampled. The model's
counter of free values goes on (log 18). -/
def execHardwareReset (straps : Straps) (s : State) : Host.Outcome State Fault Refusal :=
  .next (s.onPart fun p => { Part.reset straps with fresh := p.fresh })

end Sys2Proof.Machine
end

