-- ==== Sys2Proof/Machine/Dispatch.lean ====
section
/-! DEFINITION. The effect of every command on everything but the queue: one arm per row of the opcode table. -/

namespace Sys2Proof.Machine

def exec (i : Instr) (s : State) : Host.Outcome State Fault Refusal :=
  match i with
  | .attach a m => Sys2Proof.Machine.execAttach a m s
  | .detach a m => Sys2Proof.Machine.execDetach a m s
  | .acquire a m => Sys2Proof.Machine.execAcquire a m s
  | .cancelWait a m => Sys2Proof.Machine.execCancelWait a m s
  | .release a m => Sys2Proof.Machine.execRelease a m s
  | .renew a m => Sys2Proof.Machine.execRenew a m s
  | .downgrade a m => Sys2Proof.Machine.execDowngrade a m s
  | .query a m => Sys2Proof.Machine.execQuery a m s
  | .post a m => Sys2Proof.Machine.execPost a m s
  | .withdraw a m => Sys2Proof.Machine.execWithdraw a m s
  | .enableAgent m => Sys2Proof.Machine.execEnableAgent m s
  | .disableAgent m => Sys2Proof.Machine.execDisableAgent m s
  | .evict m => Sys2Proof.Machine.execEvict m s
  | .configureLock m => Sys2Proof.Machine.execConfigureLock m s
  | .closeLock m => Sys2Proof.Machine.execCloseLock m s
  | .breakLock m => Sys2Proof.Machine.execBreakLock m s
  | .pauseChannel m => Sys2Proof.Machine.execPauseChannel m s
  | .resumeChannel m => Sys2Proof.Machine.execResumeChannel m s
  | .setTimebase m => Sys2Proof.Machine.execSetTimebase m s
  | .setBusWait m => Sys2Proof.Machine.execSetBusWait m s
  | .inspectLock m => Sys2Proof.Machine.execInspectLock m s
  | .inspectRecord m => Sys2Proof.Machine.execInspectRecord m s
  | .inspectChannel m => Sys2Proof.Machine.execInspectChannel m s
  | .inspectAgent m => Sys2Proof.Machine.execInspectAgent m s
  | .clear m => Sys2Proof.Machine.execClear m s
  | .undefinedCommandCode page slot value => Sys2Proof.Machine.execUndefinedCommandCode page slot value s
  | .collision page slot value => Sys2Proof.Machine.execCollision page slot value s
  | .pop page slot value => Sys2Proof.Machine.execPop page slot value s
  | .controlWrite page slot value => Sys2Proof.Machine.execControlWrite page slot value s
  | .registerWrite access => Sys2Proof.Machine.execRegisterWrite access s
  | .busError access => Sys2Proof.Machine.execBusError access s
  | .hardwareReset straps => Sys2Proof.Machine.execHardwareReset straps s
  | .tickBoundary => Sys2Proof.Machine.execTickBoundary s
  | .leaseRunsOut => Sys2Proof.Machine.execLeaseRunsOut s
  | .waitRunsOut => Sys2Proof.Machine.execWaitRunsOut s
  | .leaseExpiry => Sys2Proof.Machine.execLeaseExpiry s
  | .waitExpiry => Sys2Proof.Machine.execWaitExpiry s
  | .purge => Sys2Proof.Machine.execPurge s
  | .postLockCheck a => Sys2Proof.Machine.execPostLockCheck a s
  | .detachRecordCount a => Sys2Proof.Machine.execDetachRecordCount a s
  | .inspectAgentRecordCount => Sys2Proof.Machine.execInspectAgentRecordCount s
  | .channelAcquisition c => Sys2Proof.Machine.execChannelAcquisition c s
  | .channelWaiterRemoval c => Sys2Proof.Machine.execChannelWaiterRemoval c s
  | .channelRelease c => Sys2Proof.Machine.execChannelRelease c s
  | .acquireGuardCheck c => Sys2Proof.Machine.execAcquireGuardCheck c s
  | .fenceGuardCheck c => Sys2Proof.Machine.execFenceGuardCheck c s
  | .acquisitionAnswer => Sys2Proof.Machine.execAcquisitionAnswer s
  | .channelGrantReport => Sys2Proof.Machine.execChannelGrantReport s
  | .channelWaitEndedReport => Sys2Proof.Machine.execChannelWaitEndedReport s
  | .holdingEndedReport => Sys2Proof.Machine.execHoldingEndedReport s
  | .waiterRemovalAnswer => Sys2Proof.Machine.execWaiterRemovalAnswer s
  | .guardCheckAnswer => Sys2Proof.Machine.execGuardCheckAnswer s
  | .releaseAnswer => Sys2Proof.Machine.execReleaseAnswer s
  | .burstOutcome => Sys2Proof.Machine.execBurstOutcome s
  | .withdrawAll => Sys2Proof.Machine.execWithdrawAll s
  | .purgeDoneReport => Sys2Proof.Machine.execPurgeDoneReport s
  | .noDescriptorLeftReport => Sys2Proof.Machine.execNoDescriptorLeftReport s
  | .channelsAtRestReport => Sys2Proof.Machine.execChannelsAtRestReport s
  | .clearLockTableStep => Sys2Proof.Machine.execClearLockTableStep s
  | .clearTransferStep => Sys2Proof.Machine.execClearTransferStep s
  | .clearAgentStep => Sys2Proof.Machine.execClearAgentStep s
  | .busGrant g => Sys2Proof.Machine.execBusGrant g s
  | .busTimeout => Sys2Proof.Machine.execBusTimeout s
  | .readCycleAnswered answer => Sys2Proof.Machine.execReadCycleAnswered answer s
  | .writeCycleAnswered answer => Sys2Proof.Machine.execWriteCycleAnswered answer s
  | .lockTableStepReport => Sys2Proof.Machine.execLockTableStepReport s

end Sys2Proof.Machine
end

