-- ==== Sys2Proof/Machine/Step.lean ====
section
/-! DEFINITION. One step: the command at the front of the queue is carried out on the state with the queue's rest; with an
empty queue the block idles (log 1). -/

namespace Sys2Proof.Machine

/-- The state with the front command taken from the queue, and that command. -/
def State.takeFront (s : State) : Option (Instr × State) :=
  match s.pending with
  | [] => none
  | c :: rest => some (c, { s with pending := rest })

/-- One step of the machine. -/
def step (s : State) : Host.Outcome State Fault Refusal :=
  match s.takeFront with
  | none => .next s
  | some (c, rest) => exec c rest

/-- The state with the command a table word spells put at the front of its queue; no row of the table has bits, so the state
is as it was (log 20). -/
def State.withFetchWord (s : State) (nbits w : Nat) : State :=
  match decodeTableWord nbits w with
  | some c => { s with pending := c :: s.pending }
  | none => s

end Sys2Proof.Machine
end

