-- ==== Sys2Proof/Safety.lean ====
section
/-! DEFINITION. The vocabulary of the statements: the pieces of the coordinator's state and what a command leaves unchanged,
how a command stands in a page's latch, and the invariants of the coordinator. -/

namespace Sys2Proof.Machine

/-! ### Pieces of state, and frames -/

/-- The pieces the coordinator's state is made of. -/
inductive Piece where
  | straps | page (g : PageId)
  | agent (a : AgentId) | purges | evictions | reports | tableServing | clear
  | lock (l : LockId) | lastServed | claim (c : ChanId) | expiry | ranOut
  | period
  | queue (g : PageId)
  | chan (c : ChanId) | inbox | transferServing | withdrawing
  | master
  | fresh
  deriving DecidableEq, Repr

/-- A piece of state is the same in `q` as in `p`. -/
def SameAt (p q : Part) (x : Piece) : Prop :=
  match x with
  | .straps => q.straps = p.straps
  | .page g => q.page g = p.page g
  | .agent a => q.agent a = p.agent a ∧ pick q.port.copies a = pick p.port.copies a
  | .purges => q.table.purges = p.table.purges
  | .evictions => q.table.evictions = p.table.evictions
  | .reports => q.table.reports = p.table.reports
  | .tableServing => q.table.serving = p.table.serving
  | .clear => q.table.clear = p.table.clear
  | .lock l => q.lock l = p.lock l
  | .lastServed => q.engine.lastServed = p.engine.lastServed
  | .claim c => q.engine.claims.get c = p.engine.claims.get c
  | .expiry => q.engine.expiry = p.engine.expiry
  | .ranOut => q.engine.ranOut = p.engine.ranOut
  | .period => q.period = p.period
  | .queue g => q.queue g = p.queue g
  | .chan c => q.chan c = p.chan c
  | .inbox => q.transfer.inbox = p.transfer.inbox
  | .transferServing => q.transfer.serving = p.transfer.serving
  | .withdrawing => q.transfer.withdrawing = p.transfer.withdrawing
  | .master => q.master = p.master
  | .fresh => q.fresh = p.fresh

/-- The frame: every piece of the state but those of `changed` is the same in `q` as in `p`. -/
def Frame (p q : Part) (changed : List Piece) : Prop := ∀ x, x ∉ changed → SameAt p q x

/-- The queues of the agents. -/
def agentQueues : List Piece := allAgents.map fun a => .queue (.agent a)

/-- Every lock. -/
def lockPieces : List Piece := allLocks.map .lock

/-! ### Where the window's registers lie -/

/-- The window offset at which a page starts: the supervisor page at 0x000, the page of Aa at 0x100 plus 0x40 times a (9.2). -/
def pageStart (g : PageId) : Nat :=
  match g with
  | .supervisor => 0x000
  | .agent a => 0x100 + 0x40 * a.val

/-- The offset of a register within its page (9.2). -/
def Reg.offset (r : Reg) : Nat :=
  match r with
  | .arg0 => 0x00 | .arg1 => 0x04 | .arg2 => 0x08 | .arg3 => 0x0C
  | .arg4 => 0x10 | .command => 0x14 | .status => 0x18 | .result0 => 0x1C
  | .result1 => 0x20 | .notice0 => 0x24 | .notice1 => 0x28 | .notice2 => 0x2C
  | .control => 0x30 | .pop => 0x34 | .ident => 0x38 | .arg5 => 0x3C

/-- The argument registers of a page: ARG0 to ARG4, and ARG5 on the supervisor page alone (R152). -/
def isArgument (g : PageId) (r : Reg) : Prop :=
  r ∈ [.arg0, .arg1, .arg2, .arg3, .arg4] ∨ (r = .arg5 ∧ g = .supervisor)

/-- The registers of a page whose writes are ignored: those for reading only, and offset 0x3C of an agent page (R152). -/
def isReadOnly (g : PageId) (r : Reg) : Prop :=
  r ∈ [.status, .result0, .result1, .notice0, .notice1, .notice2, .ident] ∨ (r = .arg5 ∧ g ≠ .supervisor)

/-- An access of the window that the port judges by its page: within the window, of an aligned full word (R149, R150). -/
def Part.reaches (p : Part) (acc : Access) : Prop :=
  acc.address.extractLsb' 10 22 = p.straps.base ∧ acc.address.toNat % 4 = 0 ∧ acc.lanes = 15

/-! ### A command in a page's latch -/

/-- The COMMAND write from a slot that starts command `c` on page `g`, where the page has that command (R158). -/
def writeOf (g : PageId) (c : Cmd) (slot : Slot) (high : BitVec 24) : Option Instr :=
  match g, c with
  | .agent a, .attach => some (.attach a (.write slot high))
  | .agent a, .detach => some (.detach a (.write slot high))
  | .agent a, .acquire => some (.acquire a (.write slot high))
  | .agent a, .cancelWait => some (.cancelWait a (.write slot high))
  | .agent a, .release => some (.release a (.write slot high))
  | .agent a, .renew => some (.renew a (.write slot high))
  | .agent a, .downgrade => some (.downgrade a (.write slot high))
  | .agent a, .query => some (.query a (.write slot high))
  | .agent a, .post => some (.post a (.write slot high))
  | .agent a, .withdraw => some (.withdraw a (.write slot high))
  | .supervisor, .enableAgent => some (.enableAgent (.write slot high))
  | .supervisor, .disableAgent => some (.disableAgent (.write slot high))
  | .supervisor, .evict => some (.evict (.write slot high))
  | .supervisor, .configureLock => some (.configureLock (.write slot high))
  | .supervisor, .closeLock => some (.closeLock (.write slot high))
  | .supervisor, .breakLock => some (.breakLock (.write slot high))
  | .supervisor, .pauseChannel => some (.pauseChannel (.write slot high))
  | .supervisor, .resumeChannel => some (.resumeChannel (.write slot high))
  | .supervisor, .setTimebase => some (.setTimebase (.write slot high))
  | .supervisor, .setBusWait => some (.setBusWait (.write slot high))
  | .supervisor, .inspectLock => some (.inspectLock (.write slot high))
  | .supervisor, .inspectRecord => some (.inspectRecord (.write slot high))
  | .supervisor, .inspectChannel => some (.inspectChannel (.write slot high))
  | .supervisor, .inspectAgent => some (.inspectAgent (.write slot high))
  | .supervisor, .clear => some (.clear (.write slot high))
  | _, _ => none

/-- A page's command `c` with arguments `args` has been written and waits for its block (R153). -/
def Part.waits (p : Part) (g : PageId) (c : Cmd) (args : Vector Word 6) : Prop :=
  (p.page g).inFlight = some { cmd := c, args, stage := .written }

/-- A page's command `c` with arguments `args` stands with its claim pending at the page's arbiter position (R37). -/
def Part.claims (p : Part) (g : PageId) (c : Cmd) (args : Vector Word 6) : Prop :=
  (p.page g).inFlight = some { cmd := c, args, stage := .claimed }

/-- In `q` the result of a page's command stands presented: BUSY clear, DONE set, the code and the two result words; the
page's other registers are as in `p` (R154). -/
def Answered (p q : Part) (g : PageId) (code : ResultCode) (r0 r1 : Word) : Prop :=
  q.page g = { p.page g with inFlight := none, done := true, code, result0 := r0, result1 := r1 }

/-- The lock engine's taking of a lock command of an agent page. -/
def lockTakeOf (a : AgentId) (c : Cmd) : Option Instr :=
  match c with
  | .acquire => some (.acquire a .take)
  | .cancelWait => some (.cancelWait a .take)
  | .release => some (.release a .take)
  | .renew => some (.renew a .take)
  | .downgrade => some (.downgrade a .take)
  | .query => some (.query a .take)
  | _ => none

/-- The agent's commands pass the checks of R28 and R37: it is ATTACHED and no CLEAR is in flight. -/
def Part.serves (p : Part) (a : AgentId) : Prop := (p.agent a).state = .attached ∧ p.clearing = false

/-- The lock entry an accepted ACQUIRE, or a grant, sees as able to admit an agent's request (R40): OPEN, of a class that
allows the mode, with the agent in the mask, and with no record of the agent. -/
def LockEntry.admits (e : LockEntry) (a : AgentId) (m : Mode) : Prop :=
  e.state = .opened ∧ ¬(m = .shared ∧ e.cls = .exclusiveOnly) ∧ e.mask.getLsbD a.val = true ∧
    e.holderOf (.agent a) = none ∧ e.waiterOf (.agent a) = none

/-- The CLEAR's mark after the lock engine has taken a claim of the supervisor page: a lock-table step that waited for that
claim is raised, and nothing else changes (R145). -/
def Part.clearServed (p : Part) : Option ClearPhase :=
  if p.table.clear = some .stepDue then some .stepPending else p.table.clear

/-! ### What a claim of the lock engine reports -/

/-- The GRANTED notices of an agent among the grants `hs` of a lock, in order (R17). -/
def grantsTo (l : LockId) (a : AgentId) (hs : List Holding) : List Notice :=
  (hs.filter fun h => h.party == .agent a).map fun h => .granted l h.token h.mode (h.remaining.getD 0)

/-- The grants among `hs` that are reported to the transfer engine, in order (R17). -/
def grantReports (hs : List Holding) : List TransferItem :=
  hs.filterMap fun h =>
    match h.party with
    | .agent _ => none
    | .chan c => some (.grantReport c h.token (h.remaining.getD 0))

/-- The REVOKED notices of an agent among the revoked holdings `hs` (R8, R73). -/
def revokesTo (l : LockId) (why : RevokeReason) (a : AgentId) (hs : List Holding) : List Notice :=
  (hs.filter fun h => h.party == .agent a).map fun h => .revoked l h.token why

/-- The revoked holdings among `hs` that are reported to the transfer engine (R8, R73). -/
def lossReports (why : LossReason) (hs : List Holding) : List TransferItem :=
  hs.filterMap fun h =>
    match h.party with
    | .agent _ => none
    | .chan c => some (.holdingEnded c why)

/-- The WAIT_CANCELLED notices of an agent among the cancelled waits `ws` (R6, R8). -/
def cancelsTo (l : LockId) (why : CancelReason) (a : AgentId) (ws : List Waiting) : List Notice :=
  (ws.filter fun w => w.party == .agent a).map fun _ => .waitCancelled l why

/-- The ended waits among `ws` that are reported to the transfer engine (R6, R8). -/
def waitReports (how : WaitEnd) (ws : List Waiting) : List TransferItem :=
  ws.filterMap fun w =>
    match w.party with
    | .agent _ => none
    | .chan c => some (.waitEnded c how)

/-- An agent's queue after notices `ns` have been handed over for it and `places` of its places are used or returned: the
notices are appended, or discarded where the notice unit discards the agent's notices (R86 to R89). -/
def Part.queueAfter (p : Part) (a : AgentId) (ns : List Notice) (places : Nat) : Queue :=
  { notices := (p.queue (.agent a)).notices ++ (if p.discards a then [] else ns),
    reserved := (p.queue (.agent a)).reserved - places }

/-- From `p` to `q` the grants `hs` of lock `l` have been reported, in order, after `back b` places of each agent `b` were
returned (R17). -/
def GrantsReported (p q : Part) (l : LockId) (hs : List Holding) (back : AgentId → Nat) : Prop :=
  (∀ b, q.queue (.agent b) = p.queueAfter b (grantsTo l b hs) (back b + (grantsTo l b hs).length)) ∧
    q.transfer.inbox = p.transfer.inbox ++ grantReports hs

/-- `n` places returned to agent `a`, none to the others. -/
def placesOf (a : AgentId) (n : Nat) (b : AgentId) : Nat := if b = a then n else 0

/-- What a claim with a grant pass on lock `l` may change, beside the page or claim it came from. -/
def passPieces (l : LockId) : List Piece := .lock l :: .inbox :: .lastServed :: agentQueues

/-- The WAIT_EXPIRED notice of an agent for a wait that has expired (R49). -/
def expiresTo (l : LockId) (a : AgentId) (w : Waiting) : List Notice :=
  if w.party = .agent a then [.waitExpired l] else []

/-- A lock without the records whose party is an agent (R22). -/
def LockEntry.without (e : LockEntry) (a : AgentId) : LockEntry :=
  { e with holders := e.holders.filter fun h => h.party != .agent a,
           waiters := e.waiters.filter fun w => w.party != .agent a }

/-- What the purge of an agent makes of a lock, with the grants made there (R22, R33). -/
def LockEntry.afterPurge (e : LockEntry) (a : AgentId) : LockEntry × List Holding :=
  if e.records (fun q => q == .agent a) = 0 then (e, [])
  else
    match e.state with
    | .opened => (e.without a).grantPass
    | .closing => (if (e.without a).holders = [] then { e.without a with state := .disabled } else e.without a, [])
    | .disabled => (e.without a, [])

/-- The notice places that an agent's records on a lock hold: one for a holding, two for a wait (R84). -/
def LockEntry.placesHeld (e : LockEntry) (a : AgentId) : Nat :=
  e.holders.countP (fun h => h.party == .agent a) + 2 * e.waiters.countP (fun w => w.party == .agent a)

/-- The locks that the purge of an agent drains: CLOSING, and DISABLED by it (R7). -/
def Part.drainedBy (p : Part) (a : AgentId) : List LockId :=
  allLocks.filter fun l => (p.lock l).state == .closing && ((p.lock l).afterPurge a).1.state == .disabled

/-- A count after one tick boundary (R66). -/
def fallen {w : Nat} (n : BitVec w) : BitVec w := BitVec.ofNat w (n.toNat - 1)

/-- A channel that takes descriptor `d`, with the rest of its list behind it, as its head: the record, and the claim it raises
or none where it hands a burst request (R106). -/
def headTaken (ch : Channel) (d : Descriptor) (rest : List Descriptor) : Channel × Option ChanClaim :=
  let ch1 := { ch with list := { d with started := true } :: rest, stop := none, loss := none }
  match d.guard with
  | .none => ({ ch1 with state := .moving, inFlight := .burst }, none)
  | .fence l token => ({ ch1 with state := .moving, inFlight := .guardCheck }, some (.fenceGuard l d.owner token))
  | .acquire l mode requested waitLimit =>
    ({ ch1 with state := .acquiring, currentLock := some l, inFlight := .acquisition },
      some (.acquisition l mode requested waitLimit d.owner))

/-- From `p` to `q` channel `c`, whose record would be `ch` without it, has taken `d` as its head: its record, its claim, and
for an unguarded descriptor the request for its first burst (R106). -/
def TookHead (p q : Part) (c : ChanId) (ch : Channel) (d : Descriptor) (rest : List Descriptor) : Prop :=
  q.chan c = (headTaken ch d rest).1 ∧
    match (headTaken ch d rest).2 with
    | some cl => q.engine.claims.get c = some cl ∧ q.master = p.master
    | none => q.engine.claims.get c = p.engine.claims.get c ∧ q.master = p.master.offer c d.nextBurst

/-- The transfer engine can take item `i`, the oldest of its list, with `rest` behind it (R104). -/
def Part.takes (p : Part) (i : TransferItem) (rest : List TransferItem) : Prop :=
  p.transfer.inbox = i :: rest ∧ p.transferFree = true

/-- The coordinator with the oldest item taken and the channel's record changed by `f`. -/
def Part.taken (p : Part) (rest : List TransferItem) (c : ChanId) (f : Channel → Channel) : Part :=
  (p.setInbox rest).onChan c f

/-- From `p` to `q` channel `c` has raised a claim at its arbiter position and waits for it (R105). -/
def RaisedClaim (p q : Part) (c : ChanId) (cl : ChanClaim) (f : InFlight) : Prop :=
  q.chan c = { p.chan c with inFlight := f } ∧ q.engine.claims.get c = some cl ∧ Frame p q [.chan c, .claim c]

/-- From `p` to `q` channel `c` has handed the master the request for the next burst of its head `d` (R125). -/
def HandedBurst (p q : Part) (c : ChanId) (d : Descriptor) : Prop :=
  q.chan c = { p.chan c with inFlight := .burst } ∧ q.master = p.master.offer c d.nextBurst ∧ Frame p q [.chan c, .master]

/-- From `p` to `q` a pause of channel `c` has taken effect, with CHANNEL_PAUSED delivered (R120). -/
def PausedNow (p q : Part) (c : ChanId) : Prop :=
  q.chan c = { p.chan c with state := .paused, pausePending := false, inFlight := .nothing } ∧
    q.queue .supervisor = { notices := (p.queue .supervisor).notices ++ [.channelPaused c],
                            reserved := (p.queue .supervisor).reserved - 1 } ∧
    Frame p q [.chan c, .queue .supervisor]

/-- From `p` to `q` the end of channel `c`'s started head with outcome `o` has begun: where the channel holds its lock, the
release claim is raised and the outcome kept; otherwise the end is carried out at once (R113). -/
def EndsWith (p q : Part) (c : ChanId) (o : EndOutcome) : Prop :=
  (∀ t l, (p.chan c).holding = some t → (p.chan c).currentLock = some l →
    q.chan c = { p.chan c with ending := some o, inFlight := .release,
                               state := if (p.chan c).state = .paused then .paused else .stopping } ∧
    q.engine.claims.get c = some (.release l) ∧ Frame p q [.chan c, .claim c]) ∧
  ((p.chan c).holding = none → q = p.finishEnd c o)

/-- From `p` to `q` channel `c`, ACQUIRING, has been granted its lock under token `t`: a pending pause takes effect, and
otherwise it is MOVING with its first guard check (R107, R120). -/
def GrantReached (p q : Part) (c : ChanId) (t : Word) : Prop :=
  let held := p.onChan c fun ch => { ch with holding := some t, inFlight := .nothing }
  ((p.chan c).pausePending = true → PausedNow held q c) ∧
    ((p.chan c).pausePending = false → ∀ d cl, (p.chan c).list.head? = some d → d.guardClaim = some cl →
      RaisedClaim (held.onChan c fun ch => { ch with state := .moving }) q c cl .guardCheck)

/-- A descriptor after a completed burst of `n` bytes: its bytes moved rise, and a READ_WORD keeps the word read (R112). -/
def Descriptor.grown (d : Descriptor) (n : Nat) (w : Option Word) : Descriptor :=
  { d with moved := d.moved + n,
           op := match d.op, w with | .readWord source _, some v => .readWord source (some v) | op, _ => op }

/-- The reason a fault carries: WITHDRAWN where a stop has been recorded (R114). -/
def faultOf (ch : Channel) (r : TransferFault) : EndOutcome :=
  .fault (if ch.stop = none then r else .withdrawn)

/-- From `p` to `q` the master has ended its burst for channel `c` with an outcome: it is IDLE with no burst and no count, or
has taken its next request, and the outcome is reported (R133). -/
def BurstEnded (p q : Part) (c : ChanId) (r : BurstResult) : Prop :=
  q.transfer.inbox = p.transfer.inbox ++ [.burstOutcome c r] ∧
    q.master = ({ p.master with phase := .idle, current := none, count := none, staging := [], written := 0 } :
      Master).arbitrate ∧
    Frame p q [.master, .inbox]

/-! ### Invariants -/

/-- The window port's copies of the agents' entries are the agent table's entries (R24). -/
def Part.CopiesAgree (p : Part) : Prop := p.port.copies = p.table.agents

/-- A lock entry keeps the discipline of Chapter 1: DISABLED without records, CLOSING with a holding and without waiters (R4,
R7); an EXCLUSIVE holding alone (R13); no token 0 (R15); a lease present exactly where the lock has leases (R10); no head
waiter of an OPEN lock that could be granted (R16); at most one record of an agent (R11), and no more agent waiters than the
queue limit (R12). -/
structure LockEntry.Sound (e : LockEntry) : Prop where
  disabled : e.state = .disabled → e.holders = [] ∧ e.waiters = []
  closing : e.state = .closing → e.holders ≠ [] ∧ e.waiters = []
  exclusive : ∀ h ∈ e.holders, h.mode = .exclusive → e.holders.length = 1
  tokens : ∀ h ∈ e.holders, h.token ≠ 0
  leases : ∀ h ∈ e.holders, (h.remaining.isSome = true ↔ e.maxLease ≠ 0)
  settled : e.state = .opened → ∀ w ∈ e.waiters.head?, e.fits w.mode = false
  single : ∀ a : AgentId, e.records (fun q => q == .agent a) ≤ 1
  limited : e.agentWaiters ≤ e.queueLimit

/-- Every lock entry keeps the discipline of Chapter 1. -/
def Part.LocksSound (p : Part) : Prop := ∀ l, (p.lock l).Sound

/-- The notice places that an agent's lock records and descriptors call for (R84). -/
def Part.placesOwed (p : Part) (a : AgentId) : Nat :=
  (allLocks.map fun l => (p.lock l).placesHeld a).sum + p.descriptorCount a

/-- Every agent's queue has set aside the places its records and descriptors call for, and R + Q is at most 16, so that no
notice ever finds its queue without room (R84, R85). -/
def Part.RoomKept (p : Part) : Prop :=
  ∀ a, p.placesOwed a ≤ (p.queue (.agent a)).reserved ∧
    (p.queue (.agent a)).reserved + (p.queue (.agent a)).notices.length ≤ 16

/-- The operations in flight that will end with a notice to the supervisor, each of which keeps a place of the supervisor's
queue: evictions, CLOSING locks, pending pauses, a CLEAR (R137). -/
def Part.supervisorOwed (p : Part) : Nat :=
  p.table.evictions.length + allLocks.countP (fun l => (p.lock l).state == .closing) +
    (p.chan .c0).pausePending.toNat + (p.chan .c1).pausePending.toNat + p.clearing.toNat

/-- The requests and reports of a CLEAR on the lists of the transfer engine and the agent table agree with its stage: each is
there once while the CLEAR stands at its stage, and at no other time (R143 to R147). -/
structure Part.ClearInStep (p : Part) : Prop where
  stop : p.transfer.inbox.count .clearStop = if p.table.clear = some .stopSent then 1 else 0
  rest : p.table.reports.count .channelsAtRest = if p.table.clear = some .atRest then 1 else 0
  locks : p.table.reports.count .lockTableStep = if p.table.clear = some .stepDone then 1 else 0
  transfer : p.transfer.inbox.count .clearTransferStep = if p.table.clear = some .transferSent then 1 else 0
  agents : p.table.reports.count .transferStep = if p.table.clear = some .transferDone then 1 else 0

/-- The supervisor's queue has set aside a place for each operation that will end with a notice to it, and R + Q is at most 16,
so that no notice ever finds the queue without room (R84, R137). -/
structure Part.SupervisorRoomKept (p : Part) : Prop where
  owed : p.supervisorOwed ≤ (p.queue .supervisor).reserved
  room : (p.queue .supervisor).reserved + (p.queue .supervisor).notices.length ≤ 16
  clear : p.ClearInStep

/-- The backplane master's state fits together (R124, R127 to R130): the count is present exactly in REQUESTING, a burst is
there exactly outside IDLE, an IDLE master has no request pending, the limit is not 0. -/
structure Master.Sound (m : Master) : Prop where
  counting : m.count.isSome = true ↔ m.phase = .requesting
  busy : m.current.isSome = true ↔ m.phase ≠ .idle
  taken : m.phase = .idle → m.pending.c0 = none ∧ m.pending.c1 = none
  limited : m.limit ≠ 0

end Sys2Proof.Machine
end

