-- ==== Sys2Proof/Certificates/Slice0/Obligations.lean ====
section
/-! DEFINITION. The statements about the coordinator, for the provers. Each says in its docstring what it states and which
rules it follows. Throughout, a command that completes answers a next state with the same queue, and `Frame` says that every
piece of the coordinator's state but those listed is unchanged. -/

section Statements

open Sys2Proof Sys2Proof.Machine

/-! ### Steps, reset, and the window -/

/-- A step carries out the command at the front of the queue, on the state with the queue's rest; on an empty queue the block
idles (the model's choice, log 1). -/
def Obligations.StepRunsFrontCommand : Prop :=
  (∀ (c : Instr) (rest : List Instr) (p : Part),
    step { pending := c :: rest, part := p } = exec c { pending := rest, part := p }) ∧
  ∀ p : Part, step { pending := [], part := p } = .next { pending := [], part := p }

/-- Every command answers a next state: none stops the part (R150, R154, R165). It leaves the queue of commands, which is the
model's, as it is (the model's choice, log 1), HARDWARE_RESET among them (log 18). -/
def Obligations.EveryCommandCompletesAndKeepsQueue : Prop :=
  ∀ (c : Instr) (s : State), ∃ t, exec c s = .next t ∧ t.pending = s.pending

/-- The values the manual states for the time after hardware reset (R1, R9, R20, R21, R23, R65, R81, R95, R98, R105, R124,
R143); every register of every page then reads 0, but IDENT (R152); and HARDWARE_RESET returns every block to its reset values
and samples the straps, whatever was in flight (R135, R148, R149). The queue of commands and the model's counter of free values
go on (the model's choice, log 18). -/
def Obligations.ResetValues : Prop :=
  (∀ p : Part, p = State.reset.part →
     (∀ l, (p.lock l).state = .disabled ∧ (p.lock l).cls = .exclusiveOnly ∧ (p.lock l).defaultLease = 0 ∧
       (p.lock l).maxLease = 0 ∧ (p.lock l).queueLimit = 0 ∧ (p.lock l).mask = 0 ∧ (p.lock l).generation = 0 ∧
       (p.lock l).holders = [] ∧ (p.lock l).waiters = []) ∧
     p.agentFree = 94 ∧ (∀ c, p.setAsideFree c = true) ∧
     p.engine.lastServed = tablePos ∧ p.engine.expiry = [] ∧ p.table.purges = [] ∧
     (∀ a, (p.agent a).state = .disabled ∧ (p.agent a).slot = none ∧ (p.agent a).evicted = false) ∧
     p.period = .ms1 ∧
     (∀ g, (p.queue g).notices = [] ∧ (p.queue g).reserved = 0 ∧ p.line g = false) ∧
     p.descriptorsFree = 32 ∧
     (∀ c, (p.chan c).state = .idle ∧ (p.chan c).pausePending = false ∧ (p.chan c).stop = none ∧ (p.chan c).holding = none ∧
       (p.chan c).currentLock = none ∧ (p.chan c).loss = none ∧ (p.chan c).inFlight = .nothing ∧ (p.chan c).list = []) ∧
     p.master.phase = .idle ∧ p.master.current = none ∧ p.master.pending.c0 = none ∧ p.master.pending.c1 = none ∧
     p.master.lastServed = .c1 ∧ p.master.limit = 4 ∧ p.master.count = none ∧
     p.clearing = false) ∧
  (∀ (straps : Straps) (g : PageId) (r : Reg),
     (Part.reset straps).readRegister g r =
       if r = .ident then identWord straps g else 0) ∧
  ∀ (straps : Straps) (s : State), ∃ q, exec (.hardwareReset straps) s = .next { s with part := q } ∧
    q.straps = straps ∧ q.port = State.reset.part.port ∧ q.table = State.reset.part.table ∧
    q.engine = State.reset.part.engine ∧ q.period = State.reset.part.period ∧ q.notices = State.reset.part.notices ∧
    q.transfer = State.reset.part.transfer ∧ q.master = State.reset.part.master ∧ q.fresh = s.part.fresh

/-- A COMMAND write that passes the slot check, to a page that is not BUSY, is taken as the command its code names: the code
recorded, the arguments copied, BUSY set, DONE cleared, the result code 0, the result words kept; the window port does not
refuse it where its copy does not show the agent EVICTING (R153, R158). A command of the lock engine raises its claim, and on
the supervisor page it is kept back while the lock-table step of a CLEAR stands at the position (R37, R145; for commands other
than INSPECT the model's reading, log 11). -/
def Obligations.CommandWriteIsTaken : Prop :=
  ∀ (s : State) (g : PageId) (c : Cmd) (slot : Slot) (high : BitVec 24) (i : Instr),
    writeOf g c slot high = some i → s.part.slotPasses g slot = true → (s.part.page g).inFlight = none →
    (∀ e, s.part.copyOf g = some e → e.state ≠ .evicting) →
    ∃ q, exec i s = .next { s with part := q } ∧
      q.page g = { s.part.page g with
        command := cmdCode c, done := false, code := .noResult,
        inFlight := some { cmd := c, args := (s.part.page g).args,
                           stage := if cmdBlock c = .lockEngine then
                               (if g = .supervisor ∧ s.part.table.clear = some .stepPending then .held else .claimed)
                             else .written } } ∧
      Frame s.part q [.page g]

/-- The COMMAND writes that the window port refuses itself, at once, made while no command of the page is in flight: to the page
of an EVICTING agent, EVICTING (R28, R153); with a code that names no command of the page, BAD_ARGUMENT, with 0 in both result
words and DONE set (R153). The command reaches no block. -/
def Obligations.PortRefusesAtOnce : Prop :=
  (∀ (s : State) (a : AgentId) (c : Cmd) (slot : Slot) (high : BitVec 24) (i : Instr),
     writeOf (.agent a) c slot high = some i → s.part.slotPasses (.agent a) slot = true →
     (s.part.page (.agent a)).inFlight = none → (pick s.part.port.copies a).state = .evicting →
     ∃ q, exec i s = .next { s with part := q } ∧
       q.page (.agent a) = { s.part.page (.agent a) with
         command := cmdCode c, done := true, code := .evicting, result0 := 0, result1 := 0 } ∧
       Frame s.part q [.page (.agent a)]) ∧
  ∀ (s : State) (g : PageId) (slot : Slot) (value : Word),
    (∀ c ∈ pageCmds g, cmdCode c ≠ value.extractLsb' 0 8) →
    s.part.slotPasses g slot = true → (s.part.page g).inFlight = none →
    (∀ e, s.part.copyOf g = some e → e.state ≠ .evicting) →
    ∃ q, exec (.undefinedCommandCode g slot value) s = .next { s with part := q } ∧
      q.page g = { s.part.page g with
        command := value.extractLsb' 0 8, done := true, code := .badArgument, result0 := 0, result1 := 0 } ∧
      Frame s.part q [.page g]

/-- A COMMAND write to a page whose BUSY is set is ignored and sets COLLIDE; everything else is left as it was (R155). -/
def Obligations.CollisionSetsCollide : Prop :=
  ∀ (s : State) (g : PageId) (slot : Slot) (value : Word),
    s.part.slotPasses g slot = true → (s.part.page g).inFlight ≠ none →
    ∃ q, exec (.collision g slot value) s = .next { s with part := q } ∧
      q.page g = { s.part.page g with collide := true } ∧ Frame s.part q [.page g]

/-- A POP from the page's slot removes the head notice, whatever the value written, the page's latch and the agent's state;
on an empty queue, and from another slot, nothing changes (R93). -/
def Obligations.PopRemovesHead : Prop :=
  ∀ (s : State) (g : PageId) (slot : Slot) (value : Word),
    ∃ q, exec (.pop g slot value) s = .next { s with part := q } ∧
      (s.part.slotPasses g slot = true →
        q.queue g = { notices := (s.part.queue g).notices.drop 1, reserved := (s.part.queue g).reserved } ∧
        Frame s.part q [.queue g]) ∧
      ((s.part.queue g).notices = [] → q = s.part) ∧
      (s.part.slotPasses g slot = false → q = s.part)

/-- A CONTROL write from the page's slot sets the two enables to bits 0 and 1, and with ACK, bit 2, clears DONE and COLLIDE;
the latch, the result and every other piece of state are kept (R97). -/
def Obligations.ControlWriteSetsEnables : Prop :=
  ∀ (s : State) (g : PageId) (slot : Slot) (value : Word), s.part.slotPasses g slot = true →
    ∃ q, exec (.controlWrite g slot value) s = .next { s with part := q } ∧
      q.page g = { s.part.page g with
        noticeEnable := value.getLsbD 0, doneEnable := value.getLsbD 1,
        done := (s.part.page g).done && !value.getLsbD 2, collide := (s.part.page g).collide && !value.getLsbD 2 } ∧
      Frame s.part q [.page g]

/-- An access of the window by its address (9.2, R149, R150, R152). Outside the window nothing answers. Of the aligned full-word
accesses within it: offsets 0x040 to 0x0FF and 0x300 to 0x3FF read 0 and ignore writes; the supervisor page lies at 0x000 and
the page of agent a at 0x100 plus 0x40 times a, with each register at its offset; one that fails the slot check is a bus error;
a read has no side effect; a write to an argument register stores its value there and nowhere else; a write to a register for
reading only, or to offset 0x3C of an agent page, is ignored; and a write to COMMAND, CONTROL or POP is that access. -/
def Obligations.RegisterWriteStoresArgument : Prop :=
  (∀ (s : State) (acc : Access), acc.address.extractLsb' 10 22 ≠ s.part.straps.base →
    exec (.registerWrite acc) s = .next s ∧ s.part.windowRead acc = .none) ∧
  ∀ (s : State) (acc : Access), s.part.reaches acc →
    let offset := acc.address.toNat % 1024
    (0x040 ≤ offset ∧ offset ≤ 0x0FF ∨ 0x300 ≤ offset →
      exec (.registerWrite acc) s = .next s ∧ s.part.windowRead acc = .data 0) ∧
    ∀ (g : PageId) (r : Reg), offset = pageStart g + r.offset →
      (s.part.slotPasses g acc.slot = false →
        exec (.registerWrite acc) s = .next s ∧ s.part.windowRead acc = .busError) ∧
      (s.part.slotPasses g acc.slot = true →
        s.part.windowRead acc = .data (s.part.readRegister g r) ∧
        (acc.isWrite = false → exec (.registerWrite acc) s = .next s) ∧
        (acc.isWrite = true →
          (isArgument g r →
            ∃ q, exec (.registerWrite acc) s = .next { s with part := q } ∧ q.readRegister g r = acc.data ∧
              (∀ k, k ≠ r → q.readRegister g k = s.part.readRegister g k) ∧
              q.page g = { s.part.page g with args := (q.page g).args } ∧ Frame s.part q [.page g]) ∧
          (isReadOnly g r → exec (.registerWrite acc) s = .next s) ∧
          (r = .command → exec (.registerWrite acc) s = exec (.collision g acc.slot acc.data) s) ∧
          (r = .control → exec (.registerWrite acc) s = exec (.controlWrite g acc.slot acc.data) s) ∧
          (r = .pop → exec (.registerWrite acc) s = exec (.pop g acc.slot acc.data) s)))

/-- What a page's registers read (R91, R152, R157): STATUS shows the latch, DONE, COLLIDE, the port's copy of the agent's state
and flag (0 on the supervisor page), the CLEAR mark, R and Q, and the result code (R165), with 0 in every other bit; the notice
head registers show the head notice in the layout of its kind (R164), and 0 on an empty queue; CONTROL shows the two enables;
IDENT the part, the page and the straps; POP reads 0. -/
def Obligations.RegistersRead : Prop :=
  (∀ (p : Part) (g : PageId),
    let w := p.readRegister g .status
    (w.getLsbD 0 = (p.page g).inFlight.isSome ∧ w.getLsbD 1 = (p.page g).done ∧ w.getLsbD 2 = (p.page g).collide ∧
      w.getLsbD 6 = p.clearing ∧ w.extractLsb' 8 5 = BitVec.ofNat 5 (p.queue g).reserved ∧
      w.extractLsb' 16 5 = BitVec.ofNat 5 (p.queue g).notices.length ∧ w.extractLsb' 24 6 = (p.page g).code.bits ∧
      (∀ a, g = .agent a →
        w.extractLsb' 3 2 =
          (match (pick p.port.copies a).state with | .disabled => 0 | .detached => 1 | .attached => 2 | .evicting => 3) ∧
        w.getLsbD 5 = (pick p.port.copies a).evicted) ∧
      (g = .supervisor → w.extractLsb' 3 3 = 0) ∧
      ∀ i ∈ [7, 13, 14, 15, 21, 22, 23, 30, 31], w.getLsbD i = false) ∧
    ((p.queue g).notices = [] →
      p.readRegister g .notice0 = 0 ∧ p.readRegister g .notice1 = 0 ∧ p.readRegister g .notice2 = 0) ∧
    (∀ n rest, (p.queue g).notices = n :: rest →
      p.readRegister g .notice0 = n.word0 ∧ p.readRegister g .notice1 = n.word1 ∧ p.readRegister g .notice2 = n.word2) ∧
    p.readRegister g .control = BitVec.ofNat 32 ((p.page g).noticeEnable.toNat + 2 * (p.page g).doneEnable.toNat) ∧
    p.readRegister g .result0 = (p.page g).result0 ∧ p.readRegister g .result1 = (p.page g).result1 ∧
    p.readRegister g .command = (p.page g).command.setWidth 32 ∧ p.readRegister g .pop = 0 ∧
    (p.readRegister g .ident).toNat =
      0x2408 + 2 ^ 16 * (match g with | .agent a => a.val | .supervisor => 15) +
        2 ^ 20 * p.straps.supervisorSlot.toNat + 2 ^ 24 * p.straps.masterSlot.toNat + 2 ^ 28) ∧
  (∀ n : Notice,
    let chan := fun (c : ChanId) => match c with | .c0 => 0 | .c1 => 1
    (n.word0.toNat, n.word1, n.word2) =
      match n with
      | .granted l token m lease =>
        (1 + 2 ^ 8 * l.val + 2 ^ 16 * (match m with | .shared => 1 | .exclusive => 2), token, lease.setWidth 32)
      | .waitExpired l => (2 + 2 ^ 8 * l.val, 0, 0)
      | .waitCancelled l why => (3 + 2 ^ 8 * l.val + 2 ^ 20 * (match why with | .closed => 1 | .broken => 2), 0, 0)
      | .revoked l token why =>
        (4 + 2 ^ 8 * l.val + 2 ^ 20 * (match why with | .leaseExpired => 1 | .broken => 2), token, 0)
      | .transferDone tag c bytes value =>
        (5 + 2 ^ 4 * chan c + 2 ^ 16 * tag.toNat, BitVec.ofNat 32 bytes, value.getD 0)
      | .transferFault tag c why bytes =>
        (6 + 2 ^ 4 * chan c + 2 ^ 16 * tag.toNat +
          2 ^ 8 * (match why with
            | .holdingLost => 1 | .leaseLost => 2 | .lockBroken => 3 | .lockClosed => 4 | .acquireTimeout => 5
            | .sourceError => 6 | .destError => 7 | .busTimeout => 8 | .withdrawn => 9), BitVec.ofNat 32 bytes, 0)
      | .lockClosed l => (8 + 2 ^ 8 * l.val, 0, 0)
      | .agentEvicted a => (9 + 2 ^ 8 * a.val, 0, 0)
      | .channelPaused c => (10 + 2 ^ 4 * chan c, 0, 0)
      | .clearDone => (11, 0, 0)) ∧
  ∀ r : ResultCode, r.bits =
    match r with
    | .noResult => 0x00 | .accepted => 0x01 | .granted => 0x02 | .queued => 0x03 | .busy => 0x08 | .badArgument => 0x09
    | .lockDisabled => 0x0A | .lockClosing => 0x0B | .modeNotAllowed => 0x0C | .notPermitted => 0x0D
    | .alreadyHeld => 0x0E | .alreadyWaiting => 0x0F | .queueFull => 0x10 | .noRecord => 0x11 | .noNoticeRoom => 0x12
    | .notHolder => 0x13 | .staleToken => 0x14 | .notWaiting => 0x15 | .wrongMode => 0x16 | .notAttached => 0x17
    | .notEnabled => 0x18 | .evicting => 0x19 | .inUse => 0x1A | .wrongState => 0x1B | .noDescriptor => 0x1C
    | .duplicateTag => 0x1D | .noSuchTag => 0x1E | .badAddress => 0x1F | .clearing => 0x20

/-- Which accesses are answered with a bus error: those within the window that are not word-aligned or do not enable all four
lanes, and those to a page that fail its slot check; such an access changes nothing (R150). The slot check: the supervisor page
from the strapped supervisor slot, an agent page from the slot that the window port's copy shows bound, and never while none is
bound (R25, R136, R151). -/
def Obligations.BusErrorChangesNothing : Prop :=
  (∀ (s : State) (acc : Access), acc.address.extractLsb' 10 22 = s.part.straps.base →
     (s.part.judge acc = .busError ↔
       (acc.address.toNat % 4 ≠ 0 ∨ acc.lanes ≠ 15 ∨
         ∃ g, pageAt (acc.address.extractLsb' 6 4) = some g ∧ s.part.slotPasses g acc.slot = false)) ∧
     (s.part.judge acc = .busError →
       exec (.busError acc) s = .next s ∧ s.part.windowRead acc = .busError)) ∧
  ∀ (p : Part) (slot : Slot),
    (p.slotPasses .supervisor slot = true ↔ slot = p.straps.supervisorSlot) ∧
    ∀ a : AgentId, (p.slotPasses (.agent a) slot = true ↔ (pick p.port.copies a).slot = some slot)

/-- A page's interrupt line is asserted while NOTICE_ENABLE is set and its queue is not empty, or while DONE_ENABLE and DONE
are set, and at no other time; after hardware reset every line is deasserted (R95). -/
def Obligations.InterruptLineLevel : Prop :=
  (∀ (p : Part) (g : PageId), p.line g = true ↔
    ((p.page g).noticeEnable = true ∧ 0 < (p.queue g).notices.length) ∨
      ((p.page g).doneEnable = true ∧ (p.page g).done = true)) ∧
  ∀ (straps : Straps) (g : PageId), (Part.reset straps).line g = false

/-! ### Attachment (Chapter 2) -/

/-- ATTACH, taken by the agent table while no CLEAR is in flight: a DETACHED agent becomes ATTACHED with its evicted flag
clear, in the table and in the port's copy, and the answer is OK with 0 and 0; a DISABLED agent is refused NOT_ENABLED, an
ATTACHED one WRONG_STATE, an EVICTING one EVICTING (R28, R29). -/
def Obligations.AttachMakesAttached : Prop :=
  ∀ (s : State) (a : AgentId) (args : Vector Word 6),
    s.part.waits (.agent a) .attach args → s.part.tableFree = true → s.part.clearing = false →
    ∃ q, exec (.attach a .take) s = .next { s with part := q } ∧
      ((s.part.agent a).state = .detached →
        q.agent a = { s.part.agent a with state := .attached, evicted := false } ∧
        pick q.port.copies a = q.agent a ∧ Answered s.part q (.agent a) .accepted 0 0 ∧
        Frame s.part q [.agent a, .page (.agent a)]) ∧
      ((s.part.agent a).state = .disabled →
        Answered s.part q (.agent a) .notEnabled 0 0 ∧ Frame s.part q [.page (.agent a)]) ∧
      ((s.part.agent a).state = .attached →
        Answered s.part q (.agent a) .wrongState 0 0 ∧ Frame s.part q [.page (.agent a)]) ∧
      ((s.part.agent a).state = .evicting →
        Answered s.part q (.agent a) .evicting 0 0 ∧ Frame s.part q [.page (.agent a)])

/-- DETACH of an ATTACHED agent: the agent table takes it and raises the claim for the lock record count; the lock engine
answers the number of lock records whose party is the agent; the transfer engine counts the descriptors it owns; then the
agent becomes DETACHED with the answer OK when both counts and both notice counts are 0, and otherwise is refused IN_USE with
the two counts (R30). The result words of an accepted DETACH are free values (log 6): nothing is stated of them. -/
def Obligations.DetachCountsAndDetaches : Prop :=
  ∀ (s : State) (a : AgentId) (args : Vector Word 6),
    (s.part.waits (.agent a) .detach args → s.part.tableFree = true → s.part.serves a →
      ∃ q, exec (.detach a .take) s = .next { s with part := q } ∧ q.claims (.agent a) .detach args ∧
        q.table.serving = some (.agent a) ∧ Frame s.part q [.page (.agent a), .tableServing]) ∧
    (s.part.claims (.agent a) .detach args → s.part.mayServe (agentPos a) = true → s.part.serves a →
      ∃ q, exec (.detachRecordCount a) s = .next { s with part := q } ∧
        (q.page (.agent a)).inFlight =
          some { cmd := .detach, args, stage := .counted (s.part.agentRecordCount a) } ∧
        q.engine.lastServed = agentPos a ∧ Frame s.part q [.page (.agent a), .lastServed]) ∧
    (∀ n, (s.part.page (.agent a)).inFlight = some { cmd := .detach, args, stage := .counted n } →
      s.part.transferFree = true →
      ∃ q, exec (.detach a .proceed) s = .next { s with part := q } ∧
        (q.page (.agent a)).inFlight =
          some { cmd := .detach, args, stage := .countedBoth n (s.part.descriptorCount a) } ∧
        Frame s.part q [.page (.agent a)]) ∧
    ∀ n d, (s.part.page (.agent a)).inFlight = some { cmd := .detach, args, stage := .countedBoth n d } →
      ∃ q, exec (.detach a .proceed) s = .next { s with part := q } ∧ q.table.serving = none ∧
        (n = 0 → d = 0 → (s.part.queue (.agent a)).reserved = 0 → (s.part.queue (.agent a)).notices = [] →
          q.agent a = { s.part.agent a with state := .detached } ∧ pick q.port.copies a = q.agent a ∧
          (∃ r0 r1, Answered s.part q (.agent a) .accepted r0 r1) ∧
          Frame s.part q [.agent a, .page (.agent a), .tableServing, .fresh]) ∧
        (¬(n = 0 ∧ d = 0 ∧ (s.part.queue (.agent a)).reserved = 0 ∧ (s.part.queue (.agent a)).notices = []) →
          Answered s.part q (.agent a) .inUse (BitVec.ofNat 32 n) (BitVec.ofNat 32 d) ∧
          Frame s.part q [.page (.agent a), .tableServing])

/-- ENABLE_AGENT of a DISABLED agent binds its page to the slot given and makes it DETACHED, in the table and in the port's
copy; the evicted flag, and every register of the agent's page, are kept (R26). DISABLE_AGENT of a DETACHED agent makes it
DISABLED without a binding, in the table and in the port's copy, and clears the page's enables, DONE and COLLIDE; the evicted
flag is kept, and BUSY and the page's other registers are left as they stand; the page's line is then deasserted (R27). -/
def Obligations.EnableAndDisableAgent : Prop :=
  (∀ (s : State) (a : AgentId) (slot : Slot) (args : Vector Word 6),
     s.part.waits .supervisor .enableAgent args → s.part.tableFree = true → s.part.clearing = false →
     (pick args 0).toNat = a.val → (pick args 1).toNat = slot.toNat → (s.part.agent a).state = .disabled →
     ∃ q, exec (.enableAgent .take) s = .next { s with part := q } ∧
       q.agent a = { state := .detached, slot := some slot, evicted := (s.part.agent a).evicted } ∧
       pick q.port.copies a = { s.part.agent a with state := .detached, slot := some slot } ∧
       Answered s.part q .supervisor .accepted 0 0 ∧ Frame s.part q [.agent a, .page .supervisor]) ∧
  ∀ (s : State) (a : AgentId) (args : Vector Word 6),
    s.part.waits .supervisor .disableAgent args → s.part.tableFree = true → s.part.clearing = false →
    (pick args 0).toNat = a.val → (s.part.agent a).state = .detached →
    ∃ q, exec (.disableAgent .take) s = .next { s with part := q } ∧
      q.agent a = { state := .disabled, slot := none, evicted := (s.part.agent a).evicted } ∧
      pick q.port.copies a = q.agent a ∧
      q.page (.agent a) = { s.part.page (.agent a) with
        noticeEnable := false, doneEnable := false, done := false, collide := false } ∧
      q.line (.agent a) = false ∧
      Answered s.part q .supervisor .accepted 0 0 ∧
      Frame s.part q [.agent a, .page (.agent a), .page .supervisor]

/-- EVICT of an ATTACHED agent, with room for one place in the supervisor's queue: the place is reserved, the agent becomes
EVICTING in the table and in the port's copy, and its purge claim is raised behind those of earlier evictions; the answer is
OK with 0 and 0 (R31). -/
def Obligations.EvictBeginsEviction : Prop :=
  ∀ (s : State) (a : AgentId) (args : Vector Word 6),
    s.part.waits .supervisor .evict args → s.part.tableFree = true → s.part.clearing = false →
    (pick args 0).toNat = a.val → (s.part.agent a).state = .attached →
    (s.part.queue .supervisor).reserved + (s.part.queue .supervisor).notices.length + 1 ≤ 16 →
    ∃ q, exec (.evict .take) s = .next { s with part := q } ∧
      q.agent a = { s.part.agent a with state := .evicting } ∧ pick q.port.copies a = q.agent a ∧
      q.table.purges = s.part.table.purges ++ [a] ∧
      q.table.evictions = s.part.table.evictions ++ [{ agent := a, stage := .purge }] ∧
      q.queue .supervisor =
        { s.part.queue .supervisor with reserved := (s.part.queue .supervisor).reserved + 1 } ∧
      Answered s.part q .supervisor .accepted 0 0 ∧
      Frame s.part q [.agent a, .purges, .evictions, .queue .supervisor, .page .supervisor]

/-! ### Locks (Chapters 1 and 3) -/

/-- The checks of R28 on the commands of an agent page. A lock command, when the engine takes the claim: an EVICTING agent is
refused EVICTING, any other agent CLEARING while a CLEAR is in flight, any other that is not ATTACHED NOT_ATTACHED; a refused
command changes nothing but its page, and the engine's arbiter moves on (R37). ATTACH, DETACH, POST and WITHDRAW, when their
block takes them, by the same checks; DETACH of a DISABLED agent is refused NOT_ENABLED (R29, R30, R100, R117). A claim that
a POST or DETACH raised is refused EVICTING or CLEARING by the engine too, and the command then ends with that refusal (R19). -/
def Obligations.LockCommandsNeedAttachedAgent : Prop :=
  (∀ (s : State) (a : AgentId) (c : Cmd) (i : Instr) (args : Vector Word 6),
    lockTakeOf a c = some i → s.part.claims (.agent a) c args → s.part.mayServe (agentPos a) = true →
    ∃ q, exec i s = .next { s with part := q } ∧
      let refused := fun code => Answered s.part q (.agent a) code 0 0 ∧ q.engine.lastServed = agentPos a ∧
        Frame s.part q [.page (.agent a), .lastServed]
      ((s.part.agent a).state = .evicting → refused .evicting) ∧
      ((s.part.agent a).state ≠ .evicting → s.part.clearing = true → refused .clearing) ∧
      ((s.part.agent a).state = .disabled ∨ (s.part.agent a).state = .detached → s.part.clearing = false →
        refused .notAttached)) ∧
  (∀ (s : State) (a : AgentId) (args : Vector Word 6),
    ∀ x ∈ [(Cmd.attach, Instr.attach a .take), (.detach, .detach a .take), (.post, .post a .take),
        (.withdraw, .withdraw a .take)],
      s.part.waits (.agent a) x.1 args → s.part.tableFree = true → s.part.transferFree = true →
      ∃ q, exec x.2 s = .next { s with part := q } ∧
        let refused := fun code => Answered s.part q (.agent a) code 0 0 ∧ Frame s.part q [.page (.agent a)]
        ((s.part.agent a).state = .evicting → refused .evicting) ∧
        ((s.part.agent a).state ≠ .evicting → s.part.clearing = true → refused .clearing) ∧
        (x.1 ≠ .attach → (s.part.agent a).state = .detached → s.part.clearing = false → refused .notAttached) ∧
        (x.1 ≠ .attach → (s.part.agent a).state = .disabled → s.part.clearing = false →
          refused (if x.1 = .detach then .notEnabled else .notAttached))) ∧
  ∀ (s : State) (a : AgentId) (args : Vector Word 6),
    ∀ x ∈ [(Cmd.detach, Instr.detachRecordCount a, Instr.detach a .proceed),
        (.post, .postLockCheck a, .post a .proceed)],
      (s.part.claims (.agent a) x.1 args → s.part.mayServe (agentPos a) = true → ∀ code,
        ((s.part.agent a).state = .evicting ∧ code = .evicting ∨
          (s.part.agent a).state ≠ .evicting ∧ s.part.clearing = true ∧ code = .clearing) →
        ∃ q, exec x.2.1 s = .next { s with part := q } ∧
          (q.page (.agent a)).inFlight = some { cmd := x.1, args, stage := .turnedAway code } ∧
          q.engine.lastServed = agentPos a ∧ Frame s.part q [.page (.agent a), .lastServed]) ∧
      ∀ code, (s.part.page (.agent a)).inFlight = some { cmd := x.1, args, stage := .turnedAway code } →
        ∃ q, exec x.2.2 s = .next { s with part := q } ∧ Answered s.part q (.agent a) code 0 0 ∧
          (if x.1 = .detach then q.table.serving = none else q.transfer.serving = none) ∧
          Frame s.part q [.page (.agent a), if x.1 = .detach then .tableServing else .transferServing]

/-- ACQUIRE's registers carry, in bits 7 to 0 of ARG0, a lock number up to 63, in bits 9 and 8 the mode (1 SHARED, 2
EXCLUSIVE), in bit 12 the queue flag, in ARG1 the requested lease and in ARG2 the wait limit, whole registers up to 65535; in
every other case they are invalid, whatever the queue flag and the lock, and refused BAD_ARGUMENT (R39, R159). Then the lock
and the agent's standing on it are checked, in order, with what each refusal carries (R40). -/
def Obligations.AcquireRefusalsInOrder : Prop :=
  (∀ (args : Vector Word 6) (r : AcquireArgs), acquireArgs args = some r ↔
    ((pick args 0).toNat % 256 = r.lock.val ∧
      ((pick args 0).toNat / 256 % 4 = 1 ∧ r.mode = .shared ∨ (pick args 0).toNat / 256 % 4 = 2 ∧ r.mode = .exclusive) ∧
      r.queue = (pick args 0).getLsbD 12 ∧
      (pick args 1).toNat = r.requested.toNat ∧ (pick args 2).toNat = r.waitLimit.toNat)) ∧
  ∀ (s : State) (a : AgentId) (args : Vector Word 6),
    s.part.claims (.agent a) .acquire args → s.part.mayServe (agentPos a) = true → s.part.serves a →
    ∃ q, exec (.acquire a .take) s = .next { s with part := q } ∧
      let refused := fun code r0 r1 =>
        Answered s.part q (.agent a) code r0 r1 ∧ q.engine.lastServed = agentPos a ∧
          Frame s.part q [.page (.agent a), .lastServed]
      (acquireArgs args = none → refused .badArgument 0 0) ∧
      ∀ r, acquireArgs args = some r →
        let e := s.part.lock r.lock
        (e.state = .disabled → refused .lockDisabled 0 0) ∧
        (e.state = .closing → refused .lockClosing 0 0) ∧
        (e.state = .opened →
          (r.mode = .shared ∧ e.cls = .exclusiveOnly → refused .modeNotAllowed 0 0) ∧
          (¬(r.mode = .shared ∧ e.cls = .exclusiveOnly) →
            (e.mask.getLsbD a.val = false → refused .notPermitted 0 0) ∧
            (e.mask.getLsbD a.val = true →
              (∀ h, e.holderOf (.agent a) = some h →
                refused .alreadyHeld h.token (if h.mode = .exclusive then 1 else 0)) ∧
              (e.holderOf (.agent a) = none → e.waiterOf (.agent a) ≠ none →
                refused .alreadyWaiting (BitVec.ofNat 32 (e.position (.agent a))) 0))))

/-- A request for EXCLUSIVE is grantable now on a lock without records, one for SHARED on a lock without waiters and without an
EXCLUSIVE holding (R41). Such a request is refused NO_NOTICE_ROOM without room for one place, then NO_RECORD without a free
agent record. Otherwise it is granted at once: the lock's generation advances, the new token is given to a HOLDING at the tail
of the holder list with its effective lease, one place is reserved, and the answer is GRANTED with the token and the effective
lease; nothing else changes (R42). -/
def Obligations.AcquireGrantedAtOnce : Prop :=
  (∀ (e : LockEntry) (m : Mode), e.grantableNow m = true ↔
    e.waiters = [] ∧ (m = .exclusive ∧ e.holders = [] ∨ m = .shared ∧ ∀ h ∈ e.holders, h.mode ≠ .exclusive)) ∧
  ∀ (s : State) (a : AgentId) (args : Vector Word 6) (r : AcquireArgs),
    s.part.claims (.agent a) .acquire args → s.part.mayServe (agentPos a) = true → s.part.serves a →
    acquireArgs args = some r → (s.part.lock r.lock).admits a r.mode → (s.part.lock r.lock).grantableNow r.mode = true →
    ∃ q, exec (.acquire a .take) s = .next { s with part := q } ∧ q.engine.lastServed = agentPos a ∧
      let e := s.part.lock r.lock
      let room := (s.part.queue (.agent a)).reserved + (s.part.queue (.agent a)).notices.length + 1 ≤ 16
      (¬room → Answered s.part q (.agent a) .noNoticeRoom 0 0 ∧ Frame s.part q [.page (.agent a), .lastServed]) ∧
      (room → s.part.agentFree = 0 →
        Answered s.part q (.agent a) .noRecord 0 0 ∧ Frame s.part q [.page (.agent a), .lastServed]) ∧
      (room → s.part.agentFree ≠ 0 →
        q.lock r.lock = { e with
          generation := e.nextToken,
          holders := e.holders ++ [{ party := .agent a, owner := a, mode := r.mode, token := e.nextToken,
                                     remaining := if e.maxLease = 0 then none else some (e.effectiveLease r.requested) }] } ∧
        q.queue (.agent a) = { s.part.queue (.agent a) with reserved := (s.part.queue (.agent a)).reserved + 1 } ∧
        Answered s.part q (.agent a) .granted e.nextToken ((e.effectiveLease r.requested).setWidth 32) ∧
        Frame s.part q [.lock r.lock, .queue (.agent a), .page (.agent a), .lastServed])

/-- ACQUIRE that is not grantable now, with the queue flag clear, is refused BUSY with the lock's holder count and waiter
count as the engine found them; it takes no place and no record (R43). -/
def Obligations.AcquireBusyWhenNotQueued : Prop :=
  ∀ (s : State) (a : AgentId) (args : Vector Word 6) (r : AcquireArgs),
    s.part.claims (.agent a) .acquire args → s.part.mayServe (agentPos a) = true → s.part.serves a →
    acquireArgs args = some r → (s.part.lock r.lock).admits a r.mode →
    (s.part.lock r.lock).grantableNow r.mode = false → r.queue = false →
    ∃ q, exec (.acquire a .take) s = .next { s with part := q } ∧
      Answered s.part q (.agent a) .busy (BitVec.ofNat 32 (s.part.lock r.lock).holders.length)
        (BitVec.ofNat 32 (s.part.lock r.lock).waiters.length) ∧
      Frame s.part q [.page (.agent a), .lastServed]

/-- ACQUIRE that is not grantable now, with the queue flag set, is refused QUEUE_FULL when the number of agent waiters of the
lock has reached its queue limit; channel waiters do not count (R44). -/
def Obligations.AcquireQueueFull : Prop :=
  ∀ (s : State) (a : AgentId) (args : Vector Word 6) (r : AcquireArgs),
    s.part.claims (.agent a) .acquire args → s.part.mayServe (agentPos a) = true → s.part.serves a →
    acquireArgs args = some r → (s.part.lock r.lock).admits a r.mode →
    (s.part.lock r.lock).grantableNow r.mode = false → r.queue = true →
    ((s.part.lock r.lock).waiters.filter fun w => w.party.isAgent).length = (s.part.lock r.lock).queueLimit →
    ∃ q, exec (.acquire a .take) s = .next { s with part := q } ∧
      Answered s.part q (.agent a) .queueFull 0 0 ∧ Frame s.part q [.page (.agent a), .lastServed]

/-- ACQUIRE that is not grantable now, with the queue flag set and the queue limit not reached: refused NO_NOTICE_ROOM without
room for two places, then NO_RECORD without a free agent record. Otherwise a WAITING record with the requested lease as given
and the wait limit as its remaining wait (absent for 0) joins the tail of the waiter list, two places are reserved, and the
answer is QUEUED with the position (R45). -/
def Obligations.AcquireQueued : Prop :=
  ∀ (s : State) (a : AgentId) (args : Vector Word 6) (r : AcquireArgs),
    s.part.claims (.agent a) .acquire args → s.part.mayServe (agentPos a) = true → s.part.serves a →
    acquireArgs args = some r → (s.part.lock r.lock).admits a r.mode →
    (s.part.lock r.lock).grantableNow r.mode = false → r.queue = true →
    ((s.part.lock r.lock).waiters.filter fun w => w.party.isAgent).length < (s.part.lock r.lock).queueLimit →
    ∃ q, exec (.acquire a .take) s = .next { s with part := q } ∧ q.engine.lastServed = agentPos a ∧
      let room := (s.part.queue (.agent a)).reserved + (s.part.queue (.agent a)).notices.length + 2 ≤ 16
      (¬room → Answered s.part q (.agent a) .noNoticeRoom 0 0 ∧ Frame s.part q [.page (.agent a), .lastServed]) ∧
      (room → s.part.agentFree = 0 →
        Answered s.part q (.agent a) .noRecord 0 0 ∧ Frame s.part q [.page (.agent a), .lastServed]) ∧
      (room → s.part.agentFree ≠ 0 →
        q.lock r.lock = { s.part.lock r.lock with
          waiters := (s.part.lock r.lock).waiters ++
            [{ party := .agent a, owner := a, mode := r.mode, requested := r.requested,
               remaining := if r.waitLimit = 0 then none else some r.waitLimit }] } ∧
        q.queue (.agent a) = { s.part.queue (.agent a) with reserved := (s.part.queue (.agent a)).reserved + 2 } ∧
        Answered s.part q (.agent a) .queued (BitVec.ofNat 32 ((s.part.lock r.lock).waiters.length + 1)) 0 ∧
        Frame s.part q [.lock r.lock, .queue (.agent a), .page (.agent a), .lastServed])

/-- What the lock commands of an ATTACHED agent answer to arguments they do not take: BAD_ARGUMENT for a lock number above 63;
then, for RELEASE, RENEW and DOWNGRADE, NOT_HOLDER without a holding of the agent, STALE_TOKEN with the current token for
another token; and for a DOWNGRADE under its token MODE_NOT_ALLOWED on an EXCLUSIVE_ONLY lock and else WRONG_MODE for a SHARED
holding (R2, R54, R58, R70). Nothing but the page changes, and the arbiter moves on. -/
def Obligations.LockCommandRefusals : Prop :=
  ∀ (s : State) (a : AgentId) (c : Cmd) (i : Instr) (args : Vector Word 6),
    lockTakeOf a c = some i → s.part.claims (.agent a) c args → s.part.mayServe (agentPos a) = true → s.part.serves a →
    ∃ q, exec i s = .next { s with part := q } ∧
      let refused := fun code r0 =>
        Answered s.part q (.agent a) code r0 0 ∧ q.engine.lastServed = agentPos a ∧
          Frame s.part q [.page (.agent a), .lastServed]
      (64 ≤ (pick args 0).toNat % 256 → refused .badArgument 0) ∧
      (c = .renew → 65535 < (pick args 2).toNat → refused .badArgument 0) ∧
      ∀ l : LockId, (pick args 0).toNat % 256 = l.val → c = .release ∨ c = .renew ∨ c = .downgrade →
        (c = .renew → (pick args 2).toNat ≤ 65535) →
        ((s.part.lock l).holderOf (.agent a) = none → refused .notHolder 0) ∧
        ∀ h, (s.part.lock l).holderOf (.agent a) = some h →
          (h.token ≠ pick args 1 → refused .staleToken h.token) ∧
          (c = .downgrade → h.token = pick args 1 →
            ((s.part.lock l).cls = .exclusiveOnly → refused .modeNotAllowed 0) ∧
            ((s.part.lock l).cls ≠ .exclusiveOnly → h.mode = .shared → refused .wrongMode 0))

/-- CANCEL_WAIT: with a wait of the agent on the lock, the wait leaves the list, its two places are returned, the grant pass
runs, and the answer is OK with the position the wait had and the number of parties granted; without one, NOT_WAITING, with
the token and 1 where the agent holds the lock (R50, R16, R17). -/
def Obligations.CancelWaitRemovesWait : Prop :=
  ∀ (s : State) (a : AgentId) (args : Vector Word 6) (l : LockId),
    s.part.claims (.agent a) .cancelWait args → s.part.mayServe (agentPos a) = true → s.part.serves a →
    (pick args 0).toNat % 256 = l.val →
    ∃ q, exec (.cancelWait a .take) s = .next { s with part := q } ∧ q.engine.lastServed = agentPos a ∧
      let e := s.part.lock l
      (e.waiterOf (.agent a) ≠ none →
        let r := (e.withoutWaiter (.agent a)).grantPass
        q.lock l = r.1 ∧ GrantsReported s.part q l r.2 (placesOf a 2) ∧
        Answered s.part q (.agent a) .accepted (BitVec.ofNat 32 (e.position (.agent a))) (BitVec.ofNat 32 r.2.length) ∧
        Frame s.part q (.page (.agent a) :: passPieces l)) ∧
      (e.waiterOf (.agent a) = none →
        Frame s.part q [.page (.agent a), .lastServed] ∧
        (∀ h, e.holderOf (.agent a) = some h → Answered s.part q (.agent a) .notWaiting h.token 1) ∧
        (e.holderOf (.agent a) = none → Answered s.part q (.agent a) .notWaiting 0 0))

/-- RELEASE under the holding's token: the holding leaves the list and its place is returned. On an OPEN lock the grant pass
runs, and the answer is OK with the holder count after it and the number of parties granted; a CLOSING lock stays CLOSING
while holdings are left, and with the last becomes DISABLED with LOCK_CLOSED delivered to the supervisor (R7, R55). -/
def Obligations.ReleaseGivesBack : Prop :=
  ∀ (s : State) (a : AgentId) (args : Vector Word 6) (l : LockId) (h : Holding),
    s.part.claims (.agent a) .release args → s.part.mayServe (agentPos a) = true → s.part.serves a →
    (pick args 0).toNat % 256 = l.val → (s.part.lock l).holderOf (.agent a) = some h → h.token = pick args 1 →
    ∃ q, exec (.release a .take) s = .next { s with part := q } ∧ q.engine.lastServed = agentPos a ∧
      let e := s.part.lock l
      let e1 := e.withoutHolder (.agent a)
      (e.state = .opened →
        q.lock l = e1.grantPass.1 ∧ GrantsReported s.part q l e1.grantPass.2 (placesOf a 1) ∧
        Answered s.part q (.agent a) .accepted (BitVec.ofNat 32 (q.lock l).holders.length)
          (BitVec.ofNat 32 e1.grantPass.2.length) ∧
        Frame s.part q (.page (.agent a) :: passPieces l)) ∧
      (e.state = .closing →
        q.queue (.agent a) = { s.part.queue (.agent a) with reserved := (s.part.queue (.agent a)).reserved - 1 } ∧
        Answered s.part q (.agent a) .accepted (BitVec.ofNat 32 e1.holders.length) 0 ∧
        (e1.holders ≠ [] → q.lock l = e1 ∧
          Frame s.part q [.page (.agent a), .lock l, .queue (.agent a), .lastServed]) ∧
        (e1.holders = [] → q.lock l = { e1 with state := .disabled } ∧
          q.queue .supervisor = { notices := (s.part.queue .supervisor).notices ++ [.lockClosed l],
                                  reserved := (s.part.queue .supervisor).reserved - 1 } ∧
          Frame s.part q [.page (.agent a), .lock l, .queue (.agent a), .queue .supervisor, .lastServed]))

/-- RENEW under the holding's token gives the holding the effective lease of its argument, or leaves it without a lease on a
lock whose maximum lease is 0; token, mode and place are kept; the answer is OK with the token and the effective lease
(R71). -/
def Obligations.RenewSetsLease : Prop :=
  ∀ (s : State) (a : AgentId) (args : Vector Word 6) (l : LockId) (lease : Ticks) (h : Holding),
    s.part.claims (.agent a) .renew args → s.part.mayServe (agentPos a) = true → s.part.serves a →
    (pick args 0).toNat % 256 = l.val → (pick args 2).toNat = lease.toNat →
    (s.part.lock l).holderOf (.agent a) = some h → h.token = pick args 1 →
    ∃ q, exec (.renew a .take) s = .next { s with part := q } ∧ q.engine.lastServed = agentPos a ∧
      let e := s.part.lock l
      q.lock l = { e with holders := e.holders.map fun x =>
        if x.party = .agent a then
          { x with remaining := if e.maxLease = 0 then none else some (e.effectiveLease lease) }
        else x } ∧
      Answered s.part q (.agent a) .accepted h.token ((e.effectiveLease lease).setWidth 32) ∧
      Frame s.part q [.page (.agent a), .lock l, .lastServed]

/-- DOWNGRADE of an EXCLUSIVE holding under its token, on a SHARED_ALLOWED lock: the mode becomes SHARED in place, the grant
pass runs, and the answer is OK with the token and the number of parties granted (R59). -/
def Obligations.DowngradeMakesShared : Prop :=
  ∀ (s : State) (a : AgentId) (args : Vector Word 6) (l : LockId) (h : Holding),
    s.part.claims (.agent a) .downgrade args → s.part.mayServe (agentPos a) = true → s.part.serves a →
    (pick args 0).toNat % 256 = l.val → (s.part.lock l).holderOf (.agent a) = some h → h.token = pick args 1 →
    (s.part.lock l).cls = .sharedAllowed → h.mode = .exclusive →
    ∃ q, exec (.downgrade a .take) s = .next { s with part := q } ∧ q.engine.lastServed = agentPos a ∧
      let e := s.part.lock l
      let r := ({ e with holders := e.holders.map fun x =>
        if x.party = .agent a then { x with mode := .shared } else x } : LockEntry).grantPass
      q.lock l = r.1 ∧ GrantsReported s.part q l r.2 (fun _ => 0) ∧
      Answered s.part q (.agent a) .accepted h.token (BitVec.ofNat 32 r.2.length) ∧
      Frame s.part q (.page (.agent a) :: passPieces l)

/-- QUERY, INSPECT_LOCK and INSPECT_RECORD answer with the lock's standing, its configuration, or the record at a position
(R61, R138 to R140), in the layouts of R162 and R163, the two INSPECT commands whether or not a CLEAR is in flight. They change
nothing but their page and the arbiter's position; of a CLEAR in flight, the taking of the supervisor page's claim raises the
lock-table step that waited for it (R145). -/
def Obligations.LockReadouts : Prop :=
  (∀ (s : State) (args : Vector Word 6) (l : LockId),
    (∀ a : AgentId, s.part.claims (.agent a) .query args → s.part.mayServe (agentPos a) = true → s.part.serves a →
      (pick args 0).toNat % 256 = l.val →
      ∃ q, exec (.query a .take) s = .next { s with part := q } ∧
        Answered s.part q (.agent a) .accepted (s.part.lock l).standingWord (s.part.lock l).generation ∧
        q.engine.lastServed = agentPos a ∧ Frame s.part q [.page (.agent a), .lastServed]) ∧
    (s.part.claims .supervisor .inspectLock args → s.part.mayServe supervisorPos = true → (pick args 0).toNat = l.val →
      ∃ q, exec (.inspectLock .take) s = .next { s with part := q } ∧
        ((pick args 1).toNat = 0 →
          Answered s.part q .supervisor .accepted ((s.part.lock l).standingWord ||| periodField s.part.period)
            (s.part.lock l).generation) ∧
        ((pick args 1).toNat = 1 →
          Answered s.part q .supervisor .accepted ((s.part.lock l).configWord ||| periodField s.part.period)
            (s.part.lock l).leaseWord) ∧
        (1 < (pick args 1).toNat → Answered s.part q .supervisor .badArgument 0 0) ∧
        q.engine.lastServed = supervisorPos ∧ q.table.clear = s.part.clearServed ∧
        Frame s.part q [.page .supervisor, .lastServed, .clear]) ∧
    (s.part.claims .supervisor .inspectRecord args → s.part.mayServe supervisorPos = true → (pick args 0).toNat = l.val →
      ∃ q, exec (.inspectRecord .take) s = .next { s with part := q } ∧
        (∀ n, (pick args 2).toNat = n + 1 → n < 18 →
          ((pick args 1).toNat = 0 →
            (∀ h, (s.part.lock l).holders[n]? = some h → Answered s.part q .supervisor .accepted h.word h.token) ∧
            ((s.part.lock l).holders.length ≤ n → Answered s.part q .supervisor .accepted 0 0)) ∧
          ((pick args 1).toNat = 1 →
            (∀ w, (s.part.lock l).waiters[n]? = some w →
              Answered s.part q .supervisor .accepted w.word (w.requested.setWidth 32)) ∧
            ((s.part.lock l).waiters.length ≤ n → Answered s.part q .supervisor .accepted 0 0))) ∧
        ((pick args 2).toNat = 0 ∨ 18 < (pick args 2).toNat ∨ 1 < (pick args 1).toNat →
          Answered s.part q .supervisor .badArgument 0 0) ∧
        q.engine.lastServed = supervisorPos ∧ q.table.clear = s.part.clearServed ∧
        Frame s.part q [.page .supervisor, .lastServed, .clear])) ∧
  (∀ (e : LockEntry) (period : Period),
    let state := match e.state with | .disabled => 0 | .opened => 1 | .closing => 2
    let periodCode := match period with | .us10 => 0 | .us100 => 1 | .ms1 => 2 | .ms10 => 3
    let agents := (e.waiters.filter fun w => w.party.isAgent).length
    let channels := (e.waiters.filter fun w => !w.party.isAgent).length
    (e.holders.length ≤ 10 → agents ≤ 16 → channels ≤ 2 → ∀ mode,
      (mode = 0 ∧ e.holders = [] ∨ mode = 1 ∧ e.holders ≠ [] ∧ (∀ h ∈ e.holders, h.mode = .shared) ∨
        mode = 2 ∧ ∃ h ∈ e.holders, h.mode = .exclusive) →
      let standing := state + 2 ^ 2 * mode + 2 ^ 8 * e.holders.length + 2 ^ 16 * agents + 2 ^ 24 * channels
      e.standingWord.toNat = standing ∧ (e.standingWord ||| periodField period).toNat = standing + 2 ^ 28 * periodCode) ∧
    (e.queueLimit ≤ 16 →
      (e.configWord ||| periodField period).toNat =
        state + 2 ^ 4 * (match e.cls with | .exclusiveOnly => 1 | .sharedAllowed => 2) + 2 ^ 8 * e.queueLimit +
          2 ^ 16 * e.mask.toNat + 2 ^ 28 * periodCode) ∧
    e.leaseWord.toNat = e.defaultLease.toNat + 2 ^ 16 * e.maxLease.toNat) ∧
  ∀ (h : Holding) (w : Waiting),
    let record := fun (party : Party) (owner : AgentId) (mode : Mode) (count : Option Ticks) =>
      2 ^ 4 * (match party with | .agent a => a.val | .chan .c0 => 8 | .chan .c1 => 9) + 2 ^ 8 * owner.val +
        2 ^ 12 * (match mode with | .shared => 1 | .exclusive => 2) +
        match count with | none => 0 | some n => 2 ^ 15 + 2 ^ 16 * n.toNat
    h.word.toNat = 2 + record h.party h.owner h.mode h.remaining ∧
      w.word.toNat = 1 + record w.party w.owner w.mode w.remaining

/-- CONFIGURE_LOCK of a DISABLED lock, while no CLEAR is in flight, stores the five configuration fields as given and opens the
lock with empty lists and its generation kept; the answer is OK with the generation. A lock that is not DISABLED is refused
WRONG_STATE (R5, R161). -/
def Obligations.ConfigureOpensLock : Prop :=
  ∀ (s : State) (args : Vector Word 6) (l : LockId) (cls : LockClass),
    s.part.claims .supervisor .configureLock args → s.part.mayServe supervisorPos = true → s.part.clearing = false →
    (pick args 0).toNat = l.val →
    (pick args 1).toNat = 1 ∧ cls = .exclusiveOnly ∨ (pick args 1).toNat = 2 ∧ cls = .sharedAllowed →
    (pick args 4).toNat ≤ 16 → ¬((pick args 2).toNat % 65536 = 0 ∧ (pick args 3).toNat % 65536 ≠ 0) →
    ∃ q, exec (.configureLock .take) s = .next { s with part := q } ∧ q.engine.lastServed = supervisorPos ∧
      ((s.part.lock l).state = .disabled →
        q.lock l = { state := .opened, cls, defaultLease := (pick args 2).setWidth 16, maxLease := (pick args 3).setWidth 16,
                     queueLimit := (pick args 4).toNat, mask := (pick args 5).setWidth 8,
                     generation := (s.part.lock l).generation, holders := [], waiters := [] } ∧
        Answered s.part q .supervisor .accepted (s.part.lock l).generation 0 ∧
        Frame s.part q [.page .supervisor, .lock l, .lastServed]) ∧
      ((s.part.lock l).state ≠ .disabled →
        Answered s.part q .supervisor .wrongState 0 0 ∧ Frame s.part q [.page .supervisor, .lastServed])

/-- CLOSE_LOCK of an OPEN lock, with room in the supervisor's queue: every wait is cancelled with its notice or report, the
holdings stay, the lock is CLOSING with one place reserved, or, with no holdings, DISABLED at once with LOCK_CLOSED delivered;
the answer is OK with the numbers of holdings left and of waits removed (R6). -/
def Obligations.CloseCancelsWaits : Prop :=
  ∀ (s : State) (args : Vector Word 6) (l : LockId),
    s.part.claims .supervisor .closeLock args → s.part.mayServe supervisorPos = true → s.part.clearing = false →
    (pick args 0).toNat = l.val → (s.part.lock l).state = .opened →
    (s.part.queue .supervisor).reserved + (s.part.queue .supervisor).notices.length + 1 ≤ 16 →
    ∃ q, exec (.closeLock .take) s = .next { s with part := q } ∧ q.engine.lastServed = supervisorPos ∧
      let e := s.part.lock l
      (e.holders ≠ [] → q.lock l = { e with state := .closing, waiters := [] } ∧
        q.queue .supervisor =
          { s.part.queue .supervisor with reserved := (s.part.queue .supervisor).reserved + 1 }) ∧
      (e.holders = [] → q.lock l = { e with state := .disabled, waiters := [] } ∧
        q.queue .supervisor =
          { s.part.queue .supervisor with notices := (s.part.queue .supervisor).notices ++ [.lockClosed l] }) ∧
      (∀ b, q.queue (.agent b) =
        s.part.queueAfter b (cancelsTo l .closed b e.waiters) (2 * (cancelsTo l .closed b e.waiters).length)) ∧
      q.transfer.inbox = s.part.transfer.inbox ++ waitReports .closed e.waiters ∧
      Answered s.part q .supervisor .accepted (BitVec.ofNat 32 e.holders.length) (BitVec.ofNat 32 e.waiters.length) ∧
      Frame s.part q (.page .supervisor :: .queue .supervisor :: passPieces l)

/-- BREAK_LOCK of a lock that is not DISABLED: every holding is revoked with its notice or report, then every wait is cancelled
with its own; an OPEN lock stays OPEN with empty lists, a CLOSING lock becomes DISABLED with LOCK_CLOSED delivered; no grant is
made; the answer is OK with the numbers of holdings and of waits (R8, R75). -/
def Obligations.BreakTakesBack : Prop :=
  ∀ (s : State) (args : Vector Word 6) (l : LockId),
    s.part.claims .supervisor .breakLock args → s.part.mayServe supervisorPos = true → s.part.clearing = false →
    (pick args 0).toNat = l.val → (s.part.lock l).state ≠ .disabled →
    ∃ q, exec (.breakLock .take) s = .next { s with part := q } ∧ q.engine.lastServed = supervisorPos ∧
      let e := s.part.lock l
      (e.state = .opened → q.lock l = { e with holders := [], waiters := [] } ∧
        q.queue .supervisor = s.part.queue .supervisor) ∧
      (e.state = .closing → q.lock l = { e with state := .disabled, holders := [], waiters := [] } ∧
        q.queue .supervisor = { notices := (s.part.queue .supervisor).notices ++ [.lockClosed l],
                                reserved := (s.part.queue .supervisor).reserved - 1 }) ∧
      (∀ b, q.queue (.agent b) =
        s.part.queueAfter b (revokesTo l .broken b e.holders ++ cancelsTo l .broken b e.waiters)
          ((revokesTo l .broken b e.holders).length + 2 * (cancelsTo l .broken b e.waiters).length)) ∧
      q.transfer.inbox = s.part.transfer.inbox ++ lossReports .lockBroken e.holders ++ waitReports .broken e.waiters ∧
      Answered s.part q .supervisor .accepted (BitVec.ofNat 32 e.holders.length) (BitVec.ofNat 32 e.waiters.length) ∧
      Frame s.part q (.page .supervisor :: .queue .supervisor :: passPieces l)

/-! ### Grants, tokens, the arbiter (Chapters 1 and 4) -/

/-- The effective lease of a grant, and of RENEW, as the table of R68 gives it, and the remaining lease it sets; on a lock with
leases and a usable default it lies between 1 and the maximum lease. -/
def Obligations.EffectiveLease : Prop :=
  ∀ (e : LockEntry) (requested : Ticks),
    (e.maxLease = 0 → e.effectiveLease requested = 0 ∧ e.leaseGiven requested = none) ∧
    (e.maxLease ≠ 0 →
      e.leaseGiven requested = some (e.effectiveLease requested) ∧
      (requested = 0 →
        (e.effectiveLease requested).toNat = min e.defaultLease.toNat e.maxLease.toNat) ∧
      (requested ≠ 0 → (e.effectiveLease requested).toNat = min requested.toNat e.maxLease.toNat) ∧
      (e.defaultLease ≠ 0 →
        1 ≤ (e.effectiveLease requested).toNat ∧ (e.effectiveLease requested).toNat ≤ e.maxLease.toNat))

/-- A new token is neither 0 nor the token of a holding on the lock's list, it is the first such value on the way round from
the generation, and a grant makes it both the holding's token and the lock's generation (R15). -/
def Obligations.TokenIsFresh : Prop :=
  ∀ (e : LockEntry),
    e.nextToken ≠ 0 ∧ (e.holders.length ≤ 10 → ∀ h ∈ e.holders, h.token ≠ e.nextToken) ∧
    (∃ n, e.nextToken = nextGeneration^[n + 1] e.generation ∧
      ∀ k < n, nextGeneration^[k + 1] e.generation ∈ e.holders.map Holding.token) ∧
    ∀ (party : Party) (owner : AgentId) (mode : Mode) (requested : Ticks),
      let h := e.newHolding party owner mode requested
      h.token = e.nextToken ∧ (e.withHolding h).generation = h.token ∧ (e.withHolding h).holders = e.holders ++ [h]

/-- The grant pass on an OPEN lock grants waiters from the head while the head fits: EXCLUSIVE onto an empty holder list,
SHARED onto one without an EXCLUSIVE holding; each grant gives a fresh token and the effective lease and moves the record to
the tail of the holder list; it ends at the first head that does not fit. On a lock that is not OPEN it does nothing (R16,
R17). -/
def Obligations.GrantPassGrantsHeads : Prop :=
  (∀ e : LockEntry, e.state ≠ .opened → e.grantPass = (e, [])) ∧
  (∀ e : LockEntry, e.state = .opened → e.waiters = [] → e.grantPass = (e, [])) ∧
  (∀ (e : LockEntry) (w : Waiting) (rest : List Waiting), e.state = .opened → e.waiters = w :: rest →
    let fits := (w.mode = .exclusive ∧ e.holders = []) ∨ (w.mode = .shared ∧ ∀ h ∈ e.holders, h.mode = .shared)
    let h : Holding := { party := w.party, owner := w.owner, mode := w.mode, token := e.nextToken,
                         remaining := if e.maxLease = 0 then none else some (e.effectiveLease w.requested) }
    let e1 : LockEntry := { e with generation := e.nextToken, holders := e.holders ++ [h], waiters := rest }
    (¬fits → e.grantPass = (e, [])) ∧ (fits → e.grantPass = (e1.grantPass.1, h :: e1.grantPass.2))) ∧
  ∀ e : LockEntry, ∃ n, e.grantPass.1.waiters = e.waiters.drop n ∧ e.grantPass.2.length = n ∧
    e.grantPass.1.holders = e.holders ++ e.grantPass.2 ∧
    (e.state = .opened → ∀ w ∈ e.grantPass.1.waiters.head?, e.grantPass.1.fits w.mode = false)

/-- The arbiter serves, of the positions with a claim pending, the first in circular order after the one served last. While a
position has a claim pending some position is next, and each claim of another position that is taken brings it nearer, of at
most twelve that stand ahead of it, so that it is served within thirteen claims (R20). The engine takes no claim while a tick
boundary is part-way applied (the model's course of R66, log 7). -/
def Obligations.ArbiterTakesNextInTurn : Prop :=
  ∀ (p : Part) (pos : Fin 13),
    (p.mayServe pos = true ↔ p.engine.ranOut = [] ∧
      ∃ k : Fin 13, pos = p.engine.lastServed + 1 + k ∧ p.pendingAt pos = true ∧
        ∀ j < k, p.pendingAt (p.engine.lastServed + 1 + j) = false) ∧
    (p.engine.ranOut = [] → p.pendingAt pos = true → ∃ next, p.mayServe next = true) ∧
    let ahead := fun (last : Fin 13) => (pos - last - 1).val
    ∀ next, p.pendingAt pos = true → p.mayServe next = true → next ≠ pos → ahead next < ahead p.engine.lastServed

/-! ### Ticks, expiries, the purge, and the channels' claims (Chapters 1 to 4) -/

/-- A tick boundary lowers every count that is present and above zero by one: the remaining leases and waits of every lock and
the master's grant-wait count; the counts that reach zero wait, in the order of R21, for their expiry claims to be appended,
which LEASE_RUNS_OUT and WAIT_RUNS_OUT do one by one (R65, R66, R129). Two clauses are the model's course and no rule's: the
appending apart from the boundary (log 7), and a grant-wait count of one that falls to a count present at zero, which leaves the
phase and the burst to BUS_TIMEOUT, where R129 withdraws the request and ends the burst at once (log 8). -/
def Obligations.TickLowersCounts : Prop :=
  ∀ s : State,
    (∃ q, exec .tickBoundary s = .next { s with part := q } ∧
      (∀ l, q.lock l = { s.part.lock l with
        holders := (s.part.lock l).holders.map fun h => { h with remaining := h.remaining.map fallen },
        waiters := (s.part.lock l).waiters.map fun w => { w with remaining := w.remaining.map fallen } }) ∧
      q.master = { s.part.master with count := s.part.master.count.map fallen } ∧
      q.engine.ranOut = s.part.engine.ranOut ++ allLocks.flatMap (fun l =>
        ((s.part.lock l).holders.filter fun h => h.remaining == some 1).map (fun h => ⟨l, h.party, .lease⟩) ++
        ((s.part.lock l).waiters.filter fun w => w.remaining == some 1).map (fun w => ⟨l, w.party, .wait⟩)) ∧
      Frame s.part q (.ranOut :: .master :: lockPieces)) ∧
    ∀ (x : ExpiryClaim) (rest : List ExpiryClaim), s.part.engine.ranOut = x :: rest →
      ∃ q, exec (match x.kind with | .lease => .leaseRunsOut | .wait => .waitRunsOut) s = .next { s with part := q } ∧
        q.engine.ranOut = rest ∧ q.engine.expiry = s.part.engine.expiry ++ [x] ∧ Frame s.part q [.ranOut, .expiry]

/-- The oldest claim of the expiry source. LEASE_EXPIRY: a holding of the named party with its remaining lease at zero is
revoked with REVOKED, reason LEASE_EXPIRED, or with the report LEASE_LOST for a channel; then the grant pass runs on an OPEN
lock, and a CLOSING lock whose last holding it was is drained (R7, R73). WAIT_EXPIRY: a wait of the named party with its
remaining wait at zero leaves the list with WAIT_EXPIRED, which uses one of its two places and returns the other, or with a
report for a channel; then the grant pass runs (R49). With no such record the claim does nothing. -/
def Obligations.ExpiriesEndRecords : Prop :=
  (∀ (s : State) (l : LockId) (party : Party) (rest : List ExpiryClaim),
     s.part.engine.expiry = ⟨l, party, .lease⟩ :: rest → s.part.mayServe expiryPos = true →
     ∃ q, exec .leaseExpiry s = .next { s with part := q } ∧ q.engine.expiry = rest ∧ q.engine.lastServed = expiryPos ∧
       let e := s.part.lock l
       let e1 := e.withoutHolder party
       (∀ h, e.holderOf party = some h → h.remaining = some 0 →
         (e.state = .opened →
           q.lock l = e1.grantPass.1 ∧
           (∀ b, q.queue (.agent b) =
             s.part.queueAfter b (revokesTo l .leaseExpired b [h] ++ grantsTo l b e1.grantPass.2)
               ((revokesTo l .leaseExpired b [h]).length + (grantsTo l b e1.grantPass.2).length)) ∧
           q.transfer.inbox = s.part.transfer.inbox ++ lossReports .leaseLost [h] ++ grantReports e1.grantPass.2 ∧
           Frame s.part q (.expiry :: passPieces l)) ∧
         (e.state = .closing →
           (e1.holders ≠ [] → q.lock l = e1 ∧ q.queue .supervisor = s.part.queue .supervisor) ∧
           (e1.holders = [] → q.lock l = { e1 with state := .disabled } ∧
             q.queue .supervisor = { notices := (s.part.queue .supervisor).notices ++ [.lockClosed l],
                                     reserved := (s.part.queue .supervisor).reserved - 1 }) ∧
           (∀ b, q.queue (.agent b) =
             s.part.queueAfter b (revokesTo l .leaseExpired b [h]) (revokesTo l .leaseExpired b [h]).length) ∧
           q.transfer.inbox = s.part.transfer.inbox ++ lossReports .leaseLost [h] ∧
           Frame s.part q (.expiry :: .queue .supervisor :: passPieces l))) ∧
       ((∀ h, e.holderOf party = some h → h.remaining ≠ some 0) → Frame s.part q [.expiry, .lastServed])) ∧
  ∀ (s : State) (l : LockId) (party : Party) (rest : List ExpiryClaim),
    s.part.engine.expiry = ⟨l, party, .wait⟩ :: rest → s.part.mayServe expiryPos = true →
    ∃ q, exec .waitExpiry s = .next { s with part := q } ∧ q.engine.expiry = rest ∧ q.engine.lastServed = expiryPos ∧
      let e := s.part.lock l
      let e1 := e.withoutWaiter party
      (∀ w, e.waiterOf party = some w → w.remaining = some 0 →
        q.lock l = e1.grantPass.1 ∧
        (∀ b, q.queue (.agent b) =
          s.part.queueAfter b (expiresTo l b w ++ grantsTo l b e1.grantPass.2)
            (2 * (expiresTo l b w).length + (grantsTo l b e1.grantPass.2).length)) ∧
        q.transfer.inbox = s.part.transfer.inbox ++ waitReports .expired [w] ++ grantReports e1.grantPass.2 ∧
        Frame s.part q (.expiry :: passPieces l)) ∧
      ((∀ w, e.waiterOf party = some w → w.remaining ≠ some 0) → Frame s.part q [.expiry, .lastServed])

/-- PURGE, the oldest purge claim of the agent table: from every lock, in ascending number, every record of the agent is
removed without a notice and its places are returned, then the grant pass runs or the lock is drained; a lock without a record
of the agent is left as it was; the purge is reported to the agent table (R7, R22, R33). -/
def Obligations.PurgeRemovesRecords : Prop :=
  ∀ (s : State) (a : AgentId) (rest : List AgentId),
    s.part.table.purges = a :: rest → s.part.mayServe tablePos = true →
    ∃ q, exec .purge s = .next { s with part := q } ∧
      q.table.purges = rest ∧ q.table.reports = s.part.table.reports ++ [.purgeDone a] ∧ q.engine.lastServed = tablePos ∧
      (∀ l, q.lock l = ((s.part.lock l).afterPurge a).1) ∧
      (∀ b, let ns := allLocks.flatMap fun l => grantsTo l b ((s.part.lock l).afterPurge a).2
        q.queue (.agent b) = s.part.queueAfter b ns
          (placesOf a (allLocks.map fun l => (s.part.lock l).placesHeld a).sum b + ns.length)) ∧
      q.queue .supervisor =
        { notices := (s.part.queue .supervisor).notices ++ (s.part.drainedBy a).map .lockClosed,
          reserved := (s.part.queue .supervisor).reserved - (s.part.drainedBy a).length } ∧
      q.transfer.inbox =
        s.part.transfer.inbox ++ allLocks.flatMap (fun l => grantReports ((s.part.lock l).afterPurge a).2) ∧
      Frame s.part q
        (.purges :: .reports :: .lastServed :: .inbox :: .queue .supervisor :: (agentQueues ++ lockPieces))

/-- A channel's acquisition claim: answered closed when the lock is not OPEN, does not allow the mode or has not the owner
agent in its mask; granted at once when grantable now, with a fresh token and the effective lease; and otherwise the channel's
record joins the tail of the waiter list (R62). -/
def Obligations.ChannelAcquisitionAnswered : Prop :=
  ∀ (s : State) (c : ChanId) (l : LockId) (m : Mode) (requested waitLimit : Ticks) (owner : AgentId),
    s.part.engine.claims.get c = some (.acquisition l m requested waitLimit owner) →
    s.part.mayServe (chanPos c) = true →
    ∃ q, exec (.channelAcquisition c) s = .next { s with part := q } ∧
      q.engine.claims.get c = none ∧ q.engine.lastServed = chanPos c ∧
      let e := s.part.lock l
      let may := e.state = .opened ∧ ¬(m = .shared ∧ e.cls = .exclusiveOnly) ∧ e.mask.getLsbD owner.val = true
      let answered := fun ans => q.transfer.inbox = s.part.transfer.inbox ++ [.acquisitionAnswer c ans]
      (¬may → answered .closed ∧ Frame s.part q [.claim c, .inbox, .lastServed]) ∧
      (may → e.grantableNow m = true →
        answered (.granted e.nextToken (e.effectiveLease requested)) ∧
        q.lock l = { e with
          generation := e.nextToken,
          holders := e.holders ++ [{ party := .chan c, owner, mode := m, token := e.nextToken,
                                     remaining := if e.maxLease = 0 then none else some (e.effectiveLease requested) }] } ∧
        Frame s.part q [.claim c, .inbox, .lastServed, .lock l]) ∧
      (may → e.grantableNow m = false →
        answered .waits ∧
        q.lock l = { e with
          waiters := e.waiters ++ [{ party := .chan c, owner, mode := m, requested,
                                     remaining := if waitLimit = 0 then none else some waitLimit }] } ∧
        Frame s.part q [.claim c, .inbox, .lastServed, .lock l])

/-- A channel's other claims at the lock engine: the removal of its own wait, answered gone, or by the token it holds, or that
there is no record (R63); its release (R64); and its guard checks, which change nothing: an ACQUIRE check passes when the
channel holds the lock (R110), a FENCE check when the owner agent itself holds it under the token (R111). -/
def Obligations.ChannelClaimsAnswered : Prop :=
  ∀ (s : State) (c : ChanId) (l : LockId), s.part.mayServe (chanPos c) = true →
    let e := s.part.lock l
    let answered := fun (q : Part) grants x => q.transfer.inbox = s.part.transfer.inbox ++ grantReports grants ++ [x]
    let granted := fun (q : Part) grants =>
      ∀ b, q.queue (.agent b) = s.part.queueAfter b (grantsTo l b grants) (grantsTo l b grants).length
    (s.part.engine.claims.get c = some (.removal l) →
      ∃ q, exec (.channelWaiterRemoval c) s = .next { s with part := q } ∧
        q.engine.claims.get c = none ∧ q.engine.lastServed = chanPos c ∧
        (e.waiterOf (.chan c) ≠ none →
          let r := (e.withoutWaiter (.chan c)).grantPass
          q.lock l = r.1 ∧ granted q r.2 ∧ answered q r.2 (.removalAnswer c .gone) ∧
          Frame s.part q (.claim c :: passPieces l)) ∧
        (e.waiterOf (.chan c) = none → Frame s.part q [.claim c, .inbox, .lastServed] ∧
          (∀ h, e.holderOf (.chan c) = some h → answered q [] (.removalAnswer c (.holds h.token))) ∧
          (e.holderOf (.chan c) = none → answered q [] (.removalAnswer c .noRecord)))) ∧
    (s.part.engine.claims.get c = some (.release l) →
      ∃ q, exec (.channelRelease c) s = .next { s with part := q } ∧
        q.engine.claims.get c = none ∧ q.engine.lastServed = chanPos c ∧
        let e1 := e.withoutHolder (.chan c)
        (e.holderOf (.chan c) ≠ none → e.state = .opened →
          q.lock l = e1.grantPass.1 ∧ granted q e1.grantPass.2 ∧ answered q e1.grantPass.2 (.releaseAnswer c true) ∧
          Frame s.part q (.claim c :: passPieces l)) ∧
        (e.holderOf (.chan c) ≠ none → e.state = .closing → answered q [] (.releaseAnswer c true) ∧
          (e1.holders ≠ [] → q.lock l = e1 ∧ Frame s.part q [.claim c, .inbox, .lastServed, .lock l]) ∧
          (e1.holders = [] → q.lock l = { e1 with state := .disabled } ∧
            q.queue .supervisor = { notices := (s.part.queue .supervisor).notices ++ [.lockClosed l],
                                    reserved := (s.part.queue .supervisor).reserved - 1 } ∧
            Frame s.part q [.claim c, .inbox, .lastServed, .lock l, .queue .supervisor])) ∧
        (e.holderOf (.chan c) = none →
          answered q [] (.releaseAnswer c false) ∧ Frame s.part q [.claim c, .inbox, .lastServed])) ∧
    (s.part.engine.claims.get c = some (.acquireGuard l) →
      ∃ q, exec (.acquireGuardCheck c) s = .next { s with part := q } ∧
        q.engine.claims.get c = none ∧ q.engine.lastServed = chanPos c ∧
        (∃ passes, (passes = true ↔ ∃ h ∈ e.holders, h.party = .chan c) ∧ answered q [] (.guardAnswer c passes)) ∧
        Frame s.part q [.claim c, .inbox, .lastServed]) ∧
    ∀ (owner : AgentId) (token : Word), s.part.engine.claims.get c = some (.fenceGuard l owner token) →
      ∃ q, exec (.fenceGuardCheck c) s = .next { s with part := q } ∧
        q.engine.claims.get c = none ∧ q.engine.lastServed = chanPos c ∧
        (∃ passes, (passes = true ↔ ∃ h ∈ e.holders, h.party = .agent owner ∧ h.token = token) ∧
          answered q [] (.guardAnswer c passes)) ∧
        Frame s.part q [.claim c, .inbox, .lastServed]

/-! ### The supervisor's small commands (Chapters 4, 6, 7, 8) -/

/-- SET_TIMEBASE selects the period its code names and keeps every count; SET_BUS_WAIT stores a limit from 1 to 255; each
answers OK with the value in force before, and refuses any other argument BAD_ARGUMENT (R67, R130, R161). The fresh period
that SET_TIMEBASE starts is not held by the model (log 16). -/
def Obligations.TimebaseAndBusWaitAreSet : Prop :=
  ∀ (s : State) (args : Vector Word 6), s.part.clearing = false →
    (s.part.waits .supervisor .setTimebase args →
      ∃ q, exec (.setTimebase .take) s = .next { s with part := q } ∧
        (∀ t : Period, (pick args 0).toNat = t.bits.toNat →
          q.period = t ∧ Answered s.part q .supervisor .accepted (s.part.period.bits.setWidth 32) 0) ∧
        (3 < (pick args 0).toNat →
          q.period = s.part.period ∧ Answered s.part q .supervisor .badArgument 0 0) ∧
        Frame s.part q [.period, .page .supervisor]) ∧
    (s.part.waits .supervisor .setBusWait args →
      ∃ q, exec (.setBusWait .take) s = .next { s with part := q } ∧
        (1 ≤ (pick args 0).toNat → (pick args 0).toNat ≤ 255 →
          q.master = { s.part.master with limit := (pick args 0).setWidth 8 } ∧
          Answered s.part q .supervisor .accepted (s.part.master.limit.setWidth 32) 0) ∧
        ((pick args 0).toNat = 0 ∨ 255 < (pick args 0).toNat →
          q.master = s.part.master ∧ Answered s.part q .supervisor .badArgument 0 0) ∧
        Frame s.part q [.master, .page .supervisor])

/-- The refusals of the supervisor page's commands, which change nothing but the page, and for those of the lock engine the
arbiter's position: while a CLEAR is in flight, CLEARING, of all but INSPECT (R136, R19); and otherwise, for arguments that are
not valid and for an agent or lock in another state, BAD_ARGUMENT, WRONG_STATE and NO_NOTICE_ROOM, in the order of each
command's rule (R5, R6, R8, R26, R27, R31, R119, R122, R138, R141, R142). Of a CLEAR in flight, the taking of a claim of the
supervisor page raises the lock-table step that waited for it (R145). -/
def Obligations.SupervisorRefusals : Prop :=
  (∀ (s : State) (args : Vector Word 6), s.part.clearing = true →
    (∀ x ∈ [(Cmd.enableAgent, Instr.enableAgent .take, s.part.tableFree), (.disableAgent, .disableAgent .take, s.part.tableFree),
        (.evict, .evict .take, s.part.tableFree), (.clear, .clear .take, s.part.tableFree),
        (.pauseChannel, .pauseChannel .take, s.part.transferFree), (.resumeChannel, .resumeChannel .take, s.part.transferFree),
        (.setTimebase, .setTimebase .take, true), (.setBusWait, .setBusWait .take, true)],
      s.part.waits .supervisor x.1 args → x.2.2 = true →
      ∃ q, exec x.2.1 s = .next { s with part := q } ∧ Answered s.part q .supervisor .clearing 0 0 ∧
        Frame s.part q [.page .supervisor]) ∧
    ∀ x ∈ [(Cmd.configureLock, Instr.configureLock .take), (.closeLock, .closeLock .take), (.breakLock, .breakLock .take)],
      s.part.claims .supervisor x.1 args → s.part.mayServe supervisorPos = true →
      ∃ q, exec x.2 s = .next { s with part := q } ∧ Answered s.part q .supervisor .clearing 0 0 ∧
        q.engine.lastServed = supervisorPos ∧ q.table.clear = s.part.clearServed ∧
        Frame s.part q [.page .supervisor, .lastServed, .clear]) ∧
  (∀ (s : State) (args : Vector Word 6), s.part.clearing = false →
    let refused := fun (q : Part) code => Answered s.part q .supervisor code 0 0 ∧ Frame s.part q [.page .supervisor]
    let room := (s.part.queue .supervisor).reserved + (s.part.queue .supervisor).notices.length + 1 ≤ 16
    (s.part.waits .supervisor .enableAgent args → s.part.tableFree = true →
      ∃ q, exec (.enableAgent .take) s = .next { s with part := q } ∧
        (8 ≤ (pick args 0).toNat ∨ 16 ≤ (pick args 1).toNat → refused q .badArgument) ∧
        ∀ a : AgentId, (pick args 0).toNat = a.val → (pick args 1).toNat < 16 →
          (s.part.agent a).state ≠ .disabled → refused q .wrongState) ∧
    (s.part.waits .supervisor .disableAgent args → s.part.tableFree = true →
      ∃ q, exec (.disableAgent .take) s = .next { s with part := q } ∧
        (8 ≤ (pick args 0).toNat → refused q .badArgument) ∧
        ∀ a : AgentId, (pick args 0).toNat = a.val → (s.part.agent a).state ≠ .detached → refused q .wrongState) ∧
    (s.part.waits .supervisor .evict args → s.part.tableFree = true →
      ∃ q, exec (.evict .take) s = .next { s with part := q } ∧
        (8 ≤ (pick args 0).toNat → refused q .badArgument) ∧
        ∀ a : AgentId, (pick args 0).toNat = a.val →
          ((s.part.agent a).state ≠ .attached → refused q .wrongState) ∧
          ((s.part.agent a).state = .attached → ¬room → refused q .noNoticeRoom)) ∧
    (s.part.transferFree = true → 1 < (pick args 0).toNat →
      ∀ x ∈ [(Cmd.pauseChannel, Instr.pauseChannel .take), (.resumeChannel, .resumeChannel .take)],
        s.part.waits .supervisor x.1 args → ∃ q, exec x.2 s = .next { s with part := q } ∧ refused q .badArgument)) ∧
  (∀ (s : State) (args : Vector Word 6),
    let refused := fun (q : Part) code => Answered s.part q .supervisor code 0 0 ∧ Frame s.part q [.page .supervisor]
    (s.part.waits .supervisor .inspectChannel args → s.part.transferFree = true →
      1 < (pick args 0).toNat ∨ 1 < (pick args 1).toNat →
      ∃ q, exec (.inspectChannel .take) s = .next { s with part := q } ∧ refused q .badArgument) ∧
    (s.part.waits .supervisor .inspectAgent args → s.part.tableFree = true → 8 ≤ (pick args 0).toNat →
      ∃ q, exec (.inspectAgent .take) s = .next { s with part := q } ∧ refused q .badArgument)) ∧
  ∀ (s : State) (args : Vector Word 6), s.part.mayServe supervisorPos = true →
    let refused := fun (q : Part) code => Answered s.part q .supervisor code 0 0 ∧ q.engine.lastServed = supervisorPos ∧
      q.table.clear = s.part.clearServed ∧ Frame s.part q [.page .supervisor, .lastServed, .clear]
    let room := (s.part.queue .supervisor).reserved + (s.part.queue .supervisor).notices.length + 1 ≤ 16
    (∀ x ∈ [(Cmd.inspectLock, Instr.inspectLock .take), (.inspectRecord, .inspectRecord .take)],
      s.part.claims .supervisor x.1 args → 64 ≤ (pick args 0).toNat →
      ∃ q, exec x.2 s = .next { s with part := q } ∧ refused q .badArgument) ∧
    (s.part.clearing = false →
      (s.part.claims .supervisor .configureLock args →
        ∃ q, exec (.configureLock .take) s = .next { s with part := q } ∧
          (64 ≤ (pick args 0).toNat ∨ (pick args 1).toNat = 0 ∨ 2 < (pick args 1).toNat ∨ 16 < (pick args 4).toNat ∨
              ((pick args 2).toNat % 65536 = 0 ∧ (pick args 3).toNat % 65536 ≠ 0) →
            refused q .badArgument)) ∧
      (s.part.claims .supervisor .closeLock args →
        ∃ q, exec (.closeLock .take) s = .next { s with part := q } ∧
          (64 ≤ (pick args 0).toNat → refused q .badArgument) ∧
          ∀ l : LockId, (pick args 0).toNat = l.val →
            ((s.part.lock l).state ≠ .opened → refused q .wrongState) ∧
            ((s.part.lock l).state = .opened → ¬room → refused q .noNoticeRoom)) ∧
      (s.part.claims .supervisor .breakLock args →
        ∃ q, exec (.breakLock .take) s = .next { s with part := q } ∧
          (64 ≤ (pick args 0).toNat → refused q .badArgument) ∧
          ∀ l : LockId, (pick args 0).toNat = l.val → (s.part.lock l).state = .disabled → refused q .wrongState))

/-- INSPECT_CHANNEL reads the channel when the transfer engine takes it, then the master, and answers with what both held
(R141). INSPECT_AGENT reads the entry, then has the lock engine count the agent's lock records, the transfer engine its
descriptors, and answers with them and the notice unit's counts (R142). Neither changes anything it reads; the taking of
INSPECT_AGENT's claim raises the lock-table step that waited for it (R145); the agent table waits meanwhile (the model's
reading, log 12). The answers are laid out as R163 says. -/
def Obligations.InspectionsRead : Prop :=
  (∀ (s : State) (args : Vector Word 6),
    (∀ (c : ChanId) (view : Bool), s.part.waits .supervisor .inspectChannel args → s.part.transferFree = true →
      (pick args 0).toNat = (chanBit c).toNat → (pick args 1).toNat = view.toNat →
      ∃ q, exec (.inspectChannel .take) s = .next { s with part := q } ∧
        (q.page .supervisor).inFlight =
          some { cmd := .inspectChannel, args, stage := .channelRead { chan := c, view, record := s.part.chan c } } ∧
        Frame s.part q [.page .supervisor]) ∧
    (∀ (c : ChanId) (view : Bool) (ch : Channel), (s.part.page .supervisor).inFlight =
        some { cmd := .inspectChannel, args, stage := .channelRead { chan := c, view, record := ch } } →
      ∃ q, exec (.inspectChannel .proceed) s = .next { s with part := q } ∧
        (view = false → Answered s.part q .supervisor .accepted (ch.stateWord (s.part.master.phaseFor c))
          (ch.headWord s.part.master.limit)) ∧
        (view = true → Answered s.part q .supervisor .accepted (BitVec.ofNat 32 ch.headMoved) (ch.holding.getD 0)) ∧
        Frame s.part q [.page .supervisor]) ∧
    ∀ a : AgentId, (pick args 0).toNat = a.val →
      (s.part.waits .supervisor .inspectAgent args → s.part.tableFree = true →
        ∃ q, exec (.inspectAgent .take) s = .next { s with part := q } ∧
          (q.page .supervisor).inFlight =
            some { cmd := .inspectAgent, args,
                   stage := if s.part.table.clear = some .stepPending then .entryHeld (s.part.agent a)
                     else .entryClaimed (s.part.agent a) } ∧
          q.table.serving = some .supervisor ∧ Frame s.part q [.page .supervisor, .tableServing]) ∧
      (∀ e : AgentEntry,
        ((s.part.page .supervisor).inFlight = some { cmd := .inspectAgent, args, stage := .entryClaimed e } →
          s.part.mayServe supervisorPos = true →
          ∃ q, exec .inspectAgentRecordCount s = .next { s with part := q } ∧
            (q.page .supervisor).inFlight =
              some { cmd := .inspectAgent, args, stage := .entryCounted e (s.part.agentRecordCount a) } ∧
            q.engine.lastServed = supervisorPos ∧ q.table.clear = s.part.clearServed ∧
            Frame s.part q [.page .supervisor, .lastServed, .clear]) ∧
        (∀ n, (s.part.page .supervisor).inFlight = some { cmd := .inspectAgent, args, stage := .entryCounted e n } →
          s.part.transferFree = true →
          ∃ q, exec (.inspectAgent .proceed) s = .next { s with part := q } ∧
            (q.page .supervisor).inFlight =
              some { cmd := .inspectAgent, args, stage := .entryCountedBoth e n (s.part.descriptorCount a) } ∧
            Frame s.part q [.page .supervisor]) ∧
        ∀ n d, (s.part.page .supervisor).inFlight =
            some { cmd := .inspectAgent, args, stage := .entryCountedBoth e n d } →
          ∃ q, exec (.inspectAgent .proceed) s = .next { s with part := q } ∧
            Answered s.part q .supervisor .accepted (agentWord e (s.part.queue (.agent a))) (agentCountsWord n d) ∧
            q.table.serving = none ∧ Frame s.part q [.page .supervisor, .tableServing])) ∧
  (∀ (ch : Channel) (phase : BitVec 3), ch.list.length ≤ 32 →
    (ch.stateWord phase).toNat =
      (match ch.state with | .idle => 0 | .acquiring => 1 | .moving => 2 | .stopping => 3 | .paused => 4) +
        2 ^ 3 * ch.pausePending.toNat +
        2 ^ 4 * (match ch.stop with | none => 0 | some .withdrawn => 1 | some .evicted => 2 | some .cleared => 3) +
        2 ^ 6 * (match ch.loss with | none => 0 | some .leaseLost => 1 | some .lockBroken => 2) +
        2 ^ 8 * ch.holding.isSome.toNat +
        2 ^ 9 * (match ch.inFlight with
          | .nothing => 0 | .acquisition => 1 | .removal => 2 | .guardCheck => 3 | .release => 4 | .burst => 5) +
        2 ^ 12 * phase.toNat + (match ch.currentLock with | none => 0 | some l => 2 ^ 15 + 2 ^ 16 * l.val) +
        2 ^ 24 * ch.list.length) ∧
  (∀ (ch : Channel) (limit : BitVec 8),
    (ch.list = [] → (ch.headWord limit).toNat = 2 ^ 24 * limit.toNat ∧ ch.headMoved = 0) ∧
    ∀ d rest, ch.list = d :: rest →
      (ch.headWord limit).toNat =
        d.tag.toNat + 2 ^ 16 * d.owner.val + 2 ^ 19 * d.started.toNat + 2 ^ 24 * limit.toNat ∧
      ch.headMoved = d.moved) ∧
  (∀ (m : Master) (c : ChanId),
    (∀ b, m.current = some { chan := c, burst := b } →
      m.phaseFor c = match m.phase with | .idle => 0 | .requesting => 2 | .reading => 3 | .writing => 4) ∧
    ((∀ b, m.current ≠ some { chan := c, burst := b }) →
      (m.pending.get c ≠ none → m.phaseFor c = 1) ∧ (m.pending.get c = none → m.phaseFor c = 0))) ∧
  (∀ (e : AgentEntry) (q : Queue), q.reserved ≤ 16 → q.notices.length ≤ 16 →
    (agentWord e q).toNat =
      (match e.state with | .disabled => 0 | .detached => 1 | .attached => 2 | .evicting => 3) +
        2 ^ 2 * e.evicted.toNat + (match e.slot with | none => 0 | some slot => 2 ^ 3 + 2 ^ 4 * slot.toNat) +
        2 ^ 8 * q.reserved + 2 ^ 16 * q.notices.length) ∧
  ∀ n d : Nat, n < 2 ^ 16 → d < 2 ^ 16 → (agentCountsWord n d).toNat = n + 2 ^ 16 * d

/-! ### Transfers (Chapter 6) -/

/-- A channel that is IDLE, without a pause pending and outside a CLEAR, takes the head of its list: the head is started, the
stop and loss reasons become none, and the channel acts by the guard (R106). Otherwise, and with an empty list, nothing
changes. -/
def Obligations.HeadIsTaken : Prop :=
  ∀ (p : Part) (c : ChanId),
    (∀ (d : Descriptor) (rest : List Descriptor), (p.chan c).list = d :: rest → (p.chan c).state = .idle →
      (p.chan c).pausePending = false → p.clearing = false →
      TookHead p (p.takeHead c) c (p.chan c) d rest ∧ Frame p (p.takeHead c) [.chan c, .claim c, .master]) ∧
    ((p.chan c).list = [] ∨ (p.chan c).state ≠ .idle ∨ (p.chan c).pausePending = true ∨ p.clearing = true →
      p.takeHead c = p)

/-- PAUSE_CHANNEL pauses an IDLE channel at once, with CHANNEL_PAUSED delivered, and marks a pause pending on any other, with
one place taken; a channel that is PAUSED or has a pause pending is refused WRONG_STATE (R119). RESUME_CHANNEL takes a pending
pause back and returns its place; a PAUSED channel goes on: with an end in progress as STOPPING, with a guarded started head by
a guard check, with an unguarded one by its next burst or, with its whole length moved, by the end with TRANSFER_DONE, and with
no started head by taking its next head, or as IDLE with an empty list; any other channel is refused WRONG_STATE (R122). -/
def Obligations.PauseAndResumeChannel : Prop :=
  (∀ (s : State) (args : Vector Word 6) (c : ChanId),
     s.part.waits .supervisor .pauseChannel args → s.part.transferFree = true → s.part.clearing = false →
     (pick args 0).toNat = (chanBit c).toNat →
     ∃ q, exec (.pauseChannel .take) s = .next { s with part := q } ∧
       let ch := s.part.chan c
       let sq := s.part.queue .supervisor
       (ch.state = .paused ∨ ch.pausePending = true →
         Answered s.part q .supervisor .wrongState 0 0 ∧ Frame s.part q [.page .supervisor]) ∧
       (ch.state ≠ .paused → ch.pausePending = false → 16 < sq.reserved + sq.notices.length + 1 →
         Answered s.part q .supervisor .noNoticeRoom 0 0 ∧ Frame s.part q [.page .supervisor]) ∧
       (ch.state ≠ .paused → ch.pausePending = false → sq.reserved + sq.notices.length + 1 ≤ 16 →
         Frame s.part q [.page .supervisor, .chan c, .queue .supervisor] ∧
         (ch.state = .idle →
           q.chan c = { ch with state := .paused, inFlight := .nothing } ∧
           q.queue .supervisor = { notices := sq.notices ++ [.channelPaused c], reserved := sq.reserved } ∧
           Answered s.part q .supervisor .accepted 1 0) ∧
         (ch.state ≠ .idle →
           q.chan c = { ch with pausePending := true } ∧
           q.queue .supervisor = { sq with reserved := sq.reserved + 1 } ∧
           Answered s.part q .supervisor .accepted 0 0))) ∧
  ∀ (s : State) (args : Vector Word 6) (c : ChanId),
    s.part.waits .supervisor .resumeChannel args → s.part.transferFree = true → s.part.clearing = false →
    (pick args 0).toNat = (chanBit c).toNat →
    ∃ q, exec (.resumeChannel .take) s = .next { s with part := q } ∧
      let ch := s.part.chan c
      let sq := s.part.queue .supervisor
      (ch.pausePending = true →
        q.chan c = { ch with pausePending := false } ∧
        q.queue .supervisor = { sq with reserved := sq.reserved - 1 } ∧
        Answered s.part q .supervisor .accepted 0 0 ∧
        Frame s.part q [.page .supervisor, .chan c, .queue .supervisor]) ∧
      (ch.pausePending = false → ch.state ≠ .paused →
        Answered s.part q .supervisor .wrongState 0 0 ∧ Frame s.part q [.page .supervisor]) ∧
      (ch.pausePending = false → ch.state = .paused → ch.ending ≠ none →
        q.chan c = { ch with state := .stopping } ∧ Answered s.part q .supervisor .accepted 1 0 ∧
        Frame s.part q [.page .supervisor, .chan c]) ∧
      (ch.pausePending = false → ch.state = .paused → ch.ending = none →
        (ch.list = [] → q.chan c = { ch with state := .idle } ∧ Answered s.part q .supervisor .accepted 1 0 ∧
          Frame s.part q [.page .supervisor, .chan c]) ∧
        ∀ d rest, ch.list = d :: rest →
          (d.started = false →
            TookHead s.part q c { ch with state := .idle } d rest ∧ Answered s.part q .supervisor .accepted 1 0 ∧
            Frame s.part q [.page .supervisor, .chan c, .claim c, .master]) ∧
          (d.started = true → ∀ cl, d.guardClaim = some cl →
            q.chan c = { ch with state := .moving, inFlight := .guardCheck } ∧ q.engine.claims.get c = some cl ∧
            Answered s.part q .supervisor .accepted 1 0 ∧ Frame s.part q [.page .supervisor, .chan c, .claim c]) ∧
          (d.started = true → d.guard = .none → d.moved < d.op.length →
            q.chan c = { ch with state := .moving, inFlight := .burst } ∧
            q.master = s.part.master.offer c d.nextBurst ∧
            Answered s.part q .supervisor .accepted 1 0 ∧ Frame s.part q [.page .supervisor, .chan c, .master]) ∧
          (d.started = true → d.guard = .none → d.op.length ≤ d.moved →
            ∃ q1, EndsWith (s.part.onChan c fun ch => { ch with state := .moving }) q1 c .done ∧
              Answered s.part q .supervisor .accepted 1 0 ∧ Frame q1 q [.page .supervisor]))

/-- POST of an unguarded descriptor, and the checks before the lock's: BAD_ARGUMENT for the arguments that R100 calls invalid,
the others laid out as R160 says; BAD_ADDRESS for a range that is not aligned, runs past the top of the address space, or has a
byte in the coordinator's window (R101); a guarded one raises the
claim for its lock's standing at the page's position while the transfer engine waits; an unguarded one is refused
DUPLICATE_TAG, NO_NOTICE_ROOM or NO_DESCRIPTOR, in that order, or joins the tail of its channel's list with one place taken,
answered with its position, and is taken as head at once by an IDLE channel with an empty list (R100 to R103, R106). -/
def Obligations.PostIsAccepted : Prop :=
  (∀ (a : AgentId) (args : Vector Word 6),
    let w3 := (pick args 3).toNat
    let w4 := (pick args 4).toNat
    let kind := w3 / 2 ^ 16 % 4
    let chan := w3 / 2 ^ 18 % 4
    let guard := w3 / 2 ^ 20 % 4
    let mode := w3 / 2 ^ 22 % 4
    let lock := w3 / 2 ^ 24
    let length := (pick args 2).toNat
    (postArgs a args = none ↔
      kind = 0 ∨ 2 ≤ chan ∨ guard = 3 ∨ guard = 1 ∧ (mode = 0 ∨ mode = 3) ∨ (guard = 1 ∨ guard = 2) ∧ 63 < lock ∨
        kind = 1 ∧ (length < 4 ∨ 65536 < length ∨ length % 4 ≠ 0)) ∧
    ∀ c d, postArgs a args = some (c, d) →
      d.tag.toNat = w3 % 2 ^ 16 ∧ d.owner = a ∧ d.moved = 0 ∧ d.started = false ∧
      chan = (match c with | .c0 => 0 | .c1 => 1) ∧
      (kind = 1 → d.op = .copy (pick args 0) (pick args 1) length) ∧
      (kind = 2 → d.op = .writeWord (pick args 1) (pick args 2)) ∧
      (kind = 3 → d.op = .readWord (pick args 0) none) ∧
      (guard = 0 → d.guard = .none) ∧
      (guard = 1 → ∃ (l : LockId) (m : Mode) (r w : Ticks), d.guard = .acquire l m r w ∧ l.val = lock ∧
        mode = (match m with | .shared => 1 | .exclusive => 2) ∧ r.toNat = w4 % 2 ^ 16 ∧ w.toNat = w4 / 2 ^ 16) ∧
      (guard = 2 → ∃ l : LockId, d.guard = .fence l (pick args 4) ∧ l.val = lock)) ∧
  (∀ (source dest value : Word) (read : Option Word) (n : Nat),
    (TransferOp.copy source dest n).ranges = [(source, n), (dest, n)] ∧
    (TransferOp.writeWord dest value).ranges = [(dest, 4)] ∧ (TransferOp.readWord source read).ranges = [(source, 4)]) ∧
  (∀ (straps : Straps) (first : Word) (n : Nat), 4 ≤ n →
    let window := straps.base.toNat * 1024
    (rangeAllowed straps (first, n) = false ↔
      first.toNat % 4 ≠ 0 ∨ 2 ^ 32 < first.toNat + n ∨
        ∃ i < n, window ≤ first.toNat + i ∧ first.toNat + i < window + 1024)) ∧
  ∀ (s : State) (a : AgentId) (args : Vector Word 6),
    s.part.waits (.agent a) .post args → s.part.transferFree = true → s.part.serves a →
    ∃ q, exec (.post a .take) s = .next { s with part := q } ∧
      let refused := fun code => Answered s.part q (.agent a) code 0 0 ∧ Frame s.part q [.page (.agent a)]
      (postArgs a args = none → refused .badArgument) ∧
      ∀ c d, postArgs a args = some (c, d) →
        (d.op.ranges.all (rangeAllowed s.part.straps) = false → refused .badAddress) ∧
        (d.op.ranges.all (rangeAllowed s.part.straps) = true →
          (d.guard ≠ .none →
            q.claims (.agent a) .post args ∧ q.transfer.serving = some a ∧
            Frame s.part q [.page (.agent a), .transferServing]) ∧
          (d.guard = .none →
            let ch := s.part.chan c
            let room := (s.part.queue (.agent a)).reserved + (s.part.queue (.agent a)).notices.length + 1 ≤ 16
            (s.part.findDescriptor a d.tag ≠ none → refused .duplicateTag) ∧
            (s.part.findDescriptor a d.tag = none → ¬room → refused .noNoticeRoom) ∧
            (s.part.findDescriptor a d.tag = none → room → s.part.descriptorsFree = 0 → refused .noDescriptor) ∧
            (s.part.findDescriptor a d.tag = none → room → s.part.descriptorsFree ≠ 0 →
              Answered s.part q (.agent a) .accepted (BitVec.ofNat 32 (ch.list.length + 1)) 0 ∧
              q.queue (.agent a) =
                { s.part.queue (.agent a) with reserved := (s.part.queue (.agent a)).reserved + 1 } ∧
              (ch.state ≠ .idle → q.chan c = { ch with list := ch.list ++ [d] } ∧
                Frame s.part q [.page (.agent a), .queue (.agent a), .chan c]) ∧
              (ch.state = .idle → ch.pausePending = false → ch.list = [] →
                TookHead s.part q c ch d [] ∧
                Frame s.part q [.page (.agent a), .queue (.agent a), .chan c, .claim c, .master]))))

/-- A guarded POST: the lock engine answers the standing of the lock; the POST is then refused LOCK_DISABLED, MODE_NOT_ALLOWED
or NOT_PERMITTED by that standing, in that order, and otherwise goes through the checks of R103 and joins its channel's list
as an unguarded one does, not started where a CLEAR has been accepted since the check was answered (R102, R103, R106). -/
def Obligations.GuardedPostIsChecked : Prop :=
  ∀ (s : State) (a : AgentId) (args : Vector Word 6) (c : ChanId) (d : Descriptor) (l : LockId),
    postArgs a args = some (c, d) → d.guard.lock = some l →
    (s.part.claims (.agent a) .post args → s.part.mayServe (agentPos a) = true → s.part.serves a →
      ∃ q, exec (.postLockCheck a) s = .next { s with part := q } ∧
        (q.page (.agent a)).inFlight =
          some { cmd := .post, args,
                 stage := .checked
                   { state := (s.part.lock l).state, cls := (s.part.lock l).cls, mask := (s.part.lock l).mask } } ∧
        q.engine.lastServed = agentPos a ∧ Frame s.part q [.page (.agent a), .lastServed]) ∧
    ∀ st : LockStanding, (s.part.page (.agent a)).inFlight = some { cmd := .post, args, stage := .checked st } →
      ∃ q, exec (.post a .proceed) s = .next { s with part := q } ∧ q.transfer.serving = none ∧
        let refused := fun code =>
          Answered s.part q (.agent a) code 0 0 ∧ Frame s.part q [.page (.agent a), .transferServing]
        let sharedAsked := ∃ r w, d.guard = .acquire l .shared r w
        let ch := s.part.chan c
        let room := (s.part.queue (.agent a)).reserved + (s.part.queue (.agent a)).notices.length + 1 ≤ 16
        (st.state = .disabled → refused .lockDisabled) ∧
        (st.state ≠ .disabled → sharedAsked → st.cls = .exclusiveOnly → refused .modeNotAllowed) ∧
        (st.state ≠ .disabled → ¬(sharedAsked ∧ st.cls = .exclusiveOnly) → st.mask.getLsbD a.val = false →
          refused .notPermitted) ∧
        (st.state ≠ .disabled → ¬(sharedAsked ∧ st.cls = .exclusiveOnly) → st.mask.getLsbD a.val = true →
          (s.part.findDescriptor a d.tag ≠ none → refused .duplicateTag) ∧
          (s.part.findDescriptor a d.tag = none → ¬room → refused .noNoticeRoom) ∧
          (s.part.findDescriptor a d.tag = none → room → s.part.descriptorsFree = 0 → refused .noDescriptor) ∧
          (s.part.findDescriptor a d.tag = none → room → s.part.descriptorsFree ≠ 0 →
            Answered s.part q (.agent a) .accepted (BitVec.ofNat 32 (ch.list.length + 1)) 0 ∧
            q.queue (.agent a) =
              { s.part.queue (.agent a) with reserved := (s.part.queue (.agent a)).reserved + 1 } ∧
            (ch.state ≠ .idle → q.chan c = { ch with list := ch.list ++ [d] } ∧
              Frame s.part q [.page (.agent a), .queue (.agent a), .chan c, .transferServing]) ∧
            (ch.state = .idle → s.part.clearing = true → q.chan c = { ch with list := ch.list ++ [d] } ∧
              Frame s.part q [.page (.agent a), .queue (.agent a), .chan c, .transferServing]) ∧
            (ch.state = .idle → ch.pausePending = false → ch.list = [] → s.part.clearing = false →
              TookHead s.part q c ch d [] ∧
              Frame s.part q [.page (.agent a), .queue (.agent a), .chan c, .claim c, .master, .transferServing])))

/-- A stop given to a channel's started head acts by the channel's state: an ACQUIRING channel whose acquisition has been
answered raises the claim to remove its wait, a MOVING one is STOPPING and its claim or burst comes back first, a PAUSED one
with nothing in flight ends its descriptor with WITHDRAWN; a channel that is STOPPING, or whose end has begun, is left (R115).
WITHDRAW: BAD_ARGUMENT for a tag above 65535; NO_SUCH_TAG without such a descriptor; one that has not started leaves its list
and its place is returned; a started head is given a stop with the reason WITHDRAWN, and is refused WRONG_STATE when a stop is
recorded or its end has begun (R117, R118). -/
def Obligations.WithdrawStopsOrRemoves : Prop :=
  (∀ (p : Part) (c : ChanId) (r : StopReason) (d : Descriptor) (ds : List Descriptor), (p.chan c).list = d :: ds →
    let ch := p.chan c
    let q := p.giveStop c r
    let stopped := p.onChan c fun ch => { ch with stop := some r, state := .stopping }
    (d.started = false → q = p) ∧
    (d.started = true →
      (ch.state = .acquiring → ch.inFlight ≠ .nothing → q = stopped) ∧
      (∀ l, ch.state = .acquiring → ch.inFlight = .nothing → ch.currentLock = some l →
        RaisedClaim stopped q c (.removal l) .removal) ∧
      (ch.state = .moving → q = stopped) ∧
      (ch.state = .stopping → q = p) ∧
      (ch.state = .paused → ch.inFlight = .nothing →
        EndsWith (p.onChan c fun ch => { ch with stop := some r }) q c (.fault .withdrawn)) ∧
      (ch.state = .paused → ch.inFlight ≠ .nothing → q = p))) ∧
  (∀ (s : State) (a : AgentId) (args : Vector Word 6),
    s.part.waits (.agent a) .withdraw args → s.part.transferFree = true → s.part.serves a → 65535 < (pick args 0).toNat →
    ∃ q, exec (.withdraw a .take) s = .next { s with part := q } ∧
      Answered s.part q (.agent a) .badArgument 0 0 ∧ Frame s.part q [.page (.agent a)]) ∧
  ∀ (s : State) (a : AgentId) (args : Vector Word 6) (tag : BitVec 16),
    s.part.waits (.agent a) .withdraw args → s.part.transferFree = true → s.part.serves a →
    (pick args 0).toNat = tag.toNat →
    ∃ q, exec (.withdraw a .take) s = .next { s with part := q } ∧
      (s.part.findDescriptor a tag = none →
        Answered s.part q (.agent a) .noSuchTag 0 0 ∧ Frame s.part q [.page (.agent a)]) ∧
      ∀ c d, s.part.findDescriptor a tag = some (c, d) →
        let ch := s.part.chan c
        (d.started = false →
          q.chan c = { ch with list := ch.list.eraseP fun x => x.owner == a && x.tag == tag } ∧
          q.queue (.agent a) = { s.part.queue (.agent a) with reserved := (s.part.queue (.agent a)).reserved - 1 } ∧
          Answered s.part q (.agent a) .accepted 0 0 ∧
          Frame s.part q [.page (.agent a), .chan c, .queue (.agent a)]) ∧
        (d.started = true → ch.stop ≠ none ∨ ch.ending ≠ none →
          Answered s.part q (.agent a) .wrongState 0 0 ∧ Frame s.part q [.page (.agent a)]) ∧
        (d.started = true → ch.stop = none → ch.ending = none →
          Answered s.part q (.agent a) .accepted 1 (BitVec.ofNat 32 d.moved) ∧
          Frame (s.part.giveStop c .withdrawn) q [.page (.agent a)])

/-- The lock engine's answers and reports, when the transfer engine takes them, for a channel that acquires or is being
stopped: a granted channel checks its guard for the first time, or pauses; one refused or whose wait ended without a grant
ends with its reason, WITHDRAWN where a stop is recorded; a STOPPING channel releases what it was granted, or asks for its wait
to be removed; the loss of a holding is recorded and nothing else happens (R107, R108, R114, R116). That a report of a wait's end
at a STOPPING channel is taken from the list and nothing of it stored, where R116 says it is recorded, is the model's choice
(log 22). Each may bring the channels to rest for a CLEAR, as ClearStopsChannels states. -/
def Obligations.LockAnswersReachChannel : Prop :=
  ∀ (s : State) (c : ChanId) (rest : List TransferItem),
    let ch := s.part.chan c
    let left := s.part.setInbox rest
    let answered := s.part.taken rest c fun ch => { ch with inFlight := .nothing }
    (∀ ans, s.part.takes (.acquisitionAnswer c ans) rest →
      ∃ q, exec .acquisitionAnswer s = .next { s with part := q.reportRest } ∧
        (ch.state = .acquiring →
          (ans = .waits → q = answered) ∧
          (∀ t lease, ans = .granted t lease → GrantReached left q c t) ∧
          (ans = .closed → EndsWith answered q c (faultOf ch .lockClosed))) ∧
        (ch.state = .stopping →
          (∀ l, ans = .waits → ch.currentLock = some l → RaisedClaim answered q c (.removal l) .removal) ∧
          (∀ t lease, ans = .granted t lease →
            EndsWith (answered.onChan c fun ch => { ch with holding := some t }) q c (.fault .withdrawn)) ∧
          (ans = .closed → EndsWith answered q c (faultOf ch .lockClosed)))) ∧
    (∀ t lease, s.part.takes (.grantReport c t lease) rest →
      ∃ q, exec .channelGrantReport s = .next { s with part := q.reportRest } ∧
        (ch.state = .acquiring → GrantReached left q c t) ∧
        (ch.state = .stopping → q = left.onChan c fun ch => { ch with holding := some t })) ∧
    (∀ how, s.part.takes (.waitEnded c how) rest →
      ∃ q, exec .channelWaitEndedReport s = .next { s with part := q.reportRest } ∧
        (ch.state = .acquiring →
          EndsWith left q c (faultOf ch
            (match how with | .expired => .acquireTimeout | .closed => .lockClosed | .broken => .lockBroken))) ∧
        (ch.state = .stopping → q = left)) ∧
    (∀ why, s.part.takes (.holdingEnded c why) rest →
      ∃ q, exec .holdingEndedReport s = .next { s with part := q.reportRest } ∧
        q = left.onChan c fun ch => { ch with holding := none, loss := some why }) ∧
    ∀ ans, s.part.takes (.removalAnswer c ans) rest →
      ∃ q, exec .waiterRemovalAnswer s = .next { s with part := q.reportRest } ∧
        (ch.state = .stopping →
          (ans = .gone ∨ ans = .noRecord → EndsWith answered q c (.fault .withdrawn)) ∧
          ∀ t, ans = .holds t →
            EndsWith (answered.onChan c fun ch => { ch with holding := some t }) q c (.fault .withdrawn))

/-- How a transfer goes on. A guard check that passes: a pending pause takes effect, or the next burst is handed over, or the
descriptor ends with DONE; one that fails ends it with the reason of its guard. A completed burst adds its bytes, keeps the
word read, and then a pending pause takes effect, or the next guard check is made, or, unguarded, the next burst or the end
follows; a failed burst ends the descriptor with its error. A STOPPING channel ends with WITHDRAWN in place of going on (R109
to R112, R114, R116, R120). After a failed check the model's counter of free values has advanced, and of an ACQUIRE check that
fails with no loss recorded, whose reason is a free value, nothing is stated (log 6). -/
def Obligations.TransferGoesOn : Prop :=
  ∀ (s : State) (c : ChanId) (rest : List TransferItem) (d : Descriptor) (ds : List Descriptor),
    let ch := s.part.chan c
    let answered := s.part.taken rest c fun ch => { ch with inFlight := .nothing }
    ch.list = d :: ds →
    (∀ passes, s.part.takes (.guardAnswer c passes) rest →
      ∃ q, exec .guardCheckAnswer s = .next { s with part := q.reportRest } ∧
        (passes = true → ch.state = .moving →
          (ch.pausePending = true → PausedNow answered q c) ∧
          (ch.pausePending = false → d.moved < d.op.length → HandedBurst answered q c d) ∧
          (ch.pausePending = false → d.op.length ≤ d.moved → EndsWith answered q c .done)) ∧
        (passes = true → ch.state = .stopping → EndsWith answered q c (.fault .withdrawn)) ∧
        (passes = false → ∀ why,
          (∃ l t, d.guard = .fence l t ∧ why = .holdingLost) ∨
            (∃ l m r w, d.guard = .acquire l m r w ∧
              (ch.loss = some .leaseLost ∧ why = .leaseLost ∨ ch.loss = some .lockBroken ∧ why = .lockBroken)) →
          (ch.state = .moving → EndsWith answered.freshen q c (.fault why)) ∧
          (ch.state = .stopping → EndsWith answered.freshen q c (faultOf ch why)))) ∧
    (∀ n w, s.part.takes (.burstOutcome c (.completed n w)) rest →
      ∃ q, exec .burstOutcome s = .next { s with part := q.reportRest } ∧
        let d1 := d.grown n w
        let grown := answered.onChan c fun ch => { ch with list := d1 :: ds }
        (ch.state = .moving →
          (ch.pausePending = true → PausedNow grown q c) ∧
          (∀ cl, ch.pausePending = false → d.guardClaim = some cl → RaisedClaim grown q c cl .guardCheck) ∧
          (ch.pausePending = false → d.guard = .none → d.moved + n < d.op.length → HandedBurst grown q c d1) ∧
          (ch.pausePending = false → d.guard = .none → d.op.length ≤ d.moved + n → EndsWith grown q c .done)) ∧
        (ch.state = .stopping → EndsWith grown q c (.fault .withdrawn))) ∧
    ∀ r why, (r = .sourceError ∧ why = .sourceError ∨ r = .destError ∧ why = .destError ∨
        r = .busTimeout ∧ why = .busTimeout) →
      s.part.takes (.burstOutcome c r) rest → ch.state = .moving ∨ ch.state = .stopping →
      ∃ q, exec .burstOutcome s = .next { s with part := q.reportRest } ∧ EndsWith answered q c (.fault why)

/-- The end of a descriptor with an outcome: its notice goes to its owner with its place; the descriptor leaves the list and
the channel's record is cleared; an evicted owner whose last descriptor it was is reported to the agent table; a PAUSED channel
stays PAUSED, and any other takes effect of a pending pause, or takes the next head, or is IDLE; during a CLEAR it becomes IDLE
(R113, R114, R120, R123, R34). RELEASE_ANSWER lets an end that waited for its release go on, whatever the answer (R113; the
outcome kept meanwhile is the model's, log 14; the report waits for the withdraw-all, log 10). -/
def Obligations.DescriptorEnds : Prop :=
  (∀ (s : State) (c : ChanId) (rest : List TransferItem) (held : Bool) (o : EndOutcome),
    s.part.takes (.releaseAnswer c held) rest → (s.part.chan c).ending = some o →
    exec .releaseAnswer s = .next { s with part :=
      ((s.part.taken rest c fun ch => { ch with holding := none, inFlight := .nothing, ending := none }).finishEnd
        c o).reportRest }) ∧
  (∀ (d : Descriptor) (c : ChanId),
    d.endNotice c .done = .transferDone d.tag c d.moved (match d.op with | .readWord _ v => v | _ => none) ∧
    ∀ r, d.endNotice c (.fault r) = .transferFault d.tag c r d.moved) ∧
  ∀ (p : Part) (c : ChanId) (o : EndOutcome) (d : Descriptor) (ds : List Descriptor), (p.chan c).list = d :: ds →
    let ch := p.chan c
    let q := p.finishEnd c o
    let freed := { ch with list := ds, stop := none, loss := none, currentLock := none, holding := none,
                           inFlight := .nothing, ending := none }
    let pieces := [Piece.queue (.agent d.owner), .chan c, .reports, .withdrawing]
    q.queue (.agent d.owner) = p.queueAfter d.owner [d.endNotice c o] 1 ∧
    (d.owner ∈ p.transfer.withdrawing → p.descriptorCount d.owner = 1 →
      q.table.reports = p.table.reports ++ [.noDescriptorLeft d.owner] ∧
      q.transfer.withdrawing = p.transfer.withdrawing.erase d.owner) ∧
    (¬(d.owner ∈ p.transfer.withdrawing ∧ p.descriptorCount d.owner = 1) →
      q.table.reports = p.table.reports ∧ q.transfer.withdrawing = p.transfer.withdrawing) ∧
    (ch.state = .paused → q.chan c = freed ∧ Frame p q pieces) ∧
    (ch.state ≠ .paused → p.clearing = true → q.chan c = { freed with state := .idle } ∧ Frame p q pieces) ∧
    (ch.state ≠ .paused → p.clearing = false →
      (ch.pausePending = true →
        q.chan c = { freed with state := .paused, pausePending := false } ∧
        q.queue .supervisor = { notices := (p.queue .supervisor).notices ++ [.channelPaused c],
                                reserved := (p.queue .supervisor).reserved - 1 } ∧
        Frame p q (.queue .supervisor :: pieces)) ∧
      (ch.pausePending = false → ds = [] → q.chan c = { freed with state := .idle } ∧ Frame p q pieces) ∧
      ∀ d2 ds2, ch.pausePending = false → ds = d2 :: ds2 →
        TookHead p q c { freed with state := .idle } d2 ds2 ∧ Frame p q (.claim c :: .master :: pieces))

/-! ### Eviction and CLEAR (Chapters 2 and 8) -/

/-- The later stages of an eviction. PURGE_DONE_REPORT sends the withdraw-all; WITHDRAW_ALL removes the agent's descriptors
that have not started, with their places, gives its started heads a stop, and reports when no descriptor is left;
NO_DESCRIPTOR_LEFT_REPORT empties the queue, makes the agent DETACHED with its evicted flag set, and delivers AGENT_EVICTED
(R33 to R36, R90, R144). A report of an eviction that a CLEAR has finished does nothing more (R147). Two clauses are the model's
reading of the spec: the report that no descriptor is left is made once, behind the withdraw-all (log 10), and a report taken
between the report of a CLEAR's rest and its agent step is ignored, since the CLEAR finishes the eviction (log 23). -/
def Obligations.EvictionStages : Prop :=
  ∀ (s : State) (a : AgentId),
    let goOn := s.part.table.clear ∈ [none, some .stopSent, some .stopping, some .atRest]
    (∀ rest, s.part.table.reports = .purgeDone a :: rest → s.part.tableFree = true →
      ∃ q, exec .purgeDoneReport s = .next { s with part := q } ∧ q.table.reports = rest ∧
        (goOn → s.part.evictionStage a = some .purge →
          q.table.evictions = s.part.table.evictions.map (fun v => if v.agent = a then { v with stage := .withdraw } else v) ∧
          q.transfer.inbox = s.part.transfer.inbox ++ [.withdrawAll a] ∧ Frame s.part q [.reports, .evictions, .inbox]) ∧
        (¬(goOn ∧ s.part.evictionStage a = some .purge) → Frame s.part q [.reports])) ∧
    (∀ rest, s.part.takes (.withdrawAll a) rest →
      ∃ p1 q, exec .withdrawAll s = .next { s with part := q.reportRest } ∧
        let unstarted := fun d : Descriptor => d.owner == a && !d.started
        let stopIn := fun (p : Part) c =>
          if (p.chan c).list.head?.any (fun d => d.started && d.owner == a) then p.giveStop c .evicted else p
        let p2 := stopIn (stopIn p1 .c0) .c1
        p1.transfer.inbox = rest ∧
        (∀ c, p1.chan c = { s.part.chan c with list := (s.part.chan c).list.filter fun d => !unstarted d }) ∧
        p1.queue (.agent a) = { s.part.queue (.agent a) with
          reserved := (s.part.queue (.agent a)).reserved -
            ((s.part.chan .c0).list.countP unstarted + (s.part.chan .c1).list.countP unstarted) } ∧
        Frame s.part p1 [.inbox, .chan .c0, .chan .c1, .queue (.agent a)] ∧
        (p2.descriptorCount a ≠ 0 →
          q.transfer.withdrawing = p2.transfer.withdrawing ++ [a] ∧ Frame p2 q [.withdrawing]) ∧
        (p2.descriptorCount a = 0 →
          q.table.reports = p2.table.reports ++ [.noDescriptorLeft a] ∧
          q.transfer.withdrawing = (p2.transfer.withdrawing ++ [a]).erase a ∧ Frame p2 q [.withdrawing, .reports])) ∧
    ∀ rest, s.part.table.reports = .noDescriptorLeft a :: rest → s.part.tableFree = true →
      ∃ q, exec .noDescriptorLeftReport s = .next { s with part := q } ∧ q.table.reports = rest ∧
        (goOn → s.part.evictionStage a = some .withdraw →
          q.agent a = { s.part.agent a with state := .detached, evicted := true } ∧ pick q.port.copies a = q.agent a ∧
          q.queue (.agent a) = { notices := [], reserved := 0 } ∧
          q.table.evictions = s.part.table.evictions.filter (fun v => v.agent != a) ∧
          q.queue .supervisor = { notices := (s.part.queue .supervisor).notices ++ [.agentEvicted a],
                                  reserved := (s.part.queue .supervisor).reserved - 1 } ∧
          Frame s.part q [.reports, .agent a, .queue (.agent a), .evictions, .queue .supervisor]) ∧
        (¬(goOn ∧ s.part.evictionStage a = some .withdraw) → Frame s.part q [.reports])

/-- CLEAR's first stages. Taken with room for one place, it reserves the place, is in flight, and sends the stop to the transfer
engine; when that takes the stop, each started head is given it, C0 before C1, and the answer is OK with the number of channels
that had a started head and the number of evictions in flight (R143, R123; the answer's moment is the model's reading, log 13).
Once both channels are IDLE or PAUSED with nothing in flight, that is reported (R145), and the report removes the pending purge
claims and raises the lock-table step at the supervisor page's position, behind a claim pending there (R145). -/
def Obligations.ClearStopsChannels : Prop :=
  (∀ (s : State) (args : Vector Word 6),
    s.part.waits .supervisor .clear args → s.part.tableFree = true → s.part.clearing = false →
    ∃ q, exec (.clear .take) s = .next { s with part := q } ∧
      let sq := s.part.queue .supervisor
      (16 < sq.reserved + sq.notices.length + 1 →
        Answered s.part q .supervisor .noNoticeRoom 0 0 ∧ Frame s.part q [.page .supervisor]) ∧
      (sq.reserved + sq.notices.length + 1 ≤ 16 →
        q.clearing = true ∧ q.table.clear = some .stopSent ∧ q.queue .supervisor = { sq with reserved := sq.reserved + 1 } ∧
        (q.page .supervisor).inFlight = some { cmd := .clear, args, stage := .stopAwaited } ∧
        q.table.serving = some .supervisor ∧ q.transfer.inbox = s.part.transfer.inbox ++ [.clearStop] ∧
        Frame s.part q [.page .supervisor, .queue .supervisor, .clear, .tableServing, .inbox])) ∧
  (∀ (s : State) (rest : List TransferItem), s.part.takes .clearStop rest →
    ∃ q, exec (.clear .proceed) s = .next { s with part := q.reportRest } ∧
      let stopped := ((s.part.setInbox rest).giveStop .c0 .cleared).giveStop .c1 .cleared
      let heads := [ChanId.c0, .c1].countP fun c => (s.part.chan c).list.head?.any Descriptor.started
      Answered s.part q .supervisor .accepted (BitVec.ofNat 32 heads)
        (BitVec.ofNat 32 s.part.table.evictions.length) ∧
      q.table.clear = some .stopping ∧ q.table.serving = none ∧
      Frame stopped q [.page .supervisor, .clear, .tableServing]) ∧
  (∀ p : Part,
    let atRest := fun c =>
      ((p.chan c).state = .idle ∨ (p.chan c).state = .paused) ∧ (p.chan c).inFlight = .nothing
    (p.table.clear = some .stopping → atRest .c0 → atRest .c1 →
      p.reportRest.table.clear = some .atRest ∧
      p.reportRest.table.reports = p.table.reports ++ [.channelsAtRest] ∧ Frame p p.reportRest [.clear, .reports]) ∧
    (¬(p.table.clear = some .stopping ∧ atRest .c0 ∧ atRest .c1) → p.reportRest = p)) ∧
  ∀ (s : State) (rest : List Report), s.part.table.reports = .channelsAtRest :: rest → s.part.tableFree = true →
    ∃ q, exec .channelsAtRestReport s = .next { s with part := q } ∧ q.table.reports = rest ∧ q.table.purges = [] ∧
      q.table.clear = some (if s.part.pageClaims .supervisor then .stepDue else .stepPending) ∧
      Frame s.part q [.reports, .purges, .clear]

/-- CLEAR's later stages. The lock-table step empties both lists of every lock, its configuration and generation kept, and
makes a CLOSING lock DISABLED with LOCK_CLOSED delivered; the transfer step frees every descriptor and settles the channels,
with CHANNEL_PAUSED for each pause that was pending; the agent step makes ATTACHED and EVICTING agents DETACHED with their
evicted flag set, empties every agent's queue, and delivers AGENT_EVICTED for each eviction in flight, in the order they
began, and then CLEAR_DONE; each stage reports to the next (R145 to R147). A claim kept back meanwhile is raised after the
lock-table step (the model's reading of R145, log 11). -/
def Obligations.ClearSettlesEverything : Prop :=
  ∀ s : State,
    (s.part.table.clear = some .stepPending → s.part.mayServe supervisorPos = true →
      ∃ q, exec .clearLockTableStep s = .next { s with part := q } ∧
        let closing := allLocks.filter fun l => (s.part.lock l).state == .closing
        (∀ l, q.lock l = { s.part.lock l with
          state := (if (s.part.lock l).state = .closing then .disabled else (s.part.lock l).state),
          holders := [], waiters := [] }) ∧
        q.queue .supervisor = { notices := (s.part.queue .supervisor).notices ++ closing.map .lockClosed,
                                reserved := (s.part.queue .supervisor).reserved - closing.length } ∧
        q.table.clear = some .stepDone ∧ q.table.reports = s.part.table.reports ++ [.lockTableStep] ∧
        q.engine.lastServed = supervisorPos ∧
        (q.page .supervisor) = { s.part.page .supervisor with
          inFlight := (s.part.page .supervisor).inFlight.map fun x =>
            match x.stage with
            | .held => { x with stage := .claimed }
            | .entryHeld e => { x with stage := .entryClaimed e }
            | _ => x } ∧
        Frame s.part q (.page .supervisor :: .queue .supervisor :: .clear :: .reports :: .lastServed :: lockPieces)) ∧
    (∀ rest, s.part.table.reports = .lockTableStep :: rest → s.part.tableFree = true →
      ∃ q, exec .lockTableStepReport s = .next { s with part := q } ∧ q.table.reports = rest ∧
        q.table.clear = some .transferSent ∧ q.transfer.inbox = s.part.transfer.inbox ++ [.clearTransferStep] ∧
        Frame s.part q [.reports, .clear, .inbox]) ∧
    (∀ rest, s.part.takes .clearTransferStep rest →
      ∃ q, exec .clearTransferStep s = .next { s with part := q } ∧ q.transfer.inbox = rest ∧
        let pausing := [ChanId.c0, .c1].filter fun c => (s.part.chan c).pausePending
        (∀ c, q.chan c =
          { state := if (s.part.chan c).state = .paused ∨ (s.part.chan c).pausePending = true then .paused else .idle,
            pausePending := false, stop := none, holding := none, currentLock := none, loss := none, inFlight := .nothing,
            ending := none, list := [] }) ∧
        q.descriptorsFree = 32 ∧
        q.queue .supervisor = { notices := (s.part.queue .supervisor).notices ++ pausing.map .channelPaused,
                                reserved := (s.part.queue .supervisor).reserved - pausing.length } ∧
        q.table.clear = some .transferDone ∧ q.table.reports = s.part.table.reports ++ [.transferStep] ∧
        q.transfer.withdrawing = [] ∧
        Frame s.part q [.inbox, .chan .c0, .chan .c1, .queue .supervisor, .clear, .reports, .withdrawing]) ∧
    ∀ rest, s.part.table.reports = .transferStep :: rest → s.part.tableFree = true →
      ∃ q, exec .clearAgentStep s = .next { s with part := q } ∧ q.table.reports = rest ∧
        (∀ a, q.agent a = (let e := s.part.agent a
          if e.state = .attached ∨ e.state = .evicting then { e with state := .detached, evicted := true } else e)) ∧
        (∀ a, pick q.port.copies a = q.agent a) ∧
        (∀ a, q.queue (.agent a) = { notices := [], reserved := 0 }) ∧
        q.queue .supervisor =
          { notices := (s.part.queue .supervisor).notices ++
              s.part.table.evictions.map (fun v => .agentEvicted v.agent) ++ [.clearDone],
            reserved := (s.part.queue .supervisor).reserved - (s.part.table.evictions.length + 1) } ∧
        q.table.evictions = [] ∧ q.clearing = false ∧
        Frame s.part q (.reports :: .queue .supervisor :: .evictions :: .clear :: (agentQueues ++ allAgents.map .agent))

/-! ### The backplane master (Chapter 7) -/

/-- The bursts the channels ask for, and whose turn it is: a COPY's next burst is its remaining bytes, cut so that neither it
nor its destination passes a multiple of 64 bytes, at the addresses reached so far; a WRITE_WORD's is its word and a READ_WORD's
the address of its word (R125, R126). An IDLE master takes a request at once: it becomes the current burst, REQUESTING with the
count at the limit; a master that is not IDLE lets it wait; of two that wait the channel not served last is taken (R127 to
R129). -/
def Obligations.BurstsAreCutAndTaken : Prop :=
  (∀ (d : Descriptor) (src dst : Word) (n : Nat), d.op = .copy src dst n → d.moved < n →
    ∃ k, d.nextBurst = .copy (src + BitVec.ofNat 32 d.moved) (dst + BitVec.ofNat 32 d.moved) k ∧ 1 ≤ k ∧ k ≤ n - d.moved ∧
      (src + BitVec.ofNat 32 d.moved).toNat % 64 + k ≤ 64 ∧ (dst + BitVec.ofNat 32 d.moved).toNat % 64 + k ≤ 64 ∧
      (k = n - d.moved ∨ (src + BitVec.ofNat 32 d.moved).toNat % 64 + k = 64 ∨
        (dst + BitVec.ofNat 32 d.moved).toNat % 64 + k = 64)) ∧
  (∀ (d : Descriptor) (dst v : Word), d.op = .writeWord dst v → d.nextBurst = .write dst v) ∧
  (∀ (d : Descriptor) (src : Word) (v : Option Word), d.op = .readWord src v → d.nextBurst = .read src) ∧
  ∀ (m : Master) (c : ChanId) (b : Burst),
    let other := match c with | .c0 => ChanId.c1 | .c1 => .c0
    (m.phase ≠ .idle → m.offer c b = { m with pending := m.pending.set c (some b) }) ∧
    (m.phase = .idle → m.pending.get other = none →
      m.offer c b = { m with
        phase := .requesting, current := some { chan := c, burst := b }, pending := m.pending.set c none, lastServed := c,
        staging := (match b with | .write _ w => [w] | _ => []), written := 0, count := some m.limit }) ∧
    (m.phase = .idle → m.pending.get c = some b → (m.pending.get other = none ∨ m.lastServed = other) →
      m.arbitrate = { m with
        phase := .requesting, current := some { chan := c, burst := b }, pending := m.pending.set c none, lastServed := c,
        staging := (match b with | .write _ w => [w] | _ => []), written := 0, count := some m.limit }) ∧
    (m.phase = .idle → m.pending.c0 = none → m.pending.c1 = none → m.arbitrate = m)

/-- The course of a burst. The master asserts its request in REQUESTING until the count has run out; a grant on the asserted
request begins the reads, or the write of a WRITE_WORD; a grant on no request or on a withdrawn one changes nothing, whatever
the master does (R129; that a count at zero stands between the boundary and BUS_TIMEOUT is the model's reading, log 8). With the
count run out the burst ends BUS_TIMEOUT (R129). A word read is kept, and with its last word a copy turns to its writes and a
READ_WORD is completed with it (R131); the last write acknowledged completes the burst (R132); a bus error ends it SOURCE_ERROR
or DEST_ERROR (R131, R132). The words are addressed in ascending order (R131, R132), each cycle on all four lanes with the
strapped master slot (R124), and an outcome is reported and the next request taken (R133). -/
def Obligations.MasterCarriesOutBurst : Prop :=
  (∀ s : State,
    (s.part.requesting = true ↔ s.part.master.phase = .requesting ∧ s.part.master.count ≠ some 0) ∧
    exec (.busGrant .withdrawn) s = .next s ∧
    (s.part.requesting = false → exec (.busGrant .asserted) s = .next s) ∧
    (s.part.master.phase ≠ .reading → s.part.master.phase ≠ .writing → s.part.driven = none)) ∧
  ∀ (s : State) (b : CurrentBurst), s.part.master.current = some b →
    let m := s.part.master
    let cycle := fun address word => some ({ slot := s.part.straps.masterSlot, lanes := 0b1111, address, word } : BusCycle)
    (m.phase = .requesting → m.count ≠ some 0 →
      ∃ q, exec (.busGrant .asserted) s = .next { s with part := q } ∧
        q.master = { m with count := none, phase := match b.burst with | .write _ _ => .writing | _ => .reading } ∧
        Frame s.part q [.master]) ∧
    (m.phase = .requesting → m.count = some 0 →
      ∃ q, exec .busTimeout s = .next { s with part := q } ∧ BurstEnded s.part q b.chan .busTimeout) ∧
    (m.phase = .reading →
      (∀ w, ∃ q, exec (.readCycleAnswered (.data w)) s = .next { s with part := q } ∧
        (∀ src dst n, b.burst = .copy src dst n →
          q.master = { m with staging := m.staging ++ [w],
                              phase := if n ≤ 4 * (m.staging.length + 1) then .writing else .reading } ∧
          Frame s.part q [.master]) ∧
        (∀ src, b.burst = .read src → BurstEnded s.part q b.chan (.completed 4 (some w)))) ∧
      (∃ q, exec (.readCycleAnswered .busError) s = .next { s with part := q } ∧
        BurstEnded s.part q b.chan .sourceError) ∧
      (∀ src, (∃ dst n, b.burst = .copy src dst n) ∨ b.burst = .read src →
        s.part.driven = cycle (src + BitVec.ofNat 32 (4 * m.staging.length)) none)) ∧
    (m.phase = .writing →
      (∃ q, exec (.writeCycleAnswered .acknowledged) s = .next { s with part := q } ∧
        (4 * (m.written + 1) < b.burst.length →
          q.master = { m with written := m.written + 1 } ∧ Frame s.part q [.master]) ∧
        (b.burst.length ≤ 4 * (m.written + 1) →
          BurstEnded s.part q b.chan (.completed b.burst.length none))) ∧
      (∃ q, exec (.writeCycleAnswered .busError) s = .next { s with part := q } ∧
        BurstEnded s.part q b.chan .destError) ∧
      ∀ dst w, (∃ src n, b.burst = .copy src dst n) ∨ (∃ v, b.burst = .write dst v) → m.staging[m.written]? = some w →
        s.part.driven = cycle (dst + BitVec.ofNat 32 (4 * m.written)) (some w))

/-! ### Invariants -/

/-- At hardware reset the port's copies agree with the agent table, every lock keeps the discipline of Chapter 1, the
backplane master's state fits together, and every queue has room for what is owed (R1, R23, R81, R124). -/
def Obligations.InvariantsHoldAtReset : Prop :=
  ∀ straps : Straps, let p := Part.reset straps
    p.CopiesAgree ∧ p.LocksSound ∧ p.master.Sound ∧ p.RoomKept ∧ p.SupervisorRoomKept

/-- Every step keeps the discipline of Chapter 1 on every lock: DISABLED without records, CLOSING with a holding and without
waiters, an EXCLUSIVE holding alone, no token 0, leases where the lock has leases, no head waiter of an OPEN lock that could be
granted, at most one record of an agent, no more agent waiters than the queue limit (R4, R7, R10 to R13, R15, R16). -/
def Obligations.EveryStepKeepsLockDiscipline : Prop :=
  ∀ s t : State, s.part.LocksSound → step s = .next t → t.part.LocksSound

/-- Every step keeps the window port's copies equal to the agent table's entries (R24), and keeps the backplane master's state
together: the count is present exactly in REQUESTING, a burst exactly outside IDLE, an IDLE master leaves no request pending,
and the limit is not 0 (R124, R127 to R130, R133). -/
def Obligations.EveryStepKeepsCopiesAndMaster : Prop :=
  ∀ s t : State, step s = .next t →
    (s.part.CopiesAgree → t.part.CopiesAgree) ∧ (s.part.master.Sound → t.part.master.Sound)

/-- Every command keeps room in the notice queues. The agents': each queue has set aside the places that the agent's lock
records (one for a holding, two for a wait) and descriptors (one each) call for, and R + Q never exceeds 16 (R84 to R87); the
two commands that empty queues, at the end of an eviction and of a CLEAR, do so where the agents they detach have no record and
no descriptor left, as the stages before them see to (R33, R34, R145, R146). The supervisor's: it has set aside a place for each
eviction, CLOSING lock, pending pause and CLEAR in flight, and R + Q never exceeds 16 (R84, R137). -/
def Obligations.EveryCommandKeepsRoom : Prop :=
  ∀ (c : Instr) (s t : State), exec c s = .next t →
    (s.part.RoomKept →
      (c = .noDescriptorLeftReport → ∀ a rest, s.part.table.reports = .noDescriptorLeft a :: rest →
        s.part.evictionStage a = some .withdraw → s.part.placesOwed a = 0) →
      (c = .clearAgentStep → ∀ rest, s.part.table.reports = .transferStep :: rest → ∀ a, s.part.placesOwed a = 0) →
      t.part.RoomKept) ∧
    (s.part.SupervisorRoomKept → t.part.SupervisorRoomKept)

end Statements
end

