-- ==== Sys2Proof/Laws/State.lean ====
section
/-! SUPPORT. What each named update of the coordinator leaves and what it sets: one lemma per update for all it leaves, one
lemma for what it sets. -/

namespace Sys2Proof

theorem pick_put {α : Type} {n : Nat} (v : Vector α n) (i j : Fin n) (x : α) :
    pick (put v i x) j = if j = i then x else pick v j := by
  simp only [pick, put, Fin.getElem_fin, Vector.getElem_set]
  by_cases h : j = i
  · subst h; simp
  · have h2 : (i : Nat) ≠ j := fun hh => h (Fin.ext hh.symm)
    simp [h, h2]

@[simp] theorem pick_put_same {α : Type} {n : Nat} (v : Vector α n) (i : Fin n) (x : α) : pick (put v i x) i = x := by
  simp [pick_put]

@[simp] theorem pick_each {α β : Type} {n : Nat} (f : α → β) (v : Vector α n) (i : Fin n) :
    pick (each f v) i = f (pick v i) := by simp [pick, each]

@[simp] theorem pick_replicate {α : Type} {n : Nat} (x : α) (i : Fin n) : pick (Vector.replicate n x) i = x := by
  simp [pick]

theorem ext_pick {α : Type} {n : Nat} {v w : Vector α n} (h : ∀ i, pick v i = pick w i) : v = w := by
  apply Vector.ext
  intro i hi
  exact h ⟨i, hi⟩

namespace Machine

theorem PerChan.get_set {α : Type} (x : PerChan α) (c d : ChanId) (v : α) :
    (x.set c v).get d = if d = c then v else x.get d := by cases c <;> cases d <;> rfl

@[simp] theorem PerChan.get_set_same {α : Type} (x : PerChan α) (c : ChanId) (v : α) : (x.set c v).get c = v := by
  cases c <;> rfl

@[simp] theorem Part.setPage_keeps (p : Part) (g : PageId) (pg : Page) :
    (p.setPage g pg).straps = p.straps ∧ (p.setPage g pg).port.copies = p.port.copies ∧
      (p.setPage g pg).table = p.table ∧ (p.setPage g pg).engine = p.engine ∧ (p.setPage g pg).period = p.period ∧
      (p.setPage g pg).notices = p.notices ∧ (p.setPage g pg).transfer = p.transfer ∧
      (p.setPage g pg).master = p.master ∧ (p.setPage g pg).fresh = p.fresh ∧
      (∀ l', (p.setPage g pg).lock l' = p.lock l') ∧ (∀ g', (p.setPage g pg).queue g' = p.queue g') ∧
      (∀ a', (p.setPage g pg).agent a' = p.agent a') ∧ (∀ c', (p.setPage g pg).chan c' = p.chan c') ∧
      (p.setPage g pg).clearing = p.clearing := by
  cases g <;> simp [Part.setPage, Part.lock, Part.queue, Part.agent, Part.chan, Part.clearing]

@[simp] theorem Part.setLocks_keeps (p : Part) (ls : Vector LockEntry 64) :
    (p.setLocks ls).straps = p.straps ∧ (p.setLocks ls).port = p.port ∧ (p.setLocks ls).table = p.table ∧
      (p.setLocks ls).engine.lastServed = p.engine.lastServed ∧ (p.setLocks ls).engine.claims = p.engine.claims ∧
      (p.setLocks ls).engine.expiry = p.engine.expiry ∧ (p.setLocks ls).engine.ranOut = p.engine.ranOut ∧
      (p.setLocks ls).period = p.period ∧ (p.setLocks ls).notices = p.notices ∧ (p.setLocks ls).transfer = p.transfer ∧
      (p.setLocks ls).master = p.master ∧ (p.setLocks ls).fresh = p.fresh ∧
      (∀ g', (p.setLocks ls).page g' = p.page g') ∧ (∀ g', (p.setLocks ls).queue g' = p.queue g') ∧
      (∀ a', (p.setLocks ls).agent a' = p.agent a') ∧ (∀ c', (p.setLocks ls).chan c' = p.chan c') ∧
      (p.setLocks ls).clearing = p.clearing := by
  simp [Part.setLocks, Part.page, Part.queue, Part.agent, Part.chan, Part.clearing]

@[simp] theorem Part.setLock_keeps (p : Part) (l : LockId) (e : LockEntry) :
    (p.setLock l e).straps = p.straps ∧ (p.setLock l e).port = p.port ∧ (p.setLock l e).table = p.table ∧
      (p.setLock l e).engine.lastServed = p.engine.lastServed ∧ (p.setLock l e).engine.claims = p.engine.claims ∧
      (p.setLock l e).engine.expiry = p.engine.expiry ∧ (p.setLock l e).engine.ranOut = p.engine.ranOut ∧
      (p.setLock l e).period = p.period ∧ (p.setLock l e).notices = p.notices ∧ (p.setLock l e).transfer = p.transfer ∧
      (p.setLock l e).master = p.master ∧ (p.setLock l e).fresh = p.fresh ∧
      (∀ g', (p.setLock l e).page g' = p.page g') ∧ (∀ g', (p.setLock l e).queue g' = p.queue g') ∧
      (∀ a', (p.setLock l e).agent a' = p.agent a') ∧ (∀ c', (p.setLock l e).chan c' = p.chan c') ∧
      (p.setLock l e).clearing = p.clearing := by
  simp [Part.setLock, Part.setLocks, Part.page, Part.queue, Part.agent, Part.chan, Part.clearing]

@[simp] theorem Part.setAgent_keeps (p : Part) (a : AgentId) (e : AgentEntry) :
    (p.setAgent a e).straps = p.straps ∧ (p.setAgent a e).port.agents = p.port.agents ∧
      (p.setAgent a e).port.supervisor = p.port.supervisor ∧ (p.setAgent a e).table.purges = p.table.purges ∧
      (p.setAgent a e).table.evictions = p.table.evictions ∧ (p.setAgent a e).table.reports = p.table.reports ∧
      (p.setAgent a e).table.serving = p.table.serving ∧ (p.setAgent a e).table.clear = p.table.clear ∧
      (p.setAgent a e).engine = p.engine ∧ (p.setAgent a e).period = p.period ∧ (p.setAgent a e).notices = p.notices ∧
      (p.setAgent a e).transfer = p.transfer ∧ (p.setAgent a e).master = p.master ∧ (p.setAgent a e).fresh = p.fresh ∧
      (∀ l', (p.setAgent a e).lock l' = p.lock l') ∧ (∀ g', (p.setAgent a e).page g' = p.page g') ∧
      (∀ g', (p.setAgent a e).queue g' = p.queue g') ∧ (∀ c', (p.setAgent a e).chan c' = p.chan c') ∧
      (p.setAgent a e).clearing = p.clearing := by
  simp [Part.setAgent, Part.lock, Part.page, Part.queue, Part.chan, Part.clearing]

@[simp] theorem Part.setAgents_keeps (p : Part) (es : Vector AgentEntry 8) :
    (p.setAgents es).straps = p.straps ∧ (p.setAgents es).port.agents = p.port.agents ∧
      (p.setAgents es).port.supervisor = p.port.supervisor ∧ (p.setAgents es).table.purges = p.table.purges ∧
      (p.setAgents es).table.evictions = p.table.evictions ∧ (p.setAgents es).table.reports = p.table.reports ∧
      (p.setAgents es).table.serving = p.table.serving ∧ (p.setAgents es).table.clear = p.table.clear ∧
      (p.setAgents es).engine = p.engine ∧ (p.setAgents es).period = p.period ∧ (p.setAgents es).notices = p.notices ∧
      (p.setAgents es).transfer = p.transfer ∧ (p.setAgents es).master = p.master ∧ (p.setAgents es).fresh = p.fresh ∧
      (∀ l', (p.setAgents es).lock l' = p.lock l') ∧ (∀ g', (p.setAgents es).page g' = p.page g') ∧
      (∀ g', (p.setAgents es).queue g' = p.queue g') ∧ (∀ c', (p.setAgents es).chan c' = p.chan c') ∧
      (p.setAgents es).clearing = p.clearing := by
  simp [Part.setAgents, Part.lock, Part.page, Part.queue, Part.chan, Part.clearing]

@[simp] theorem Part.setQueues_keeps (p : Part) (qs : Vector Queue 8) :
    (p.setQueues qs).straps = p.straps ∧ (p.setQueues qs).port = p.port ∧ (p.setQueues qs).table = p.table ∧
      (p.setQueues qs).engine = p.engine ∧ (p.setQueues qs).period = p.period ∧
      (p.setQueues qs).notices.supervisor = p.notices.supervisor ∧ (p.setQueues qs).transfer = p.transfer ∧
      (p.setQueues qs).master = p.master ∧ (p.setQueues qs).fresh = p.fresh ∧
      (∀ l', (p.setQueues qs).lock l' = p.lock l') ∧ (∀ g', (p.setQueues qs).page g' = p.page g') ∧
      (∀ a', (p.setQueues qs).agent a' = p.agent a') ∧ (∀ c', (p.setQueues qs).chan c' = p.chan c') ∧
      (p.setQueues qs).clearing = p.clearing := by
  simp [Part.setQueues, Part.lock, Part.page, Part.agent, Part.chan, Part.clearing]

@[simp] theorem Part.setQueue_keeps (p : Part) (g : PageId) (q : Queue) :
    (p.setQueue g q).straps = p.straps ∧ (p.setQueue g q).port = p.port ∧ (p.setQueue g q).table = p.table ∧
      (p.setQueue g q).engine = p.engine ∧ (p.setQueue g q).period = p.period ∧ (p.setQueue g q).transfer = p.transfer ∧
      (p.setQueue g q).master = p.master ∧ (p.setQueue g q).fresh = p.fresh ∧
      (∀ l', (p.setQueue g q).lock l' = p.lock l') ∧ (∀ g', (p.setQueue g q).page g' = p.page g') ∧
      (∀ a', (p.setQueue g q).agent a' = p.agent a') ∧ (∀ c', (p.setQueue g q).chan c' = p.chan c') ∧
      (p.setQueue g q).clearing = p.clearing := by
  cases g <;> simp [Part.setQueue, Part.setQueues, Part.lock, Part.page, Part.agent, Part.chan, Part.clearing]

@[simp] theorem Part.setChan_keeps (p : Part) (c : ChanId) (ch : Channel) :
    (p.setChan c ch).straps = p.straps ∧ (p.setChan c ch).port = p.port ∧ (p.setChan c ch).table = p.table ∧
      (p.setChan c ch).engine = p.engine ∧ (p.setChan c ch).period = p.period ∧ (p.setChan c ch).notices = p.notices ∧
      (p.setChan c ch).transfer.inbox = p.transfer.inbox ∧ (p.setChan c ch).transfer.serving = p.transfer.serving ∧
      (p.setChan c ch).transfer.withdrawing = p.transfer.withdrawing ∧ (p.setChan c ch).master = p.master ∧
      (p.setChan c ch).fresh = p.fresh ∧ (∀ l', (p.setChan c ch).lock l' = p.lock l') ∧
      (∀ g', (p.setChan c ch).page g' = p.page g') ∧ (∀ g', (p.setChan c ch).queue g' = p.queue g') ∧
      (∀ a', (p.setChan c ch).agent a' = p.agent a') ∧ (p.setChan c ch).clearing = p.clearing := by
  simp [Part.setChan, Part.lock, Part.page, Part.queue, Part.agent, Part.clearing]

@[simp] theorem Part.setClear_keeps (p : Part) (x : Option ClearPhase) :
    (p.setClear x).straps = p.straps ∧ (p.setClear x).port = p.port ∧ (p.setClear x).table.agents = p.table.agents ∧
      (p.setClear x).table.purges = p.table.purges ∧ (p.setClear x).table.evictions = p.table.evictions ∧
      (p.setClear x).table.reports = p.table.reports ∧ (p.setClear x).table.serving = p.table.serving ∧
      (p.setClear x).engine = p.engine ∧ (p.setClear x).period = p.period ∧ (p.setClear x).notices = p.notices ∧
      (p.setClear x).transfer = p.transfer ∧ (p.setClear x).master = p.master ∧ (p.setClear x).fresh = p.fresh ∧
      (∀ l', (p.setClear x).lock l' = p.lock l') ∧ (∀ g', (p.setClear x).page g' = p.page g') ∧
      (∀ g', (p.setClear x).queue g' = p.queue g') ∧ (∀ a', (p.setClear x).agent a' = p.agent a') ∧
      (∀ c', (p.setClear x).chan c' = p.chan c') := by
  simp [Part.setClear, Part.lock, Part.page, Part.queue, Part.agent, Part.chan]

@[simp] theorem Part.setPurges_keeps (p : Part) (xs : List AgentId) :
    (p.setPurges xs).straps = p.straps ∧ (p.setPurges xs).port = p.port ∧
      (p.setPurges xs).table.agents = p.table.agents ∧ (p.setPurges xs).table.evictions = p.table.evictions ∧
      (p.setPurges xs).table.reports = p.table.reports ∧ (p.setPurges xs).table.serving = p.table.serving ∧
      (p.setPurges xs).table.clear = p.table.clear ∧ (p.setPurges xs).engine = p.engine ∧
      (p.setPurges xs).period = p.period ∧ (p.setPurges xs).notices = p.notices ∧
      (p.setPurges xs).transfer = p.transfer ∧ (p.setPurges xs).master = p.master ∧ (p.setPurges xs).fresh = p.fresh ∧
      (∀ l', (p.setPurges xs).lock l' = p.lock l') ∧ (∀ g', (p.setPurges xs).page g' = p.page g') ∧
      (∀ g', (p.setPurges xs).queue g' = p.queue g') ∧ (∀ a', (p.setPurges xs).agent a' = p.agent a') ∧
      (∀ c', (p.setPurges xs).chan c' = p.chan c') ∧ (p.setPurges xs).clearing = p.clearing := by
  simp [Part.setPurges, Part.lock, Part.page, Part.queue, Part.agent, Part.chan, Part.clearing]

@[simp] theorem Part.setEvictions_keeps (p : Part) (xs : List Eviction) :
    (p.setEvictions xs).straps = p.straps ∧ (p.setEvictions xs).port = p.port ∧
      (p.setEvictions xs).table.agents = p.table.agents ∧ (p.setEvictions xs).table.purges = p.table.purges ∧
      (p.setEvictions xs).table.reports = p.table.reports ∧ (p.setEvictions xs).table.serving = p.table.serving ∧
      (p.setEvictions xs).table.clear = p.table.clear ∧ (p.setEvictions xs).engine = p.engine ∧
      (p.setEvictions xs).period = p.period ∧ (p.setEvictions xs).notices = p.notices ∧
      (p.setEvictions xs).transfer = p.transfer ∧ (p.setEvictions xs).master = p.master ∧
      (p.setEvictions xs).fresh = p.fresh ∧ (∀ l', (p.setEvictions xs).lock l' = p.lock l') ∧
      (∀ g', (p.setEvictions xs).page g' = p.page g') ∧ (∀ g', (p.setEvictions xs).queue g' = p.queue g') ∧
      (∀ a', (p.setEvictions xs).agent a' = p.agent a') ∧ (∀ c', (p.setEvictions xs).chan c' = p.chan c') ∧
      (p.setEvictions xs).clearing = p.clearing := by
  simp [Part.setEvictions, Part.lock, Part.page, Part.queue, Part.agent, Part.chan, Part.clearing]

@[simp] theorem Part.setReports_keeps (p : Part) (xs : List Report) :
    (p.setReports xs).straps = p.straps ∧ (p.setReports xs).port = p.port ∧
      (p.setReports xs).table.agents = p.table.agents ∧ (p.setReports xs).table.purges = p.table.purges ∧
      (p.setReports xs).table.evictions = p.table.evictions ∧ (p.setReports xs).table.serving = p.table.serving ∧
      (p.setReports xs).table.clear = p.table.clear ∧ (p.setReports xs).engine = p.engine ∧
      (p.setReports xs).period = p.period ∧ (p.setReports xs).notices = p.notices ∧
      (p.setReports xs).transfer = p.transfer ∧ (p.setReports xs).master = p.master ∧
      (p.setReports xs).fresh = p.fresh ∧ (∀ l', (p.setReports xs).lock l' = p.lock l') ∧
      (∀ g', (p.setReports xs).page g' = p.page g') ∧ (∀ g', (p.setReports xs).queue g' = p.queue g') ∧
      (∀ a', (p.setReports xs).agent a' = p.agent a') ∧ (∀ c', (p.setReports xs).chan c' = p.chan c') ∧
      (p.setReports xs).clearing = p.clearing := by
  simp [Part.setReports, Part.lock, Part.page, Part.queue, Part.agent, Part.chan, Part.clearing]

@[simp] theorem Part.setTableServing_keeps (p : Part) (x : Option PageId) :
    (p.setTableServing x).straps = p.straps ∧ (p.setTableServing x).port = p.port ∧
      (p.setTableServing x).table.agents = p.table.agents ∧ (p.setTableServing x).table.purges = p.table.purges ∧
      (p.setTableServing x).table.evictions = p.table.evictions ∧
      (p.setTableServing x).table.reports = p.table.reports ∧ (p.setTableServing x).table.clear = p.table.clear ∧
      (p.setTableServing x).engine = p.engine ∧ (p.setTableServing x).period = p.period ∧
      (p.setTableServing x).notices = p.notices ∧ (p.setTableServing x).transfer = p.transfer ∧
      (p.setTableServing x).master = p.master ∧ (p.setTableServing x).fresh = p.fresh ∧
      (∀ l', (p.setTableServing x).lock l' = p.lock l') ∧ (∀ g', (p.setTableServing x).page g' = p.page g') ∧
      (∀ g', (p.setTableServing x).queue g' = p.queue g') ∧ (∀ a', (p.setTableServing x).agent a' = p.agent a') ∧
      (∀ c', (p.setTableServing x).chan c' = p.chan c') ∧ (p.setTableServing x).clearing = p.clearing := by
  simp [Part.setTableServing, Part.lock, Part.page, Part.queue, Part.agent, Part.chan, Part.clearing]

@[simp] theorem Part.setInbox_keeps (p : Part) (xs : List TransferItem) :
    (p.setInbox xs).straps = p.straps ∧ (p.setInbox xs).port = p.port ∧ (p.setInbox xs).table = p.table ∧
      (p.setInbox xs).engine = p.engine ∧ (p.setInbox xs).period = p.period ∧ (p.setInbox xs).notices = p.notices ∧
      (p.setInbox xs).transfer.chans = p.transfer.chans ∧ (p.setInbox xs).transfer.serving = p.transfer.serving ∧
      (p.setInbox xs).transfer.withdrawing = p.transfer.withdrawing ∧ (p.setInbox xs).master = p.master ∧
      (p.setInbox xs).fresh = p.fresh ∧ (∀ l', (p.setInbox xs).lock l' = p.lock l') ∧
      (∀ g', (p.setInbox xs).page g' = p.page g') ∧ (∀ g', (p.setInbox xs).queue g' = p.queue g') ∧
      (∀ a', (p.setInbox xs).agent a' = p.agent a') ∧ (∀ c', (p.setInbox xs).chan c' = p.chan c') ∧
      (p.setInbox xs).clearing = p.clearing := by
  simp [Part.setInbox, Part.lock, Part.page, Part.queue, Part.agent, Part.chan, Part.clearing]

@[simp] theorem Part.setTransferServing_keeps (p : Part) (x : Option AgentId) :
    (p.setTransferServing x).straps = p.straps ∧ (p.setTransferServing x).port = p.port ∧
      (p.setTransferServing x).table = p.table ∧ (p.setTransferServing x).engine = p.engine ∧
      (p.setTransferServing x).period = p.period ∧ (p.setTransferServing x).notices = p.notices ∧
      (p.setTransferServing x).transfer.chans = p.transfer.chans ∧
      (p.setTransferServing x).transfer.inbox = p.transfer.inbox ∧
      (p.setTransferServing x).transfer.withdrawing = p.transfer.withdrawing ∧
      (p.setTransferServing x).master = p.master ∧ (p.setTransferServing x).fresh = p.fresh ∧
      (∀ l', (p.setTransferServing x).lock l' = p.lock l') ∧ (∀ g', (p.setTransferServing x).page g' = p.page g') ∧
      (∀ g', (p.setTransferServing x).queue g' = p.queue g') ∧ (∀ a', (p.setTransferServing x).agent a' = p.agent a') ∧
      (∀ c', (p.setTransferServing x).chan c' = p.chan c') ∧ (p.setTransferServing x).clearing = p.clearing := by
  simp [Part.setTransferServing, Part.lock, Part.page, Part.queue, Part.agent, Part.chan, Part.clearing]

@[simp] theorem Part.setWithdrawing_keeps (p : Part) (xs : List AgentId) :
    (p.setWithdrawing xs).straps = p.straps ∧ (p.setWithdrawing xs).port = p.port ∧
      (p.setWithdrawing xs).table = p.table ∧ (p.setWithdrawing xs).engine = p.engine ∧
      (p.setWithdrawing xs).period = p.period ∧ (p.setWithdrawing xs).notices = p.notices ∧
      (p.setWithdrawing xs).transfer.chans = p.transfer.chans ∧
      (p.setWithdrawing xs).transfer.inbox = p.transfer.inbox ∧
      (p.setWithdrawing xs).transfer.serving = p.transfer.serving ∧ (p.setWithdrawing xs).master = p.master ∧
      (p.setWithdrawing xs).fresh = p.fresh ∧ (∀ l', (p.setWithdrawing xs).lock l' = p.lock l') ∧
      (∀ g', (p.setWithdrawing xs).page g' = p.page g') ∧ (∀ g', (p.setWithdrawing xs).queue g' = p.queue g') ∧
      (∀ a', (p.setWithdrawing xs).agent a' = p.agent a') ∧ (∀ c', (p.setWithdrawing xs).chan c' = p.chan c') ∧
      (p.setWithdrawing xs).clearing = p.clearing := by
  simp [Part.setWithdrawing, Part.lock, Part.page, Part.queue, Part.agent, Part.chan, Part.clearing]

@[simp] theorem Part.setExpiry_keeps (p : Part) (xs : List ExpiryClaim) :
    (p.setExpiry xs).straps = p.straps ∧ (p.setExpiry xs).port = p.port ∧ (p.setExpiry xs).table = p.table ∧
      (p.setExpiry xs).engine.locks = p.engine.locks ∧ (p.setExpiry xs).engine.lastServed = p.engine.lastServed ∧
      (p.setExpiry xs).engine.claims = p.engine.claims ∧ (p.setExpiry xs).engine.ranOut = p.engine.ranOut ∧
      (p.setExpiry xs).period = p.period ∧ (p.setExpiry xs).notices = p.notices ∧
      (p.setExpiry xs).transfer = p.transfer ∧ (p.setExpiry xs).master = p.master ∧ (p.setExpiry xs).fresh = p.fresh ∧
      (∀ l', (p.setExpiry xs).lock l' = p.lock l') ∧ (∀ g', (p.setExpiry xs).page g' = p.page g') ∧
      (∀ g', (p.setExpiry xs).queue g' = p.queue g') ∧ (∀ a', (p.setExpiry xs).agent a' = p.agent a') ∧
      (∀ c', (p.setExpiry xs).chan c' = p.chan c') ∧ (p.setExpiry xs).clearing = p.clearing := by
  simp [Part.setExpiry, Part.lock, Part.page, Part.queue, Part.agent, Part.chan, Part.clearing]

@[simp] theorem Part.setRanOut_keeps (p : Part) (xs : List ExpiryClaim) :
    (p.setRanOut xs).straps = p.straps ∧ (p.setRanOut xs).port = p.port ∧ (p.setRanOut xs).table = p.table ∧
      (p.setRanOut xs).engine.locks = p.engine.locks ∧ (p.setRanOut xs).engine.lastServed = p.engine.lastServed ∧
      (p.setRanOut xs).engine.claims = p.engine.claims ∧ (p.setRanOut xs).engine.expiry = p.engine.expiry ∧
      (p.setRanOut xs).period = p.period ∧ (p.setRanOut xs).notices = p.notices ∧
      (p.setRanOut xs).transfer = p.transfer ∧ (p.setRanOut xs).master = p.master ∧ (p.setRanOut xs).fresh = p.fresh ∧
      (∀ l', (p.setRanOut xs).lock l' = p.lock l') ∧ (∀ g', (p.setRanOut xs).page g' = p.page g') ∧
      (∀ g', (p.setRanOut xs).queue g' = p.queue g') ∧ (∀ a', (p.setRanOut xs).agent a' = p.agent a') ∧
      (∀ c', (p.setRanOut xs).chan c' = p.chan c') ∧ (p.setRanOut xs).clearing = p.clearing := by
  simp [Part.setRanOut, Part.lock, Part.page, Part.queue, Part.agent, Part.chan, Part.clearing]

@[simp] theorem Part.setClaim_keeps (p : Part) (c : ChanId) (x : Option ChanClaim) :
    (p.setClaim c x).straps = p.straps ∧ (p.setClaim c x).port = p.port ∧ (p.setClaim c x).table = p.table ∧
      (p.setClaim c x).engine.locks = p.engine.locks ∧ (p.setClaim c x).engine.lastServed = p.engine.lastServed ∧
      (p.setClaim c x).engine.expiry = p.engine.expiry ∧ (p.setClaim c x).engine.ranOut = p.engine.ranOut ∧
      (p.setClaim c x).period = p.period ∧ (p.setClaim c x).notices = p.notices ∧
      (p.setClaim c x).transfer = p.transfer ∧ (p.setClaim c x).master = p.master ∧ (p.setClaim c x).fresh = p.fresh ∧
      (∀ l', (p.setClaim c x).lock l' = p.lock l') ∧ (∀ g', (p.setClaim c x).page g' = p.page g') ∧
      (∀ g', (p.setClaim c x).queue g' = p.queue g') ∧ (∀ a', (p.setClaim c x).agent a' = p.agent a') ∧
      (∀ c', (p.setClaim c x).chan c' = p.chan c') ∧ (p.setClaim c x).clearing = p.clearing := by
  simp [Part.setClaim, Part.lock, Part.page, Part.queue, Part.agent, Part.chan, Part.clearing]

@[simp] theorem Part.served_keeps (p : Part) (pos : Fin 13) :
    (p.served pos).straps = p.straps ∧ (p.served pos).port = p.port ∧ (p.served pos).table = p.table ∧
      (p.served pos).engine.locks = p.engine.locks ∧ (p.served pos).engine.claims = p.engine.claims ∧
      (p.served pos).engine.expiry = p.engine.expiry ∧ (p.served pos).engine.ranOut = p.engine.ranOut ∧
      (p.served pos).period = p.period ∧ (p.served pos).notices = p.notices ∧ (p.served pos).transfer = p.transfer ∧
      (p.served pos).master = p.master ∧ (p.served pos).fresh = p.fresh ∧ (∀ l', (p.served pos).lock l' = p.lock l') ∧
      (∀ g', (p.served pos).page g' = p.page g') ∧ (∀ g', (p.served pos).queue g' = p.queue g') ∧
      (∀ a', (p.served pos).agent a' = p.agent a') ∧ (∀ c', (p.served pos).chan c' = p.chan c') ∧
      (p.served pos).clearing = p.clearing := by
  simp [Part.served, Part.lock, Part.page, Part.queue, Part.agent, Part.chan, Part.clearing]

@[simp] theorem Part.setPeriod_keeps (p : Part) (t : Period) :
    (p.setPeriod t).straps = p.straps ∧ (p.setPeriod t).port = p.port ∧ (p.setPeriod t).table = p.table ∧
      (p.setPeriod t).engine = p.engine ∧ (p.setPeriod t).notices = p.notices ∧ (p.setPeriod t).transfer = p.transfer ∧
      (p.setPeriod t).master = p.master ∧ (p.setPeriod t).fresh = p.fresh ∧
      (∀ l', (p.setPeriod t).lock l' = p.lock l') ∧ (∀ g', (p.setPeriod t).page g' = p.page g') ∧
      (∀ g', (p.setPeriod t).queue g' = p.queue g') ∧ (∀ a', (p.setPeriod t).agent a' = p.agent a') ∧
      (∀ c', (p.setPeriod t).chan c' = p.chan c') ∧ (p.setPeriod t).clearing = p.clearing := by
  simp [Part.setPeriod, Part.lock, Part.page, Part.queue, Part.agent, Part.chan, Part.clearing]

@[simp] theorem Part.setMaster_keeps (p : Part) (m : Master) :
    (p.setMaster m).straps = p.straps ∧ (p.setMaster m).port = p.port ∧ (p.setMaster m).table = p.table ∧
      (p.setMaster m).engine = p.engine ∧ (p.setMaster m).period = p.period ∧ (p.setMaster m).notices = p.notices ∧
      (p.setMaster m).transfer = p.transfer ∧ (p.setMaster m).fresh = p.fresh ∧
      (∀ l', (p.setMaster m).lock l' = p.lock l') ∧ (∀ g', (p.setMaster m).page g' = p.page g') ∧
      (∀ g', (p.setMaster m).queue g' = p.queue g') ∧ (∀ a', (p.setMaster m).agent a' = p.agent a') ∧
      (∀ c', (p.setMaster m).chan c' = p.chan c') ∧ (p.setMaster m).clearing = p.clearing := by
  simp [Part.setMaster, Part.lock, Part.page, Part.queue, Part.agent, Part.chan, Part.clearing]

@[simp] theorem Part.freshen_keeps (p : Part) :
    p.freshen.straps = p.straps ∧ p.freshen.port = p.port ∧ p.freshen.table = p.table ∧ p.freshen.engine = p.engine ∧
      p.freshen.period = p.period ∧ p.freshen.notices = p.notices ∧ p.freshen.transfer = p.transfer ∧
      p.freshen.master = p.master ∧ (∀ l', p.freshen.lock l' = p.lock l') ∧ (∀ g', p.freshen.page g' = p.page g') ∧
      (∀ g', p.freshen.queue g' = p.queue g') ∧ (∀ a', p.freshen.agent a' = p.agent a') ∧
      (∀ c', p.freshen.chan c' = p.chan c') ∧ p.freshen.clearing = p.clearing := by
  simp [Part.freshen, Part.lock, Part.page, Part.queue, Part.agent, Part.chan, Part.clearing]

/-! ### What each update sets -/

@[simp] theorem Part.page_setPage (p : Part) (g : PageId) (pg : Page) (g' : PageId) :
    (p.setPage g pg).page g' = if g' = g then pg else p.page g' := by
  cases g <;> cases g' <;> simp [Part.setPage, Part.page, pick_put]

@[simp] theorem Part.lock_setLocks (p : Part) (ls : Vector LockEntry 64) (l : LockId) :
    (p.setLocks ls).lock l = pick ls l := rfl

@[simp] theorem Part.lock_setLock (p : Part) (l : LockId) (e : LockEntry) (l' : LockId) :
    (p.setLock l e).lock l' = if l' = l then e else p.lock l' := by
  simp [Part.setLock, Part.setLocks, Part.lock, pick_put]

@[simp] theorem Part.agents_setAgent (p : Part) (a : AgentId) (e : AgentEntry) :
    (p.setAgent a e).table.agents = put p.table.agents a e := rfl

@[simp] theorem Part.agents_setAgents (p : Part) (es : Vector AgentEntry 8) : (p.setAgents es).table.agents = es := rfl

@[simp] theorem Part.agent_setAgent (p : Part) (a : AgentId) (e : AgentEntry) (b : AgentId) :
    (p.setAgent a e).agent b = if b = a then e else p.agent b := by simp [Part.setAgent, Part.agent, pick_put]

@[simp] theorem Part.copies_setAgent (p : Part) (a : AgentId) (e : AgentEntry) :
    (p.setAgent a e).port.copies = put p.port.copies a e := rfl

@[simp] theorem Part.agent_setAgents (p : Part) (es : Vector AgentEntry 8) (a : AgentId) :
    (p.setAgents es).agent a = pick es a := rfl

@[simp] theorem Part.copies_setAgents (p : Part) (es : Vector AgentEntry 8) : (p.setAgents es).port.copies = es := rfl

@[simp] theorem Part.queue_setQueue (p : Part) (g : PageId) (q : Queue) (g' : PageId) :
    (p.setQueue g q).queue g' = if g' = g then q else p.queue g' := by
  cases g <;> cases g' <;> simp [Part.setQueue, Part.setQueues, Part.queue, pick_put]

@[simp] theorem Part.queue_setQueues_agent (p : Part) (qs : Vector Queue 8) (a : AgentId) :
    (p.setQueues qs).queue (.agent a) = pick qs a := rfl

@[simp] theorem Part.queue_setQueues_supervisor (p : Part) (qs : Vector Queue 8) :
    (p.setQueues qs).queue .supervisor = p.queue .supervisor := rfl

@[simp] theorem Part.chan_setChan (p : Part) (c : ChanId) (ch : Channel) (d : ChanId) :
    (p.setChan c ch).chan d = if d = c then ch else p.chan d := by simp [Part.setChan, Part.chan, PerChan.get_set]

@[simp] theorem Part.clear_setClear (p : Part) (x : Option ClearPhase) : (p.setClear x).table.clear = x := rfl

@[simp] theorem Part.clearing_setClear (p : Part) (x : Option ClearPhase) : (p.setClear x).clearing = x.isSome := rfl

@[simp] theorem Part.purges_setPurges (p : Part) (xs : List AgentId) : (p.setPurges xs).table.purges = xs := rfl

@[simp] theorem Part.evictions_setEvictions (p : Part) (xs : List Eviction) :
    (p.setEvictions xs).table.evictions = xs := rfl

@[simp] theorem Part.reports_setReports (p : Part) (xs : List Report) : (p.setReports xs).table.reports = xs := rfl

@[simp] theorem Part.serving_setTableServing (p : Part) (x : Option PageId) :
    (p.setTableServing x).table.serving = x := rfl

@[simp] theorem Part.inbox_setInbox (p : Part) (xs : List TransferItem) : (p.setInbox xs).transfer.inbox = xs := rfl

@[simp] theorem Part.serving_setTransferServing (p : Part) (x : Option AgentId) :
    (p.setTransferServing x).transfer.serving = x := rfl

@[simp] theorem Part.withdrawing_setWithdrawing (p : Part) (xs : List AgentId) :
    (p.setWithdrawing xs).transfer.withdrawing = xs := rfl

@[simp] theorem Part.expiry_setExpiry (p : Part) (xs : List ExpiryClaim) : (p.setExpiry xs).engine.expiry = xs := rfl

@[simp] theorem Part.ranOut_setRanOut (p : Part) (xs : List ExpiryClaim) : (p.setRanOut xs).engine.ranOut = xs := rfl

@[simp] theorem Part.claims_setClaim (p : Part) (c : ChanId) (x : Option ChanClaim) :
    (p.setClaim c x).engine.claims = p.engine.claims.set c x := rfl

@[simp] theorem Part.lastServed_served (p : Part) (pos : Fin 13) : (p.served pos).engine.lastServed = pos := rfl

@[simp] theorem Part.period_setPeriod (p : Part) (t : Period) : (p.setPeriod t).period = t := rfl

@[simp] theorem Part.master_setMaster (p : Part) (m : Master) : (p.setMaster m).master = m := rfl

@[simp] theorem Part.fresh_freshen (p : Part) : p.freshen.fresh = p.fresh + 1 := rfl

@[simp] theorem State.onPart_part (s : State) (f : Part → Part) : (s.onPart f).part = f s.part := rfl

@[simp] theorem State.onPart_pending (s : State) (f : Part → Part) : (s.onPart f).pending = s.pending := rfl

end Machine

end Sys2Proof
end

