-- ==== Sys2Proof/Laws/Frames.lean ====
section
/-! SUPPORT. What each shared operation of the coordinator leaves: one lemma per operation, cited in place of its
definition. -/

namespace Sys2Proof.Machine

@[simp] theorem Part.onQueue_keeps (p : Part) (g : PageId) (f : Queue → Queue) :
    (p.onQueue g f).straps = p.straps ∧ (p.onQueue g f).port = p.port ∧ (p.onQueue g f).table = p.table ∧
      (p.onQueue g f).engine = p.engine ∧ (p.onQueue g f).period = p.period ∧ (p.onQueue g f).transfer = p.transfer ∧
      (p.onQueue g f).master = p.master ∧ (p.onQueue g f).fresh = p.fresh ∧
      (∀ l', (p.onQueue g f).lock l' = p.lock l') ∧ (∀ g', (p.onQueue g f).page g' = p.page g') ∧
      (∀ a', (p.onQueue g f).agent a' = p.agent a') ∧ (∀ c', (p.onQueue g f).chan c' = p.chan c') ∧
      (p.onQueue g f).clearing = p.clearing := by
  simp [Part.onQueue]

@[simp] theorem Part.reserve_keeps (p : Part) (g : PageId) (k : Nat) :
    (p.reserve g k).straps = p.straps ∧ (p.reserve g k).port = p.port ∧ (p.reserve g k).table = p.table ∧
      (p.reserve g k).engine = p.engine ∧ (p.reserve g k).period = p.period ∧ (p.reserve g k).transfer = p.transfer ∧
      (p.reserve g k).master = p.master ∧ (p.reserve g k).fresh = p.fresh ∧
      (∀ l', (p.reserve g k).lock l' = p.lock l') ∧ (∀ g', (p.reserve g k).page g' = p.page g') ∧
      (∀ a', (p.reserve g k).agent a' = p.agent a') ∧ (∀ c', (p.reserve g k).chan c' = p.chan c') ∧
      (p.reserve g k).clearing = p.clearing := by
  simp [Part.reserve]

@[simp] theorem Part.giveBack_keeps (p : Part) (g : PageId) (k : Nat) :
    (p.giveBack g k).straps = p.straps ∧ (p.giveBack g k).port = p.port ∧ (p.giveBack g k).table = p.table ∧
      (p.giveBack g k).engine = p.engine ∧ (p.giveBack g k).period = p.period ∧ (p.giveBack g k).transfer = p.transfer ∧
      (p.giveBack g k).master = p.master ∧ (p.giveBack g k).fresh = p.fresh ∧
      (∀ l', (p.giveBack g k).lock l' = p.lock l') ∧ (∀ g', (p.giveBack g k).page g' = p.page g') ∧
      (∀ a', (p.giveBack g k).agent a' = p.agent a') ∧ (∀ c', (p.giveBack g k).chan c' = p.chan c') ∧
      (p.giveBack g k).clearing = p.clearing := by
  simp [Part.giveBack]

@[simp] theorem Part.notify_keeps (p : Part) (a : AgentId) (n : Notice) (k : Nat) :
    (p.notify a n k).straps = p.straps ∧ (p.notify a n k).port = p.port ∧ (p.notify a n k).table = p.table ∧
      (p.notify a n k).engine = p.engine ∧ (p.notify a n k).period = p.period ∧ (p.notify a n k).transfer = p.transfer ∧
      (p.notify a n k).master = p.master ∧ (p.notify a n k).fresh = p.fresh ∧
      (∀ l', (p.notify a n k).lock l' = p.lock l') ∧ (∀ g', (p.notify a n k).page g' = p.page g') ∧
      (∀ a', (p.notify a n k).agent a' = p.agent a') ∧ (∀ c', (p.notify a n k).chan c' = p.chan c') ∧
      (p.notify a n k).clearing = p.clearing := by
  unfold Part.notify; split <;> simp

@[simp] theorem Part.notifySupervisor_keeps (p : Part) (n : Notice) :
    (p.notifySupervisor n).straps = p.straps ∧ (p.notifySupervisor n).port = p.port ∧
      (p.notifySupervisor n).table = p.table ∧ (p.notifySupervisor n).engine = p.engine ∧
      (p.notifySupervisor n).period = p.period ∧ (p.notifySupervisor n).transfer = p.transfer ∧
      (p.notifySupervisor n).master = p.master ∧ (p.notifySupervisor n).fresh = p.fresh ∧
      (∀ l', (p.notifySupervisor n).lock l' = p.lock l') ∧ (∀ g', (p.notifySupervisor n).page g' = p.page g') ∧
      (∀ a', (p.notifySupervisor n).agent a' = p.agent a') ∧ (∀ c', (p.notifySupervisor n).chan c' = p.chan c') ∧
      (p.notifySupervisor n).clearing = p.clearing := by
  simp [Part.notifySupervisor]

@[simp] theorem Part.toTransfer_keeps (p : Part) (i : TransferItem) :
    (p.toTransfer i).straps = p.straps ∧ (p.toTransfer i).port = p.port ∧ (p.toTransfer i).table = p.table ∧
      (p.toTransfer i).engine = p.engine ∧ (p.toTransfer i).period = p.period ∧ (p.toTransfer i).notices = p.notices ∧
      (p.toTransfer i).transfer.chans = p.transfer.chans ∧ (p.toTransfer i).transfer.serving = p.transfer.serving ∧
      (p.toTransfer i).transfer.withdrawing = p.transfer.withdrawing ∧ (p.toTransfer i).master = p.master ∧
      (p.toTransfer i).fresh = p.fresh ∧ (∀ l', (p.toTransfer i).lock l' = p.lock l') ∧
      (∀ g', (p.toTransfer i).page g' = p.page g') ∧ (∀ g', (p.toTransfer i).queue g' = p.queue g') ∧
      (∀ a', (p.toTransfer i).agent a' = p.agent a') ∧ (∀ c', (p.toTransfer i).chan c' = p.chan c') ∧
      (p.toTransfer i).clearing = p.clearing := by
  simp [Part.toTransfer]

@[simp] theorem Part.toTable_keeps (p : Part) (r : Report) :
    (p.toTable r).straps = p.straps ∧ (p.toTable r).port = p.port ∧ (p.toTable r).table.agents = p.table.agents ∧
      (p.toTable r).table.purges = p.table.purges ∧ (p.toTable r).table.evictions = p.table.evictions ∧
      (p.toTable r).table.serving = p.table.serving ∧ (p.toTable r).table.clear = p.table.clear ∧
      (p.toTable r).engine = p.engine ∧ (p.toTable r).period = p.period ∧ (p.toTable r).notices = p.notices ∧
      (p.toTable r).transfer = p.transfer ∧ (p.toTable r).master = p.master ∧ (p.toTable r).fresh = p.fresh ∧
      (∀ l', (p.toTable r).lock l' = p.lock l') ∧ (∀ g', (p.toTable r).page g' = p.page g') ∧
      (∀ g', (p.toTable r).queue g' = p.queue g') ∧ (∀ a', (p.toTable r).agent a' = p.agent a') ∧
      (∀ c', (p.toTable r).chan c' = p.chan c') ∧ (p.toTable r).clearing = p.clearing := by
  simp [Part.toTable]

@[simp] theorem Part.present_keeps (p : Part) (g : PageId) (ans : Answer) :
    (p.present g ans).straps = p.straps ∧ (p.present g ans).port.copies = p.port.copies ∧
      (p.present g ans).table = p.table ∧ (p.present g ans).engine = p.engine ∧ (p.present g ans).period = p.period ∧
      (p.present g ans).notices = p.notices ∧ (p.present g ans).transfer = p.transfer ∧
      (p.present g ans).master = p.master ∧ (p.present g ans).fresh = p.fresh ∧
      (∀ l', (p.present g ans).lock l' = p.lock l') ∧ (∀ g', (p.present g ans).queue g' = p.queue g') ∧
      (∀ a', (p.present g ans).agent a' = p.agent a') ∧ (∀ c', (p.present g ans).chan c' = p.chan c') ∧
      (p.present g ans).clearing = p.clearing := by
  simp [Part.present]

@[simp] theorem Part.setStage_keeps (p : Part) (g : PageId) (st : Stage) :
    (p.setStage g st).straps = p.straps ∧ (p.setStage g st).port.copies = p.port.copies ∧
      (p.setStage g st).table = p.table ∧ (p.setStage g st).engine = p.engine ∧ (p.setStage g st).period = p.period ∧
      (p.setStage g st).notices = p.notices ∧ (p.setStage g st).transfer = p.transfer ∧
      (p.setStage g st).master = p.master ∧ (p.setStage g st).fresh = p.fresh ∧
      (∀ l', (p.setStage g st).lock l' = p.lock l') ∧ (∀ g', (p.setStage g st).queue g' = p.queue g') ∧
      (∀ a', (p.setStage g st).agent a' = p.agent a') ∧ (∀ c', (p.setStage g st).chan c' = p.chan c') ∧
      (p.setStage g st).clearing = p.clearing := by
  simp [Part.setStage]

@[simp] theorem Part.onChan_keeps (p : Part) (c : ChanId) (f : Channel → Channel) :
    (p.onChan c f).straps = p.straps ∧ (p.onChan c f).port = p.port ∧ (p.onChan c f).table = p.table ∧
      (p.onChan c f).engine = p.engine ∧ (p.onChan c f).period = p.period ∧ (p.onChan c f).notices = p.notices ∧
      (p.onChan c f).transfer.inbox = p.transfer.inbox ∧ (p.onChan c f).transfer.serving = p.transfer.serving ∧
      (p.onChan c f).transfer.withdrawing = p.transfer.withdrawing ∧ (p.onChan c f).master = p.master ∧
      (p.onChan c f).fresh = p.fresh ∧ (∀ l', (p.onChan c f).lock l' = p.lock l') ∧
      (∀ g', (p.onChan c f).page g' = p.page g') ∧ (∀ g', (p.onChan c f).queue g' = p.queue g') ∧
      (∀ a', (p.onChan c f).agent a' = p.agent a') ∧ (p.onChan c f).clearing = p.clearing := by
  simp [Part.onChan]

/-- What the taking of a claim of the supervisor page does to the mark of a CLEAR (R145). -/
@[simp] theorem Part.raiseDueStep_clear (p : Part) : p.raiseDueStep.table.clear = p.clearServed := by
  unfold Part.raiseDueStep Part.clearServed; split <;> simp

@[simp] theorem Part.raiseDueStep_keeps (p : Part) :
    p.raiseDueStep.straps = p.straps ∧ p.raiseDueStep.port = p.port ∧ p.raiseDueStep.table.agents = p.table.agents ∧
      p.raiseDueStep.table.purges = p.table.purges ∧ p.raiseDueStep.table.evictions = p.table.evictions ∧
      p.raiseDueStep.table.reports = p.table.reports ∧ p.raiseDueStep.table.serving = p.table.serving ∧
      p.raiseDueStep.engine = p.engine ∧ p.raiseDueStep.period = p.period ∧ p.raiseDueStep.notices = p.notices ∧
      p.raiseDueStep.transfer = p.transfer ∧ p.raiseDueStep.master = p.master ∧ p.raiseDueStep.fresh = p.fresh ∧
      (∀ l', p.raiseDueStep.lock l' = p.lock l') ∧ (∀ g', p.raiseDueStep.page g' = p.page g') ∧
      (∀ g', p.raiseDueStep.queue g' = p.queue g') ∧ (∀ a', p.raiseDueStep.agent a' = p.agent a') ∧
      (∀ c', p.raiseDueStep.chan c' = p.chan c') := by
  unfold Part.raiseDueStep; split <;> simp

@[simp] theorem Part.raiseHeld_keeps (p : Part) :
    p.raiseHeld.straps = p.straps ∧ p.raiseHeld.port.copies = p.port.copies ∧ p.raiseHeld.table = p.table ∧
      p.raiseHeld.engine = p.engine ∧ p.raiseHeld.period = p.period ∧ p.raiseHeld.notices = p.notices ∧
      p.raiseHeld.transfer = p.transfer ∧ p.raiseHeld.master = p.master ∧ p.raiseHeld.fresh = p.fresh ∧
      (∀ l', p.raiseHeld.lock l' = p.lock l') ∧ (∀ g', p.raiseHeld.queue g' = p.queue g') ∧
      (∀ a', p.raiseHeld.agent a' = p.agent a') ∧ (∀ c', p.raiseHeld.chan c' = p.chan c') ∧
      p.raiseHeld.clearing = p.clearing := by
  unfold Part.raiseHeld; (repeat' split) <;> simp

@[simp] theorem Part.reportGrant_keeps (l : LockId) (p : Part) (h : Holding) :
    (Part.reportGrant l p h).straps = p.straps ∧ (Part.reportGrant l p h).port = p.port ∧
      (Part.reportGrant l p h).table = p.table ∧ (Part.reportGrant l p h).engine = p.engine ∧
      (Part.reportGrant l p h).period = p.period ∧ (Part.reportGrant l p h).transfer.chans = p.transfer.chans ∧
      (Part.reportGrant l p h).transfer.serving = p.transfer.serving ∧
      (Part.reportGrant l p h).transfer.withdrawing = p.transfer.withdrawing ∧
      (Part.reportGrant l p h).master = p.master ∧ (Part.reportGrant l p h).fresh = p.fresh ∧
      (∀ l', (Part.reportGrant l p h).lock l' = p.lock l') ∧ (∀ g', (Part.reportGrant l p h).page g' = p.page g') ∧
      (∀ a', (Part.reportGrant l p h).agent a' = p.agent a') ∧ (∀ c', (Part.reportGrant l p h).chan c' = p.chan c') ∧
      (Part.reportGrant l p h).clearing = p.clearing := by
  unfold Part.reportGrant; split <;> simp

@[simp] theorem Part.reportRevoked_keeps (l : LockId) (w : RevokeReason) (p : Part) (h : Holding) :
    (Part.reportRevoked l w p h).straps = p.straps ∧ (Part.reportRevoked l w p h).port = p.port ∧
      (Part.reportRevoked l w p h).table = p.table ∧ (Part.reportRevoked l w p h).engine = p.engine ∧
      (Part.reportRevoked l w p h).period = p.period ∧ (Part.reportRevoked l w p h).transfer.chans = p.transfer.chans ∧
      (Part.reportRevoked l w p h).transfer.serving = p.transfer.serving ∧
      (Part.reportRevoked l w p h).transfer.withdrawing = p.transfer.withdrawing ∧
      (Part.reportRevoked l w p h).master = p.master ∧ (Part.reportRevoked l w p h).fresh = p.fresh ∧
      (∀ l', (Part.reportRevoked l w p h).lock l' = p.lock l') ∧
      (∀ g', (Part.reportRevoked l w p h).page g' = p.page g') ∧
      (∀ a', (Part.reportRevoked l w p h).agent a' = p.agent a') ∧
      (∀ c', (Part.reportRevoked l w p h).chan c' = p.chan c') ∧ (Part.reportRevoked l w p h).clearing = p.clearing := by
  unfold Part.reportRevoked; split <;> simp

@[simp] theorem Part.reportCancelled_keeps (l : LockId) (r : CancelReason) (p : Part) (w : Waiting) :
    (Part.reportCancelled l r p w).straps = p.straps ∧ (Part.reportCancelled l r p w).port = p.port ∧
      (Part.reportCancelled l r p w).table = p.table ∧ (Part.reportCancelled l r p w).engine = p.engine ∧
      (Part.reportCancelled l r p w).period = p.period ∧
      (Part.reportCancelled l r p w).transfer.chans = p.transfer.chans ∧
      (Part.reportCancelled l r p w).transfer.serving = p.transfer.serving ∧
      (Part.reportCancelled l r p w).transfer.withdrawing = p.transfer.withdrawing ∧
      (Part.reportCancelled l r p w).master = p.master ∧ (Part.reportCancelled l r p w).fresh = p.fresh ∧
      (∀ l', (Part.reportCancelled l r p w).lock l' = p.lock l') ∧
      (∀ g', (Part.reportCancelled l r p w).page g' = p.page g') ∧
      (∀ a', (Part.reportCancelled l r p w).agent a' = p.agent a') ∧
      (∀ c', (Part.reportCancelled l r p w).chan c' = p.chan c') ∧
      (Part.reportCancelled l r p w).clearing = p.clearing := by
  unfold Part.reportCancelled; split <;> simp

@[simp] theorem Part.reportExpired_keeps (l : LockId) (p : Part) (w : Waiting) :
    (Part.reportExpired l p w).straps = p.straps ∧ (Part.reportExpired l p w).port = p.port ∧
      (Part.reportExpired l p w).table = p.table ∧ (Part.reportExpired l p w).engine = p.engine ∧
      (Part.reportExpired l p w).period = p.period ∧ (Part.reportExpired l p w).transfer.chans = p.transfer.chans ∧
      (Part.reportExpired l p w).transfer.serving = p.transfer.serving ∧
      (Part.reportExpired l p w).transfer.withdrawing = p.transfer.withdrawing ∧
      (Part.reportExpired l p w).master = p.master ∧ (Part.reportExpired l p w).fresh = p.fresh ∧
      (∀ l', (Part.reportExpired l p w).lock l' = p.lock l') ∧ (∀ g', (Part.reportExpired l p w).page g' = p.page g') ∧
      (∀ a', (Part.reportExpired l p w).agent a' = p.agent a') ∧
      (∀ c', (Part.reportExpired l p w).chan c' = p.chan c') ∧ (Part.reportExpired l p w).clearing = p.clearing := by
  unfold Part.reportExpired; split <;> simp

@[simp] theorem Part.reportGrants_keeps (l : LockId) (hs : List Holding) (p : Part) :
    (hs.foldl (Part.reportGrant l) p).straps = p.straps ∧ (hs.foldl (Part.reportGrant l) p).port = p.port ∧
      (hs.foldl (Part.reportGrant l) p).table = p.table ∧ (hs.foldl (Part.reportGrant l) p).engine = p.engine ∧
      (hs.foldl (Part.reportGrant l) p).period = p.period ∧
      (hs.foldl (Part.reportGrant l) p).transfer.chans = p.transfer.chans ∧
      (hs.foldl (Part.reportGrant l) p).transfer.serving = p.transfer.serving ∧
      (hs.foldl (Part.reportGrant l) p).transfer.withdrawing = p.transfer.withdrawing ∧
      (hs.foldl (Part.reportGrant l) p).master = p.master ∧ (hs.foldl (Part.reportGrant l) p).fresh = p.fresh ∧
      (∀ l', (hs.foldl (Part.reportGrant l) p).lock l' = p.lock l') ∧
      (∀ g', (hs.foldl (Part.reportGrant l) p).page g' = p.page g') ∧
      (∀ a', (hs.foldl (Part.reportGrant l) p).agent a' = p.agent a') ∧
      (∀ c', (hs.foldl (Part.reportGrant l) p).chan c' = p.chan c') ∧
      (hs.foldl (Part.reportGrant l) p).clearing = p.clearing := by
  induction hs generalizing p with
  | nil => simp
  | cons h hs ih => simp [ih]

@[simp] theorem Part.reportRevokeds_keeps (l : LockId) (w : RevokeReason) (hs : List Holding) (p : Part) :
    (hs.foldl (Part.reportRevoked l w) p).straps = p.straps ∧ (hs.foldl (Part.reportRevoked l w) p).port = p.port ∧
      (hs.foldl (Part.reportRevoked l w) p).table = p.table ∧ (hs.foldl (Part.reportRevoked l w) p).engine = p.engine ∧
      (hs.foldl (Part.reportRevoked l w) p).period = p.period ∧
      (hs.foldl (Part.reportRevoked l w) p).transfer.chans = p.transfer.chans ∧
      (hs.foldl (Part.reportRevoked l w) p).transfer.serving = p.transfer.serving ∧
      (hs.foldl (Part.reportRevoked l w) p).transfer.withdrawing = p.transfer.withdrawing ∧
      (hs.foldl (Part.reportRevoked l w) p).master = p.master ∧ (hs.foldl (Part.reportRevoked l w) p).fresh = p.fresh ∧
      (∀ l', (hs.foldl (Part.reportRevoked l w) p).lock l' = p.lock l') ∧
      (∀ g', (hs.foldl (Part.reportRevoked l w) p).page g' = p.page g') ∧
      (∀ a', (hs.foldl (Part.reportRevoked l w) p).agent a' = p.agent a') ∧
      (∀ c', (hs.foldl (Part.reportRevoked l w) p).chan c' = p.chan c') ∧
      (hs.foldl (Part.reportRevoked l w) p).clearing = p.clearing := by
  induction hs generalizing p with
  | nil => simp
  | cons h hs ih => simp [ih]

@[simp] theorem Part.reportCancelleds_keeps (l : LockId) (r : CancelReason) (ws : List Waiting) (p : Part) :
    (ws.foldl (Part.reportCancelled l r) p).straps = p.straps ∧
      (ws.foldl (Part.reportCancelled l r) p).port = p.port ∧ (ws.foldl (Part.reportCancelled l r) p).table = p.table ∧
      (ws.foldl (Part.reportCancelled l r) p).engine = p.engine ∧
      (ws.foldl (Part.reportCancelled l r) p).period = p.period ∧
      (ws.foldl (Part.reportCancelled l r) p).transfer.chans = p.transfer.chans ∧
      (ws.foldl (Part.reportCancelled l r) p).transfer.serving = p.transfer.serving ∧
      (ws.foldl (Part.reportCancelled l r) p).transfer.withdrawing = p.transfer.withdrawing ∧
      (ws.foldl (Part.reportCancelled l r) p).master = p.master ∧
      (ws.foldl (Part.reportCancelled l r) p).fresh = p.fresh ∧
      (∀ l', (ws.foldl (Part.reportCancelled l r) p).lock l' = p.lock l') ∧
      (∀ g', (ws.foldl (Part.reportCancelled l r) p).page g' = p.page g') ∧
      (∀ a', (ws.foldl (Part.reportCancelled l r) p).agent a' = p.agent a') ∧
      (∀ c', (ws.foldl (Part.reportCancelled l r) p).chan c' = p.chan c') ∧
      (ws.foldl (Part.reportCancelled l r) p).clearing = p.clearing := by
  induction ws generalizing p with
  | nil => simp
  | cons h hs ih => simp [ih]

@[simp] theorem Part.runPass_keeps (p : Part) (l : LockId) :
    (p.runPass l).1.straps = p.straps ∧ (p.runPass l).1.port = p.port ∧ (p.runPass l).1.table = p.table ∧
      (p.runPass l).1.engine.lastServed = p.engine.lastServed ∧ (p.runPass l).1.engine.claims = p.engine.claims ∧
      (p.runPass l).1.engine.expiry = p.engine.expiry ∧ (p.runPass l).1.engine.ranOut = p.engine.ranOut ∧
      (p.runPass l).1.period = p.period ∧ (p.runPass l).1.transfer.chans = p.transfer.chans ∧
      (p.runPass l).1.transfer.serving = p.transfer.serving ∧
      (p.runPass l).1.transfer.withdrawing = p.transfer.withdrawing ∧ (p.runPass l).1.master = p.master ∧
      (p.runPass l).1.fresh = p.fresh ∧ (∀ g', (p.runPass l).1.page g' = p.page g') ∧
      (∀ a', (p.runPass l).1.agent a' = p.agent a') ∧ (∀ c', (p.runPass l).1.chan c' = p.chan c') ∧
      (p.runPass l).1.clearing = p.clearing := by
  simp [Part.runPass]

@[simp] theorem Part.drain_keeps (p : Part) (l : LockId) :
    (p.drain l).straps = p.straps ∧ (p.drain l).port = p.port ∧ (p.drain l).table = p.table ∧
      (p.drain l).engine.lastServed = p.engine.lastServed ∧ (p.drain l).engine.claims = p.engine.claims ∧
      (p.drain l).engine.expiry = p.engine.expiry ∧ (p.drain l).engine.ranOut = p.engine.ranOut ∧
      (p.drain l).period = p.period ∧ (p.drain l).transfer = p.transfer ∧ (p.drain l).master = p.master ∧
      (p.drain l).fresh = p.fresh ∧ (∀ g', (p.drain l).page g' = p.page g') ∧
      (∀ a', (p.drain l).agent a' = p.agent a') ∧ (∀ c', (p.drain l).chan c' = p.chan c') ∧
      (p.drain l).clearing = p.clearing := by
  simp [Part.drain]

@[simp] theorem Part.settle_keeps (p : Part) (l : LockId) :
    (p.settle l).1.straps = p.straps ∧ (p.settle l).1.port = p.port ∧ (p.settle l).1.table = p.table ∧
      (p.settle l).1.engine.lastServed = p.engine.lastServed ∧ (p.settle l).1.engine.claims = p.engine.claims ∧
      (p.settle l).1.engine.expiry = p.engine.expiry ∧ (p.settle l).1.engine.ranOut = p.engine.ranOut ∧
      (p.settle l).1.period = p.period ∧ (p.settle l).1.transfer.chans = p.transfer.chans ∧
      (p.settle l).1.transfer.serving = p.transfer.serving ∧
      (p.settle l).1.transfer.withdrawing = p.transfer.withdrawing ∧ (p.settle l).1.master = p.master ∧
      (p.settle l).1.fresh = p.fresh ∧ (∀ g', (p.settle l).1.page g' = p.page g') ∧
      (∀ a', (p.settle l).1.agent a' = p.agent a') ∧ (∀ c', (p.settle l).1.chan c' = p.chan c') ∧
      (p.settle l).1.clearing = p.clearing := by
  unfold Part.settle; (repeat' split) <;> simp

@[simp] theorem Part.purgeLock_keeps (a : AgentId) (p : Part) (l : LockId) :
    (Part.purgeLock a p l).straps = p.straps ∧ (Part.purgeLock a p l).port = p.port ∧
      (Part.purgeLock a p l).table = p.table ∧ (Part.purgeLock a p l).engine.lastServed = p.engine.lastServed ∧
      (Part.purgeLock a p l).engine.claims = p.engine.claims ∧ (Part.purgeLock a p l).engine.expiry = p.engine.expiry ∧
      (Part.purgeLock a p l).engine.ranOut = p.engine.ranOut ∧ (Part.purgeLock a p l).period = p.period ∧
      (Part.purgeLock a p l).transfer.chans = p.transfer.chans ∧
      (Part.purgeLock a p l).transfer.serving = p.transfer.serving ∧
      (Part.purgeLock a p l).transfer.withdrawing = p.transfer.withdrawing ∧ (Part.purgeLock a p l).master = p.master ∧
      (Part.purgeLock a p l).fresh = p.fresh ∧ (∀ g', (Part.purgeLock a p l).page g' = p.page g') ∧
      (∀ a', (Part.purgeLock a p l).agent a' = p.agent a') ∧ (∀ c', (Part.purgeLock a p l).chan c' = p.chan c') ∧
      (Part.purgeLock a p l).clearing = p.clearing := by
  unfold Part.purgeLock; dsimp only; split <;> simp

@[simp] theorem Part.purgeLocks_keeps (a : AgentId) (ls : List LockId) (p : Part) :
    (ls.foldl (Part.purgeLock a) p).straps = p.straps ∧ (ls.foldl (Part.purgeLock a) p).port = p.port ∧
      (ls.foldl (Part.purgeLock a) p).table = p.table ∧
      (ls.foldl (Part.purgeLock a) p).engine.lastServed = p.engine.lastServed ∧
      (ls.foldl (Part.purgeLock a) p).engine.claims = p.engine.claims ∧
      (ls.foldl (Part.purgeLock a) p).engine.expiry = p.engine.expiry ∧
      (ls.foldl (Part.purgeLock a) p).engine.ranOut = p.engine.ranOut ∧
      (ls.foldl (Part.purgeLock a) p).period = p.period ∧
      (ls.foldl (Part.purgeLock a) p).transfer.chans = p.transfer.chans ∧
      (ls.foldl (Part.purgeLock a) p).transfer.serving = p.transfer.serving ∧
      (ls.foldl (Part.purgeLock a) p).transfer.withdrawing = p.transfer.withdrawing ∧
      (ls.foldl (Part.purgeLock a) p).master = p.master ∧ (ls.foldl (Part.purgeLock a) p).fresh = p.fresh ∧
      (∀ g', (ls.foldl (Part.purgeLock a) p).page g' = p.page g') ∧
      (∀ a', (ls.foldl (Part.purgeLock a) p).agent a' = p.agent a') ∧
      (∀ c', (ls.foldl (Part.purgeLock a) p).chan c' = p.chan c') ∧
      (ls.foldl (Part.purgeLock a) p).clearing = p.clearing := by
  induction ls generalizing p with
  | nil => simp
  | cons l ls ih => simp [ih]

@[simp] theorem Part.clearLock_keeps (p : Part) (l : LockId) :
    (p.clearLock l).straps = p.straps ∧ (p.clearLock l).port = p.port ∧ (p.clearLock l).table = p.table ∧
      (p.clearLock l).engine.lastServed = p.engine.lastServed ∧ (p.clearLock l).engine.claims = p.engine.claims ∧
      (p.clearLock l).engine.expiry = p.engine.expiry ∧ (p.clearLock l).engine.ranOut = p.engine.ranOut ∧
      (p.clearLock l).period = p.period ∧ (p.clearLock l).transfer.chans = p.transfer.chans ∧
      (p.clearLock l).transfer.serving = p.transfer.serving ∧
      (p.clearLock l).transfer.withdrawing = p.transfer.withdrawing ∧ (p.clearLock l).master = p.master ∧
      (p.clearLock l).fresh = p.fresh ∧ (∀ g', (p.clearLock l).page g' = p.page g') ∧
      (∀ a', (p.clearLock l).agent a' = p.agent a') ∧ (∀ c', (p.clearLock l).chan c' = p.chan c') ∧
      (p.clearLock l).clearing = p.clearing := by
  unfold Part.clearLock; dsimp only; split <;> simp

@[simp] theorem Part.clearLocks_keeps (ls : List LockId) (p : Part) :
    (ls.foldl Part.clearLock p).straps = p.straps ∧ (ls.foldl Part.clearLock p).port = p.port ∧
      (ls.foldl Part.clearLock p).table = p.table ∧
      (ls.foldl Part.clearLock p).engine.lastServed = p.engine.lastServed ∧
      (ls.foldl Part.clearLock p).engine.claims = p.engine.claims ∧
      (ls.foldl Part.clearLock p).engine.expiry = p.engine.expiry ∧
      (ls.foldl Part.clearLock p).engine.ranOut = p.engine.ranOut ∧ (ls.foldl Part.clearLock p).period = p.period ∧
      (ls.foldl Part.clearLock p).transfer.chans = p.transfer.chans ∧
      (ls.foldl Part.clearLock p).transfer.serving = p.transfer.serving ∧
      (ls.foldl Part.clearLock p).transfer.withdrawing = p.transfer.withdrawing ∧
      (ls.foldl Part.clearLock p).master = p.master ∧ (ls.foldl Part.clearLock p).fresh = p.fresh ∧
      (∀ g', (ls.foldl Part.clearLock p).page g' = p.page g') ∧
      (∀ a', (ls.foldl Part.clearLock p).agent a' = p.agent a') ∧
      (∀ c', (ls.foldl Part.clearLock p).chan c' = p.chan c') ∧ (ls.foldl Part.clearLock p).clearing = p.clearing := by
  induction ls generalizing p with
  | nil => simp
  | cons l ls ih => simp [ih]

@[simp] theorem Part.endBurst_keeps (p : Part) (c : ChanId) (r : BurstResult) :
    (p.endBurst c r).straps = p.straps ∧ (p.endBurst c r).port = p.port ∧ (p.endBurst c r).table = p.table ∧
      (p.endBurst c r).engine = p.engine ∧ (p.endBurst c r).period = p.period ∧ (p.endBurst c r).notices = p.notices ∧
      (p.endBurst c r).transfer.chans = p.transfer.chans ∧ (p.endBurst c r).transfer.serving = p.transfer.serving ∧
      (p.endBurst c r).transfer.withdrawing = p.transfer.withdrawing ∧ (p.endBurst c r).fresh = p.fresh ∧
      (∀ l', (p.endBurst c r).lock l' = p.lock l') ∧ (∀ g', (p.endBurst c r).page g' = p.page g') ∧
      (∀ g', (p.endBurst c r).queue g' = p.queue g') ∧ (∀ a', (p.endBurst c r).agent a' = p.agent a') ∧
      (∀ c', (p.endBurst c r).chan c' = p.chan c') ∧ (p.endBurst c r).clearing = p.clearing := by
  simp [Part.endBurst]

@[simp] theorem Part.handBurst_keeps (p : Part) (c : ChanId) (d : Descriptor) :
    (p.handBurst c d).straps = p.straps ∧ (p.handBurst c d).port = p.port ∧ (p.handBurst c d).table = p.table ∧
      (p.handBurst c d).engine = p.engine ∧ (p.handBurst c d).period = p.period ∧
      (p.handBurst c d).notices = p.notices ∧ (p.handBurst c d).transfer.inbox = p.transfer.inbox ∧
      (p.handBurst c d).transfer.serving = p.transfer.serving ∧
      (p.handBurst c d).transfer.withdrawing = p.transfer.withdrawing ∧ (p.handBurst c d).fresh = p.fresh ∧
      (∀ l', (p.handBurst c d).lock l' = p.lock l') ∧ (∀ g', (p.handBurst c d).page g' = p.page g') ∧
      (∀ g', (p.handBurst c d).queue g' = p.queue g') ∧ (∀ a', (p.handBurst c d).agent a' = p.agent a') ∧
      (p.handBurst c d).clearing = p.clearing := by
  simp [Part.handBurst]

@[simp] theorem Part.raiseClaim_keeps (p : Part) (c : ChanId) (cl : ChanClaim) (f : InFlight) :
    (p.raiseClaim c cl f).straps = p.straps ∧ (p.raiseClaim c cl f).port = p.port ∧
      (p.raiseClaim c cl f).table = p.table ∧ (p.raiseClaim c cl f).engine.locks = p.engine.locks ∧
      (p.raiseClaim c cl f).engine.lastServed = p.engine.lastServed ∧
      (p.raiseClaim c cl f).engine.expiry = p.engine.expiry ∧ (p.raiseClaim c cl f).engine.ranOut = p.engine.ranOut ∧
      (p.raiseClaim c cl f).period = p.period ∧ (p.raiseClaim c cl f).notices = p.notices ∧
      (p.raiseClaim c cl f).transfer.inbox = p.transfer.inbox ∧
      (p.raiseClaim c cl f).transfer.serving = p.transfer.serving ∧
      (p.raiseClaim c cl f).transfer.withdrawing = p.transfer.withdrawing ∧ (p.raiseClaim c cl f).master = p.master ∧
      (p.raiseClaim c cl f).fresh = p.fresh ∧ (∀ l', (p.raiseClaim c cl f).lock l' = p.lock l') ∧
      (∀ g', (p.raiseClaim c cl f).page g' = p.page g') ∧ (∀ g', (p.raiseClaim c cl f).queue g' = p.queue g') ∧
      (∀ a', (p.raiseClaim c cl f).agent a' = p.agent a') ∧ (p.raiseClaim c cl f).clearing = p.clearing := by
  simp [Part.raiseClaim]

@[simp] theorem Part.pauseNow_keeps (p : Part) (c : ChanId) :
    (p.pauseNow c).straps = p.straps ∧ (p.pauseNow c).port = p.port ∧ (p.pauseNow c).table = p.table ∧
      (p.pauseNow c).engine = p.engine ∧ (p.pauseNow c).period = p.period ∧
      (p.pauseNow c).transfer.inbox = p.transfer.inbox ∧ (p.pauseNow c).transfer.serving = p.transfer.serving ∧
      (p.pauseNow c).transfer.withdrawing = p.transfer.withdrawing ∧ (p.pauseNow c).master = p.master ∧
      (p.pauseNow c).fresh = p.fresh ∧ (∀ l', (p.pauseNow c).lock l' = p.lock l') ∧
      (∀ g', (p.pauseNow c).page g' = p.page g') ∧ (∀ a', (p.pauseNow c).agent a' = p.agent a') ∧
      (p.pauseNow c).clearing = p.clearing := by
  simp [Part.pauseNow]

@[simp] theorem Part.beginHead_keeps (p : Part) (c : ChanId) (d : Descriptor) :
    (p.beginHead c d).straps = p.straps ∧ (p.beginHead c d).port = p.port ∧ (p.beginHead c d).table = p.table ∧
      (p.beginHead c d).engine.locks = p.engine.locks ∧ (p.beginHead c d).engine.lastServed = p.engine.lastServed ∧
      (p.beginHead c d).engine.expiry = p.engine.expiry ∧ (p.beginHead c d).engine.ranOut = p.engine.ranOut ∧
      (p.beginHead c d).period = p.period ∧ (p.beginHead c d).notices = p.notices ∧
      (p.beginHead c d).transfer.inbox = p.transfer.inbox ∧ (p.beginHead c d).transfer.serving = p.transfer.serving ∧
      (p.beginHead c d).transfer.withdrawing = p.transfer.withdrawing ∧ (p.beginHead c d).fresh = p.fresh ∧
      (∀ l', (p.beginHead c d).lock l' = p.lock l') ∧ (∀ g', (p.beginHead c d).page g' = p.page g') ∧
      (∀ g', (p.beginHead c d).queue g' = p.queue g') ∧ (∀ a', (p.beginHead c d).agent a' = p.agent a') ∧
      (p.beginHead c d).clearing = p.clearing := by
  unfold Part.beginHead; split <;> simp

@[simp] theorem Part.takeHead_keeps (p : Part) (c : ChanId) :
    (p.takeHead c).straps = p.straps ∧ (p.takeHead c).port = p.port ∧ (p.takeHead c).table = p.table ∧
      (p.takeHead c).engine.locks = p.engine.locks ∧ (p.takeHead c).engine.lastServed = p.engine.lastServed ∧
      (p.takeHead c).engine.expiry = p.engine.expiry ∧ (p.takeHead c).engine.ranOut = p.engine.ranOut ∧
      (p.takeHead c).period = p.period ∧ (p.takeHead c).notices = p.notices ∧
      (p.takeHead c).transfer.inbox = p.transfer.inbox ∧ (p.takeHead c).transfer.serving = p.transfer.serving ∧
      (p.takeHead c).transfer.withdrawing = p.transfer.withdrawing ∧ (p.takeHead c).fresh = p.fresh ∧
      (∀ l', (p.takeHead c).lock l' = p.lock l') ∧ (∀ g', (p.takeHead c).page g' = p.page g') ∧
      (∀ g', (p.takeHead c).queue g' = p.queue g') ∧ (∀ a', (p.takeHead c).agent a' = p.agent a') ∧
      (p.takeHead c).clearing = p.clearing := by
  unfold Part.takeHead; (repeat' split) <;> simp

@[simp] theorem Part.reportIfNone_keeps (p : Part) (a : AgentId) :
    (p.reportIfNone a).straps = p.straps ∧ (p.reportIfNone a).port = p.port ∧
      (p.reportIfNone a).table.agents = p.table.agents ∧ (p.reportIfNone a).table.purges = p.table.purges ∧
      (p.reportIfNone a).table.evictions = p.table.evictions ∧ (p.reportIfNone a).table.serving = p.table.serving ∧
      (p.reportIfNone a).table.clear = p.table.clear ∧ (p.reportIfNone a).engine = p.engine ∧
      (p.reportIfNone a).period = p.period ∧ (p.reportIfNone a).notices = p.notices ∧
      (p.reportIfNone a).transfer.chans = p.transfer.chans ∧ (p.reportIfNone a).transfer.inbox = p.transfer.inbox ∧
      (p.reportIfNone a).transfer.serving = p.transfer.serving ∧ (p.reportIfNone a).master = p.master ∧
      (p.reportIfNone a).fresh = p.fresh ∧ (∀ l', (p.reportIfNone a).lock l' = p.lock l') ∧
      (∀ g', (p.reportIfNone a).page g' = p.page g') ∧ (∀ g', (p.reportIfNone a).queue g' = p.queue g') ∧
      (∀ a', (p.reportIfNone a).agent a' = p.agent a') ∧ (∀ c', (p.reportIfNone a).chan c' = p.chan c') ∧
      (p.reportIfNone a).clearing = p.clearing := by
  unfold Part.reportIfNone; split <;> simp

@[simp] theorem Part.afterEnd_keeps (p : Part) (c : ChanId) :
    (p.afterEnd c).straps = p.straps ∧ (p.afterEnd c).port = p.port ∧ (p.afterEnd c).table = p.table ∧
      (p.afterEnd c).engine.locks = p.engine.locks ∧ (p.afterEnd c).engine.lastServed = p.engine.lastServed ∧
      (p.afterEnd c).engine.expiry = p.engine.expiry ∧ (p.afterEnd c).engine.ranOut = p.engine.ranOut ∧
      (p.afterEnd c).period = p.period ∧ (p.afterEnd c).transfer.inbox = p.transfer.inbox ∧
      (p.afterEnd c).transfer.serving = p.transfer.serving ∧
      (p.afterEnd c).transfer.withdrawing = p.transfer.withdrawing ∧ (p.afterEnd c).fresh = p.fresh ∧
      (∀ l', (p.afterEnd c).lock l' = p.lock l') ∧ (∀ g', (p.afterEnd c).page g' = p.page g') ∧
      (∀ a', (p.afterEnd c).agent a' = p.agent a') ∧ (p.afterEnd c).clearing = p.clearing := by
  unfold Part.afterEnd; dsimp only; (repeat' split) <;> simp

@[simp] theorem Part.finishEnd_keeps (p : Part) (c : ChanId) (o : EndOutcome) :
    (p.finishEnd c o).straps = p.straps ∧ (p.finishEnd c o).port = p.port ∧
      (p.finishEnd c o).table.agents = p.table.agents ∧ (p.finishEnd c o).table.purges = p.table.purges ∧
      (p.finishEnd c o).table.evictions = p.table.evictions ∧ (p.finishEnd c o).table.serving = p.table.serving ∧
      (p.finishEnd c o).table.clear = p.table.clear ∧ (p.finishEnd c o).engine.locks = p.engine.locks ∧
      (p.finishEnd c o).engine.lastServed = p.engine.lastServed ∧ (p.finishEnd c o).engine.expiry = p.engine.expiry ∧
      (p.finishEnd c o).engine.ranOut = p.engine.ranOut ∧ (p.finishEnd c o).period = p.period ∧
      (p.finishEnd c o).transfer.inbox = p.transfer.inbox ∧ (p.finishEnd c o).transfer.serving = p.transfer.serving ∧
      (p.finishEnd c o).fresh = p.fresh ∧ (∀ l', (p.finishEnd c o).lock l' = p.lock l') ∧
      (∀ g', (p.finishEnd c o).page g' = p.page g') ∧ (∀ a', (p.finishEnd c o).agent a' = p.agent a') ∧
      (p.finishEnd c o).clearing = p.clearing := by
  unfold Part.finishEnd; split <;> simp

@[simp] theorem Part.endDescriptor_keeps (p : Part) (c : ChanId) (o : EndOutcome) :
    (p.endDescriptor c o).straps = p.straps ∧ (p.endDescriptor c o).port = p.port ∧
      (p.endDescriptor c o).table.agents = p.table.agents ∧ (p.endDescriptor c o).table.purges = p.table.purges ∧
      (p.endDescriptor c o).table.evictions = p.table.evictions ∧
      (p.endDescriptor c o).table.serving = p.table.serving ∧ (p.endDescriptor c o).table.clear = p.table.clear ∧
      (p.endDescriptor c o).engine.locks = p.engine.locks ∧
      (p.endDescriptor c o).engine.lastServed = p.engine.lastServed ∧
      (p.endDescriptor c o).engine.expiry = p.engine.expiry ∧ (p.endDescriptor c o).engine.ranOut = p.engine.ranOut ∧
      (p.endDescriptor c o).period = p.period ∧ (p.endDescriptor c o).transfer.inbox = p.transfer.inbox ∧
      (p.endDescriptor c o).transfer.serving = p.transfer.serving ∧ (p.endDescriptor c o).fresh = p.fresh ∧
      (∀ l', (p.endDescriptor c o).lock l' = p.lock l') ∧ (∀ g', (p.endDescriptor c o).page g' = p.page g') ∧
      (∀ a', (p.endDescriptor c o).agent a' = p.agent a') ∧ (p.endDescriptor c o).clearing = p.clearing := by
  unfold Part.endDescriptor; split <;> simp

@[simp] theorem Part.endFault_keeps (p : Part) (c : ChanId) (r : TransferFault) :
    (p.endFault c r).straps = p.straps ∧ (p.endFault c r).port = p.port ∧
      (p.endFault c r).table.agents = p.table.agents ∧ (p.endFault c r).table.purges = p.table.purges ∧
      (p.endFault c r).table.evictions = p.table.evictions ∧ (p.endFault c r).table.serving = p.table.serving ∧
      (p.endFault c r).table.clear = p.table.clear ∧ (p.endFault c r).engine.locks = p.engine.locks ∧
      (p.endFault c r).engine.lastServed = p.engine.lastServed ∧ (p.endFault c r).engine.expiry = p.engine.expiry ∧
      (p.endFault c r).engine.ranOut = p.engine.ranOut ∧ (p.endFault c r).period = p.period ∧
      (p.endFault c r).transfer.inbox = p.transfer.inbox ∧ (p.endFault c r).transfer.serving = p.transfer.serving ∧
      (p.endFault c r).fresh = p.fresh ∧ (∀ l', (p.endFault c r).lock l' = p.lock l') ∧
      (∀ g', (p.endFault c r).page g' = p.page g') ∧ (∀ a', (p.endFault c r).agent a' = p.agent a') ∧
      (p.endFault c r).clearing = p.clearing := by
  simp [Part.endFault]

@[simp] theorem Part.afterGuard_keeps (p : Part) (c : ChanId) :
    (p.afterGuard c).straps = p.straps ∧ (p.afterGuard c).port = p.port ∧
      (p.afterGuard c).table.agents = p.table.agents ∧ (p.afterGuard c).table.purges = p.table.purges ∧
      (p.afterGuard c).table.evictions = p.table.evictions ∧ (p.afterGuard c).table.serving = p.table.serving ∧
      (p.afterGuard c).table.clear = p.table.clear ∧ (p.afterGuard c).engine.locks = p.engine.locks ∧
      (p.afterGuard c).engine.lastServed = p.engine.lastServed ∧ (p.afterGuard c).engine.expiry = p.engine.expiry ∧
      (p.afterGuard c).engine.ranOut = p.engine.ranOut ∧ (p.afterGuard c).period = p.period ∧
      (p.afterGuard c).transfer.inbox = p.transfer.inbox ∧ (p.afterGuard c).transfer.serving = p.transfer.serving ∧
      (p.afterGuard c).fresh = p.fresh ∧ (∀ l', (p.afterGuard c).lock l' = p.lock l') ∧
      (∀ g', (p.afterGuard c).page g' = p.page g') ∧ (∀ a', (p.afterGuard c).agent a' = p.agent a') ∧
      (p.afterGuard c).clearing = p.clearing := by
  unfold Part.afterGuard; (repeat' split) <;> simp

@[simp] theorem Part.goOn_keeps (p : Part) (c : ChanId) :
    (p.goOn c).straps = p.straps ∧ (p.goOn c).port = p.port ∧ (p.goOn c).table.agents = p.table.agents ∧
      (p.goOn c).table.purges = p.table.purges ∧ (p.goOn c).table.evictions = p.table.evictions ∧
      (p.goOn c).table.serving = p.table.serving ∧ (p.goOn c).table.clear = p.table.clear ∧
      (p.goOn c).engine.locks = p.engine.locks ∧ (p.goOn c).engine.lastServed = p.engine.lastServed ∧
      (p.goOn c).engine.expiry = p.engine.expiry ∧ (p.goOn c).engine.ranOut = p.engine.ranOut ∧
      (p.goOn c).period = p.period ∧ (p.goOn c).transfer.inbox = p.transfer.inbox ∧
      (p.goOn c).transfer.serving = p.transfer.serving ∧ (p.goOn c).fresh = p.fresh ∧
      (∀ l', (p.goOn c).lock l' = p.lock l') ∧ (∀ g', (p.goOn c).page g' = p.page g') ∧
      (∀ a', (p.goOn c).agent a' = p.agent a') ∧ (p.goOn c).clearing = p.clearing := by
  unfold Part.goOn; (repeat' split) <;> simp

@[simp] theorem Part.granted_keeps (p : Part) (c : ChanId) (t : Word) :
    (p.granted c t).straps = p.straps ∧ (p.granted c t).port = p.port ∧
      (p.granted c t).table.agents = p.table.agents ∧ (p.granted c t).table.purges = p.table.purges ∧
      (p.granted c t).table.evictions = p.table.evictions ∧ (p.granted c t).table.serving = p.table.serving ∧
      (p.granted c t).table.clear = p.table.clear ∧ (p.granted c t).engine.locks = p.engine.locks ∧
      (p.granted c t).engine.lastServed = p.engine.lastServed ∧ (p.granted c t).engine.expiry = p.engine.expiry ∧
      (p.granted c t).engine.ranOut = p.engine.ranOut ∧ (p.granted c t).period = p.period ∧
      (p.granted c t).transfer.inbox = p.transfer.inbox ∧ (p.granted c t).transfer.serving = p.transfer.serving ∧
      (p.granted c t).fresh = p.fresh ∧ (∀ l', (p.granted c t).lock l' = p.lock l') ∧
      (∀ g', (p.granted c t).page g' = p.page g') ∧ (∀ a', (p.granted c t).agent a' = p.agent a') ∧
      (p.granted c t).clearing = p.clearing := by
  unfold Part.granted; dsimp only; split <;> simp

@[simp] theorem Part.raiseRemoval_keeps (p : Part) (c : ChanId) :
    (p.raiseRemoval c).straps = p.straps ∧ (p.raiseRemoval c).port = p.port ∧ (p.raiseRemoval c).table = p.table ∧
      (p.raiseRemoval c).engine.locks = p.engine.locks ∧ (p.raiseRemoval c).engine.lastServed = p.engine.lastServed ∧
      (p.raiseRemoval c).engine.expiry = p.engine.expiry ∧ (p.raiseRemoval c).engine.ranOut = p.engine.ranOut ∧
      (p.raiseRemoval c).period = p.period ∧ (p.raiseRemoval c).notices = p.notices ∧
      (p.raiseRemoval c).transfer.inbox = p.transfer.inbox ∧ (p.raiseRemoval c).transfer.serving = p.transfer.serving ∧
      (p.raiseRemoval c).transfer.withdrawing = p.transfer.withdrawing ∧ (p.raiseRemoval c).master = p.master ∧
      (p.raiseRemoval c).fresh = p.fresh ∧ (∀ l', (p.raiseRemoval c).lock l' = p.lock l') ∧
      (∀ g', (p.raiseRemoval c).page g' = p.page g') ∧ (∀ g', (p.raiseRemoval c).queue g' = p.queue g') ∧
      (∀ a', (p.raiseRemoval c).agent a' = p.agent a') ∧ (p.raiseRemoval c).clearing = p.clearing := by
  unfold Part.raiseRemoval; split <;> simp

@[simp] theorem Part.giveStop_keeps (p : Part) (c : ChanId) (r : StopReason) :
    (p.giveStop c r).straps = p.straps ∧ (p.giveStop c r).port = p.port ∧
      (p.giveStop c r).table.agents = p.table.agents ∧ (p.giveStop c r).table.purges = p.table.purges ∧
      (p.giveStop c r).table.evictions = p.table.evictions ∧ (p.giveStop c r).table.serving = p.table.serving ∧
      (p.giveStop c r).table.clear = p.table.clear ∧ (p.giveStop c r).engine.locks = p.engine.locks ∧
      (p.giveStop c r).engine.lastServed = p.engine.lastServed ∧ (p.giveStop c r).engine.expiry = p.engine.expiry ∧
      (p.giveStop c r).engine.ranOut = p.engine.ranOut ∧ (p.giveStop c r).period = p.period ∧
      (p.giveStop c r).transfer.inbox = p.transfer.inbox ∧ (p.giveStop c r).transfer.serving = p.transfer.serving ∧
      (p.giveStop c r).fresh = p.fresh ∧ (∀ l', (p.giveStop c r).lock l' = p.lock l') ∧
      (∀ g', (p.giveStop c r).page g' = p.page g') ∧ (∀ a', (p.giveStop c r).agent a' = p.agent a') ∧
      (p.giveStop c r).clearing = p.clearing := by
  unfold Part.giveStop; dsimp only; (repeat' split) <;> simp

@[simp] theorem Part.stopFor_keeps (p : Part) (a : AgentId) (c : ChanId) :
    (p.stopFor a c).straps = p.straps ∧ (p.stopFor a c).port = p.port ∧
      (p.stopFor a c).table.agents = p.table.agents ∧ (p.stopFor a c).table.purges = p.table.purges ∧
      (p.stopFor a c).table.evictions = p.table.evictions ∧ (p.stopFor a c).table.serving = p.table.serving ∧
      (p.stopFor a c).table.clear = p.table.clear ∧ (p.stopFor a c).engine.locks = p.engine.locks ∧
      (p.stopFor a c).engine.lastServed = p.engine.lastServed ∧ (p.stopFor a c).engine.expiry = p.engine.expiry ∧
      (p.stopFor a c).engine.ranOut = p.engine.ranOut ∧ (p.stopFor a c).period = p.period ∧
      (p.stopFor a c).transfer.inbox = p.transfer.inbox ∧ (p.stopFor a c).transfer.serving = p.transfer.serving ∧
      (p.stopFor a c).fresh = p.fresh ∧ (∀ l', (p.stopFor a c).lock l' = p.lock l') ∧
      (∀ g', (p.stopFor a c).page g' = p.page g') ∧ (∀ a', (p.stopFor a c).agent a' = p.agent a') ∧
      (p.stopFor a c).clearing = p.clearing := by
  unfold Part.stopFor; (repeat' split) <;> simp

@[simp] theorem Part.reportRest_keeps (p : Part) :
    p.reportRest.straps = p.straps ∧ p.reportRest.port = p.port ∧ p.reportRest.table.agents = p.table.agents ∧
      p.reportRest.table.purges = p.table.purges ∧ p.reportRest.table.evictions = p.table.evictions ∧
      p.reportRest.table.serving = p.table.serving ∧ p.reportRest.engine = p.engine ∧ p.reportRest.period = p.period ∧
      p.reportRest.notices = p.notices ∧ p.reportRest.transfer = p.transfer ∧ p.reportRest.master = p.master ∧
      p.reportRest.fresh = p.fresh ∧ (∀ l', p.reportRest.lock l' = p.lock l') ∧
      (∀ g', p.reportRest.page g' = p.page g') ∧ (∀ g', p.reportRest.queue g' = p.queue g') ∧
      (∀ a', p.reportRest.agent a' = p.agent a') ∧ (∀ c', p.reportRest.chan c' = p.chan c') := by
  unfold Part.reportRest; split <;> simp

@[simp] theorem Part.onAcquisition_keeps (c : ChanId) (x : AcquisitionAnswer) (p : Part) :
    (Part.onAcquisition c x p).straps = p.straps ∧ (Part.onAcquisition c x p).port = p.port ∧
      (Part.onAcquisition c x p).table.agents = p.table.agents ∧
      (Part.onAcquisition c x p).table.purges = p.table.purges ∧
      (Part.onAcquisition c x p).table.evictions = p.table.evictions ∧
      (Part.onAcquisition c x p).table.serving = p.table.serving ∧
      (Part.onAcquisition c x p).table.clear = p.table.clear ∧
      (Part.onAcquisition c x p).engine.locks = p.engine.locks ∧
      (Part.onAcquisition c x p).engine.lastServed = p.engine.lastServed ∧
      (Part.onAcquisition c x p).engine.expiry = p.engine.expiry ∧
      (Part.onAcquisition c x p).engine.ranOut = p.engine.ranOut ∧ (Part.onAcquisition c x p).period = p.period ∧
      (Part.onAcquisition c x p).transfer.inbox = p.transfer.inbox ∧
      (Part.onAcquisition c x p).transfer.serving = p.transfer.serving ∧ (Part.onAcquisition c x p).fresh = p.fresh ∧
      (∀ l', (Part.onAcquisition c x p).lock l' = p.lock l') ∧ (∀ g', (Part.onAcquisition c x p).page g' = p.page g') ∧
      (∀ a', (Part.onAcquisition c x p).agent a' = p.agent a') ∧ (Part.onAcquisition c x p).clearing = p.clearing := by
  unfold Part.onAcquisition; dsimp only; split <;> simp

@[simp] theorem Part.onGrantReport_keeps (c : ChanId) (t : Word) (p : Part) :
    (Part.onGrantReport c t p).straps = p.straps ∧ (Part.onGrantReport c t p).port = p.port ∧
      (Part.onGrantReport c t p).table.agents = p.table.agents ∧
      (Part.onGrantReport c t p).table.purges = p.table.purges ∧
      (Part.onGrantReport c t p).table.evictions = p.table.evictions ∧
      (Part.onGrantReport c t p).table.serving = p.table.serving ∧
      (Part.onGrantReport c t p).table.clear = p.table.clear ∧
      (Part.onGrantReport c t p).engine.locks = p.engine.locks ∧
      (Part.onGrantReport c t p).engine.lastServed = p.engine.lastServed ∧
      (Part.onGrantReport c t p).engine.expiry = p.engine.expiry ∧
      (Part.onGrantReport c t p).engine.ranOut = p.engine.ranOut ∧ (Part.onGrantReport c t p).period = p.period ∧
      (Part.onGrantReport c t p).transfer.inbox = p.transfer.inbox ∧
      (Part.onGrantReport c t p).transfer.serving = p.transfer.serving ∧ (Part.onGrantReport c t p).fresh = p.fresh ∧
      (∀ l', (Part.onGrantReport c t p).lock l' = p.lock l') ∧ (∀ g', (Part.onGrantReport c t p).page g' = p.page g') ∧
      (∀ a', (Part.onGrantReport c t p).agent a' = p.agent a') ∧ (Part.onGrantReport c t p).clearing = p.clearing := by
  unfold Part.onGrantReport; split <;> simp

@[simp] theorem Part.onWaitEnded_keeps (c : ChanId) (w : WaitEnd) (p : Part) :
    (Part.onWaitEnded c w p).straps = p.straps ∧ (Part.onWaitEnded c w p).port = p.port ∧
      (Part.onWaitEnded c w p).table.agents = p.table.agents ∧ (Part.onWaitEnded c w p).table.purges = p.table.purges ∧
      (Part.onWaitEnded c w p).table.evictions = p.table.evictions ∧
      (Part.onWaitEnded c w p).table.serving = p.table.serving ∧ (Part.onWaitEnded c w p).table.clear = p.table.clear ∧
      (Part.onWaitEnded c w p).engine.locks = p.engine.locks ∧
      (Part.onWaitEnded c w p).engine.lastServed = p.engine.lastServed ∧
      (Part.onWaitEnded c w p).engine.expiry = p.engine.expiry ∧
      (Part.onWaitEnded c w p).engine.ranOut = p.engine.ranOut ∧ (Part.onWaitEnded c w p).period = p.period ∧
      (Part.onWaitEnded c w p).transfer.inbox = p.transfer.inbox ∧
      (Part.onWaitEnded c w p).transfer.serving = p.transfer.serving ∧ (Part.onWaitEnded c w p).fresh = p.fresh ∧
      (∀ l', (Part.onWaitEnded c w p).lock l' = p.lock l') ∧ (∀ g', (Part.onWaitEnded c w p).page g' = p.page g') ∧
      (∀ a', (Part.onWaitEnded c w p).agent a' = p.agent a') ∧ (Part.onWaitEnded c w p).clearing = p.clearing := by
  unfold Part.onWaitEnded; split <;> simp

@[simp] theorem Part.onRemoval_keeps (c : ChanId) (x : RemovalAnswer) (p : Part) :
    (Part.onRemoval c x p).straps = p.straps ∧ (Part.onRemoval c x p).port = p.port ∧
      (Part.onRemoval c x p).table.agents = p.table.agents ∧ (Part.onRemoval c x p).table.purges = p.table.purges ∧
      (Part.onRemoval c x p).table.evictions = p.table.evictions ∧
      (Part.onRemoval c x p).table.serving = p.table.serving ∧ (Part.onRemoval c x p).table.clear = p.table.clear ∧
      (Part.onRemoval c x p).engine.locks = p.engine.locks ∧
      (Part.onRemoval c x p).engine.lastServed = p.engine.lastServed ∧
      (Part.onRemoval c x p).engine.expiry = p.engine.expiry ∧ (Part.onRemoval c x p).engine.ranOut = p.engine.ranOut ∧
      (Part.onRemoval c x p).period = p.period ∧ (Part.onRemoval c x p).transfer.inbox = p.transfer.inbox ∧
      (Part.onRemoval c x p).transfer.serving = p.transfer.serving ∧ (Part.onRemoval c x p).fresh = p.fresh ∧
      (∀ l', (Part.onRemoval c x p).lock l' = p.lock l') ∧ (∀ g', (Part.onRemoval c x p).page g' = p.page g') ∧
      (∀ a', (Part.onRemoval c x p).agent a' = p.agent a') ∧ (Part.onRemoval c x p).clearing = p.clearing := by
  unfold Part.onRemoval; dsimp only; split <;> simp

@[simp] theorem Part.onGuard_keeps (c : ChanId) (x : Bool) (p : Part) :
    (Part.onGuard c x p).straps = p.straps ∧ (Part.onGuard c x p).port = p.port ∧
      (Part.onGuard c x p).table.agents = p.table.agents ∧ (Part.onGuard c x p).table.purges = p.table.purges ∧
      (Part.onGuard c x p).table.evictions = p.table.evictions ∧ (Part.onGuard c x p).table.serving = p.table.serving ∧
      (Part.onGuard c x p).table.clear = p.table.clear ∧ (Part.onGuard c x p).engine.locks = p.engine.locks ∧
      (Part.onGuard c x p).engine.lastServed = p.engine.lastServed ∧
      (Part.onGuard c x p).engine.expiry = p.engine.expiry ∧ (Part.onGuard c x p).engine.ranOut = p.engine.ranOut ∧
      (Part.onGuard c x p).period = p.period ∧ (Part.onGuard c x p).transfer.inbox = p.transfer.inbox ∧
      (Part.onGuard c x p).transfer.serving = p.transfer.serving ∧ (∀ l', (Part.onGuard c x p).lock l' = p.lock l') ∧
      (∀ g', (Part.onGuard c x p).page g' = p.page g') ∧ (∀ a', (Part.onGuard c x p).agent a' = p.agent a') ∧
      (Part.onGuard c x p).clearing = p.clearing := by
  unfold Part.onGuard; dsimp only; split <;> simp

@[simp] theorem Part.onRelease_keeps (c : ChanId) (p : Part) :
    (Part.onRelease c p).straps = p.straps ∧ (Part.onRelease c p).port = p.port ∧
      (Part.onRelease c p).table.agents = p.table.agents ∧ (Part.onRelease c p).table.purges = p.table.purges ∧
      (Part.onRelease c p).table.evictions = p.table.evictions ∧ (Part.onRelease c p).table.serving = p.table.serving ∧
      (Part.onRelease c p).table.clear = p.table.clear ∧ (Part.onRelease c p).engine.locks = p.engine.locks ∧
      (Part.onRelease c p).engine.lastServed = p.engine.lastServed ∧
      (Part.onRelease c p).engine.expiry = p.engine.expiry ∧ (Part.onRelease c p).engine.ranOut = p.engine.ranOut ∧
      (Part.onRelease c p).period = p.period ∧ (Part.onRelease c p).transfer.inbox = p.transfer.inbox ∧
      (Part.onRelease c p).transfer.serving = p.transfer.serving ∧ (Part.onRelease c p).fresh = p.fresh ∧
      (∀ l', (Part.onRelease c p).lock l' = p.lock l') ∧ (∀ g', (Part.onRelease c p).page g' = p.page g') ∧
      (∀ a', (Part.onRelease c p).agent a' = p.agent a') ∧ (Part.onRelease c p).clearing = p.clearing := by
  unfold Part.onRelease; split <;> simp

@[simp] theorem Part.onBurst_keeps (c : ChanId) (r : BurstResult) (p : Part) :
    (Part.onBurst c r p).straps = p.straps ∧ (Part.onBurst c r p).port = p.port ∧
      (Part.onBurst c r p).table.agents = p.table.agents ∧ (Part.onBurst c r p).table.purges = p.table.purges ∧
      (Part.onBurst c r p).table.evictions = p.table.evictions ∧ (Part.onBurst c r p).table.serving = p.table.serving ∧
      (Part.onBurst c r p).table.clear = p.table.clear ∧ (Part.onBurst c r p).engine.locks = p.engine.locks ∧
      (Part.onBurst c r p).engine.lastServed = p.engine.lastServed ∧
      (Part.onBurst c r p).engine.expiry = p.engine.expiry ∧ (Part.onBurst c r p).engine.ranOut = p.engine.ranOut ∧
      (Part.onBurst c r p).period = p.period ∧ (Part.onBurst c r p).transfer.inbox = p.transfer.inbox ∧
      (Part.onBurst c r p).transfer.serving = p.transfer.serving ∧ (Part.onBurst c r p).fresh = p.fresh ∧
      (∀ l', (Part.onBurst c r p).lock l' = p.lock l') ∧ (∀ g', (Part.onBurst c r p).page g' = p.page g') ∧
      (∀ a', (Part.onBurst c r p).agent a' = p.agent a') ∧ (Part.onBurst c r p).clearing = p.clearing := by
  unfold Part.onBurst; dsimp only; (repeat' split) <;> simp

@[simp] theorem Part.onWithdrawAll_keeps (a : AgentId) (p : Part) :
    (Part.onWithdrawAll a p).straps = p.straps ∧ (Part.onWithdrawAll a p).port = p.port ∧
      (Part.onWithdrawAll a p).table.agents = p.table.agents ∧ (Part.onWithdrawAll a p).table.purges = p.table.purges ∧
      (Part.onWithdrawAll a p).table.evictions = p.table.evictions ∧
      (Part.onWithdrawAll a p).table.serving = p.table.serving ∧ (Part.onWithdrawAll a p).table.clear = p.table.clear ∧
      (Part.onWithdrawAll a p).engine.locks = p.engine.locks ∧
      (Part.onWithdrawAll a p).engine.lastServed = p.engine.lastServed ∧
      (Part.onWithdrawAll a p).engine.expiry = p.engine.expiry ∧
      (Part.onWithdrawAll a p).engine.ranOut = p.engine.ranOut ∧ (Part.onWithdrawAll a p).period = p.period ∧
      (Part.onWithdrawAll a p).transfer.inbox = p.transfer.inbox ∧
      (Part.onWithdrawAll a p).transfer.serving = p.transfer.serving ∧ (Part.onWithdrawAll a p).fresh = p.fresh ∧
      (∀ l', (Part.onWithdrawAll a p).lock l' = p.lock l') ∧ (∀ g', (Part.onWithdrawAll a p).page g' = p.page g') ∧
      (∀ a', (Part.onWithdrawAll a p).agent a' = p.agent a') ∧ (Part.onWithdrawAll a p).clearing = p.clearing := by
  simp [Part.onWithdrawAll]

@[simp] theorem Part.clearTransfer_keeps (p : Part) :
    p.clearTransfer.straps = p.straps ∧ p.clearTransfer.port = p.port ∧
      p.clearTransfer.table.agents = p.table.agents ∧ p.clearTransfer.table.purges = p.table.purges ∧
      p.clearTransfer.table.evictions = p.table.evictions ∧ p.clearTransfer.table.serving = p.table.serving ∧
      p.clearTransfer.engine = p.engine ∧ p.clearTransfer.period = p.period ∧
      p.clearTransfer.transfer.inbox = p.transfer.inbox ∧ p.clearTransfer.transfer.serving = p.transfer.serving ∧
      p.clearTransfer.master = p.master ∧ p.clearTransfer.fresh = p.fresh ∧
      (∀ l', p.clearTransfer.lock l' = p.lock l') ∧ (∀ g', p.clearTransfer.page g' = p.page g') ∧
      (∀ a', p.clearTransfer.agent a' = p.agent a') := by
  unfold Part.clearTransfer; dsimp only; (repeat' split) <;> simp

@[simp] theorem Part.commandWrite_keeps (p : Part) (g : PageId) (v : Word) :
    (p.commandWrite g v).straps = p.straps ∧ (p.commandWrite g v).port.copies = p.port.copies ∧
      (p.commandWrite g v).table = p.table ∧ (p.commandWrite g v).engine = p.engine ∧
      (p.commandWrite g v).period = p.period ∧ (p.commandWrite g v).notices = p.notices ∧
      (p.commandWrite g v).transfer = p.transfer ∧ (p.commandWrite g v).master = p.master ∧
      (p.commandWrite g v).fresh = p.fresh ∧ (∀ l', (p.commandWrite g v).lock l' = p.lock l') ∧
      (∀ g', (p.commandWrite g v).queue g' = p.queue g') ∧ (∀ a', (p.commandWrite g v).agent a' = p.agent a') ∧
      (∀ c', (p.commandWrite g v).chan c' = p.chan c') ∧ (p.commandWrite g v).clearing = p.clearing := by
  unfold Part.commandWrite; dsimp only; (repeat' split) <;> simp

@[simp] theorem Part.writeRegister_keeps (p : Part) (g : PageId) (r : Reg) (v : Word) :
    (p.writeRegister g r v).straps = p.straps ∧ (p.writeRegister g r v).port.copies = p.port.copies ∧
      (p.writeRegister g r v).table = p.table ∧ (p.writeRegister g r v).engine = p.engine ∧
      (p.writeRegister g r v).period = p.period ∧ (p.writeRegister g r v).transfer = p.transfer ∧
      (p.writeRegister g r v).master = p.master ∧ (p.writeRegister g r v).fresh = p.fresh ∧
      (∀ l', (p.writeRegister g r v).lock l' = p.lock l') ∧ (∀ a', (p.writeRegister g r v).agent a' = p.agent a') ∧
      (∀ c', (p.writeRegister g r v).chan c' = p.chan c') ∧ (p.writeRegister g r v).clearing = p.clearing := by
  unfold Part.writeRegister; dsimp only; (repeat' split) <;> simp

@[simp] theorem Part.writeFrom_keeps (p : Part) (g : PageId) (sl : Slot) (r : Reg) (v : Word) :
    (p.writeFrom g sl r v).straps = p.straps ∧ (p.writeFrom g sl r v).port.copies = p.port.copies ∧
      (p.writeFrom g sl r v).table = p.table ∧ (p.writeFrom g sl r v).engine = p.engine ∧
      (p.writeFrom g sl r v).period = p.period ∧ (p.writeFrom g sl r v).transfer = p.transfer ∧
      (p.writeFrom g sl r v).master = p.master ∧ (p.writeFrom g sl r v).fresh = p.fresh ∧
      (∀ l', (p.writeFrom g sl r v).lock l' = p.lock l') ∧ (∀ a', (p.writeFrom g sl r v).agent a' = p.agent a') ∧
      (∀ c', (p.writeFrom g sl r v).chan c' = p.chan c') ∧ (p.writeFrom g sl r v).clearing = p.clearing := by
  unfold Part.writeFrom; split <;> simp

@[simp] theorem Part.startFrom_keeps (p : Part) (g : PageId) (sl : Slot) (h : BitVec 24) (c : Cmd) :
    (p.startFrom g sl h c).straps = p.straps ∧ (p.startFrom g sl h c).port.copies = p.port.copies ∧
      (p.startFrom g sl h c).table = p.table ∧ (p.startFrom g sl h c).engine = p.engine ∧
      (p.startFrom g sl h c).period = p.period ∧ (p.startFrom g sl h c).transfer = p.transfer ∧
      (p.startFrom g sl h c).master = p.master ∧ (p.startFrom g sl h c).fresh = p.fresh ∧
      (∀ l', (p.startFrom g sl h c).lock l' = p.lock l') ∧ (∀ a', (p.startFrom g sl h c).agent a' = p.agent a') ∧
      (∀ c', (p.startFrom g sl h c).chan c' = p.chan c') ∧ (p.startFrom g sl h c).clearing = p.clearing := by
  simp [Part.startFrom]

@[simp] theorem Part.access_keeps (p : Part) (acc : Access) :
    (p.access acc).straps = p.straps ∧ (p.access acc).port.copies = p.port.copies ∧ (p.access acc).table = p.table ∧
      (p.access acc).engine = p.engine ∧ (p.access acc).period = p.period ∧ (p.access acc).transfer = p.transfer ∧
      (p.access acc).master = p.master ∧ (p.access acc).fresh = p.fresh ∧ (∀ l', (p.access acc).lock l' = p.lock l') ∧
      (∀ a', (p.access acc).agent a' = p.agent a') ∧ (∀ c', (p.access acc).chan c' = p.chan c') ∧
      (p.access acc).clearing = p.clearing := by
  unfold Part.access; (repeat' split) <;> simp

end Sys2Proof.Machine
end

