-- ==== Sys2Proof/Laws/Effects.lean ====
section
/-! SUPPORT. What the shared operations of the coordinator set: the notice unit's, the lists', the latch's, the channels'. -/

namespace Sys2Proof.Machine

/-! ### The notice unit (R84 to R90) -/

@[simp] theorem Part.queue_onQueue (p : Part) (g : PageId) (f : Queue → Queue) (g' : PageId) :
    (p.onQueue g f).queue g' = if g' = g then f (p.queue g) else p.queue g' := by simp [Part.onQueue]

@[simp] theorem Part.queue_reserve (p : Part) (g : PageId) (k : Nat) (g' : PageId) :
    (p.reserve g k).queue g' = if g' = g then Queue.reserve k (p.queue g) else p.queue g' := by simp [Part.reserve]

@[simp] theorem Part.queue_giveBack (p : Part) (g : PageId) (k : Nat) (g' : PageId) :
    (p.giveBack g k).queue g' = if g' = g then Queue.giveBack k (p.queue g) else p.queue g' := by simp [Part.giveBack]

@[simp] theorem Part.queue_notifySupervisor (p : Part) (n : Notice) (g : PageId) :
    (p.notifySupervisor n).queue g = if g = .supervisor then Queue.deliver n 1 (p.queue .supervisor) else p.queue g := by
  simp [Part.notifySupervisor]

/-- A notice handed over for an agent changes that agent's queue alone: it is delivered, or discarded with its places. -/
@[simp] theorem Part.queue_notify (p : Part) (a : AgentId) (n : Notice) (k : Nat) (g : PageId) :
    (p.notify a n k).queue g =
      if g = .agent a then
        if p.discards a then Queue.giveBack k (p.queue (.agent a)) else Queue.deliver n k (p.queue (.agent a))
      else p.queue g := by
  unfold Part.notify
  split <;> simp [*]

@[simp] theorem Queue.reserve_notices (k : Nat) (q : Queue) : (Queue.reserve k q).notices = q.notices := rfl

@[simp] theorem Queue.reserve_reserved (k : Nat) (q : Queue) : (Queue.reserve k q).reserved = q.reserved + k := rfl

@[simp] theorem Queue.giveBack_notices (k : Nat) (q : Queue) : (Queue.giveBack k q).notices = q.notices := rfl

@[simp] theorem Queue.giveBack_reserved (k : Nat) (q : Queue) : (Queue.giveBack k q).reserved = q.reserved - k := rfl

@[simp] theorem Queue.deliver_notices (n : Notice) (k : Nat) (q : Queue) : (Queue.deliver n k q).notices = q.notices ++ [n] :=
  rfl

@[simp] theorem Queue.deliver_reserved (n : Notice) (k : Nat) (q : Queue) : (Queue.deliver n k q).reserved = q.reserved - k :=
  rfl

/-! ### Lists, latches, channels, claims -/

@[simp] theorem Part.inbox_toTransfer (p : Part) (i : TransferItem) :
    (p.toTransfer i).transfer.inbox = p.transfer.inbox ++ [i] := rfl

@[simp] theorem Part.reports_toTable (p : Part) (r : Report) : (p.toTable r).table.reports = p.table.reports ++ [r] := rfl

@[simp] theorem Part.page_present (p : Part) (g : PageId) (ans : Answer) (g' : PageId) :
    (p.present g ans).page g' = if g' = g then (p.page g).present ans else p.page g' := by simp [Part.present]

@[simp] theorem Part.page_setStage (p : Part) (g : PageId) (st : Stage) (g' : PageId) :
    (p.setStage g st).page g' =
      if g' = g then { p.page g with inFlight := (p.page g).inFlight.map fun c => { c with stage := st } }
      else p.page g' := by
  simp [Part.setStage]

@[simp] theorem Part.chan_onChan (p : Part) (c : ChanId) (f : Channel → Channel) (d : ChanId) :
    (p.onChan c f).chan d = if d = c then f (p.chan c) else p.chan d := by simp [Part.onChan]

@[simp] theorem Part.chan_raiseClaim (p : Part) (c : ChanId) (cl : ChanClaim) (f : InFlight) (d : ChanId) :
    (p.raiseClaim c cl f).chan d = if d = c then { p.chan c with inFlight := f } else p.chan d := by
  simp [Part.raiseClaim]

@[simp] theorem Part.claims_raiseClaim (p : Part) (c : ChanId) (cl : ChanClaim) (f : InFlight) :
    (p.raiseClaim c cl f).engine.claims = p.engine.claims.set c (some cl) := by simp [Part.raiseClaim]

@[simp] theorem Part.chan_handBurst (p : Part) (c : ChanId) (d : Descriptor) (e : ChanId) :
    (p.handBurst c d).chan e = if e = c then { p.chan c with inFlight := .burst } else p.chan e := by
  simp [Part.handBurst]

@[simp] theorem Part.master_handBurst (p : Part) (c : ChanId) (d : Descriptor) :
    (p.handBurst c d).master = p.master.offer c d.nextBurst := by simp [Part.handBurst]

@[simp] theorem Part.chan_pauseNow (p : Part) (c d : ChanId) :
    (p.pauseNow c).chan d =
      if d = c then { p.chan c with state := .paused, pausePending := false, inFlight := .nothing } else p.chan d := by
  simp [Part.pauseNow]

@[simp] theorem Part.queue_pauseNow (p : Part) (c : ChanId) (g : PageId) :
    (p.pauseNow c).queue g =
      if g = .supervisor then Queue.deliver (.channelPaused c) 1 (p.queue .supervisor) else p.queue g := by
  simp [Part.pauseNow]

@[simp] theorem Part.lock_drain (p : Part) (l l' : LockId) :
    (p.drain l).lock l' = if l' = l then { p.lock l with state := .disabled } else p.lock l' := by simp [Part.drain]

@[simp] theorem Part.queue_drain (p : Part) (l : LockId) (g : PageId) :
    (p.drain l).queue g =
      if g = .supervisor then Queue.deliver (.lockClosed l) 1 (p.queue .supervisor) else p.queue g := by
  simp [Part.drain]

/-- The fields of a page that presenting a result leaves. -/
@[simp] theorem Page.present_fields (pg : Page) (ans : Answer) :
    (pg.present ans).inFlight = none ∧ (pg.present ans).done = true ∧ (pg.present ans).code = ans.code ∧
      (pg.present ans).result0 = ans.result0 ∧ (pg.present ans).result1 = ans.result1 ∧
      (pg.present ans).args = pg.args ∧ (pg.present ans).command = pg.command ∧
      (pg.present ans).collide = pg.collide ∧ (pg.present ans).noticeEnable = pg.noticeEnable ∧
      (pg.present ans).doneEnable = pg.doneEnable := by simp [Page.present]

/-! ### Frames -/

/-- A frame that lets nothing change is equality of the lock entries, pages, queues and every other piece. -/
theorem Frame.refl (p : Part) (xs : List Piece) : Frame p p xs := by
  intro x _
  cases x <;> simp [SameAt]

theorem Frame.weaken {p q : Part} {xs ys : List Piece} (h : Frame p q xs) (hs : ∀ x ∈ xs, x ∈ ys) : Frame p q ys :=
  fun x hx => h x fun hm => hx (hs x hm)

theorem SameAt.trans {p q r : Part} {x : Piece} (h : SameAt p q x) (k : SameAt q r x) : SameAt p r x := by
  cases x <;> simp_all [SameAt]

theorem Frame.trans {p q r : Part} {xs : List Piece} (h : Frame p q xs) (k : Frame q r xs) : Frame p r xs :=
  fun x hx => (h x hx).trans (k x hx)

/-- The pieces make up the whole of the state. -/
theorem Frame.total {p q : Part} (h : Frame p q []) : q = p := by
  have hs (x : Piece) : SameAt p q x := h x (by simp)
  have e1 := hs .straps
  have e2 : q.port = p.port := by
    have a1 : q.port.agents = p.port.agents := ext_pick fun a => hs (.page (.agent a))
    have a2 : q.port.supervisor = p.port.supervisor := hs (.page .supervisor)
    have a3 : q.port.copies = p.port.copies := ext_pick fun a => (hs (.agent a)).2
    rcases hp : p.port with ⟨_, _, _⟩
    rcases hq : q.port with ⟨_, _, _⟩
    simp_all
  have e3 : q.table = p.table := by
    have a1 : q.table.agents = p.table.agents := ext_pick fun a => (hs (.agent a)).1
    have a2 := hs .purges
    have a3 := hs .evictions
    have a4 := hs .reports
    have a5 := hs .tableServing
    have a6 := hs .clear
    rcases hp : p.table with ⟨_, _, _, _, _, _⟩
    rcases hq : q.table with ⟨_, _, _, _, _, _⟩
    simp_all [SameAt]
  have e4 : q.engine = p.engine := by
    have a1 : q.engine.locks = p.engine.locks := ext_pick fun l => hs (.lock l)
    have a2 := hs .lastServed
    have a3 := hs .expiry
    have a4 := hs .ranOut
    have a5 : q.engine.claims = p.engine.claims := by
      have b0 : q.engine.claims.c0 = p.engine.claims.c0 := hs (.claim .c0)
      have b1 : q.engine.claims.c1 = p.engine.claims.c1 := hs (.claim .c1)
      rcases hp : p.engine.claims with ⟨_, _⟩
      rcases hq : q.engine.claims with ⟨_, _⟩
      simp_all
    rcases hp : p.engine with ⟨_, _, _, _, _⟩
    rcases hq : q.engine with ⟨_, _, _, _, _⟩
    simp_all [SameAt]
  have e5 : q.notices = p.notices := by
    have a1 : q.notices.agents = p.notices.agents := ext_pick fun a => hs (.queue (.agent a))
    have a2 : q.notices.supervisor = p.notices.supervisor := hs (.queue .supervisor)
    rcases hp : p.notices with ⟨_, _⟩
    rcases hq : q.notices with ⟨_, _⟩
    simp_all
  have e6 : q.transfer = p.transfer := by
    have a1 : q.transfer.chans = p.transfer.chans := by
      have b0 : q.transfer.chans.c0 = p.transfer.chans.c0 := hs (.chan .c0)
      have b1 : q.transfer.chans.c1 = p.transfer.chans.c1 := hs (.chan .c1)
      rcases hp : p.transfer.chans with ⟨_, _⟩
      rcases hq : q.transfer.chans with ⟨_, _⟩
      simp_all
    have a2 := hs .inbox
    have a3 := hs .transferServing
    have a4 := hs .withdrawing
    rcases hp : p.transfer with ⟨_, _, _, _⟩
    rcases hq : q.transfer with ⟨_, _, _, _⟩
    simp_all [SameAt]
  have e7 := hs .period
  have e8 := hs .master
  have e9 := hs .fresh
  rcases p with ⟨_, _, _, _, _, _, _, _, _⟩
  rcases q with ⟨_, _, _, _, _, _, _, _, _⟩
  simp_all [SameAt]

/-- Evictions go on exactly while no CLEAR is in flight whose channels' rest the agent table has taken (R36, R144). -/
theorem Part.evictionsGoOn_iff (p : Part) :
    p.evictionsGoOn = true ↔ p.table.clear ∈ [none, some .stopSent, some .stopping, some .atRest] := by
  unfold Part.evictionsGoOn
  split <;> simp_all

/-- A report of an eviction's stage changes nothing once the channels' rest has been taken (R145, R147). -/
theorem Part.sendWithdrawAll_of_rest (a : AgentId) (p : Part) (h : p.evictionsGoOn = false) : p.sendWithdrawAll a = p := by
  simp [Part.sendWithdrawAll, h]

theorem Part.completeEviction_of_rest (a : AgentId) (p : Part) (h : p.evictionsGoOn = false) :
    p.completeEviction a = p := by
  simp [Part.completeEviction, h]

end Sys2Proof.Machine
end

