-- ==== Sys2Proof/Laws/Grants.lean ====
section
/-! SUPPORT. What the lock engine's operations on a lock do: tokens, the grant pass, and the reports of grants, of revoked
holdings and of cancelled waits. -/

namespace Sys2Proof.Machine

/-! ### Tokens (R15) -/

theorem nextGeneration_ne_zero (g : Word) : nextGeneration g ≠ 0 := by
  unfold nextGeneration
  split
  · decide
  · rename_i h
    intro h0
    apply h
    have : g = -1 := eq_neg_of_add_eq_zero_left h0
    rw [this]; decide

theorem advance_ne_zero (fuel : Nat) (g : Word) (held : List Word) : advance fuel g held ≠ 0 := by
  induction fuel generalizing g with
  | zero => exact nextGeneration_ne_zero g
  | succ n ih => unfold advance; split; exacts [ih _, nextGeneration_ne_zero g]

theorem LockEntry.nextToken_ne_zero (e : LockEntry) : e.nextToken ≠ 0 := advance_ne_zero _ _ _

/-- The advance reaches some number of steps of the generation, and every value before the last is a token held. -/
theorem advance_steps (fuel : Nat) (g : Word) (held : List Word) :
    ∃ n ≤ fuel, advance fuel g held = nextGeneration^[n + 1] g ∧ (∀ k < n, nextGeneration^[k + 1] g ∈ held) ∧
      (n < fuel → advance fuel g held ∉ held) := by
  induction fuel generalizing g with
  | zero => exact ⟨0, le_refl _, rfl, by simp, by simp⟩
  | succ f ih =>
    unfold advance
    split
    · rename_i hm
      obtain ⟨n, hn, he, hk, hf⟩ := ih (nextGeneration g)
      refine ⟨n + 1, by omega, by rw [he]; rfl, ?_, fun h => hf (by omega)⟩
      intro k hk2
      cases k with
      | zero => exact hm
      | succ k => exact hk k (by omega)
    · rename_i hm
      exact ⟨0, by omega, rfl, by simp, fun _ => hm⟩

/-- A generation goes round the nonzero words: `k + 1` steps from `g`. -/
theorem nextGeneration_iterate (g : Word) (k : Nat) :
    (nextGeneration^[k + 1] g).toNat = (g.toNat + k) % (2 ^ 32 - 1) + 1 := by
  have hstep (x : Word) : (nextGeneration x).toNat = x.toNat % (2 ^ 32 - 1) + 1 := by
    have hx : x.toNat < 2 ^ 32 := x.isLt
    unfold nextGeneration
    split
    · rename_i h; rw [h]; decide
    · rename_i h
      have hne : x.toNat ≠ 2 ^ 32 - 1 := fun he => h (BitVec.eq_of_toNat_eq (by rw [he]; decide))
      rw [BitVec.toNat_add]
      have h1 : (1 : Word).toNat = 1 := rfl
      rw [h1, Nat.mod_eq_of_lt (by omega), Nat.mod_eq_of_lt (by omega)]
  induction k with
  | zero => simpa using hstep g
  | succ n ih =>
    rw [Function.iterate_succ_apply', hstep, ih]
    omega

theorem nextGeneration_iterate_inj (g : Word) (i j : Nat) (hi : i < 2 ^ 32 - 1) (hj : j < 2 ^ 32 - 1)
    (h : nextGeneration^[i + 1] g = nextGeneration^[j + 1] g) : i = j := by
  have h2 := congrArg BitVec.toNat h
  rw [nextGeneration_iterate, nextGeneration_iterate] at h2
  omega

/-- A new token is not the token of a holding on the list, for a list of any length that the words can tell apart (R15). -/
theorem LockEntry.nextToken_fresh (e : LockEntry) (hl : e.holders.length < 2 ^ 32 - 1) :
    ∀ h ∈ e.holders, h.token ≠ e.nextToken := by
  intro h hh heq
  obtain ⟨n, hn, he, hk, hf⟩ := advance_steps e.holders.length e.generation (e.holders.map Holding.token)
  have hmem : e.nextToken ∈ e.holders.map Holding.token := by rw [List.mem_map]; exact ⟨h, hh, heq⟩
  have hn2 : n = e.holders.length := by
    by_contra hne
    exact hf (by omega) hmem
  have hmaps : ∀ k ∈ Finset.range (n + 1), nextGeneration^[k + 1] e.generation ∈ (e.holders.map Holding.token).toFinset := by
    intro k hk2
    rw [List.mem_toFinset]
    rcases Nat.lt_or_ge k n with hlt | hge
    · exact hk k hlt
    · have : k = n := by have := Finset.mem_range.1 hk2; omega
      rw [this, ← he]; exact hmem
  have hc : (e.holders.map Holding.token).toFinset.card < (Finset.range (n + 1)).card := by
    have := List.toFinset_card_le (e.holders.map Holding.token)
    simp only [List.length_map, Finset.card_range] at *
    omega
  obtain ⟨i, hi, j, hj, hij, heq2⟩ := Finset.exists_ne_map_eq_of_card_lt_of_maps_to hc hmaps
  have := Finset.mem_range.1 hi
  have := Finset.mem_range.1 hj
  exact hij (nextGeneration_iterate_inj _ i j (by omega) (by omega) heq2)

/-! ### Leases (R68) -/

/-- The lease a grant reports: the effective lease, 0 on a lock without leases. -/
@[simp] theorem LockEntry.leaseGiven_getD (e : LockEntry) (requested : Ticks) :
    (e.leaseGiven requested).getD 0 = e.effectiveLease requested := by
  unfold LockEntry.leaseGiven
  split
  · rename_i h; simp [LockEntry.effectiveLease, h]
  · rfl

/-! ### Entries and the grant pass (R16, R17) -/

/-- What a grant pass keeps of a lock, and what it makes of its lists. -/
theorem LockEntry.passOver_spec (ws : List Waiting) (e : LockEntry) :
    (e.passOver ws).1.state = e.state ∧ (e.passOver ws).1.cls = e.cls ∧
      (e.passOver ws).1.defaultLease = e.defaultLease ∧ (e.passOver ws).1.maxLease = e.maxLease ∧
      (e.passOver ws).1.queueLimit = e.queueLimit ∧ (e.passOver ws).1.mask = e.mask ∧
      (e.passOver ws).1.waiters = ws.drop (e.passOver ws).2.length ∧
      (e.passOver ws).1.holders = e.holders ++ (e.passOver ws).2 ∧
      ∀ w ∈ (e.passOver ws).1.waiters.head?, (e.passOver ws).1.fits w.mode = false := by
  induction ws generalizing e with
  | nil => simp [LockEntry.passOver]
  | cons w rest ih =>
    unfold LockEntry.passOver
    split
    · obtain ⟨h1, h2, h3, h4, h5, h6, h7, h8, h9⟩ := ih (e.withHolding (e.newHolding w.party w.owner w.mode w.requested))
      exact ⟨h1, h2, h3, h4, h5, h6, h7.trans (by simp), h8.trans (by simp [LockEntry.withHolding]), h9⟩
    · rename_i hf
      refine ⟨rfl, rfl, rfl, rfl, rfl, rfl, rfl, by simp, ?_⟩
      intro w' hw'
      simp only [List.head?_cons, Option.mem_def, Option.some.injEq] at hw'
      subst hw'
      revert hf
      cases w.mode <;> simp [LockEntry.fits, LockEntry.holdingMode]

@[simp] theorem LockEntry.grantPass_keeps (e : LockEntry) :
    e.grantPass.1.state = e.state ∧ e.grantPass.1.cls = e.cls ∧ e.grantPass.1.defaultLease = e.defaultLease ∧
      e.grantPass.1.maxLease = e.maxLease ∧ e.grantPass.1.queueLimit = e.queueLimit ∧ e.grantPass.1.mask = e.mask := by
  unfold LockEntry.grantPass
  split
  · obtain ⟨h1, h2, h3, h4, h5, h6, _⟩ := e.passOver_spec e.waiters
    exact ⟨h1, h2, h3, h4, h5, h6⟩
  · simp

/-- The grants are taken from the head of the waiter list and stand at the tail of the holder list. -/
theorem LockEntry.grantPass_lists (e : LockEntry) :
    e.grantPass.1.waiters = e.waiters.drop e.grantPass.2.length ∧ e.grantPass.1.holders = e.holders ++ e.grantPass.2 := by
  unfold LockEntry.grantPass
  split
  · obtain ⟨_, _, _, _, _, _, h7, h8, _⟩ := e.passOver_spec e.waiters
    exact ⟨h7, h8⟩
  · simp

/-- After a grant pass the head waiter of an OPEN lock does not fit. -/
theorem LockEntry.grantPass_settled (e : LockEntry) (ho : e.state = .opened) :
    ∀ w ∈ e.grantPass.1.waiters.head?, e.grantPass.1.fits w.mode = false := by
  unfold LockEntry.grantPass
  simp only [ho, if_true]
  exact (e.passOver_spec e.waiters).2.2.2.2.2.2.2.2

theorem LockEntry.grantPass_of_not_opened (e : LockEntry) (h : e.state ≠ .opened) : e.grantPass = (e, []) := by
  simp [LockEntry.grantPass, h]

theorem LockEntry.grantPass_of_no_waiters (e : LockEntry) (h : e.waiters = []) : e.grantPass = (e, []) := by
  unfold LockEntry.grantPass
  split
  · rw [h]; simp only [LockEntry.passOver]; rw [← h]
  · rfl

theorem LockEntry.passOver_forgets (ws xs : List Waiting) (e : LockEntry) :
    ({ e with waiters := xs } : LockEntry).passOver ws = e.passOver ws := by
  induction ws generalizing e with
  | nil => rfl
  | cons w rest ih =>
    simp only [LockEntry.passOver]
    have h1 : ({ e with waiters := xs } : LockEntry).fits w.mode = e.fits w.mode := by cases w.mode <;> rfl
    rw [h1]
    split
    · have h2 : ({ e with waiters := xs } : LockEntry).newHolding w.party w.owner w.mode w.requested =
        e.newHolding w.party w.owner w.mode w.requested := rfl
      rw [h2]
      have h3 (h : Holding) : ({ e with waiters := xs } : LockEntry).withHolding h =
        { e.withHolding h with waiters := xs } := rfl
      rw [h3, ih]
    · rfl

/-- One step of the grant pass on an OPEN lock with a waiter. -/
theorem LockEntry.grantPass_cons (e : LockEntry) (w : Waiting) (rest : List Waiting) (ho : e.state = .opened)
    (hw : e.waiters = w :: rest) :
    e.grantPass =
      if e.fits w.mode then
        let h := e.newHolding w.party w.owner w.mode w.requested
        let r := ({ e.withHolding h with waiters := rest } : LockEntry).grantPass
        (r.1, h :: r.2)
      else (e, []) := by
  rcases e with ⟨st, c, dl, ml, ql, mk, g, hs, ws⟩
  cases (show st = .opened from ho)
  cases (show ws = w :: rest from hw)
  simp only [LockEntry.grantPass, if_true, LockEntry.passOver, LockEntry.withHolding]
  split
  · have hf (x : LockEntry) := LockEntry.passOver_forgets rest rest x
    simp only [← hf ⟨_, _, _, _, _, _, _, _, w :: rest⟩]
  · rfl

/-! ### Reports -/

@[simp] theorem Part.discards_congr {p q : Part} (h1 : ∀ a, q.agent a = p.agent a) (h2 : q.clearing = p.clearing) (a : AgentId) :
    q.discards a = p.discards a := by simp [Part.discards, h1, h2]

theorem Part.queueAfter_nil (p : Part) (a : AgentId) : p.queueAfter a [] 0 = p.queue (.agent a) := by
  simp [Part.queueAfter]

/-- Handing one notice over, and then others. -/
theorem Part.queueAfter_cons (p q : Part) (a : AgentId) (n : Notice) (ns : List Notice) (k m : Nat)
    (hq : q.queue (.agent a) = if p.discards a then Queue.giveBack k (p.queue (.agent a))
      else Queue.deliver n k (p.queue (.agent a)))
    (hd : q.discards a = p.discards a) :
    q.queueAfter a ns m = p.queueAfter a (n :: ns) (k + m) := by
  unfold Part.queueAfter
  rw [hd, hq]
  cases p.discards a <;> simp [Nat.sub_sub]

theorem Part.queueAfter_skip (p q : Part) (a : AgentId) (ns : List Notice) (m : Nat)
    (hq : q.queue (.agent a) = p.queue (.agent a)) (hd : q.discards a = p.discards a) :
    q.queueAfter a ns m = p.queueAfter a ns m := by
  unfold Part.queueAfter
  rw [hd, hq]

theorem Part.queueAfter_append (p q : Part) (a : AgentId) (ns ms : List Notice) (k m : Nat)
    (hq : q.queue (.agent a) = p.queueAfter a ns k) (hd : q.discards a = p.discards a) :
    q.queueAfter a ms m = p.queueAfter a (ns ++ ms) (k + m) := by
  unfold Part.queueAfter at *
  rw [hd, hq]
  cases p.discards a <;> simp [Nat.sub_sub]

/-- The reports of a pass's grants, taken together. -/
theorem Part.reportGrants_spec (l : LockId) (hs : List Holding) (p : Part) :
    (∀ b, (hs.foldl (Part.reportGrant l) p).queue (.agent b) =
      p.queueAfter b (grantsTo l b hs) (grantsTo l b hs).length) ∧
    (hs.foldl (Part.reportGrant l) p).queue .supervisor = p.queue .supervisor ∧
    (hs.foldl (Part.reportGrant l) p).transfer.inbox = p.transfer.inbox ++ grantReports hs := by
  induction hs generalizing p with
  | nil => simp [grantsTo, grantReports, Part.queueAfter_nil]
  | cons h hs ih =>
    obtain ⟨h1, h2, h3⟩ := ih (Part.reportGrant l p h)
    simp only [List.foldl_cons, h1, h2, h3]
    cases hp : h.party with
    | agent a =>
      refine ⟨?_, by simp [Part.reportGrant, hp], by simp [Part.reportGrant, hp, grantReports]⟩
      intro b
      by_cases hb : a = b
      · subst hb
        have hg : grantsTo l a (h :: hs) =
            .granted l h.token h.mode (h.remaining.getD 0) :: grantsTo l a hs := by simp [grantsTo, hp]
        rw [hg, List.length_cons, Nat.add_comm]
        apply Part.queueAfter_cons
        · simp [Part.reportGrant, hp]
        · exact Part.discards_congr (by simp) (by simp) _
      · have hg : grantsTo l b (h :: hs) = grantsTo l b hs := by simp [grantsTo, hp, hb]
        rw [hg]
        apply Part.queueAfter_skip
        · simp [Part.reportGrant, hp, Ne.symm hb]
        · exact Part.discards_congr (by simp) (by simp) _
    | chan c =>
      refine ⟨?_, by simp [Part.reportGrant, hp], by simp [Part.reportGrant, hp, grantReports]⟩
      intro b
      have hg : grantsTo l b (h :: hs) = grantsTo l b hs := by simp [grantsTo, hp]
      rw [hg]
      apply Part.queueAfter_skip
      · simp [Part.reportGrant, hp]
      · exact Part.discards_congr (by simp) (by simp) _

/-- The reports of revoked holdings, taken together. -/
theorem Part.reportRevokeds_spec (l : LockId) (why : RevokeReason) (hs : List Holding) (p : Part) :
    (∀ b, (hs.foldl (Part.reportRevoked l why) p).queue (.agent b) =
      p.queueAfter b (revokesTo l why b hs) (revokesTo l why b hs).length) ∧
    (hs.foldl (Part.reportRevoked l why) p).queue .supervisor = p.queue .supervisor ∧
    (hs.foldl (Part.reportRevoked l why) p).transfer.inbox = p.transfer.inbox ++
      lossReports (match why with | .leaseExpired => .leaseLost | .broken => .lockBroken) hs := by
  induction hs generalizing p with
  | nil => simp [revokesTo, lossReports, Part.queueAfter_nil]
  | cons h hs ih =>
    obtain ⟨h1, h2, h3⟩ := ih (Part.reportRevoked l why p h)
    simp only [List.foldl_cons, h1, h2, h3]
    cases hp : h.party with
    | agent a =>
      refine ⟨?_, by simp [Part.reportRevoked, hp], by cases why <;> simp [Part.reportRevoked, hp, lossReports]⟩
      intro b
      by_cases hb : a = b
      · subst hb
        have hg : revokesTo l why a (h :: hs) = .revoked l h.token why :: revokesTo l why a hs := by
          simp [revokesTo, hp]
        rw [hg, List.length_cons, Nat.add_comm]
        apply Part.queueAfter_cons
        · simp [Part.reportRevoked, hp]
        · exact Part.discards_congr (by simp) (by simp) _
      · have hg : revokesTo l why b (h :: hs) = revokesTo l why b hs := by simp [revokesTo, hp, hb]
        rw [hg]
        apply Part.queueAfter_skip
        · simp [Part.reportRevoked, hp, Ne.symm hb]
        · exact Part.discards_congr (by simp) (by simp) _
    | chan c =>
      refine ⟨?_, by simp [Part.reportRevoked, hp], by cases why <;> simp [Part.reportRevoked, hp, lossReports]⟩
      intro b
      have hg : revokesTo l why b (h :: hs) = revokesTo l why b hs := by simp [revokesTo, hp]
      rw [hg]
      apply Part.queueAfter_skip
      · simp [Part.reportRevoked, hp]
      · exact Part.discards_congr (by simp) (by simp) _

/-- The reports of cancelled waits, taken together. -/
theorem Part.reportCancelleds_spec (l : LockId) (why : CancelReason) (ws : List Waiting) (p : Part) :
    (∀ b, (ws.foldl (Part.reportCancelled l why) p).queue (.agent b) =
      p.queueAfter b (cancelsTo l why b ws) (2 * (cancelsTo l why b ws).length)) ∧
    (ws.foldl (Part.reportCancelled l why) p).queue .supervisor = p.queue .supervisor ∧
    (ws.foldl (Part.reportCancelled l why) p).transfer.inbox = p.transfer.inbox ++
      waitReports (match why with | .closed => .closed | .broken => .broken) ws := by
  induction ws generalizing p with
  | nil => simp [cancelsTo, waitReports, Part.queueAfter_nil]
  | cons w ws ih =>
    obtain ⟨h1, h2, h3⟩ := ih (Part.reportCancelled l why p w)
    simp only [List.foldl_cons, h1, h2, h3]
    cases hp : w.party with
    | agent a =>
      refine ⟨?_, by simp [Part.reportCancelled, hp], by cases why <;> simp [Part.reportCancelled, hp, waitReports]⟩
      intro b
      by_cases hb : a = b
      · subst hb
        have hg : cancelsTo l why a (w :: ws) = .waitCancelled l why :: cancelsTo l why a ws := by
          simp [cancelsTo, hp]
        rw [hg, List.length_cons, Nat.mul_add, Nat.add_comm]
        apply Part.queueAfter_cons
        · simp [Part.reportCancelled, hp]
        · exact Part.discards_congr (by simp) (by simp) _
      · have hg : cancelsTo l why b (w :: ws) = cancelsTo l why b ws := by simp [cancelsTo, hp, hb]
        rw [hg]
        apply Part.queueAfter_skip
        · simp [Part.reportCancelled, hp, Ne.symm hb]
        · exact Part.discards_congr (by simp) (by simp) _
    | chan c =>
      refine ⟨?_, by simp [Part.reportCancelled, hp], by cases why <;> simp [Part.reportCancelled, hp, waitReports]⟩
      intro b
      have hg : cancelsTo l why b (w :: ws) = cancelsTo l why b ws := by simp [cancelsTo, hp]
      rw [hg]
      apply Part.queueAfter_skip
      · simp [Part.reportCancelled, hp]
      · exact Part.discards_congr (by simp) (by simp) _

/-- A grant pass on lock `l`: the lock becomes what the pass makes of it, and the grants are reported in order. -/
theorem Part.runPass_spec (p : Part) (l : LockId) :
    (∀ l', (p.runPass l).1.lock l' = if l' = l then (p.lock l).grantPass.1 else p.lock l') ∧
    (p.runPass l).2 = (p.lock l).grantPass.2.length ∧
    GrantsReported p (p.runPass l).1 l (p.lock l).grantPass.2 (fun _ => 0) ∧
    (p.runPass l).1.queue .supervisor = p.queue .supervisor := by
  unfold Part.runPass
  obtain ⟨h1, h2, h3⟩ := Part.reportGrants_spec l (p.lock l).grantPass.2 (p.setLock l (p.lock l).grantPass.1)
  refine ⟨by simp, rfl, ⟨?_, by simp [h3]⟩, by simp [h2]⟩
  intro b
  rw [h1]
  simp [Part.queueAfter, Part.discards]

end Sys2Proof.Machine
end

