-- ==== Sys2Proof/Laws/Claims.lean ====
section
/-! SUPPORT. How the blocks take the commands that wait for them: the fields of the arguments, and one equation for each way a
claim or a command is served. -/

namespace Sys2Proof.Machine

/-! ### Argument fields -/

theorem asIndex_of_lt {n v : Nat} (i : Fin n) (h : v = i.val) : asIndex n v = some i := by
  subst h; simp [asIndex]

theorem asIndex_eq_none {n v : Nat} (h : n ≤ v) : asIndex n v = none := by
  simp [asIndex, Nat.not_lt.mpr h]

theorem asIndex_eq_some {n v : Nat} {i : Fin n} (h : asIndex n v = some i) : v = i.val := by
  unfold asIndex at h
  split at h
  · simp only [Option.some.injEq] at h; rw [← h]
  · simp at h

theorem extractLsb'_low8 (w : Word) : (w.extractLsb' 0 8).toNat = w.toNat % 256 := by
  simp [BitVec.extractLsb'_toNat]

theorem lockField_of (w : Word) (l : LockId) (h : w.toNat % 256 = l.val) : lockField w = some l :=
  asIndex_of_lt l (by rw [extractLsb'_low8, h])

theorem lockField_none (w : Word) (h : 64 ≤ w.toNat % 256) : lockField w = none :=
  asIndex_eq_none (by rw [extractLsb'_low8]; exact h)

theorem wholeIndex_of {n : Nat} (w : Word) (i : Fin n) (h : w.toNat = i.val) : wholeIndex n w = some i := asIndex_of_lt i h

theorem wholeIndex_none {n : Nat} (w : Word) (h : n ≤ w.toNat) : wholeIndex n w = none := asIndex_eq_none h

theorem wholeTicks_of (w : Word) (t : Ticks) (h : w.toNat = t.toNat) : wholeTicks w = some t := by
  have ht : t.toNat < 2 ^ 16 := t.isLt
  unfold wholeTicks
  rw [if_pos (by omega)]
  congr 1
  apply BitVec.eq_of_toNat_eq
  rw [BitVec.toNat_setWidth, h, Nat.mod_eq_of_lt ht]

theorem wholeTicks_none (w : Word) (h : 65535 < w.toNat) : wholeTicks w = none := by
  simp [wholeTicks, Nat.not_le.mpr h]

theorem wholeBit_of (w : Word) (b : Bool) (h : w.toNat = b.toNat) : wholeBit w = some b := by
  have hw : w = BitVec.ofNat 32 b.toNat := by rw [← h]; simp
  subst hw; cases b <;> rfl

theorem wholeBit_none (w : Word) (h : 1 < w.toNat) : wholeBit w = none := by
  unfold wholeBit
  rw [if_neg (by rintro rfl; simp at h), if_neg (by rintro rfl; simp at h)]

theorem wholeChan_of (w : Word) (c : ChanId) (h : w.toNat = (chanBit c).toNat) : wholeChan w = some c := by
  have hw : w = BitVec.ofNat 32 (chanBit c).toNat := by rw [← h]; simp
  subst hw; cases c <;> rfl

theorem wholeClass_of (w : Word) (c : LockClass)
    (h : w.toNat = 1 ∧ c = .exclusiveOnly ∨ w.toNat = 2 ∧ c = .sharedAllowed) : wholeClass w = some c := by
  have hw : w = BitVec.ofNat 32 w.toNat := by simp
  rcases h with ⟨h, rfl⟩ | ⟨h, rfl⟩ <;> (rw [hw, h]; rfl)

theorem lockField_iff (w : Word) (l : LockId) : lockField w = some l ↔ w.toNat % 256 = l.val :=
  ⟨fun h => by rw [← extractLsb'_low8]; exact asIndex_eq_some h, lockField_of w l⟩

theorem wholeChan_none (w : Word) (h : 1 < w.toNat) : wholeChan w = none := by
  unfold wholeChan
  rw [if_neg (by rintro rfl; simp at h), if_neg (by rintro rfl; simp at h)]

theorem wholeClass_none (w : Word) (h : w.toNat = 0 ∨ 2 < w.toNat) : wholeClass w = none := by
  unfold wholeClass
  rw [if_neg (by rintro rfl; simp at h), if_neg (by rintro rfl; simp at h)]

/-- The cases in which CONFIGURE_LOCK's arguments are invalid (R5). -/
theorem configureArgs_none (args : Vector Word 6)
    (h : 64 ≤ (pick args 0).toNat ∨ (pick args 1).toNat = 0 ∨ 2 < (pick args 1).toNat ∨ 16 < (pick args 4).toNat ∨
      ((pick args 2).toNat % 65536 = 0 ∧ (pick args 3).toNat % 65536 ≠ 0)) : configureArgs args = none := by
  simp only [configureArgs, Option.bind_eq_bind]
  cases h0 : wholeIndex 64 (pick args 0) with
  | none => rfl
  | some l =>
    cases h1 : wholeClass (pick args 1) with
    | none => rfl
    | some cls =>
      cases h4 : wholeIndex 17 (pick args 4) with
      | none => rfl
      | some q =>
        have e0 : ¬ 64 ≤ (pick args 0).toNat := fun h => by simp [wholeIndex_none _ h] at h0
        have e1 : ¬ ((pick args 1).toNat = 0 ∨ 2 < (pick args 1).toNat) := fun h => by simp [wholeClass_none _ h] at h1
        have e4 : ¬ 17 ≤ (pick args 4).toNat := fun h => by simp [wholeIndex_none _ h] at h4
        have e2 : (pick args 2).toNat % 65536 = 0 ∧ (pick args 3).toNat % 65536 ≠ 0 := by omega
        simp only [Option.bind_some]
        rw [if_pos]
        simpa [← BitVec.toNat_inj, BitVec.extractLsb'_toNat] using e2

theorem wholeTicks_iff (w : Word) (t : Ticks) : wholeTicks w = some t ↔ w.toNat = t.toNat := by
  refine ⟨fun h => ?_, wholeTicks_of w t⟩
  unfold wholeTicks at h
  split at h
  · simp only [Option.some.injEq] at h
    subst h
    simp
    omega
  · simp at h

theorem modeField_iff (f : BitVec 2) (m : Mode) :
    modeField f = some m ↔ (f.toNat = 1 ∧ m = .shared ∨ f.toNat = 2 ∧ m = .exclusive) := by
  cases m <;> revert f <;> decide

theorem LockEntry.admission_of_admits {e : LockEntry} {a : AgentId} {m : Mode} (h : e.admits a m) :
    e.admission a m = none := by
  obtain ⟨h1, h2, h3, h4, h5⟩ := h
  simp [LockEntry.admission, h1, h2, h3, h4, h5]

/-! ### Serving -/

/-- The lock engine serves a lock command of an ATTACHED agent while no CLEAR is in flight. -/
theorem Part.serveAgent_of {p : Part} {a : AgentId} {c : Cmd} {args : Vector Word 6}
    (body : Vector Word 6 → Part → Part × Answer) (hc : p.claims (.agent a) c args)
    (hm : p.mayServe (agentPos a) = true) (hs : p.serves a) :
    p.serveAgent a c body =
      (body args (p.served (agentPos a))).1.present (.agent a) (body args (p.served (agentPos a))).2 := by
  unfold Part.claims at hc
  obtain ⟨h1, h2⟩ := hs
  simp [Part.serveAgent, hc, hm, Part.attachedBar, Part.agentBar, h1, h2]

/-- The lock engine refuses a lock command at the checks of R28 and R37. -/
theorem Part.serveAgent_bar {p : Part} {a : AgentId} {c : Cmd} {args : Vector Word 6} {code : ResultCode}
    (body : Vector Word 6 → Part → Part × Answer) (hc : p.claims (.agent a) c args)
    (hm : p.mayServe (agentPos a) = true) (hb : (p.served (agentPos a)).attachedBar a = some code) :
    p.serveAgent a c body = (p.served (agentPos a)).present (.agent a) (refuse code) := by
  unfold Part.claims at hc
  simp [Part.serveAgent, hc, hm, hb]

/-- The lock engine serves a command of the supervisor page that a CLEAR in flight does not refuse. -/
theorem Part.serveSupervisor_of {p : Part} {c : Cmd} {args : Vector Word 6}
    (body : Vector Word 6 → Part → Part × Answer) (hc : p.claims .supervisor c args)
    (hm : p.mayServe supervisorPos = true) (hs : p.clearing = false ∨ isInspect c = true) :
    p.serveSupervisor c body =
      (body args (p.served supervisorPos).raiseDueStep).1.present .supervisor
        (body args (p.served supervisorPos).raiseDueStep).2 := by
  unfold Part.claims at hc
  have hp : p.port.supervisor.inFlight = some { cmd := c, args, stage := .claimed } := hc
  rcases hs with hs | hs <;> simp [Part.serveSupervisor, hp, hm, hs]

theorem Part.raiseDueStep_of_clear {p : Part} (h : p.clearing = false) : p.raiseDueStep = p := by
  have : p.table.clear = none := by simpa [Part.clearing] using h
  simp [Part.raiseDueStep, this]

theorem Part.writtenArgs_of {p : Part} {g : PageId} {c : Cmd} {args : Vector Word 6} (h : p.waits g c args) :
    p.writtenArgs g c = some args := by
  unfold Part.waits at h
  simp [Part.writtenArgs, h]

/-- A block takes a command of the supervisor page that it carries out whole. -/
theorem Part.takeSupervisor_of {p : Part} {c : Cmd} {args : Vector Word 6} (free : Bool)
    (body : Vector Word 6 → Part → Part × Answer) (hw : p.waits .supervisor c args) (hf : free = true)
    (hc : p.clearing = false) :
    p.takeSupervisor c free body = (body args p).1.present .supervisor (body args p).2 := by
  simp [Part.takeSupervisor, Part.writtenArgs_of hw, hf, hc]

/-- The engine serves a channel's claim. -/
theorem Part.serveChannel_of {p : Part} {c : ChanId} {cl : ChanClaim} {f : Part → Part}
    (body : ChanClaim → Option (Part → Part)) (hc : p.engine.claims.get c = some cl) (hb : body cl = some f)
    (hm : p.mayServe (chanPos c) = true) :
    p.serveChannel c body = f ((p.served (chanPos c)).setClaim c none) := by
  simp [Part.serveChannel, hc, hb, hm]

/-- The agent table takes its oldest report. -/
theorem Part.takeReport_of {p : Part} {r : Report} {rest : List Report} {f : Part → Part}
    (body : Report → Option (Part → Part)) (hr : p.table.reports = r :: rest) (hb : body r = some f)
    (hf : p.tableFree = true) : p.takeReport body = f (p.setReports rest) := by
  simp [Part.takeReport, hr, hb, hf]

theorem Part.reportRest_of_not_stopping {p : Part} (h : p.table.clear ≠ some .stopping) : p.reportRest = p := by
  simp [Part.reportRest, h]

/-- The transfer engine takes the oldest item of its list, while no CLEAR waits for the channels to come to rest. -/
theorem Part.takeItem_of {p : Part} {i : TransferItem} {rest : List TransferItem} {f : Part → Part}
    (body : TransferItem → Option (Part → Part)) (hr : p.transfer.inbox = i :: rest) (hb : body i = some f)
    (hf : p.transferFree = true) : p.takeItem body = (f (p.setInbox rest)).reportRest := by
  simp [Part.takeItem, hr, hb, hf]

end Sys2Proof.Machine
end

