-- ==== Sys2Proof/Laws/Purge.lean ====
section
/-! SUPPORT. What the end of a claim that removes a holding does, and what a purge and CLEAR's lock-table step make of every
lock. -/

namespace Sys2Proof.Machine

/-- A purge of one lock: the entry, the agents' queues, the supervisor's queue, the reports. -/
theorem Part.purgeLock_spec (a : AgentId) (p : Part) (l : LockId) :
    (∀ l', (Part.purgeLock a p l).lock l' = if l' = l then ((p.lock l).afterPurge a).1 else p.lock l') ∧
    (∀ b, (Part.purgeLock a p l).queue (.agent b) =
      p.queueAfter b (grantsTo l b ((p.lock l).afterPurge a).2)
        (placesOf a ((p.lock l).placesHeld a) b + (grantsTo l b ((p.lock l).afterPurge a).2).length)) ∧
    (Part.purgeLock a p l).queue .supervisor =
      (if (p.lock l).state == .closing && ((p.lock l).afterPurge a).1.state == .disabled
        then Queue.deliver (.lockClosed l) 1 (p.queue .supervisor) else p.queue .supervisor) ∧
    (Part.purgeLock a p l).transfer.inbox = p.transfer.inbox ++ grantReports ((p.lock l).afterPurge a).2 := by
  have hrec : (p.lock l).records (fun q => q == .agent a) =
      (p.lock l).holders.countP (fun h => h.party == .agent a) +
        (p.lock l).waiters.countP (fun w => w.party == .agent a) := rfl
  have hdef : Part.purgeLock a p l =
      if (p.lock l).records (fun q => q == .agent a) = 0 then p
      else ((((p.setLock l ((p.lock l).without a)).giveBack (.agent a) ((p.lock l).placesHeld a))).settle l).1 := rfl
  rw [hdef]
  unfold LockEntry.afterPurge
  split
  · rename_i h0
    have hp : (p.lock l).placesHeld a = 0 := by unfold LockEntry.placesHeld; omega
    refine ⟨?_, ?_, ?_, by simp [grantReports]⟩
    · intro l'; split
      · rename_i h; rw [h]
      · rfl
    · intro b; simp [hp, placesOf, grantsTo, Part.queueAfter_nil]
    · cases (p.lock l).state <;> simp
  · have hst : ((p.lock l).without a).state = (p.lock l).state := rfl
    generalize (p.lock l).without a = e1 at *
    generalize hq : (p.setLock l e1).giveBack (.agent a) ((p.lock l).placesHeld a) = q
    have hql : ∀ l', q.lock l' = if l' = l then e1 else p.lock l' := by intro l'; rw [← hq]; simp
    have hqq : ∀ b, q.queue (.agent b) = if b = a then Queue.giveBack ((p.lock l).placesHeld a) (p.queue (.agent a))
        else p.queue (.agent b) := by intro b; rw [← hq]; simp
    have hqs : q.queue .supervisor = p.queue .supervisor := by rw [← hq]; simp
    have hqi : q.transfer.inbox = p.transfer.inbox := by rw [← hq]; simp
    have hqd : ∀ b, q.discards b = p.discards b := by intro b; rw [← hq]; simp [Part.discards]
    have hback : ∀ b ns m, q.queueAfter b ns m = p.queueAfter b ns (placesOf a ((p.lock l).placesHeld a) b + m) := by
      intro b ns m
      unfold Part.queueAfter placesOf
      rw [hqq, hqd]
      by_cases h : b = a
      · subst h; simp [Queue.giveBack, Nat.sub_sub]
      · simp [h]
    have hstep : ∀ b, q.queue (.agent b) = q.queueAfter b [] 0 := fun b => (q.queueAfter_nil b).symm
    unfold Part.settle
    rw [hql l, if_pos rfl, hst]
    cases hs : (p.lock l).state with
    | opened =>
      obtain ⟨r1, r2, ⟨r3, r4⟩, r5⟩ := q.runPass_spec l
      rw [hql l, if_pos rfl] at r1 r3 r4
      refine ⟨?_, ?_, ?_, ?_⟩
      · intro l'; rw [r1, hql]; split <;> simp_all
      · intro b; rw [r3, hback]; simp
      · rw [r5, hqs]; simp
      · rw [r4, hqi]
    | closing =>
      dsimp only
      have hg : ∀ b, grantsTo l b [] = [] := fun _ => rfl
      by_cases hh : e1.holders = []
      · have hd : ∀ l', (q.drain l).lock l' = if l' = l then { e1 with state := .disabled } else p.lock l' := by
          intro l'; rw [Part.lock_drain, hql l, if_pos rfl, hql l']; split <;> rfl
        simp only [hh, List.isEmpty_nil, if_true]
        refine ⟨fun l' => by rw [hd l', hh], ?_, ?_, ?_⟩
        · intro b
          simp only [Part.queue_drain, hg, List.length_nil, Nat.add_zero]
          rw [if_neg (by simp), hstep, hback]; simp
        · simp [hqs]
        · simp [hqi, grantReports]
      · have hb : e1.holders.isEmpty = false := by simpa using hh
        simp only [hb, hh, if_false, Bool.false_eq_true]
        refine ⟨?_, ?_, ?_, ?_⟩
        · intro l'; rw [hql]
        · intro b
          rw [hstep, hback]; rfl
        · rw [hqs, hst, hs]; simp
        · simp [hqi, grantReports]
    | disabled =>
      dsimp only
      refine ⟨fun l' => hql l', ?_, ?_, ?_⟩
      · intro b; rw [hstep, hback]; rfl
      · rw [hqs]; simp
      · simp [hqi, grantReports]

/-- The purge of several locks, each named once. -/
theorem Part.purgeLocks_spec (a : AgentId) (ls : List LockId) (p : Part) (hn : ls.Nodup) :
    (∀ l', (ls.foldl (Part.purgeLock a) p).lock l' = if l' ∈ ls then ((p.lock l').afterPurge a).1 else p.lock l') ∧
    (∀ b, (ls.foldl (Part.purgeLock a) p).queue (.agent b) =
      p.queueAfter b (ls.flatMap fun l => grantsTo l b ((p.lock l).afterPurge a).2)
        (placesOf a (ls.map fun l => (p.lock l).placesHeld a).sum b +
          (ls.flatMap fun l => grantsTo l b ((p.lock l).afterPurge a).2).length)) ∧
    (ls.foldl (Part.purgeLock a) p).queue .supervisor =
      { notices := (p.queue .supervisor).notices ++ (ls.filter fun l =>
          (p.lock l).state == .closing && ((p.lock l).afterPurge a).1.state == .disabled).map .lockClosed,
        reserved := (p.queue .supervisor).reserved - (ls.filter fun l =>
          (p.lock l).state == .closing && ((p.lock l).afterPurge a).1.state == .disabled).length } ∧
    (ls.foldl (Part.purgeLock a) p).transfer.inbox =
      p.transfer.inbox ++ ls.flatMap (fun l => grantReports ((p.lock l).afterPurge a).2) := by
  induction ls generalizing p with
  | nil =>
    refine ⟨by simp, ?_, by simp, by simp⟩
    intro b; simp [placesOf, Part.queueAfter_nil]
  | cons l ls ih =>
    obtain ⟨hl, hls⟩ := List.nodup_cons.1 hn
    obtain ⟨h1, h2, h3, h4⟩ := Part.purgeLock_spec a p l
    obtain ⟨k1, k2, k3, k4⟩ := ih (Part.purgeLock a p l) hls
    have hsame : ∀ l' ∈ ls, (Part.purgeLock a p l).lock l' = p.lock l' := by
      intro l' hm; rw [h1, if_neg]; rintro rfl; exact hl hm
    simp only [List.foldl_cons]
    refine ⟨?_, ?_, ?_, ?_⟩
    · intro l'
      rw [k1]
      by_cases hm : l' ∈ ls
      · simp [hm, hsame l' hm]
      · simp only [hm, if_false, h1, List.mem_cons, or_false]
        split <;> simp_all
    · intro b
      have e1 : (ls.flatMap fun l' => grantsTo l' b (((Part.purgeLock a p l).lock l').afterPurge a).2) =
          ls.flatMap fun l' => grantsTo l' b ((p.lock l').afterPurge a).2 := by
        apply List.flatMap_congr; intro l' hm; rw [hsame l' hm]
      have e2 : (ls.map fun l' => ((Part.purgeLock a p l).lock l').placesHeld a) =
          ls.map fun l' => (p.lock l').placesHeld a := by
        apply List.map_congr_left; intro l' hm; rw [hsame l' hm]
      rw [k2, e1, e2, Part.queueAfter_append p _ b _ _ _ _ (h2 b) (Part.discards_congr (by simp) (by simp) b)]
      congr 1
      simp only [List.flatMap_cons, List.length_append, List.map_cons, List.sum_cons, placesOf]
      split <;> omega
    · have e1 : (ls.filter fun l' => ((Part.purgeLock a p l).lock l').state == .closing &&
          (((Part.purgeLock a p l).lock l').afterPurge a).1.state == .disabled) =
          ls.filter fun l' => (p.lock l').state == .closing && ((p.lock l').afterPurge a).1.state == .disabled := by
        apply List.filter_congr; intro l' hm; rw [hsame l' hm]
      rw [k3, e1, h3, List.filter_cons]
      split <;> simp [Queue.deliver, Nat.sub_sub, Nat.add_comm]
    · have e1 : (ls.flatMap fun l' => grantReports (((Part.purgeLock a p l).lock l').afterPurge a).2) =
          ls.flatMap fun l' => grantReports ((p.lock l').afterPurge a).2 := by
        apply List.flatMap_congr; intro l' hm; rw [hsame l' hm]
      rw [k4, e1, h4]
      simp

theorem allLocks_nodup : allLocks.Nodup := List.nodup_finRange 64

theorem mem_allLocks (l : LockId) : l ∈ allLocks := List.mem_finRange l

/-- CLEAR's lock-table step on one lock (R145). -/
theorem Part.clearLock_spec (p : Part) (l : LockId) :
    (∀ l', (p.clearLock l).lock l' = if l' = l then
      { p.lock l with state := (if (p.lock l).state = .closing then .disabled else (p.lock l).state),
                      holders := [], waiters := [] } else p.lock l') ∧
    (∀ b, (p.clearLock l).queue (.agent b) = p.queue (.agent b)) ∧
    (p.clearLock l).queue .supervisor =
      (if (p.lock l).state == .closing then Queue.deliver (.lockClosed l) 1 (p.queue .supervisor)
        else p.queue .supervisor) ∧
    (p.clearLock l).transfer.inbox = p.transfer.inbox := by
  have hdef : p.clearLock l =
      match ({ p.lock l with holders := [], waiters := [] } : LockEntry).state with
      | .closing => (p.setLock l { p.lock l with holders := [], waiters := [] }).drain l
      | .opened => ((p.setLock l { p.lock l with holders := [], waiters := [] }).runPass l).1
      | .disabled => p.setLock l { p.lock l with holders := [], waiters := [] } := rfl
  rw [hdef]
  generalize he : ({ p.lock l with holders := [], waiters := [] } : LockEntry) = e1
  have hst : e1.state = (p.lock l).state := by rw [← he]
  have hw : e1.waiters = [] := by rw [← he]
  rw [hst]
  cases hs : (p.lock l).state with
  | opened =>
    obtain ⟨r1, r2, ⟨r3, r4⟩, r5⟩ := (p.setLock l e1).runPass_spec l
    have hg : ((p.setLock l e1).lock l).grantPass = (e1, []) := by simp [LockEntry.grantPass_of_no_waiters e1 hw]
    rw [hg] at r1 r3 r4
    refine ⟨?_, ?_, ?_, ?_⟩
    · intro l'; rw [r1]; simp only [Part.lock_setLock]; split <;> simp_all [← he]
    · intro b; rw [r3]; simp [grantsTo, Part.queueAfter]
    · rw [r5]; simp
    · rw [r4]; simp [grantReports]
  | closing =>
    refine ⟨?_, ?_, ?_, ?_⟩
    · intro l'; simp only [Part.lock_drain, Part.lock_setLock, if_true]; split <;> simp_all [← he]
    · intro b; simp
    · simp
    · simp
  | disabled =>
    refine ⟨?_, ?_, ?_, ?_⟩
    · intro l'; simp only [Part.lock_setLock]; split <;> simp_all [← he]
    · intro b; simp
    · simp
    · simp

/-- CLEAR's lock-table step on several locks, each named once. -/
theorem Part.clearLocks_spec (ls : List LockId) (p : Part) (hn : ls.Nodup) :
    (∀ l', (ls.foldl Part.clearLock p).lock l' = if l' ∈ ls then
      { p.lock l' with state := (if (p.lock l').state = .closing then .disabled else (p.lock l').state),
                       holders := [], waiters := [] } else p.lock l') ∧
    (∀ b, (ls.foldl Part.clearLock p).queue (.agent b) = p.queue (.agent b)) ∧
    (ls.foldl Part.clearLock p).queue .supervisor =
      { notices := (p.queue .supervisor).notices ++
          (ls.filter fun l => (p.lock l).state == .closing).map .lockClosed,
        reserved := (p.queue .supervisor).reserved - (ls.filter fun l => (p.lock l).state == .closing).length } ∧
    (ls.foldl Part.clearLock p).transfer.inbox = p.transfer.inbox := by
  induction ls generalizing p with
  | nil => simp
  | cons l ls ih =>
    obtain ⟨hl, hls⟩ := List.nodup_cons.1 hn
    obtain ⟨h1, h2, h3, h4⟩ := p.clearLock_spec l
    obtain ⟨k1, k2, k3, k4⟩ := ih (p.clearLock l) hls
    have hsame : ∀ l' ∈ ls, (p.clearLock l).lock l' = p.lock l' := by
      intro l' hm; rw [h1, if_neg]; rintro rfl; exact hl hm
    simp only [List.foldl_cons]
    refine ⟨?_, ?_, ?_, ?_⟩
    · intro l'
      rw [k1]
      by_cases hm : l' ∈ ls
      · simp [hm, hsame l' hm]
      · simp only [hm, if_false, h1, List.mem_cons, or_false]
        split <;> simp_all
    · intro b; rw [k2, h2]
    · have e1 : (ls.filter fun l' => ((p.clearLock l).lock l').state == .closing) =
          ls.filter fun l' => (p.lock l').state == .closing := by
        apply List.filter_congr; intro l' hm; rw [hsame l' hm]
      rw [k3, e1, h3, List.filter_cons]
      split <;> simp [Queue.deliver, Nat.sub_sub, Nat.add_comm]
    · rw [k4, h4]

end Sys2Proof.Machine
end

