-- ==== Sys2Proof/Laws/Channels.lean ====
section
/-! SUPPORT. What the operations on a channel do, in the words of the statements (`TookHead`, `RaisedClaim`, `HandedBurst`,
`PausedNow`, `EndsWith`, `GrantReached`, `BurstEnded`), and the frames of what a command does around them. -/

namespace Sys2Proof.Machine

/-! ### Lists of pieces -/

theorem mem_agentQueues (x : Piece) : x ∈ agentQueues ↔ ∃ a, x = .queue (.agent a) := by
  simp [agentQueues, allAgents, eq_comm]

theorem mem_lockPieces (x : Piece) : x ∈ lockPieces ↔ ∃ l, x = .lock l := by
  simp [lockPieces, mem_allLocks, eq_comm]

/-! ### Around an operation: the answer, the end of a serving -/

/-- A result presented over `q` is the page's answer, where what came before left the page alone. -/
theorem Part.present_answered (p q : Part) (g : PageId) (ans : Answer) (h : q.page g = p.page g) :
    Answered p (q.present g ans) g ans.code ans.result0 ans.result1 := by
  simp [Answered, Page.present, h]

theorem Frame.present {p q : Part} {xs : List Piece} (h : Frame p q xs) (g : PageId) (ans : Answer) :
    Frame p (q.present g ans) (.page g :: xs) := by
  intro x hx
  simp only [List.mem_cons, not_or] at hx
  have := h x hx.2
  cases x <;> simp_all [SameAt]

theorem Frame.notServing {p q : Part} {xs : List Piece} (h : Frame p q xs) :
    Frame p (q.setTransferServing none) (.transferServing :: xs) := by
  intro x hx
  simp only [List.mem_cons, not_or] at hx
  have := h x hx.2
  cases x <;> simp_all [SameAt]

theorem Part.onChan_frame (p : Part) (c : ChanId) (f : Channel → Channel) : Frame p (p.onChan c f) [.chan c] := by
  intro x hx
  cases x <;> simp_all [SameAt]

theorem Part.setMaster_frame (p : Part) (m : Master) : Frame p (p.setMaster m) [.master] := by
  intro x hx
  cases x <;> simp_all [SameAt]

/-! ### A channel's own operations (R105 to R113, R120) -/

theorem Part.onChan_onChan (p : Part) (c : ChanId) (f g : Channel → Channel) :
    (p.onChan c f).onChan c g = p.onChan c fun ch => g (f ch) := by
  have h (xs : PerChan Channel) (a b : Channel) : (xs.set c a).set c b = xs.set c b := by cases c <;> rfl
  simp [Part.onChan, Part.setChan, Part.chan, h]

theorem Part.taken_chan (p : Part) (rest : List TransferItem) (c : ChanId) (f : Channel → Channel) :
    (p.taken rest c f).chan c = f (p.chan c) := by simp [Part.taken]

theorem Part.raiseClaim_raised (p : Part) (c : ChanId) (cl : ChanClaim) (f : InFlight) :
    RaisedClaim p (p.raiseClaim c cl f) c cl f := by
  refine ⟨by simp, by simp, fun x hx => ?_⟩
  cases x <;> simp_all [SameAt, PerChan.get_set]

theorem Part.handBurst_handed (p : Part) (c : ChanId) (d : Descriptor) : HandedBurst p (p.handBurst c d) c d := by
  refine ⟨by simp, by simp, fun x hx => ?_⟩
  cases x <;> simp_all [SameAt]

theorem Part.pauseNow_paused (p : Part) (c : ChanId) : PausedNow p (p.pauseNow c) c := by
  refine ⟨by simp, by simp [Queue.deliver], fun x hx => ?_⟩
  cases x <;> simp_all [SameAt]

theorem Part.endBurst_ended (p : Part) (c : ChanId) (r : BurstResult) : BurstEnded p (p.endBurst c r) c r := by
  refine ⟨by simp [Part.endBurst], by simp [Part.endBurst, Master.released], fun x hx => ?_⟩
  unfold Part.endBurst
  cases x <;> simp_all [SameAt]

theorem Part.endDescriptor_ends (p : Part) (c : ChanId) (o : EndOutcome) : EndsWith p (p.endDescriptor c o) c o := by
  refine ⟨fun t l h1 h2 => ?_, fun h => by unfold Part.endDescriptor; rw [h]⟩
  have he : p.endDescriptor c o =
      (p.onChan c fun ch => { ch with
        ending := some o, state := (if ch.state = .paused then .paused else .stopping) }).raiseClaim c (.release l)
          .release := by
    unfold Part.endDescriptor
    rw [h1, h2]
  rw [he]
  refine ⟨by simp, by simp, fun x hx => ?_⟩
  cases x <;> simp_all [SameAt, PerChan.get_set]

/-- The end with a fault, where `ch` says whether a stop is recorded (R114). -/
theorem Part.endFault_ends {p : Part} {c : ChanId} {r : TransferFault} {ch : Channel}
    (h : (p.chan c).stop = ch.stop) : EndsWith p (p.endFault c r) c (faultOf ch r) := by
  have he : p.endFault c r = p.endDescriptor c (faultOf ch r) := by
    unfold Part.endFault faultOf
    rw [h]
    cases ch.stop <;> simp
  rw [he]
  exact p.endDescriptor_ends c _

theorem Part.endWithdrawn_ends (p : Part) (c : ChanId) :
    EndsWith p (p.endFault c .withdrawn) c (.fault .withdrawn) := by
  have h := Part.endFault_ends (p := p) (c := c) (r := .withdrawn) (ch := p.chan c) rfl
  simpa [faultOf] using h

theorem Part.granted_reached (p : Part) (c : ChanId) (t : Word) : GrantReached p (p.granted c t) c t := by
  unfold GrantReached Part.granted
  refine ⟨fun h => ?_, fun h d cl hd hcl => ?_⟩
  · rw [if_pos (by simpa using h)]
    exact Part.pauseNow_paused _ _
  · rw [if_neg (by simp [h])]
    unfold Part.goOn
    have hh : (((p.onChan c fun ch => { ch with holding := some t, inFlight := .nothing }).onChan c fun ch =>
        { ch with state := .moving }).chan c).head = some d := by simp [Channel.head, hd]
    rw [hh]
    simp only [hcl]
    exact Part.raiseClaim_raised _ _ _ _

/-- Step 2 of R109, on a channel with head `d`. -/
theorem Part.afterGuard_course (p : Part) (c : ChanId) (d : Descriptor) (ds : List Descriptor)
    (h : (p.chan c).list = d :: ds) :
    ((p.chan c).pausePending = true → PausedNow p (p.afterGuard c) c) ∧
      ((p.chan c).pausePending = false → d.moved < d.op.length → HandedBurst p (p.afterGuard c) c d) ∧
      ((p.chan c).pausePending = false → d.op.length ≤ d.moved → EndsWith p (p.afterGuard c) c .done) := by
  have hh : (p.chan c).head = some d := by simp [Channel.head, h]
  unfold Part.afterGuard
  simp only [hh]
  refine ⟨fun h => ?_, fun h1 h2 => ?_, fun h1 h2 => ?_⟩
  · rw [if_pos h]
    exact p.pauseNow_paused c
  · rw [if_neg (by simp [h1]), if_pos h2]
    exact p.handBurst_handed c d
  · rw [if_neg (by simp [h1]), if_neg (by omega)]
    exact p.endDescriptor_ends c .done

/-- A head set to work by its guard, on a channel whose record would be `ch` without it (R106). -/
theorem Part.beginHead_took (p : Part) (c : ChanId) (d : Descriptor) (rest : List Descriptor) (ch : Channel)
    (hch : p.chan c = { ch with list := { d with started := true } :: rest, stop := none, loss := none }) :
    TookHead p (p.beginHead c { d with started := true }) c ch d rest ∧
      Frame p (p.beginHead c { d with started := true }) [.chan c, .claim c, .master] := by
  unfold Part.beginHead TookHead headTaken
  cases hg : d.guard with
  | none =>
    refine ⟨⟨by simp [hch, hg], by simp, by simp; rfl⟩, fun x hx => ?_⟩
    cases x <;> simp_all [SameAt]
  | acquire l m r w =>
    refine ⟨⟨by simp [hch, hg], by simp, by simp⟩, fun x hx => ?_⟩
    cases x <;> simp_all [SameAt, PerChan.get_set]
  | fence l t =>
    refine ⟨⟨by simp [hch, hg], by simp, by simp⟩, fun x hx => ?_⟩
    cases x <;> simp_all [SameAt, PerChan.get_set]

/-- A descriptor that leaves the head of a channel's list is one less of its owner's. -/
theorem Part.descriptorCount_onChan (p : Part) (c : ChanId) (f : Channel → Channel) (d : Descriptor)
    (ds : List Descriptor) (a : AgentId) (h : (p.chan c).list = d :: ds) (hf : (f (p.chan c)).list = ds) :
    p.descriptorCount a = (p.onChan c f).descriptorCount a + (if d.owner = a then 1 else 0) := by
  unfold Part.descriptorCount
  cases c <;> simp [h, hf, List.countP_cons] <;> omega

/-- What `findDescriptor` finds (R99). -/
theorem Part.findDescriptor_mem {p : Part} {a : AgentId} {tag : BitVec 16} {c : ChanId} {d : Descriptor}
    (h : p.findDescriptor a tag = some (c, d)) : d ∈ (p.chan c).list ∧ d.owner = a ∧ d.tag = tag := by
  unfold Part.findDescriptor at h
  split at h
  · rename_i d' hd
    simp only [Option.some.injEq, Prod.mk.injEq] at h
    obtain ⟨rfl, rfl⟩ := h
    exact ⟨List.mem_of_find?_eq_some hd, by simpa using List.find?_some hd⟩
  · split at h
    · rename_i d' hd
      simp only [Option.some.injEq, Prod.mk.injEq] at h
      obtain ⟨rfl, rfl⟩ := h
      exact ⟨List.mem_of_find?_eq_some hd, by simpa using List.find?_some hd⟩
    · simp at h

/-! ### The supervisor's claim that was kept back (R145) -/

theorem Part.raiseHeld_page (p : Part) : p.raiseHeld.page .supervisor = { p.page .supervisor with
    inFlight := (p.page .supervisor).inFlight.map fun x =>
      match x.stage with
      | .held => { x with stage := .claimed }
      | .entryHeld e => { x with stage := .entryClaimed e }
      | _ => x } := by
  have e : p.port.supervisor = p.page .supervisor := rfl
  unfold Part.raiseHeld
  rw [e]
  cases h : (p.page .supervisor).inFlight with
  | none =>
    simp only [Option.map_none]
    rw [← h]
  | some x => cases hs : x.stage <;> simp [hs, h] <;> simp [← h]

theorem Part.raiseHeld_frame (p : Part) : Frame p p.raiseHeld [.page .supervisor] := by
  unfold Part.raiseHeld
  split
  · split <;> first | exact Frame.refl _ _ | (intro x hx; cases x <;> simp_all [SameAt])
  · exact Frame.refl _ _

/-! ### The backplane master (R124 to R133) -/

/-- Taking a pending request, or none, keeps the master's state together. -/
theorem Master.arbitrate_sound (m : Master) (h1 : m.count.isSome = true ↔ m.phase = .requesting)
    (h2 : m.current.isSome = true ↔ m.phase ≠ .idle) (h4 : m.limit ≠ 0) : m.arbitrate.Sound := by
  unfold Master.arbitrate
  cases hp : m.phase with
  | idle =>
    cases h0 : m.pending.c0 <;> cases h1' : m.pending.c1 <;> cases hl : m.lastServed <;>
      simp [Master.choice, h0, h1', hl, PerChan.get, Master.take] <;>
      (constructor <;> simp_all [PerChan.set])
  | requesting => constructor <;> simp_all
  | reading => constructor <;> simp_all
  | writing => constructor <;> simp_all

theorem Master.offer_sound {m : Master} (h : m.Sound) (c : ChanId) (b : Burst) : (m.offer c b).Sound := by
  obtain ⟨h1, h2, _, h4⟩ := h
  exact Master.arbitrate_sound _ h1 h2 h4

theorem Master.ended_sound (m : Master) (h : m.limit ≠ 0) : m.released.arbitrate.Sound :=
  Master.arbitrate_sound _ (by simp [Master.released]) (by simp [Master.released]) h

end Sys2Proof.Machine
end

