-- ==== Sys2Proof/Laws/Discipline.lean ====
section
/-! SUPPORT. The discipline of Chapter 1 on one lock, and the notice places its records hold: what removing a record, a grant
pass and a new record make of them. -/

namespace Sys2Proof.Machine

/-! ### The discipline of a lock whose grant pass has not yet run -/

/-- What `LockEntry.Sound` says but for the settled head waiter and the holding of a CLOSING lock, which the end of a claim
sees to. -/
structure LockEntry.Orderly (e : LockEntry) : Prop where
  disabled : e.state = .disabled → e.holders = [] ∧ e.waiters = []
  closing : e.state = .closing → e.waiters = []
  exclusive : ∀ h ∈ e.holders, h.mode = .exclusive → e.holders.length = 1
  tokens : ∀ h ∈ e.holders, h.token ≠ 0
  leases : ∀ h ∈ e.holders, (h.remaining.isSome = true ↔ e.maxLease ≠ 0)
  single : ∀ a : AgentId, e.records (fun q => q == .agent a) ≤ 1
  limited : e.agentWaiters ≤ e.queueLimit

theorem LockEntry.Sound.orderly {e : LockEntry} (h : e.Sound) : e.Orderly :=
  ⟨h.disabled, fun hc => (h.closing hc).2, h.exclusive, h.tokens, h.leases, h.single, h.limited⟩

theorem LockEntry.Orderly.sound {e : LockEntry} (h : e.Orderly) (hc : e.state = .closing → e.holders ≠ [])
    (hs : e.state = .opened → ∀ w ∈ e.waiters.head?, e.fits w.mode = false) : e.Sound :=
  ⟨h.disabled, fun x => ⟨hc x, h.closing x⟩, h.exclusive, h.tokens, h.leases, hs, h.single, h.limited⟩

/-- When a request fits the holdings of a lock (R16, R41). -/
theorem LockEntry.fits_iff (e : LockEntry) (m : Mode) :
    e.fits m = true ↔ (m = .exclusive ∧ e.holders = []) ∨ (m = .shared ∧ ∀ h ∈ e.holders, h.mode ≠ .exclusive) := by
  cases m
  · simp only [fits, holdingMode]
    cases hh : e.holders <;> simp
  · simp [fits]

theorem LockEntry.leaseGiven_isSome (e : LockEntry) (requested : Ticks) :
    (e.leaseGiven requested).isSome = true ↔ e.maxLease ≠ 0 := by
  unfold leaseGiven
  split <;> simp_all

/-- A new holding that fits keeps the lock orderly, where an agent it is for has no record there. -/
theorem LockEntry.Orderly.withHolding {e : LockEntry} (h : e.Orderly) (hst : e.state = .opened) (party : Party)
    (owner : AgentId) (m : Mode) (requested : Ticks) (hf : e.fits m = true)
    (hp : ∀ a, party = .agent a → e.records (fun q => q == .agent a) = 0) :
    (e.withHolding (e.newHolding party owner m requested)).Orderly := by
  rw [fits_iff] at hf
  refine ⟨by simp [LockEntry.withHolding, hst], by simp [LockEntry.withHolding, hst], ?_, ?_, ?_, ?_, h.limited⟩
  · intro x hx hm
    simp only [LockEntry.withHolding, List.mem_append, List.mem_singleton, List.length_append, List.length_singleton]
      at hx ⊢
    rcases hf with ⟨rfl, hn⟩ | ⟨rfl, hn⟩
    · simp [hn]
    · rcases hx with hx | rfl
      · exact absurd hm (hn _ hx)
      · simp [newHolding] at hm
  · intro x hx
    simp only [LockEntry.withHolding, List.mem_append, List.mem_singleton] at hx
    rcases hx with hx | rfl
    · exact h.tokens _ hx
    · exact e.nextToken_ne_zero
  · intro x hx
    simp only [LockEntry.withHolding, List.mem_append, List.mem_singleton] at hx
    rcases hx with hx | rfl
    · exact h.leases _ hx
    · exact leaseGiven_isSome _ _
  · intro a
    have h1 := h.single a
    by_cases hpa : party = .agent a
    · have h2 := hp a hpa
      simp only [records] at h2
      simp [records, LockEntry.withHolding, newHolding, hpa]
      omega
    · simp [records, LockEntry.withHolding, newHolding, hpa] at h1 ⊢
      exact h1

/-- Records removed from an orderly lock leave it orderly (R12). -/
theorem LockEntry.Orderly.sub {e e' : LockEntry} (h : e.Orderly) (h1 : e'.state = e.state) (h2 : e'.maxLease = e.maxLease)
    (h3 : e'.queueLimit = e.queueLimit) (hh : e'.holders.Sublist e.holders) (hw : e'.waiters.Sublist e.waiters) :
    e'.Orderly := by
  refine ⟨fun x => ?_, fun x => ?_, fun x hx hm => ?_, fun x hx => h.tokens x (hh.subset hx), fun x hx => ?_, fun a => ?_, ?_⟩
  · rw [h1] at x
    obtain ⟨a, b⟩ := h.disabled x
    rw [a] at hh
    rw [b] at hw
    exact ⟨List.sublist_nil.1 hh, List.sublist_nil.1 hw⟩
  · rw [h1] at x
    rw [h.closing x] at hw
    exact List.sublist_nil.1 hw
  · have h4 := h.exclusive x (hh.subset hx) hm
    have h5 := hh.length_le
    have h6 : 0 < e'.holders.length := List.length_pos_of_mem hx
    omega
  · rw [h2]
    exact h.leases x (hh.subset hx)
  · have h4 := h.single a
    unfold records at *
    have a1 := hh.countP_le (p := fun h => h.party == .agent a)
    have a2 := hw.countP_le (p := fun w => w.party == .agent a)
    simp only at h4 ⊢
    omega
  · rw [h3]
    exact hw.countP_le.trans h.limited

theorem LockEntry.Orderly.pass (ws : List Waiting) (e : LockEntry) (hst : e.state = .opened)
    (h : ({ e with waiters := ws } : LockEntry).Orderly) : (e.passOver ws).1.Orderly := by
  induction ws generalizing e with
  | nil => exact h
  | cons w rest ih =>
    unfold passOver
    split
    · rename_i hf
      have ht : ({ e with waiters := rest } : LockEntry).Orderly := h.sub rfl rfl rfl (List.Sublist.refl _) (by simp)
      have hfit : ({ e with waiters := rest } : LockEntry).fits w.mode = true := by
        cases hm : w.mode <;> (rw [hm] at hf; simpa [fits, holdingMode] using hf)
      refine ih _ (by simp [LockEntry.withHolding, hst])
        (ht.withHolding hst w.party w.owner w.mode w.requested hfit fun a ha => ?_)
      have h1 := h.single a
      simp only [records, List.countP_cons, ha, beq_self_eq_true, if_true] at h1 ⊢
      omega
    · exact h

/-- The grant pass makes an orderly lock sound, where a CLOSING one keeps a holding (R16). -/
theorem LockEntry.Orderly.grantPass {e : LockEntry} (h : e.Orderly) (hc : e.state = .closing → e.holders ≠ []) :
    e.grantPass.1.Sound := by
  have ho : e.grantPass.1.Orderly := by
    unfold LockEntry.grantPass
    split
    · rename_i hst
      exact LockEntry.Orderly.pass _ _ hst h
    · exact h
  refine ho.sound (fun hs => ?_) fun hs => ?_
  · rw [grantPass_of_not_opened e (by simp at hs; simp [hs])] at hs ⊢
    exact hc hs
  · exact e.grantPass_settled (by simpa using hs)

/-! ### The notice places a lock's records hold (R84) -/

/-- Each grant to an agent turns a wait's two places into one for the holding and one for the notice. -/
theorem LockEntry.placesHeld_pass (l : LockId) (b : AgentId) (ws : List Waiting) (e : LockEntry) :
    (e.passOver ws).1.placesHeld b + (grantsTo l b (e.passOver ws).2).length =
      ({ e with waiters := ws } : LockEntry).placesHeld b := by
  induction ws generalizing e with
  | nil => simp [passOver, grantsTo]
  | cons w rest ih =>
    unfold passOver
    split
    · have h := ih (e.withHolding (e.newHolding w.party w.owner w.mode w.requested))
      by_cases hp : w.party = .agent b
      · have hg (hs : List Holding) :
            (grantsTo l b (e.newHolding w.party w.owner w.mode w.requested :: hs)).length = (grantsTo l b hs).length + 1 := by
          simp [grantsTo, newHolding, hp]
        rw [hg]
        simp only [placesHeld, withHolding, newHolding, hp, List.countP_append, List.countP_cons, List.countP_nil,
          beq_self_eq_true, if_true] at h ⊢
        omega
      · have hg (hs : List Holding) :
            (grantsTo l b (e.newHolding w.party w.owner w.mode w.requested :: hs)).length = (grantsTo l b hs).length := by
          simp [grantsTo, newHolding, hp]
        rw [hg]
        have hb : (w.party == Party.agent b) = false := by simp [hp]
        simp only [placesHeld, withHolding, newHolding, hb, List.countP_append, List.countP_cons, List.countP_nil,
          Bool.false_eq_true, if_false] at h ⊢
        omega
    · simp [grantsTo]

theorem LockEntry.placesHeld_grantPass (l : LockId) (b : AgentId) (e : LockEntry) :
    e.grantPass.1.placesHeld b + (grantsTo l b e.grantPass.2).length = e.placesHeld b := by
  unfold grantPass
  split
  · exact placesHeld_pass l b e.waiters e
  · simp [grantsTo]

theorem countP_eraseP_of_find {α : Type} (f g : α → Bool) (xs : List α) (x : α) (h : xs.find? f = some x) :
    (xs.eraseP f).countP g + (if g x then 1 else 0) = xs.countP g := by
  induction xs with
  | nil => simp at h
  | cons y ys ih =>
    by_cases hf : f y
    · simp only [List.find?_cons, hf, Option.some.injEq] at h
      subst h
      simp [hf, List.countP_cons]
    · simp only [List.find?_cons, hf] at h
      have := ih h
      simp [hf, List.countP_cons]
      omega

theorem LockEntry.placesHeld_withoutHolder {e : LockEntry} {q : Party} {h : Holding} (b : AgentId)
    (hh : e.holderOf q = some h) :
    (e.withoutHolder q).placesHeld b + (if q = .agent b then 1 else 0) = e.placesHeld b := by
  have h1 := countP_eraseP_of_find _ (fun h => h.party == .agent b) _ _ hh
  have hq : h.party = q := by simpa using List.find?_some hh
  simp only [hq] at h1
  unfold placesHeld withoutHolder
  by_cases hqb : q = .agent b <;> simp [hqb] at h1 ⊢ <;> omega

theorem LockEntry.placesHeld_withoutWaiter {e : LockEntry} {q : Party} {w : Waiting} (b : AgentId)
    (hh : e.waiterOf q = some w) :
    (e.withoutWaiter q).placesHeld b + (if q = .agent b then 2 else 0) = e.placesHeld b := by
  have h1 := countP_eraseP_of_find _ (fun h => h.party == .agent b) _ _ hh
  have hq : w.party = q := by simpa using List.find?_some hh
  simp only [hq] at h1
  unfold placesHeld withoutWaiter
  by_cases hqb : q = .agent b <;> simp [hqb] at h1 ⊢ <;> omega

/-- Locks changed at one place owe what they owed, but for the change there. -/
theorem sum_changed_at (f g : LockId → Nat) (l : LockId) (h : ∀ l', l' ≠ l → f l' = g l') (ls : List LockId)
    (hn : ls.Nodup) : (ls.map f).sum + (if l ∈ ls then g l else 0) = (ls.map g).sum + (if l ∈ ls then f l else 0) := by
  induction ls with
  | nil => simp
  | cons x xs ih =>
    obtain ⟨h1, h2⟩ := List.nodup_cons.1 hn
    have h3 := ih h2
    by_cases hx : x = l
    · subst hx
      simp [h1] at h3 ⊢
      omega
    · have e := h x hx
      have hl : (l = x) ↔ False := by simp [Ne.symm hx]
      simp only [List.map_cons, List.sum_cons, List.mem_cons, hl, false_or, e]
      omega

/-- What an agent is owed after a change of one lock that leaves its descriptors alone. -/
theorem Part.placesOwed_lock {p q : Part} {l : LockId} {b : AgentId} (hl : ∀ l', l' ≠ l → q.lock l' = p.lock l')
    (hc : q.descriptorCount b = p.descriptorCount b) :
    q.placesOwed b + (p.lock l).placesHeld b = p.placesOwed b + (q.lock l).placesHeld b := by
  have h := sum_changed_at (fun l => (q.lock l).placesHeld b) (fun l => (p.lock l).placesHeld b) l
    (fun l' h => by simp only [hl l' h]) allLocks allLocks_nodup
  simp only [mem_allLocks, if_true] at h
  unfold Part.placesOwed
  rw [hc]
  omega

/-- Room is kept where each queue changes by notices that use no more places than are no longer owed (R84, R86, R87). -/
theorem Part.RoomKept.of_queueAfter {p q : Part} (h : p.RoomKept)
    (hq : ∀ b, ∃ ns k, q.queue (.agent b) = p.queueAfter b ns k ∧ ns.length ≤ k ∧
      q.placesOwed b + k ≤ p.placesOwed b) : q.RoomKept := by
  intro b
  obtain ⟨ns, k, h1, h2, h3⟩ := hq b
  obtain ⟨k1, k2⟩ := h b
  rw [h1]
  unfold Part.queueAfter
  simp only [List.length_append]
  have h4 : (if p.discards b then [] else ns).length ≤ ns.length := by split <;> simp
  omega


end Sys2Proof.Machine
end

