-- ==== Sys2Proof/Laws/Layouts.lean ====
section
/-! SUPPORT. The value of a word packed from fields: each field put above the bits already there adds its number, shifted to
its lowest bit. One lemma serves every layout of R157 and R162 to R164. -/

namespace Sys2Proof.Machine

theorem fieldAt_toNat {w : Nat} (lo : Nat) (x : BitVec w) (hw : w + lo ≤ 32) : (fieldAt lo x).toNat = 2 ^ lo * x.toNat := by
  have hx : x.toNat * 2 ^ lo < 2 ^ 32 :=
    calc x.toNat * 2 ^ lo < 2 ^ w * 2 ^ lo := by have := x.isLt; gcongr
      _ = 2 ^ (w + lo) := (pow_add 2 w lo).symm
      _ ≤ 2 ^ 32 := Nat.pow_le_pow_right (by norm_num) hw
  have h32 : x.toNat < 2 ^ 32 := lt_of_lt_of_le x.isLt (Nat.pow_le_pow_right (by norm_num) (by omega))
  rw [fieldAt, BitVec.toNat_shiftLeft, BitVec.toNat_setWidth, Nat.mod_eq_of_lt h32, Nat.shiftLeft_eq, Nat.mod_eq_of_lt hx,
    Nat.mul_comm]

/-- A field put above the bits of `a`. -/
theorem toNat_or_fieldAt {w : Nat} (a : Word) (lo : Nat) (x : BitVec w) (ha : a.toNat < 2 ^ lo) (hw : w + lo ≤ 32) :
    (a ||| fieldAt lo x).toNat = a.toNat + 2 ^ lo * x.toNat := by
  rw [BitVec.toNat_or, fieldAt_toNat lo x hw, Nat.or_comm, ← Nat.two_pow_add_eq_or_of_lt ha, Nat.add_comm]

theorem bitAt_toNat (lo : Nat) (b : Bool) (hw : 1 + lo ≤ 32) : (bitAt lo b).toNat = 2 ^ lo * b.toNat := by
  rw [bitAt, fieldAt_toNat lo _ hw, BitVec.toNat_ofBool]

/-- A bit put above the bits of `a`. -/
theorem toNat_or_bitAt (a : Word) (lo : Nat) (b : Bool) (ha : a.toNat < 2 ^ lo) (hw : 1 + lo ≤ 32) :
    (a ||| bitAt lo b).toNat = a.toNat + 2 ^ lo * b.toNat := by
  rw [bitAt, toNat_or_fieldAt a lo _ ha hw, BitVec.toNat_ofBool]

end Sys2Proof.Machine
end

