-- ==== Sys2Proof/Laws/Preserved.lean ====
section
/-! SUPPORT. What it takes for a property of the coordinator to be kept by every command: it is kept by the named updates and
by each operation that does a command's work. A proof that a step keeps an invariant proves these parts, and cites
`Preserved.exec`. -/

namespace Sys2Proof.Machine

/-- The parts a command is made of, each keeping `P`. The two that empty an agent's queue are left to `Preserved.exec`. -/
structure Preserved (P : Part → Prop) : Prop where
  served : ∀ p pos, P p → P (p.served pos)
  present : ∀ p g ans, P p → P (p.present g ans)
  setStage : ∀ p g st, P p → P (p.setStage g st)
  setTableServing : ∀ p x, P p → P (p.setTableServing x)
  setTransferServing : ∀ p x, P p → P (p.setTransferServing x)
  setReports : ∀ p xs, P p → P (p.setReports xs)
  setInbox : ∀ p xs, P p → P (p.setInbox xs)
  setExpiry : ∀ p xs, P p → P (p.setExpiry xs)
  setRanOut : ∀ p xs, P p → P (p.setRanOut xs)
  setClear : ∀ p x, P p → P (p.setClear x)
  setPurges : ∀ p xs, P p → P (p.setPurges xs)
  setEvictions : ∀ p xs, P p → P (p.setEvictions xs)
  setClaim : ∀ p c x, P p → P (p.setClaim c x)
  setPeriod : ∀ p x, P p → P (p.setPeriod x)
  writeFrom : ∀ p g slot r v, P p → P (p.writeFrom g slot r v)
  access : ∀ p acc, P p → P (p.access acc)
  reset : ∀ straps n, P { Part.reset straps with fresh := n }
  reserveSupervisor : ∀ p k, P p → P (p.reserve .supervisor k)
  acquireBody : ∀ p a args, P p → P (Part.acquireBody a args p).1
  cancelWaitBody : ∀ p a args, P p → P (Part.cancelWaitBody a args p).1
  releaseBody : ∀ p a args, P p → P (Part.releaseBody a args p).1
  renewBody : ∀ p a args, P p → P (Part.renewBody a args p).1
  downgradeBody : ∀ p a args, P p → P (Part.downgradeBody a args p).1
  attachBody : ∀ p a, P p → P (p.attachBody a).1
  concludeDetach : ∀ p a n d, P p → P (p.concludeDetach a n d).1
  enableBody : ∀ p args, P p → P (Part.enableBody args p).1
  disableBody : ∀ p args, P p → P (Part.disableBody args p).1
  evictBody : ∀ p args, P p → P (Part.evictBody args p).1
  configureBody : ∀ p args, P p → P (Part.configureBody args p).1
  closeBody : ∀ p args, P p → P (Part.closeBody args p).1
  breakBody : ∀ p args, P p → P (Part.breakBody args p).1
  pauseBody : ∀ p args, P p → P (Part.pauseBody args p).1
  resumeBody : ∀ p args, P p → P (Part.resumeBody args p).1
  setBusWaitBody : ∀ p args, P p → P (Part.setBusWaitBody args p).1
  acceptPost : ∀ p a c d args, postArgs a args = some (c, d) → P p → P (p.acceptPost a c d).1
  withdrawBody : ∀ p a args, P p → P (p.withdrawBody a args).1
  tick : ∀ p, P p → P p.tick
  expireLease : ∀ p l q, P p → P (Part.expireLease l q p)
  expireWait : ∀ p l q, P p → P (Part.expireWait l q p)
  purgeLock : ∀ p a l, P p → P (Part.purgeLock a p l)
  clearLock : ∀ p l, P p → P (p.clearLock l)
  acquireFor : ∀ p c l m r w owner, P p → P (Part.acquireFor c l m r w owner p)
  removeWaiterFor : ∀ p c l, P p → P (Part.removeWaiterFor c l p)
  releaseFor : ∀ p c l, P p → P (Part.releaseFor c l p)
  toTransfer : ∀ p i, P p → P (p.toTransfer i)
  toTable : ∀ p r, P p → P (p.toTable r)
  onAcquisition : ∀ p c ans, P p → P (Part.onAcquisition c ans p)
  onGrantReport : ∀ p c t, P p → P (Part.onGrantReport c t p)
  onWaitEnded : ∀ p c w, P p → P (Part.onWaitEnded c w p)
  onHoldingEnded : ∀ p c why, P p → P (p.onChan c fun ch => { ch with holding := none, loss := some why })
  onRemoval : ∀ p c ans, P p → P (Part.onRemoval c ans p)
  onGuard : ∀ p c b, P p → P (Part.onGuard c b p)
  onRelease : ∀ p c, P p → P (Part.onRelease c p)
  onBurst : ∀ p c r, P p → P (Part.onBurst c r p)
  onWithdrawAll : ∀ p a, P p → P (Part.onWithdrawAll a p)
  clearTransfer : ∀ p, P p → P p.clearTransfer
  giveStop : ∀ p c r, P p → P (p.giveStop c r)
  grant : ∀ p g, P p → P (p.setMaster (p.master.grant g))
  endBurst : ∀ p c r, P p → P (p.endBurst c r)
  readData : ∀ p b w, p.master.phase = .reading → P p → P (p.readData b w)
  writeDone : ∀ p b, p.master.phase = .writing → P p → P (p.writeDone b)

variable {P : Part → Prop}

theorem Preserved.raiseDueStep (h : Preserved P) (p : Part) (hp : P p) : P p.raiseDueStep := by
  unfold Part.raiseDueStep
  split
  · exact h.setClear _ _ hp
  · exact hp

theorem Preserved.raiseHeld (h : Preserved P) (p : Part) (hp : P p) : P p.raiseHeld := by
  unfold Part.raiseHeld
  split
  · split <;> first | exact h.setStage _ _ _ hp | exact hp
  · exact hp

theorem Preserved.reportRest (h : Preserved P) (p : Part) (hp : P p) : P p.reportRest := by
  unfold Part.reportRest
  split
  · exact h.toTable _ _ (h.setClear _ _ hp)
  · exact hp

theorem Preserved.serveAgent (h : Preserved P) (p : Part) (a : AgentId) (c : Cmd)
    (body : Vector Word 6 → Part → Part × Answer) (hb : ∀ args p, P p → P (body args p).1) (hp : P p) :
    P (p.serveAgent a c body) := by
  unfold Part.serveAgent
  split
  · split
    · dsimp only
      split
      · exact h.present _ _ _ (h.served _ _ hp)
      · exact h.present _ _ _ (hb _ _ (h.served _ _ hp))
    · exact hp
  · exact hp

theorem Preserved.lockCommand (h : Preserved P) (p : Part) (a : AgentId) (c : Cmd) (m : Moment)
    (body : Vector Word 6 → Part → Part × Answer) (hb : ∀ args p, P p → P (body args p).1) (hp : P p) :
    P (p.lockCommand a c m body) := by
  unfold Part.lockCommand
  split
  · exact h.writeFrom _ _ _ _ _ hp
  · exact h.serveAgent _ _ _ _ hb hp

theorem Preserved.serveSupervisor (h : Preserved P) (p : Part) (c : Cmd)
    (body : Vector Word 6 → Part → Part × Answer) (hb : ∀ args p, P p → P (body args p).1) (hp : P p) :
    P (p.serveSupervisor c body) := by
  unfold Part.serveSupervisor
  split
  · split
    · dsimp only
      split
      · exact h.present _ _ _ (h.raiseDueStep _ (h.served _ _ hp))
      · exact h.present _ _ _ (hb _ _ (h.raiseDueStep _ (h.served _ _ hp)))
    · exact hp
  · exact hp

theorem Preserved.lockSupervision (h : Preserved P) (p : Part) (c : Cmd) (m : Moment)
    (body : Vector Word 6 → Part → Part × Answer) (hb : ∀ args p, P p → P (body args p).1) (hp : P p) :
    P (p.lockSupervision c m body) := by
  unfold Part.lockSupervision
  split
  · exact h.writeFrom _ _ _ _ _ hp
  · exact h.serveSupervisor _ _ _ hb hp

theorem Preserved.takeSupervisor (h : Preserved P) (p : Part) (c : Cmd) (free : Bool)
    (body : Vector Word 6 → Part → Part × Answer) (hb : ∀ args p, P p → P (body args p).1) (hp : P p) :
    P (p.takeSupervisor c free body) := by
  unfold Part.takeSupervisor
  split
  · split
    · split
      · exact h.present _ _ _ hp
      · exact h.present _ _ _ (hb _ _ hp)
    · exact hp
  · exact hp

/-- A command of the supervisor page carried out whole by another block: its write, or its taking. -/
theorem Preserved.supervised (h : Preserved P) (p : Part) (c : Cmd) (m : Moment) (free : Bool)
    (body : Vector Word 6 → Part → Part × Answer) (hb : ∀ args p, P p → P (body args p).1) (hp : P p) :
    P (match m with
      | .write slot high => p.startFrom .supervisor slot high c
      | .take => p.takeSupervisor c free body) := by
  split
  · exact h.writeFrom _ _ _ _ _ hp
  · exact h.takeSupervisor _ _ _ _ hb hp

theorem Preserved.serveChannel (h : Preserved P) (p : Part) (c : ChanId) (body : ChanClaim → Option (Part → Part))
    (hb : ∀ cl f p, body cl = some f → P p → P (f p)) (hp : P p) : P (p.serveChannel c body) := by
  unfold Part.serveChannel
  split
  · split
    · rename_i f hf
      split
      · exact hb _ _ _ hf (h.setClaim _ _ _ (h.served _ _ hp))
      · exact hp
    · exact hp
  · exact hp

theorem Preserved.takeItem (h : Preserved P) (p : Part) (body : TransferItem → Option (Part → Part))
    (hb : ∀ i f p, body i = some f → P p → P (f p)) (hp : P p) : P (p.takeItem body) := by
  unfold Part.takeItem
  split
  · split
    · rename_i f hf
      split
      · exact h.reportRest _ (hb _ _ _ hf (h.setInbox _ _ hp))
      · exact hp
    · exact hp
  · exact hp

theorem Preserved.takeReport (p : Part) (body : Report → Option (Part → Part))
    (hb : ∀ r rest f, p.table.reports = r :: rest → body r = some f → P (f (p.setReports rest))) (hp : P p) :
    P (p.takeReport body) := by
  unfold Part.takeReport
  split
  · rename_i r rest hr
    split
    · rename_i f hf
      split
      · exact hb _ _ _ hr hf
      · exact hp
    · exact hp
  · exact hp

theorem Preserved.serveRaised (h : Preserved P) (p : Part) (a : AgentId) (c : Cmd)
    (answer : Vector Word 6 → Part → Stage) (hp : P p) : P (p.serveRaised a c answer) := by
  unfold Part.serveRaised
  split
  · split
    · dsimp only
      split <;> exact h.setStage _ _ _ (h.served _ _ hp)
    · exact hp
  · exact hp

theorem Preserved.serveExpiry (h : Preserved P) (p : Part) (k : CountKind) (body : LockId → Party → Part → Part)
    (hb : ∀ l q p, P p → P (body l q p)) (hp : P p) : P (p.serveExpiry k body) := by
  unfold Part.serveExpiry
  split
  · split
    · exact hb _ _ _ (h.setExpiry _ _ (h.served _ _ hp))
    · exact hp
  · exact hp

theorem Preserved.appendExpiry (h : Preserved P) (p : Part) (k : CountKind) (hp : P p) : P (p.appendExpiry k) := by
  unfold Part.appendExpiry
  split
  · split
    · exact h.setExpiry _ _ (h.setRanOut _ _ hp)
    · exact hp
  · exact hp

theorem Preserved.purgeLocks (h : Preserved P) (a : AgentId) (ls : List LockId) (p : Part) (hp : P p) :
    P (ls.foldl (Part.purgeLock a) p) := by
  induction ls generalizing p with
  | nil => exact hp
  | cons l ls ih => exact ih _ (h.purgeLock _ _ _ hp)

theorem Preserved.clearLocks (h : Preserved P) (ls : List LockId) (p : Part) (hp : P p) :
    P (ls.foldl Part.clearLock p) := by
  induction ls generalizing p with
  | nil => exact hp
  | cons l ls ih => exact ih _ (h.clearLock _ _ hp)

/-- A property that the parts of the commands keep is kept by every command. -/
theorem Preserved.exec (h : Preserved P) (i : Instr) (s t : State) (hp : P s.part) (ht : exec i s = .next t)
    (he : ∀ a rest, i = .noDescriptorLeftReport → s.part.table.reports = .noDescriptorLeft a :: rest →
      P (Part.completeEviction a (s.part.setReports rest)))
    (hc : ∀ rest, i = .clearAgentStep → s.part.table.reports = .transferStep :: rest →
      P (s.part.setReports rest).completeClear) : P t.part := by
  have hk : ∀ g : Part → Part, P (g s.part) → Host.Outcome.next (s.onPart g) = (Host.Outcome.next t :
      Host.Outcome State Fault Refusal) → P t.part := by
    intro g hg e
    simp only [Host.Outcome.next.injEq] at e
    rw [← e]; exact hg
  cases i with
  | attach a m =>
    refine hk _ ?_ ht
    split
    · exact h.writeFrom _ _ _ _ _ hp
    · unfold Part.takeAttach
      split
      · split
        · exact h.present _ _ _ (h.attachBody _ _ hp)
        · exact hp
      · exact hp
  | detach a m =>
    refine hk _ ?_ ht
    split
    · exact h.writeFrom _ _ _ _ _ hp
    · unfold Part.takeDetach
      (repeat' split) <;>
        first
        | exact hp
        | exact h.present _ _ _ hp
        | exact h.setTableServing _ _ (h.setStage _ _ _ hp)
    · unfold Part.proceedDetach
      (repeat' split) <;>
        first
        | exact hp
        | exact h.setStage _ _ _ hp
        | exact h.setTableServing _ _ (h.present _ _ _ hp)
        | exact h.setTableServing _ _ (h.present _ _ _ (h.concludeDetach _ _ _ _ hp))
  | acquire a m => exact hk _ (h.lockCommand _ _ _ _ _ (fun args p => h.acquireBody p a args) hp) ht
  | cancelWait a m => exact hk _ (h.lockCommand _ _ _ _ _ (fun args p => h.cancelWaitBody p a args) hp) ht
  | release a m => exact hk _ (h.lockCommand _ _ _ _ _ (fun args p => h.releaseBody p a args) hp) ht
  | renew a m => exact hk _ (h.lockCommand _ _ _ _ _ (fun args p => h.renewBody p a args) hp) ht
  | downgrade a m => exact hk _ (h.lockCommand _ _ _ _ _ (fun args p => h.downgradeBody p a args) hp) ht
  | query a m =>
    refine hk _ (h.lockCommand _ _ _ _ _ (fun args p hq => ?_) hp) ht
    unfold Part.queryBody
    split <;> exact hq
  | post a m =>
    refine hk _ ?_ ht
    split
    · exact h.writeFrom _ _ _ _ _ hp
    · unfold Part.takePost
      split
      · split
        · split
          · exact h.present _ _ _ hp
          · split
            · exact h.present _ _ _ hp
            · rename_i hpa
              split
              · exact h.present _ _ _ hp
              · split
                · exact h.present _ _ _ (h.acceptPost _ _ _ _ _ hpa hp)
                · exact h.setTransferServing _ _ (h.setStage _ _ _ hp)
        · exact hp
      · exact hp
    · unfold Part.proceedPost
      split
      · split
        · exact h.setTransferServing _ _ (h.present _ _ _ hp)
        · split
          · exact h.setTransferServing _ _ (h.present _ _ _ hp)
          · rename_i hpa
            split
            · exact h.setTransferServing _ _ (h.present _ _ _ hp)
            · exact h.setTransferServing _ _ (h.present _ _ _ (h.acceptPost _ _ _ _ _ hpa hp))
        · exact hp
      · exact hp
  | withdraw a m =>
    refine hk _ ?_ ht
    split
    · exact h.writeFrom _ _ _ _ _ hp
    · unfold Part.takeWithdraw
      (repeat' split) <;>
        first
        | exact hp
        | exact h.present _ _ _ hp
        | exact h.present _ _ _ (h.withdrawBody _ _ _ hp)
  | enableAgent m => exact hk _ (h.supervised _ _ _ _ _ (fun args p => h.enableBody p args) hp) ht
  | disableAgent m => exact hk _ (h.supervised _ _ _ _ _ (fun args p => h.disableBody p args) hp) ht
  | evict m => exact hk _ (h.supervised _ _ _ _ _ (fun args p => h.evictBody p args) hp) ht
  | configureLock m => exact hk _ (h.lockSupervision _ _ _ _ (fun args p => h.configureBody p args) hp) ht
  | closeLock m => exact hk _ (h.lockSupervision _ _ _ _ (fun args p => h.closeBody p args) hp) ht
  | breakLock m => exact hk _ (h.lockSupervision _ _ _ _ (fun args p => h.breakBody p args) hp) ht
  | pauseChannel m => exact hk _ (h.supervised _ _ _ _ _ (fun args p => h.pauseBody p args) hp) ht
  | resumeChannel m => exact hk _ (h.supervised _ _ _ _ _ (fun args p => h.resumeBody p args) hp) ht
  | setTimebase m =>
    refine hk _ (h.supervised _ _ _ _ _ (fun args p hq => ?_) hp) ht
    unfold Part.setTimebaseBody
    split
    · exact hq
    · exact h.setPeriod _ _ hq
  | setBusWait m => exact hk _ (h.supervised _ _ _ _ _ (fun args p => h.setBusWaitBody p args) hp) ht
  | inspectLock m =>
    refine hk _ (h.lockSupervision _ _ _ _ (fun args p hq => ?_) hp) ht
    unfold Part.inspectLockBody
    split <;> exact hq
  | inspectRecord m =>
    refine hk _ (h.lockSupervision _ _ _ _ (fun args p hq => ?_) hp) ht
    unfold Part.inspectRecordBody
    dsimp only
    (repeat' split) <;> exact hq
  | inspectChannel m =>
    refine hk _ ?_ ht
    split
    · exact h.writeFrom _ _ _ _ _ hp
    · unfold Part.takeInspectChannel
      (repeat' split) <;> first | exact hp | exact h.setStage _ _ _ hp | exact h.present _ _ _ hp
    · unfold Part.proceedInspectChannel
      (repeat' split) <;> first | exact hp | exact h.present _ _ _ hp
  | inspectAgent m =>
    refine hk _ ?_ ht
    split
    · exact h.writeFrom _ _ _ _ _ hp
    · unfold Part.takeInspectAgent
      dsimp only
      (repeat' split) <;>
        first | exact hp | exact h.present _ _ _ hp | exact h.setTableServing _ _ (h.setStage _ _ _ hp)
    · unfold Part.proceedInspectAgent
      (repeat' split) <;>
        first | exact hp | exact h.setStage _ _ _ hp | exact h.setTableServing _ _ (h.present _ _ _ hp)
  | clear m =>
    refine hk _ ?_ ht
    split
    · exact h.writeFrom _ _ _ _ _ hp
    · unfold Part.takeClear
      (repeat' split) <;>
        first
        | exact hp
        | exact h.present _ _ _ hp
        | exact h.toTransfer _ _ (h.setTableServing _ _ (h.setStage _ _ _ (h.setClear _ _ (h.reserveSupervisor _ _ hp))))
    · refine h.takeItem _ _ (fun i f p hf hq => ?_) hp
      cases i <;> simp only [reduceCtorEq, Option.some.injEq] at hf
      subst hf
      exact h.setTableServing _ _ (h.present _ _ _ (h.setClear _ _ (h.giveStop _ _ _ (h.giveStop _ _ _ hq))))
  | undefinedCommandCode g slot v => exact hk _ (h.writeFrom _ _ _ _ _ hp) ht
  | collision g slot v => exact hk _ (h.writeFrom _ _ _ _ _ hp) ht
  | pop g slot v => exact hk _ (h.writeFrom _ _ _ _ _ hp) ht
  | controlWrite g slot v => exact hk _ (h.writeFrom _ _ _ _ _ hp) ht
  | registerWrite acc => exact hk _ (h.access _ _ hp) ht
  | busError acc => exact hk _ (h.access _ _ hp) ht
  | hardwareReset straps => exact hk (fun p => { Part.reset straps with fresh := p.fresh }) (h.reset _ _) ht
  | tickBoundary => exact hk _ (h.tick _ hp) ht
  | leaseRunsOut => exact hk _ (h.appendExpiry _ _ hp) ht
  | waitRunsOut => exact hk _ (h.appendExpiry _ _ hp) ht
  | leaseExpiry => exact hk _ (h.serveExpiry _ _ _ (fun l q p => h.expireLease p l q) hp) ht
  | waitExpiry => exact hk _ (h.serveExpiry _ _ _ (fun l q p => h.expireWait p l q) hp) ht
  | purge =>
    refine hk _ ?_ ht
    split
    · split
      · exact h.toTable _ _ (h.purgeLocks _ _ _ (h.setPurges _ _ (h.served _ _ hp)))
      · exact hp
    · exact hp
  | postLockCheck a => exact hk _ (h.serveRaised _ _ _ _ hp) ht
  | detachRecordCount a => exact hk _ (h.serveRaised _ _ _ _ hp) ht
  | inspectAgentRecordCount =>
    refine hk _ ?_ ht
    unfold Part.countForInspection
    (repeat' split) <;> first | exact hp | exact h.setStage _ _ _ (h.raiseDueStep _ (h.served _ _ hp))
  | channelAcquisition c =>
    refine hk _ (h.serveChannel _ _ _ (fun cl f p hf hq => ?_) hp) ht
    cases cl <;> simp only [reduceCtorEq, Option.some.injEq] at hf
    subst hf
    exact h.acquireFor _ _ _ _ _ _ _ hq
  | channelWaiterRemoval c =>
    refine hk _ (h.serveChannel _ _ _ (fun cl f p hf hq => ?_) hp) ht
    cases cl <;> simp only [reduceCtorEq, Option.some.injEq] at hf
    subst hf
    exact h.removeWaiterFor _ _ _ hq
  | channelRelease c =>
    refine hk _ (h.serveChannel _ _ _ (fun cl f p hf hq => ?_) hp) ht
    cases cl <;> simp only [reduceCtorEq, Option.some.injEq] at hf
    subst hf
    exact h.releaseFor _ _ _ hq
  | acquireGuardCheck c =>
    refine hk _ (h.serveChannel _ _ _ (fun cl f p hf hq => ?_) hp) ht
    cases cl <;> simp only [reduceCtorEq, Option.some.injEq] at hf
    subst hf
    exact h.toTransfer _ _ hq
  | fenceGuardCheck c =>
    refine hk _ (h.serveChannel _ _ _ (fun cl f p hf hq => ?_) hp) ht
    cases cl <;> simp only [reduceCtorEq, Option.some.injEq] at hf
    subst hf
    exact h.toTransfer _ _ hq
  | acquisitionAnswer =>
    refine hk _ (h.takeItem _ _ (fun i f p hf hq => ?_) hp) ht
    cases i <;> simp only [reduceCtorEq, Option.some.injEq] at hf
    subst hf
    exact h.onAcquisition _ _ _ hq
  | channelGrantReport =>
    refine hk _ (h.takeItem _ _ (fun i f p hf hq => ?_) hp) ht
    cases i <;> simp only [reduceCtorEq, Option.some.injEq] at hf
    subst hf
    exact h.onGrantReport _ _ _ hq
  | channelWaitEndedReport =>
    refine hk _ (h.takeItem _ _ (fun i f p hf hq => ?_) hp) ht
    cases i <;> simp only [reduceCtorEq, Option.some.injEq] at hf
    subst hf
    exact h.onWaitEnded _ _ _ hq
  | holdingEndedReport =>
    refine hk _ (h.takeItem _ _ (fun i f p hf hq => ?_) hp) ht
    cases i <;> simp only [reduceCtorEq, Option.some.injEq] at hf
    subst hf
    exact h.onHoldingEnded _ _ _ hq
  | waiterRemovalAnswer =>
    refine hk _ (h.takeItem _ _ (fun i f p hf hq => ?_) hp) ht
    cases i <;> simp only [reduceCtorEq, Option.some.injEq] at hf
    subst hf
    exact h.onRemoval _ _ _ hq
  | guardCheckAnswer =>
    refine hk _ (h.takeItem _ _ (fun i f p hf hq => ?_) hp) ht
    cases i <;> simp only [reduceCtorEq, Option.some.injEq] at hf
    subst hf
    exact h.onGuard _ _ _ hq
  | releaseAnswer =>
    refine hk _ (h.takeItem _ _ (fun i f p hf hq => ?_) hp) ht
    cases i <;> simp only [reduceCtorEq, Option.some.injEq] at hf
    subst hf
    exact h.onRelease _ _ hq
  | burstOutcome =>
    refine hk _ (h.takeItem _ _ (fun i f p hf hq => ?_) hp) ht
    cases i <;> simp only [reduceCtorEq, Option.some.injEq] at hf
    subst hf
    exact h.onBurst _ _ _ hq
  | withdrawAll =>
    refine hk _ (h.takeItem _ _ (fun i f p hf hq => ?_) hp) ht
    cases i <;> simp only [reduceCtorEq, Option.some.injEq] at hf
    subst hf
    exact h.onWithdrawAll _ _ hq
  | purgeDoneReport =>
    refine hk _ (Preserved.takeReport _ _ (fun r rest f _ hf => ?_) hp) ht
    cases r <;> simp only [reduceCtorEq, Option.some.injEq] at hf
    subst hf
    unfold Part.sendWithdrawAll
    split
    · exact h.toTransfer _ _ (h.setEvictions _ _ (h.setReports _ _ hp))
    · exact h.setReports _ _ hp
  | noDescriptorLeftReport =>
    refine hk _ (Preserved.takeReport _ _ (fun r rest f hr hf => ?_) hp) ht
    cases r <;> simp only [reduceCtorEq, Option.some.injEq] at hf
    subst hf
    exact he _ _ rfl hr
  | channelsAtRestReport =>
    refine hk _ (Preserved.takeReport _ _ (fun r rest f _ hf => ?_) hp) ht
    cases r <;> simp only [reduceCtorEq, Option.some.injEq] at hf
    subst hf
    exact h.setClear _ _ (h.setPurges _ _ (h.setReports _ _ hp))
  | clearLockTableStep =>
    refine hk _ ?_ ht
    split
    · exact h.raiseHeld _ (h.toTable _ _ (h.setClear _ _ (h.clearLocks _ _ (h.served _ _ hp))))
    · exact hp
  | clearTransferStep =>
    refine hk _ (h.takeItem _ _ (fun i f p hf hq => ?_) hp) ht
    cases i <;> simp only [reduceCtorEq, Option.some.injEq] at hf
    subst hf
    exact h.clearTransfer _ hq
  | clearAgentStep =>
    refine hk _ (Preserved.takeReport _ _ (fun r rest f hr hf => ?_) hp) ht
    cases r <;> simp only [reduceCtorEq, Option.some.injEq] at hf
    subst hf
    exact hc _ rfl hr
  | busGrant g => exact hk _ (h.grant _ _ hp) ht
  | busTimeout =>
    refine hk _ ?_ ht
    (repeat' split) <;> first | exact hp | exact h.endBurst _ _ _ hp
  | readCycleAnswered answer =>
    refine hk _ ?_ ht
    split
    · rename_i hph _
      exact h.readData _ _ _ hph hp
    · exact h.endBurst _ _ _ hp
    · exact hp
  | writeCycleAnswered answer =>
    refine hk _ ?_ ht
    split
    · rename_i hph _
      exact h.writeDone _ _ hph hp
    · exact h.endBurst _ _ _ hp
    · exact hp
  | lockTableStepReport =>
    refine hk _ (Preserved.takeReport _ _ (fun r rest f _ hf => ?_) hp) ht
    cases r <;> simp only [reduceCtorEq, Option.some.injEq] at hf
    subst hf
    exact h.toTransfer _ _ (h.setClear _ _ (h.setReports _ _ hp))

end Sys2Proof.Machine
end

