-- ==== Sys2Proof/Laws/SupervisorRoom.lean ====
section
/-! SUPPORT. What the operations of the coordinator make of the places of the supervisor's queue (R84, R137) and of a CLEAR's
requests and reports: `KeepsPlaces p q` says that from `p` to `q` every place taken or notice due is accounted for and no CLEAR
moves on. It is shown of the shared operations and of the commands that take a place or give one back; only the stages of a
CLEAR and of an eviction are not such steps. -/

namespace Sys2Proof.Machine

/-! ### What is due -/

/-- The CLOSING locks. -/
def Part.closingLocks (p : Part) : Nat := allLocks.countP fun l => (p.lock l).state == .closing

/-- The pending pauses. -/
def Part.pausesPending (p : Part) : Nat := (p.chan .c0).pausePending.toNat + (p.chan .c1).pausePending.toNat

/-- The operations in flight, a CLEAR apart, that will end with a notice to the supervisor. -/
def Part.noticesDue (p : Part) : Nat := p.table.evictions.length + p.closingLocks + p.pausesPending

theorem Part.supervisorOwed_eq (p : Part) : p.supervisorOwed = p.noticesDue + p.clearing.toNat := by
  unfold Part.supervisorOwed Part.noticesDue Part.closingLocks Part.pausesPending
  omega

/-- A CLEAR, its requests and its reports stand in `q` as in `p`. -/
structure ClearKept (p q : Part) : Prop where
  phase : q.table.clear = p.table.clear
  stop : q.transfer.inbox.count .clearStop = p.transfer.inbox.count .clearStop
  transfer : q.transfer.inbox.count .clearTransferStep = p.transfer.inbox.count .clearTransferStep
  rest : q.table.reports.count .channelsAtRest = p.table.reports.count .channelsAtRest
  locks : q.table.reports.count .lockTableStep = p.table.reports.count .lockTableStep
  agents : q.table.reports.count .transferStep = p.table.reports.count .transferStep

/-- Whatever `k` places more than are due `p` has set aside in the supervisor's queue, `q` has; and the queue is not
overfilled. -/
def RoomLeft (p q : Part) : Prop :=
  ∀ k : Nat, p.noticesDue + k ≤ (p.queue .supervisor).reserved →
    (p.queue .supervisor).reserved + (p.queue .supervisor).notices.length ≤ 16 →
    q.noticesDue + k ≤ (q.queue .supervisor).reserved ∧
      (q.queue .supervisor).reserved + (q.queue .supervisor).notices.length ≤ 16

/-- From `p` to `q` the places of the supervisor's queue are accounted for, and no CLEAR moves on. -/
structure KeepsPlaces (p q : Part) : Prop where
  room : RoomLeft p q
  clear : ClearKept p q

theorem RoomLeft.trans {p q r : Part} (h : RoomLeft p q) (k : RoomLeft q r) : RoomLeft p r :=
  fun n a b => k n (h n a b).1 (h n a b).2

theorem ClearKept.trans {p q r : Part} (h : ClearKept p q) (k : ClearKept q r) : ClearKept p r :=
  ⟨k.phase.trans h.phase, k.stop.trans h.stop, k.transfer.trans h.transfer, k.rest.trans h.rest, k.locks.trans h.locks,
    k.agents.trans h.agents⟩

theorem KeepsPlaces.refl (p : Part) : KeepsPlaces p p := ⟨fun _ a b => ⟨a, b⟩, rfl, rfl, rfl, rfl, rfl, rfl⟩

theorem KeepsPlaces.trans {p q r : Part} (h : KeepsPlaces p q) (k : KeepsPlaces q r) : KeepsPlaces p r :=
  ⟨h.room.trans k.room, h.clear.trans k.clear⟩

/-- A state whose CLEAR stands as before is in step where the state before was. -/
theorem ClearKept.inStep {p q : Part} (h : ClearKept p q) (k : p.ClearInStep) : q.ClearInStep :=
  ⟨by rw [h.stop, h.phase, k.stop], by rw [h.rest, h.phase, k.rest], by rw [h.locks, h.phase, k.locks],
    by rw [h.transfer, h.phase, k.transfer], by rw [h.agents, h.phase, k.agents]⟩

theorem KeepsPlaces.roomKept {p q : Part} (h : KeepsPlaces p q) (k : p.SupervisorRoomKept) : q.SupervisorRoomKept := by
  have ho := k.owed
  rw [Part.supervisorOwed_eq] at ho
  obtain ⟨h1, h2⟩ := h.room _ ho k.room
  refine ⟨?_, h2, h.clear.inStep k.clear⟩
  rw [Part.supervisorOwed_eq, show q.clearing = p.clearing by unfold Part.clearing; rw [h.clear.phase]]
  exact h1

/-! ### Ways to keep the places -/

theorem Part.closingLocks_same {p q : Part} (h : ∀ l, (q.lock l).state = (p.lock l).state) :
    q.closingLocks = p.closingLocks := by
  unfold Part.closingLocks
  simp only [h]

theorem Part.noticesDue_same {p q : Part} (h1 : q.table.evictions.length = p.table.evictions.length)
    (h2 : ∀ l, (q.lock l).state = (p.lock l).state)
    (h3 : ∀ c, (q.chan c).pausePending = (p.chan c).pausePending) : q.noticesDue = p.noticesDue := by
  unfold Part.noticesDue Part.pausesPending
  rw [h1, Part.closingLocks_same h2, h3, h3]

/-- The CLOSING locks where one lock alone may have changed its state. -/
theorem Part.closingLocks_one {p q : Part} {l : LockId} (h : ∀ l', l' ≠ l → (q.lock l').state = (p.lock l').state) :
    q.closingLocks + (if (p.lock l).state = .closing then 1 else 0) =
      p.closingLocks + (if (q.lock l).state = .closing then 1 else 0) := by
  have gen : ∀ ls : List LockId, ls.Nodup →
      ls.countP (fun l => (q.lock l).state == .closing) +
          (if l ∈ ls then if (p.lock l).state = .closing then 1 else 0 else 0) =
        ls.countP (fun l => (p.lock l).state == .closing) +
          (if l ∈ ls then if (q.lock l).state = .closing then 1 else 0 else 0) := by
    intro ls hn
    induction ls with
    | nil => simp
    | cons x xs ih =>
      obtain ⟨h1, h2⟩ := List.nodup_cons.1 hn
      have := ih h2
      by_cases hx : x = l
      · subst hx
        simp [h1, List.countP_cons] at this ⊢
        omega
      · have hx' : (l = x) ↔ False := by simp [Ne.symm hx]
        simp only [List.countP_cons, List.mem_cons, hx', false_or, h x hx]
        omega
  have := gen allLocks allLocks_nodup
  simp only [mem_allLocks, if_true] at this
  exact this

theorem ClearKept.of_same {p q : Part} (h1 : q.table.clear = p.table.clear := by simp)
    (h2 : q.transfer.inbox = p.transfer.inbox := by simp) (h3 : q.table.reports = p.table.reports := by simp) :
    ClearKept p q :=
  ⟨h1, by rw [h2], by rw [h2], by rw [h3], by rw [h3], by rw [h3]⟩

/-- Items other than a CLEAR's handed to the transfer engine. -/
theorem ClearKept.of_items {p q : Part} {xs : List TransferItem} (h1 : q.table.clear = p.table.clear)
    (h2 : q.transfer.inbox = p.transfer.inbox ++ xs) (h3 : q.table.reports = p.table.reports)
    (h4 : .clearStop ∉ xs) (h5 : .clearTransferStep ∉ xs) : ClearKept p q :=
  ⟨h1, by rw [h2, List.count_append, List.count_eq_zero_of_not_mem h4]; rfl,
    by rw [h2, List.count_append, List.count_eq_zero_of_not_mem h5]; rfl, by rw [h3], by rw [h3], by rw [h3]⟩

/-- Nothing that the supervisor's queue owes changes, and the queue keeps its places. -/
theorem RoomLeft.of_same {p q : Part} (h1 : q.table.evictions.length = p.table.evictions.length := by simp)
    (h2 : ∀ l, (q.lock l).state = (p.lock l).state := by simp)
    (h3 : ∀ c, (q.chan c).pausePending = (p.chan c).pausePending := by simp)
    (h4 : (q.queue .supervisor).reserved = (p.queue .supervisor).reserved := by simp)
    (h5 : (q.queue .supervisor).notices.length ≤ (p.queue .supervisor).notices.length := by simp) : RoomLeft p q := by
  intro k a b
  have := Part.noticesDue_same h1 h2 h3
  omega

theorem KeepsPlaces.of_same {p q : Part} (h1 : q.table.clear = p.table.clear := by simp)
    (h2 : q.transfer.inbox = p.transfer.inbox := by simp) (h3 : q.table.reports = p.table.reports := by simp)
    (h4 : q.table.evictions = p.table.evictions := by simp) (h5 : ∀ l, (q.lock l).state = (p.lock l).state := by simp)
    (h6 : ∀ c, (q.chan c).pausePending = (p.chan c).pausePending := by simp)
    (h7 : q.queue .supervisor = p.queue .supervisor := by simp) : KeepsPlaces p q :=
  ⟨RoomLeft.of_same (by rw [h4]) h5 h6 (by rw [h7]) (by rw [h7]), ClearKept.of_same h1 h2 h3⟩

/-- One notice less is due, and it has been delivered. -/
theorem RoomLeft.of_delivered {p q : Part} {n : Notice} (h : q.noticesDue + 1 = p.noticesDue)
    (hq : q.queue .supervisor = Queue.deliver n 1 (p.queue .supervisor)) : RoomLeft p q := by
  intro k a b
  rw [hq, Queue.deliver_reserved, Queue.deliver_notices, List.length_append, List.length_singleton]
  omega

/-- One notice more is due, and a place has been set aside for it where there was room. -/
theorem RoomLeft.of_reserved {p q : Part} (h : q.noticesDue = p.noticesDue + 1)
    (hr : (p.queue .supervisor).reserved + (p.queue .supervisor).notices.length + 1 ≤ 16)
    (hq : q.queue .supervisor = Queue.reserve 1 (p.queue .supervisor)) : RoomLeft p q := by
  intro k a b
  rw [hq, Queue.reserve_reserved, Queue.reserve_notices]
  omega

theorem Part.hasRoom_iff (p : Part) (g : PageId) (k : Nat) :
    p.hasRoom g k = true ↔ (p.queue g).reserved + (p.queue g).notices.length + k ≤ 16 := by
  unfold Part.hasRoom Queue.hasRoom Config.queuePlaces
  exact decide_eq_true_iff

/-! ### Updates, notices and lists -/

theorem Part.setLock_keepsPlaces (p : Part) (l : LockId) (e : LockEntry) (h : e.state = (p.lock l).state) :
    KeepsPlaces p (p.setLock l e) := by
  refine .of_same (h5 := fun l' => ?_)
  simp only [Part.lock_setLock]
  split <;> simp_all

theorem Part.onChan_keepsPlaces (p : Part) (c : ChanId) (f : Channel → Channel)
    (h : (f (p.chan c)).pausePending = (p.chan c).pausePending) : KeepsPlaces p (p.onChan c f) := by
  refine .of_same (h6 := fun d => ?_)
  simp only [Part.chan_onChan]
  split <;> simp_all

theorem Part.toTransfer_keepsPlaces (p : Part) (i : TransferItem) (h1 : i ≠ .clearStop) (h2 : i ≠ .clearTransferStep) :
    KeepsPlaces p (p.toTransfer i) :=
  ⟨.of_same, .of_items (xs := [i]) (by simp) (by simp) (by simp) (by simp [h1.symm]) (by simp [h2.symm])⟩

theorem Part.toTable_keepsPlaces (p : Part) (r : Report) (h1 : r ≠ .channelsAtRest) (h2 : r ≠ .lockTableStep)
    (h3 : r ≠ .transferStep) : KeepsPlaces p (p.toTable r) :=
  ⟨.of_same, by simp, by simp, by simp, by simp [h1], by simp [h2], by simp [h3]⟩

theorem Part.giveBack_keepsPlaces (p : Part) (a : AgentId) (k : Nat) : KeepsPlaces p (p.giveBack (.agent a) k) := .of_same

theorem Part.reserve_keepsPlaces (p : Part) (a : AgentId) (k : Nat) : KeepsPlaces p (p.reserve (.agent a) k) := .of_same

theorem Part.notify_keepsPlaces (p : Part) (a : AgentId) (n : Notice) (k : Nat) : KeepsPlaces p (p.notify a n k) := .of_same

theorem Part.setAgent_keepsPlaces (p : Part) (a : AgentId) (e : AgentEntry) : KeepsPlaces p (p.setAgent a e) := .of_same

theorem Part.setPage_keepsPlaces (p : Part) (g : PageId) (pg : Page) : KeepsPlaces p (p.setPage g pg) := .of_same

theorem Part.setMaster_keepsPlaces (p : Part) (m : Master) : KeepsPlaces p (p.setMaster m) := .of_same

theorem Part.freshen_keepsPlaces (p : Part) : KeepsPlaces p p.freshen := .of_same

theorem Part.endBurst_keepsPlaces (p : Part) (c : ChanId) (r : BurstResult) : KeepsPlaces p (p.endBurst c r) :=
  (p.setMaster_keepsPlaces _).trans (Part.toTransfer_keepsPlaces _ _ (by simp) (by simp))

/-! ### Locks -/

theorem grantReports_clearless (hs : List Holding) :
    .clearStop ∉ grantReports hs ∧ .clearTransferStep ∉ grantReports hs := by
  constructor <;>
    · simp only [grantReports, List.mem_filterMap, not_exists, not_and]
      intro x _
      split <;> simp

theorem Part.runPass_keepsPlaces (p : Part) (l : LockId) : KeepsPlaces p (p.runPass l).1 := by
  obtain ⟨h1, _, ⟨_, h4⟩, h5⟩ := p.runPass_spec l
  refine ⟨.of_same (h2 := fun l' => ?_) (h4 := by rw [h5]) (h5 := by rw [h5]),
    .of_items (by simp) h4 (by simp) (grantReports_clearless _).1 (grantReports_clearless _).2⟩
  rw [h1]
  split
  · rename_i e
    subst e
    simp
  · rfl

theorem Part.drain_keepsPlaces (p : Part) (l : LockId) (h : (p.lock l).state = .closing) : KeepsPlaces p (p.drain l) := by
  have hc := Part.closingLocks_one (p := p) (q := p.drain l) (l := l) fun l' hl => by simp [hl]
  rw [if_pos h, if_neg (by simp)] at hc
  refine ⟨.of_delivered (n := .lockClosed l) ?_ (by simp), .of_same⟩
  unfold Part.noticesDue Part.pausesPending
  simp only [Part.drain_keeps]
  omega

theorem Part.settle_keepsPlaces (p : Part) (l : LockId) : KeepsPlaces p (p.settle l).1 := by
  unfold Part.settle
  split
  · exact p.runPass_keepsPlaces l
  · rename_i h
    split
    · exact p.drain_keepsPlaces l h
    · exact .refl p
  · exact .refl p

theorem Part.reportRevoked_keepsPlaces (l : LockId) (why : RevokeReason) (p : Part) (h : Holding) :
    KeepsPlaces p (Part.reportRevoked l why p h) := by
  unfold Part.reportRevoked
  split
  · exact p.notify_keepsPlaces _ _ _
  · exact p.toTransfer_keepsPlaces _ (by simp) (by simp)

theorem Part.reportCancelled_keepsPlaces (l : LockId) (why : CancelReason) (p : Part) (w : Waiting) :
    KeepsPlaces p (Part.reportCancelled l why p w) := by
  unfold Part.reportCancelled
  split
  · exact p.notify_keepsPlaces _ _ _
  · exact p.toTransfer_keepsPlaces _ (by simp) (by simp)

theorem Part.reportExpired_keepsPlaces (l : LockId) (p : Part) (w : Waiting) : KeepsPlaces p (Part.reportExpired l p w) := by
  unfold Part.reportExpired
  split
  · exact p.notify_keepsPlaces _ _ _
  · exact p.toTransfer_keepsPlaces _ (by simp) (by simp)

theorem KeepsPlaces.foldl {α : Type} (f : Part → α → Part) (h : ∀ p x, KeepsPlaces p (f p x)) (xs : List α) (p : Part) :
    KeepsPlaces p (xs.foldl f p) := by
  induction xs generalizing p with
  | nil => exact .refl p
  | cons x xs ih => exact (h p x).trans (ih _)

theorem Part.purgeLock_keepsPlaces (a : AgentId) (p : Part) (l : LockId) : KeepsPlaces p (Part.purgeLock a p l) := by
  unfold Part.purgeLock
  dsimp only
  split
  · exact .refl p
  · exact ((p.setLock_keepsPlaces _ _ (by rfl)).trans (Part.giveBack_keepsPlaces _ _ _)).trans (Part.settle_keepsPlaces _ _)

theorem Part.clearLock_keepsPlaces (p : Part) (l : LockId) : KeepsPlaces p (p.clearLock l) := by
  unfold Part.clearLock
  dsimp only
  split
  · rename_i h
    exact (p.setLock_keepsPlaces _ _ (by rfl)).trans (Part.drain_keepsPlaces _ _ (by simpa using h))
  · exact (p.setLock_keepsPlaces _ _ (by rfl)).trans (Part.runPass_keepsPlaces _ _)
  · exact p.setLock_keepsPlaces _ _ (by rfl)

/-! ### Channels -/

theorem Part.raiseClaim_keepsPlaces (p : Part) (c : ChanId) (cl : ChanClaim) (f : InFlight) :
    KeepsPlaces p (p.raiseClaim c cl f) :=
  (p.onChan_keepsPlaces c (fun ch => { ch with inFlight := f }) rfl).trans .of_same

theorem Part.handBurst_keepsPlaces (p : Part) (c : ChanId) (d : Descriptor) : KeepsPlaces p (p.handBurst c d) :=
  (p.onChan_keepsPlaces c (fun ch => { ch with inFlight := .burst }) rfl).trans .of_same

/-- A pending pause takes effect: the notice due has been delivered. -/
theorem Part.pauseNow_keepsPlaces (p : Part) (c : ChanId) (h : (p.chan c).pausePending = true) :
    KeepsPlaces p (p.pauseNow c) := by
  refine ⟨.of_delivered (n := .channelPaused c) ?_ (by simp), .of_same⟩
  unfold Part.noticesDue Part.pausesPending
  rw [Part.closingLocks_same (p := p) (by simp)]
  cases c <;> simp [h] <;> omega

theorem Part.beginHead_keepsPlaces (p : Part) (c : ChanId) (d : Descriptor) : KeepsPlaces p (p.beginHead c d) := by
  unfold Part.beginHead
  split
  · exact (p.onChan_keepsPlaces c _ rfl).trans (Part.handBurst_keepsPlaces _ _ _)
  · exact (p.onChan_keepsPlaces c _ rfl).trans (Part.raiseClaim_keepsPlaces _ _ _ _)
  · exact (p.onChan_keepsPlaces c _ rfl).trans (Part.raiseClaim_keepsPlaces _ _ _ _)

theorem Part.takeHead_keepsPlaces (p : Part) (c : ChanId) : KeepsPlaces p (p.takeHead c) := by
  unfold Part.takeHead
  split
  · exact .refl p
  · split
    · refine (p.onChan_keepsPlaces c _ ?_).trans (Part.beginHead_keepsPlaces _ _ _)
      simp only [Channel.onHead]
      split <;> rfl
    · exact .refl p

theorem Part.afterEnd_keepsPlaces (p : Part) (c : ChanId) : KeepsPlaces p (p.afterEnd c) := by
  unfold Part.afterEnd
  dsimp only
  (repeat' split)
  · exact .refl p
  · exact p.onChan_keepsPlaces c _ rfl
  · rename_i h
    exact (p.onChan_keepsPlaces c _ rfl).trans (Part.pauseNow_keepsPlaces _ _ h)
  · exact (p.onChan_keepsPlaces c _ rfl).trans (Part.takeHead_keepsPlaces _ _)

theorem Part.reportIfNone_keepsPlaces (p : Part) (a : AgentId) : KeepsPlaces p (p.reportIfNone a) := by
  unfold Part.reportIfNone
  split
  · have h : KeepsPlaces p (p.setWithdrawing (p.transfer.withdrawing.erase a)) := .of_same
    exact h.trans (Part.toTable_keepsPlaces _ _ (by simp) (by simp) (by simp))
  · exact .refl p

theorem Part.finishEnd_keepsPlaces (p : Part) (c : ChanId) (o : EndOutcome) : KeepsPlaces p (p.finishEnd c o) := by
  unfold Part.finishEnd
  split
  · exact .refl p
  · exact (((p.notify_keepsPlaces _ _ _).trans (Part.onChan_keepsPlaces _ c _ (by simp))).trans
      (Part.reportIfNone_keepsPlaces _ _)).trans (Part.afterEnd_keepsPlaces _ _)

theorem Part.endDescriptor_keepsPlaces (p : Part) (c : ChanId) (o : EndOutcome) : KeepsPlaces p (p.endDescriptor c o) := by
  unfold Part.endDescriptor
  split
  · exact (p.onChan_keepsPlaces c _ rfl).trans (Part.raiseClaim_keepsPlaces _ _ _ _)
  · exact p.finishEnd_keepsPlaces c o

theorem Part.endFault_keepsPlaces (p : Part) (c : ChanId) (r : TransferFault) : KeepsPlaces p (p.endFault c r) :=
  p.endDescriptor_keepsPlaces _ _

theorem Part.afterGuard_keepsPlaces (p : Part) (c : ChanId) : KeepsPlaces p (p.afterGuard c) := by
  unfold Part.afterGuard
  (repeat' split)
  · rename_i h
    exact p.pauseNow_keepsPlaces c h
  · exact p.handBurst_keepsPlaces _ _
  · exact p.endDescriptor_keepsPlaces _ _
  · exact .refl p

theorem Part.goOn_keepsPlaces (p : Part) (c : ChanId) : KeepsPlaces p (p.goOn c) := by
  unfold Part.goOn
  (repeat' split)
  · exact p.raiseClaim_keepsPlaces _ _ _
  · exact p.afterGuard_keepsPlaces _
  · exact .refl p

theorem Part.granted_keepsPlaces (p : Part) (c : ChanId) (t : Word) : KeepsPlaces p (p.granted c t) := by
  unfold Part.granted
  dsimp only
  split
  · rename_i h
    exact (p.onChan_keepsPlaces c _ rfl).trans (Part.pauseNow_keepsPlaces _ _ h)
  · exact ((p.onChan_keepsPlaces c _ rfl).trans (Part.onChan_keepsPlaces _ c _ rfl)).trans (Part.goOn_keepsPlaces _ _)

theorem Part.raiseRemoval_keepsPlaces (p : Part) (c : ChanId) : KeepsPlaces p (p.raiseRemoval c) := by
  unfold Part.raiseRemoval
  split
  · exact p.raiseClaim_keepsPlaces _ _ _
  · exact .refl p

theorem Part.giveStop_keepsPlaces (p : Part) (c : ChanId) (r : StopReason) : KeepsPlaces p (p.giveStop c r) := by
  unfold Part.giveStop
  dsimp only
  (repeat' split) <;> try exact .refl p
  · exact (p.onChan_keepsPlaces c _ rfl).trans (Part.raiseRemoval_keepsPlaces _ _)
  · exact p.onChan_keepsPlaces c _ rfl
  · exact p.onChan_keepsPlaces c _ rfl
  · exact (p.onChan_keepsPlaces c _ rfl).trans (Part.endDescriptor_keepsPlaces _ _ _)

theorem Part.stopFor_keepsPlaces (p : Part) (a : AgentId) (c : ChanId) : KeepsPlaces p (p.stopFor a c) := by
  unfold Part.stopFor
  (repeat' split) <;> try exact .refl p
  exact p.giveStop_keepsPlaces _ _

/-! ### The commands that take a place of the supervisor's queue, or give one back -/

theorem Part.evictBody_keepsPlaces (p : Part) (args : Vector Word 6) : KeepsPlaces p (Part.evictBody args p).1 := by
  unfold Part.evictBody
  dsimp only
  (repeat' split) <;> try exact .refl p
  rename_i h
  rw [Bool.not_eq_true, Bool.not_eq_false', Part.hasRoom_iff] at h
  refine ⟨.of_reserved ?_ h (by simp), .of_same⟩
  unfold Part.noticesDue Part.pausesPending
  rw [Part.closingLocks_same (p := p) (by simp)]
  simp
  omega

theorem Part.closing_keepsPlaces (p : Part) (l : LockId) (h : (p.lock l).state = .opened)
    (hr : p.hasRoom .supervisor 1 = true) :
    KeepsPlaces p ((p.reserve .supervisor 1).setLock l { p.lock l with state := .closing, waiters := [] }) := by
  generalize hq : (p.reserve .supervisor 1).setLock l { p.lock l with state := .closing, waiters := [] } = q
  have hc := Part.closingLocks_one (p := p) (q := q) (l := l) fun l' hl => by rw [← hq]; simp [hl]
  have hl : (q.lock l).state = .closing := by rw [← hq]; simp
  rw [if_neg (by simp [h]), if_pos hl] at hc
  refine ⟨.of_reserved ?_ ((p.hasRoom_iff _ _).1 hr) (by rw [← hq]; simp), by rw [← hq]; exact .of_same⟩
  unfold Part.noticesDue Part.pausesPending
  rw [← Nat.add_zero q.closingLocks, hc, ← hq]
  simp
  omega

theorem Part.closeBody_keepsPlaces (p : Part) (args : Vector Word 6) : KeepsPlaces p (Part.closeBody args p).1 := by
  unfold Part.closeBody
  dsimp only
  split
  · exact .refl p
  · rename_i l _
    split
    · exact .refl p
    · rename_i ho
      split
      · exact .refl p
      · rename_i hr
        have h := (p.closing_keepsPlaces l (by simpa using ho) (by simpa using hr)).trans
          (KeepsPlaces.foldl _ (Part.reportCancelled_keepsPlaces l .closed) (p.lock l).waiters _)
        split
        · exact h.trans (Part.drain_keepsPlaces _ _ (by simp))
        · exact h

theorem Part.breakBody_keepsPlaces (p : Part) (args : Vector Word 6) : KeepsPlaces p (Part.breakBody args p).1 := by
  unfold Part.breakBody
  dsimp only
  split
  · exact .refl p
  · rename_i l _
    split
    · exact .refl p
    · have h := ((p.setLock_keepsPlaces l { p.lock l with holders := [], waiters := [] } rfl).trans
        (KeepsPlaces.foldl _ (Part.reportRevoked_keepsPlaces l .broken) (p.lock l).holders _)).trans
        (KeepsPlaces.foldl _ (Part.reportCancelled_keepsPlaces l .broken) (p.lock l).waiters _)
      split
      · rename_i hc
        exact h.trans (Part.drain_keepsPlaces _ _ (by simpa using hc))
      · exact h

theorem Part.configureBody_keepsPlaces (p : Part) (args : Vector Word 6) : KeepsPlaces p (Part.configureBody args p).1 := by
  unfold Part.configureBody
  dsimp only
  (repeat' split) <;> try exact .refl p
  rename_i r _ hd
  dsimp only
  generalize hq : Part.setLock _ _ _ = q
  have hc := Part.closingLocks_one (p := p) (q := q) (l := r.lock) fun l' hl => by rw [← hq]; simp [hl]
  have hl : (q.lock r.lock).state = .opened := by rw [← hq]; simp
  have hd : (p.lock r.lock).state = .disabled := by simpa using hd
  rw [if_neg (by simp [hd]), if_neg (by simp [hl])] at hc
  have hn : q.noticesDue = p.noticesDue := by
    unfold Part.noticesDue Part.pausesPending
    rw [← Nat.add_zero q.closingLocks, hc, ← hq]
    simp
  refine ⟨fun k a b => ?_, by rw [← hq]; exact .of_same⟩
  rw [hn, show q.queue .supervisor = p.queue .supervisor by rw [← hq]; simp]
  exact ⟨a, b⟩

theorem Part.pauseBody_keepsPlaces (p : Part) (args : Vector Word 6) : KeepsPlaces p (Part.pauseBody args p).1 := by
  unfold Part.pauseBody
  dsimp only
  split
  · exact .refl p
  · rename_i c _
    split
    · exact .refl p
    · rename_i hs
      split
      · exact .refl p
      · rename_i hr
        rw [Bool.not_eq_true, Bool.not_eq_false', Part.hasRoom_iff] at hr
        have hp : (p.chan c).pausePending = false := by simpa using fun h => hs (Or.inr h)
        have h : KeepsPlaces p ((p.reserve .supervisor 1).onChan c fun ch => { ch with pausePending := true }) := by
          refine ⟨.of_reserved ?_ hr (by simp), .of_same⟩
          unfold Part.noticesDue Part.pausesPending
          rw [Part.closingLocks_same (p := p) (by simp)]
          cases c <;> simp [hp] <;> omega
        split
        · have hn := h.trans (Part.pauseNow_keepsPlaces _ c (by simp))
          have he : ((p.reserve .supervisor 1).onChan c fun ch => { ch with pausePending := true }).pauseNow c =
              (p.reserve .supervisor 1).pauseNow c := by
            unfold Part.pauseNow
            rw [Part.onChan_onChan]
          rwa [he] at hn
        · exact h

theorem Part.resumeBody_keepsPlaces (p : Part) (args : Vector Word 6) : KeepsPlaces p (Part.resumeBody args p).1 := by
  unfold Part.resumeBody
  dsimp only
  split
  · exact .refl p
  · rename_i c _
    split
    · rename_i hp
      refine ⟨fun k a b => ?_, .of_same⟩
      have hn : ((p.onChan c fun ch => { ch with pausePending := false }).giveBack .supervisor 1).noticesDue + 1 =
          p.noticesDue := by
        unfold Part.noticesDue Part.pausesPending
        rw [Part.closingLocks_same (p := p) (by simp)]
        cases c <;> simp [hp] <;> omega
      simp only [Part.queue_giveBack, if_true, Queue.giveBack_reserved, Queue.giveBack_notices, Part.onChan_keeps]
      omega
    · split
      · dsimp only
        unfold Part.resume
        (repeat' split)
        · exact p.onChan_keepsPlaces c _ rfl
        · exact (p.onChan_keepsPlaces c _ rfl).trans (Part.goOn_keepsPlaces _ _)
        · exact (p.onChan_keepsPlaces c _ rfl).trans (Part.takeHead_keepsPlaces _ _)
      · exact .refl p

end Sys2Proof.Machine
end

