-- ==== Sys2Proof/WellFormed.lean ====
section
/-! DEFINITION. Which command terms are well formed: the operands of the rows that a code or an address tells apart from
other rows of the table. -/

namespace Sys2Proof

open Sys2Proof.Machine

/-- The value of an UNDEFINED_COMMAND_CODE names no command of the page (R153). -/
def undefinedOk (page : PageId) (value : Word) : Bool := (cmdOfCode page (value.extractLsb' 0 8)).isNone

/-- Whether a register has a row of its own for its writes: COMMAND, CONTROL, POP. -/
def hasOwnRow (r : Reg) : Bool := r == .command || r == .control || r == .pop

/-- A REGISTER_WRITE is a write (R152). -/
def registerWriteWrites (acc : Access) : Bool := acc.isWrite

/-- A REGISTER_WRITE is word-aligned and enables all four byte lanes (R150). -/
def registerWriteWhole (acc : Access) : Bool := acc.address.extractLsb' 0 2 == 0 && acc.lanes == 15

/-- A REGISTER_WRITE does not go to COMMAND, CONTROL or POP of a page. -/
def registerWritePlain (acc : Access) : Bool :=
  (pageAt (acc.address.extractLsb' 6 4)).isNone || !hasOwnRow (regAt (acc.address.extractLsb' 2 4))

/-- The well-formed commands. -/
def Instr.wf (i : Instr) : Bool :=
  match i with
  | .undefinedCommandCode page _ value => undefinedOk page value
  | .registerWrite acc => registerWriteWrites acc && registerWriteWhole acc && registerWritePlain acc
  | .attach _ _ | .detach _ _ | .acquire _ _ | .cancelWait _ _ | .release _ _ | .renew _ _ | .downgrade _ _ | .query _ _
  | .post _ _ | .withdraw _ _ | .enableAgent _ | .disableAgent _ | .evict _ | .configureLock _ | .closeLock _
  | .breakLock _ | .pauseChannel _ | .resumeChannel _ | .setTimebase _ | .setBusWait _ | .inspectLock _
  | .inspectRecord _ | .inspectChannel _ | .inspectAgent _ | .clear _ | .collision _ _ _ | .pop _ _ _
  | .controlWrite _ _ _ | .busError _ | .hardwareReset _ | .tickBoundary | .leaseRunsOut | .waitRunsOut | .leaseExpiry
  | .waitExpiry | .purge | .postLockCheck _ | .detachRecordCount _ | .inspectAgentRecordCount | .channelAcquisition _
  | .channelWaiterRemoval _ | .channelRelease _ | .acquireGuardCheck _ | .fenceGuardCheck _ | .acquisitionAnswer
  | .channelGrantReport | .channelWaitEndedReport | .holdingEndedReport | .waiterRemovalAnswer | .guardCheckAnswer
  | .releaseAnswer | .burstOutcome | .withdrawAll | .purgeDoneReport | .noDescriptorLeftReport | .channelsAtRestReport
  | .clearLockTableStep | .clearTransferStep | .clearAgentStep | .busGrant _ | .busTimeout | .readCycleAnswered _
  | .writeCycleAnswered _ | .lockTableStepReport => true

end Sys2Proof
end

