-- ==== Sys2Proof/Tests/Slice0.lean ====
section
/-! SUPPORT. The author's tests: ill-formed terms that the check refuses, one step of each family of commands, and for each
statement of Certificates/Slice0/Obligations.lean a state that meets its hypotheses, clause by clause. -/

namespace Sys2Proof.Tests

-- One proof at a time: elaborated side by side they take more threads than the check allows.
set_option Elab.async false

open Sys2Proof.Machine

/-! ### Small states -/

/-- The coordinator after hardware reset. -/
def clean : Part := Part.reset Straps.atReset

/-- Argument registers. -/
def words (xs : List Word) : Vector Word 6 :=
  ⟨⟨[xs.getD 0 0, xs.getD 1 0, xs.getD 2 0, xs.getD 3 0, xs.getD 4 0, xs.getD 5 0]⟩, rfl⟩

/-- A page whose latch holds command `c` with arguments `xs` at a stage. -/
def latch (g : PageId) (c : Cmd) (xs : List Word) (st : Stage) (p : Part) : Part :=
  p.setPage g { p.page g with inFlight := some { cmd := c, args := words xs, stage := st } }

/-- An agent in a state, bound to slot 3. -/
def agentIn (st : AgentState) (a : AgentId) (p : Part) : Part := p.setAgent a { state := st, slot := some 3, evicted := false }

/-- A0 ATTACHED. -/
def attached : Part := agentIn .attached 0 clean

/-- An OPEN lock of class SHARED_ALLOWED with records. -/
def lockWith (hs : List Holding) (ws : List Waiting) : LockEntry :=
  { state := .opened, cls := .sharedAllowed, defaultLease := 5, maxLease := 10, queueLimit := 2, mask := 255,
    generation := 7, holders := hs, waiters := ws }

/-- A holding under token 7. -/
def holding (q : Party) (m : Mode) (left : Ticks) : Holding :=
  { party := q, owner := 0, mode := m, token := 7, remaining := some left }

/-- A wait. -/
def waiting (q : Party) (m : Mode) (left : Ticks) : Waiting :=
  { party := q, owner := 0, mode := m, requested := 0, remaining := some left }

/-- A command of an agent page that waits for its block. -/
def asked (a : AgentId) (c : Cmd) (xs : List Word) (p : Part) : Part := latch (.agent a) c xs .written p

/-- A command of an agent page with its claim pending. -/
def claimed (a : AgentId) (c : Cmd) (xs : List Word) (p : Part) : Part := latch (.agent a) c xs .claimed p

/-- A command of the supervisor page that waits for its block. -/
def supAsked (c : Cmd) (xs : List Word) (p : Part) : Part := latch .supervisor c xs .written p

/-- A command of the supervisor page with its claim pending. -/
def supClaimed (c : Cmd) (xs : List Word) (p : Part) : Part := latch .supervisor c xs .claimed p

/-- A write to an offset of the window, from a slot. -/
def writeAt (offset : Word) (slot : Slot) : Access := { address := offset, lanes := 15, slot, isWrite := true, data := 42 }

/-- A lock with two agent waiters, its queue limit. -/
def full : LockEntry :=
  lockWith [holding (.agent 1) .exclusive 3] [waiting (.agent 2) .shared 3, waiting (.agent 3) .shared 3]

/-- A lock with an agent waiter and a channel waiter, below its queue limit. -/
def nearlyFull : LockEntry :=
  lockWith [holding (.agent 1) .exclusive 3] [waiting (.agent 2) .shared 3, waiting (.chan .c0) .shared 3]

/-- Every agent record in use, on lock 6. -/
def crowded : Part := attached.setLock 6 (lockWith (List.replicate 94 (holding (.agent 1) .shared 3)) [])

/-- The coordinator after a command, where it answers a next state. -/
def run (c : Instr) (p : Part) : Part :=
  match exec c { pending := [], part := p } with
  | .next t => t.part
  | .fault _ => p
  | .refused _ => p

/-! ### Ill-formed terms -/

theorem test_illFormed_undefinedCode_defined : (Instr.undefinedCommandCode (.agent 0) 3 1).wf = false := by decide +kernel

theorem test_wellFormed_supervisorCode_onAgentPage : (Instr.undefinedCommandCode (.agent 0) 3 0x11).wf = true := by decide +kernel

theorem test_illFormed_registerWrite_reads :
    (Instr.registerWrite { address := 0, lanes := 15, slot := 0, isWrite := false, data := 1 }).wf = false := by decide +kernel

theorem test_illFormed_registerWrite_misaligned :
    (Instr.registerWrite { address := 2, lanes := 15, slot := 0, isWrite := true, data := 1 }).wf = false := by decide +kernel

theorem test_illFormed_registerWrite_partial :
    (Instr.registerWrite { address := 0, lanes := 7, slot := 0, isWrite := true, data := 1 }).wf = false := by decide +kernel

theorem test_illFormed_registerWrite_ownRow :
    (Instr.registerWrite { address := 0x14, lanes := 15, slot := 0, isWrite := true, data := 1 }).wf = false ∧
      (Instr.registerWrite { address := 0x130, lanes := 15, slot := 3, isWrite := true, data := 1 }).wf = false ∧
      (Instr.registerWrite { address := 0x34, lanes := 15, slot := 0, isWrite := true, data := 1 }).wf = false := by
  decide +kernel

theorem test_wellFormed_registerWrite :
    (Instr.registerWrite { address := 0x100, lanes := 15, slot := 3, isWrite := true, data := 1 }).wf = true ∧
      (Instr.registerWrite { address := 0x54, lanes := 15, slot := 3, isWrite := true, data := 1 }).wf = true := by
  decide +kernel

/-! ### What the statements' hypotheses are met by: the window -/

theorem copy_is {p : Part} {g : PageId} {e0 : AgentEntry} (h : p.copyOf g = some e0) (hs : e0.state ≠ .evicting) :
    ∀ e, p.copyOf g = some e → e.state ≠ .evicting := by
  intro e he
  rw [h] at he
  cases he
  exact hs

theorem copy_of_supervisor (p : Part) : ∀ e, p.copyOf .supervisor = some e → e.state ≠ .evicting :=
  fun _ he => nomatch he

theorem test_hyps_CommandWriteIsTaken_agent :
    (writeOf (.agent 0) .attach 3 0 = some (.attach 0 (.write 3 0)) ∧ attached.slotPasses (.agent 0) 3 = true ∧
        (attached.page (.agent 0)).inFlight = none) ∧
      ∀ e, attached.copyOf (.agent 0) = some e → e.state ≠ .evicting :=
  ⟨by decide +kernel, copy_is (e0 := { state := .attached, slot := some 3, evicted := false }) (by decide +kernel)
    (by decide)⟩

theorem test_hyps_CommandWriteIsTaken_supervisor :
    (writeOf .supervisor .closeLock 0 5 = some (.closeLock (.write 0 5)) ∧
        (clean.setClear (some .stepPending)).slotPasses .supervisor 0 = true ∧
        ((clean.setClear (some .stepPending)).page .supervisor).inFlight = none) ∧
      ∀ e, (clean.setClear (some .stepPending)).copyOf .supervisor = some e → e.state ≠ .evicting :=
  ⟨by decide +kernel, copy_of_supervisor _⟩

theorem test_hyps_PortRefusesAtOnce_evicting :
    writeOf (.agent 0) .query 3 0 = some (.query 0 (.write 3 0)) ∧
      (agentIn .evicting 0 clean).slotPasses (.agent 0) 3 = true ∧
      ((agentIn .evicting 0 clean).page (.agent 0)).inFlight = none ∧
      (pick (agentIn .evicting 0 clean).port.copies 0).state = .evicting := by decide +kernel

theorem test_hyps_PortRefusesAtOnce_code :
    ((∀ c ∈ pageCmds (.agent 0), cmdCode c ≠ (0x11 : Word).extractLsb' 0 8) ∧
        attached.slotPasses (.agent 0) 3 = true ∧ (attached.page (.agent 0)).inFlight = none) ∧
      ((∀ c ∈ pageCmds .supervisor, cmdCode c ≠ (0 : Word).extractLsb' 0 8) ∧
        clean.slotPasses .supervisor 0 = true ∧ (clean.page .supervisor).inFlight = none) ∧
      (∀ e, attached.copyOf (.agent 0) = some e → e.state ≠ .evicting) ∧
      ∀ e, clean.copyOf .supervisor = some e → e.state ≠ .evicting :=
  ⟨by decide +kernel, by decide +kernel,
    copy_is (e0 := { state := .attached, slot := some 3, evicted := false }) (by decide +kernel) (by decide),
    copy_of_supervisor _⟩

theorem test_hyps_CollisionSetsCollide :
    (asked 0 .query [] attached).slotPasses (.agent 0) 3 = true ∧
      ((asked 0 .query [] attached).page (.agent 0)).inFlight ≠ none := by decide +kernel

theorem test_hyps_PopRemovesHead :
    attached.slotPasses (.agent 0) 3 = true ∧ (attached.queue (.agent 0)).notices = [] ∧
      attached.slotPasses (.agent 0) 4 = false ∧ attached.slotPasses .supervisor 0 = true := by decide +kernel

theorem test_hyps_ControlWriteSetsEnables :
    attached.slotPasses (.agent 0) 3 = true ∧ clean.slotPasses .supervisor 0 = true := by decide +kernel

/-- An access of the window reaches register `r` of page `g`. -/
def lands (acc : Access) (g : PageId) (r : Reg) : Prop :=
  attached.reaches acc ∧ acc.address.toNat % 1024 = pageStart g + r.offset

theorem test_hyps_RegisterWriteStoresArgument_offsets :
    (writeAt 0x400 3).address.extractLsb' 10 22 ≠ attached.straps.base ∧
      (∀ o ∈ [0x40, 0xFC, 0x300, 0x3FC], attached.reaches (writeAt (BitVec.ofNat 32 o) 3) ∧
        (writeAt (BitVec.ofNat 32 o) 3).address.toNat % 1024 = o) ∧
      lands (writeAt 0x100 3) (.agent 0) .arg0 ∧ lands (writeAt 0x110 3) (.agent 0) .arg4 ∧
      lands (writeAt 0x3C 0) .supervisor .arg5 ∧ lands (writeAt 0x13C 3) (.agent 0) .arg5 ∧
      lands (writeAt 0x118 3) (.agent 0) .status ∧ lands (writeAt 0x38 0) .supervisor .ident ∧
      lands (writeAt 0x114 3) (.agent 0) .command ∧ lands (writeAt 0x30 0) .supervisor .control ∧
      lands (writeAt 0x134 3) (.agent 0) .pop ∧ lands (writeAt 0x2FC 3) (.agent 7) .arg5 := by
  unfold lands Part.reaches
  decide +kernel

theorem test_hyps_RegisterWriteStoresArgument_registers :
    attached.slotPasses (.agent 0) 3 = true ∧ attached.slotPasses (.agent 0) 0 = false ∧
      attached.slotPasses .supervisor 0 = true ∧ (writeAt 0x100 3).isWrite = true ∧
      ({ writeAt 0x100 3 with isWrite := false }).isWrite = false ∧
      isArgument (.agent 0) .arg0 ∧ isArgument (.agent 0) .arg4 ∧ isArgument .supervisor .arg5 ∧
      isReadOnly (.agent 0) .arg5 ∧ isReadOnly (.agent 0) .status ∧ isReadOnly .supervisor .ident := by
  unfold isArgument isReadOnly
  decide +kernel

theorem test_hyps_RegistersRead :
    (clean.queue .supervisor).notices = [] ∧
      ((clean.notifySupervisor .clearDone).queue .supervisor).notices = .clearDone :: [] := by decide +kernel

theorem test_hyps_BusErrorChangesNothing :
    (writeAt 0x102 3).address.extractLsb' 10 22 = attached.straps.base ∧
      attached.judge (writeAt 0x102 3) = .busError ∧ attached.judge (writeAt 0x100 4) = .busError ∧
      attached.judge { writeAt 0x100 3 with lanes := 7 } = .busError ∧
      attached.judge (writeAt 0x140 0) = .busError ∧ attached.judge (writeAt 0x40 9) = .unused := by decide +kernel

/-! ### Attachment -/

theorem test_hyps_AttachMakesAttached :
    ∀ st ∈ [AgentState.disabled, .detached, .attached, .evicting],
      (asked 0 .attach [] (agentIn st 0 clean)).waits (.agent 0) .attach (words []) ∧
        (asked 0 .attach [] (agentIn st 0 clean)).tableFree = true ∧
        (asked 0 .attach [] (agentIn st 0 clean)).clearing = false ∧
        ((asked 0 .attach [] (agentIn st 0 clean)).agent 0).state = st := by
  unfold Part.waits
  decide +kernel

theorem test_hyps_DetachCountsAndDetaches :
    ((asked 0 .detach [] attached).waits (.agent 0) .detach (words []) ∧
        (asked 0 .detach [] attached).tableFree = true ∧ (asked 0 .detach [] attached).serves 0) ∧
      ((claimed 0 .detach [] attached).claims (.agent 0) .detach (words []) ∧
        (claimed 0 .detach [] attached).mayServe (agentPos 0) = true ∧ (claimed 0 .detach [] attached).serves 0) ∧
      (((latch (.agent 0) .detach [] (.counted 0) attached).page (.agent 0)).inFlight =
          some { cmd := .detach, args := words [], stage := .counted 0 } ∧
        (latch (.agent 0) .detach [] (.counted 0) attached).transferFree = true) ∧
      (∀ n ∈ [0, 1], ((latch (.agent 0) .detach [] (.countedBoth n n) attached).page (.agent 0)).inFlight =
          some { cmd := .detach, args := words [], stage := .countedBoth n n }) ∧
      ((attached.queue (.agent 0)).reserved = 0 ∧ (attached.queue (.agent 0)).notices = []) ∧
      (((attached.reserve (.agent 0) 1).queue (.agent 0)).reserved ≠ 0) := by
  unfold Part.waits Part.claims Part.serves
  decide +kernel

theorem test_hyps_EnableAndDisableAgent :
    ((supAsked .enableAgent [7, 15] clean).waits .supervisor .enableAgent (words [7, 15]) ∧
        (supAsked .enableAgent [7, 15] clean).tableFree = true ∧
        (supAsked .enableAgent [7, 15] clean).clearing = false ∧ (pick (words [7, 15]) 0).toNat = (7 : AgentId).val ∧
        (pick (words [7, 15]) 1).toNat = (15 : Slot).toNat ∧
        ((supAsked .enableAgent [7, 15] clean).agent 7).state = .disabled) ∧
      ((supAsked .disableAgent [7] (agentIn .detached 7 clean)).waits .supervisor .disableAgent (words [7]) ∧
        (pick (words [7]) 0).toNat = (7 : AgentId).val ∧
        ((supAsked .disableAgent [7] (agentIn .detached 7 clean)).agent 7).state = .detached) := by
  unfold Part.waits
  decide +kernel

theorem test_hyps_EvictBeginsEviction :
    (supAsked .evict [0] (attached.reserve .supervisor 15)).waits .supervisor .evict (words [0]) ∧
      (supAsked .evict [0] (attached.reserve .supervisor 15)).tableFree = true ∧
      (supAsked .evict [0] (attached.reserve .supervisor 15)).clearing = false ∧
      ((supAsked .evict [0] (attached.reserve .supervisor 15)).agent 0).state = .attached ∧
      ((supAsked .evict [0] (attached.reserve .supervisor 15)).queue .supervisor).reserved +
        ((supAsked .evict [0] (attached.reserve .supervisor 15)).queue .supervisor).notices.length + 1 ≤ 16 := by
  unfold Part.waits
  decide +kernel

/-! ### Locks -/

/-- What ACQUIRE's statements ask of a claim of A0 with lock 5 as `e`. -/
def acquireReady (xs : List Word) (e : LockEntry) (p : Part) : Prop :=
  (claimed 0 .acquire xs (p.setLock 5 e)).claims (.agent 0) .acquire (words xs) ∧
    (claimed 0 .acquire xs (p.setLock 5 e)).mayServe (agentPos 0) = true ∧
    (claimed 0 .acquire xs (p.setLock 5 e)).serves 0 ∧ (claimed 0 .acquire xs (p.setLock 5 e)).lock 5 = e

theorem test_hyps_AcquireRefusalsInOrder_arguments :
    acquireReady [0x0240, 0, 0] (lockWith [] []) attached ∧ acquireArgs (words [0x0240, 0, 0]) = none ∧
      acquireArgs (words [0x0005, 0, 0]) = none ∧ acquireArgs (words [0x0205, 65536, 0]) = none ∧
      acquireArgs (words [0x0205, 0, 65536]) = none ∧
      acquireArgs (words [0x113F, 65535, 65535]) = some ⟨63, .shared, true, 65535, 65535⟩ ∧
      acquireArgs (words [0x0205, 4, 0]) = some ⟨5, .exclusive, false, 4, 0⟩ := by
  unfold acquireReady Part.claims Part.serves
  decide +kernel

theorem test_hyps_AcquireRefusalsInOrder_lock :
    acquireReady [0x0105, 0, 0] LockEntry.reset attached ∧
      acquireReady [0x0105, 0, 0] { lockWith [holding (.agent 1) .shared 3] [] with state := .closing } attached ∧
      acquireReady [0x0105, 0, 0] { lockWith [] [] with cls := .exclusiveOnly } attached ∧
      acquireReady [0x0205, 0, 0] { lockWith [] [] with mask := 0xFE } attached ∧
      (0xFE : BitVec 8).getLsbD 0 = false ∧ (0xFF : BitVec 8).getLsbD 0 = true := by
  unfold acquireReady Part.claims Part.serves
  decide +kernel

theorem test_hyps_AcquireRefusalsInOrder_standing :
    acquireReady [0x0205, 0, 0] (lockWith [holding (.agent 0) .shared 3] []) attached ∧
      (lockWith [holding (.agent 0) .shared 3] []).holderOf (.agent 0) = some (holding (.agent 0) .shared 3) ∧
      acquireReady [0x0205, 0, 0] (lockWith [holding (.agent 1) .exclusive 3] [waiting (.agent 0) .shared 3]) attached ∧
      (lockWith [holding (.agent 1) .exclusive 3] [waiting (.agent 0) .shared 3]).holderOf (.agent 0) = none ∧
      (lockWith [holding (.agent 1) .exclusive 3] [waiting (.agent 0) .shared 3]).waiterOf (.agent 0) ≠ none := by
  unfold acquireReady Part.claims Part.serves
  decide +kernel

theorem test_hyps_LockCommandsNeedAttachedAgent_claims :
    lockTakeOf 0 .release = some (.release 0 .take) ∧
      (∀ st ∈ [AgentState.disabled, .detached, .attached, .evicting],
        (claimed 0 .release [] (agentIn st 0 clean)).claims (.agent 0) .release (words []) ∧
          (claimed 0 .release [] (agentIn st 0 clean)).mayServe (agentPos 0) = true ∧
          ((claimed 0 .release [] (agentIn st 0 clean)).agent 0).state = st ∧
          (claimed 0 .release [] (agentIn st 0 clean)).clearing = false) ∧
      (claimed 0 .release [] (attached.setClear (some .stopping))).clearing = true ∧
      (claimed 0 .release [] (attached.setClear (some .stopping))).mayServe (agentPos 0) = true := by
  unfold Part.claims
  decide +kernel

theorem test_hyps_LockCommandsNeedAttachedAgent_requests :
    (∀ c ∈ [Cmd.attach, .detach, .post, .withdraw], ∀ st ∈ [AgentState.disabled, .detached, .attached, .evicting],
        (asked 0 c [] (agentIn st 0 clean)).waits (.agent 0) c (words []) ∧
          (asked 0 c [] (agentIn st 0 clean)).tableFree = true ∧
          (asked 0 c [] (agentIn st 0 clean)).transferFree = true ∧
          ((asked 0 c [] (agentIn st 0 clean)).agent 0).state = st) ∧
      ∀ c ∈ [Cmd.detach, .post],
        (claimed 0 c [] (agentIn .evicting 0 clean)).claims (.agent 0) c (words []) ∧
          (claimed 0 c [] (agentIn .evicting 0 clean)).mayServe (agentPos 0) = true ∧
          (claimed 0 c [] (attached.setClear (some .stopping))).mayServe (agentPos 0) = true ∧
          ((latch (.agent 0) c [] (.turnedAway .evicting) clean).page (.agent 0)).inFlight =
            some { cmd := c, args := words [], stage := .turnedAway .evicting } := by
  unfold Part.claims Part.waits
  decide +kernel

theorem test_hyps_AcquireGrantedAtOnce :
    (∀ n ∈ [0, 15, 16], acquireReady [0x0205, 4, 0] (lockWith [] []) (attached.reserve (.agent 0) n)) ∧
      (lockWith [] []).admits 0 .exclusive ∧ (lockWith [] []).grantableNow .exclusive = true ∧
      (attached.setLock 5 (lockWith [] [])).agentFree ≠ 0 ∧
      (crowded.setLock 5 (lockWith [] [])).agentFree = 0 ∧ acquireReady [0x0205, 4, 0] (lockWith [] []) crowded := by
  unfold acquireReady Part.claims Part.serves LockEntry.admits
  decide +kernel

theorem test_hyps_AcquireNotGrantable :
    acquireReady [0x0205, 4, 0] (lockWith [holding (.agent 1) .shared 3] []) attached ∧
      acquireReady [0x1205, 4, 0] (lockWith [holding (.agent 1) .shared 3] []) attached ∧
      (lockWith [holding (.agent 1) .shared 3] []).admits 0 .exclusive ∧
      (lockWith [holding (.agent 1) .shared 3] []).grantableNow .exclusive = false ∧
      acquireArgs (words [0x1205, 4, 0]) = some ⟨5, .exclusive, true, 4, 0⟩ := by
  unfold acquireReady Part.claims Part.serves LockEntry.admits
  decide +kernel

theorem test_hyps_AcquireQueueFull :
    acquireReady [0x1205, 4, 0] full attached ∧ full.admits 0 .exclusive ∧ full.grantableNow .exclusive = false ∧
      (full.waiters.filter fun w => w.party.isAgent).length = full.queueLimit := by
  unfold acquireReady Part.claims Part.serves LockEntry.admits
  decide +kernel

theorem test_hyps_AcquireQueued :
    (∀ n ∈ [0, 14, 15], acquireReady [0x1205, 4, 9] nearlyFull (attached.reserve (.agent 0) n)) ∧
      acquireReady [0x1205, 4, 9] nearlyFull crowded ∧
      nearlyFull.admits 0 .exclusive ∧ nearlyFull.grantableNow .exclusive = false ∧
      (nearlyFull.waiters.filter fun w => w.party.isAgent).length < nearlyFull.queueLimit ∧
      (attached.setLock 5 nearlyFull).agentFree ≠ 0 ∧ (crowded.setLock 5 nearlyFull).agentFree = 0 := by
  unfold acquireReady Part.claims Part.serves LockEntry.admits
  decide +kernel

/-- What the statements on a lock command of A0 ask, with lock 5 as `e`. -/
def lockReady (c : Cmd) (xs : List Word) (e : LockEntry) : Prop :=
  (claimed 0 c xs (attached.setLock 5 e)).claims (.agent 0) c (words xs) ∧
    (claimed 0 c xs (attached.setLock 5 e)).mayServe (agentPos 0) = true ∧
    (claimed 0 c xs (attached.setLock 5 e)).serves 0 ∧ (claimed 0 c xs (attached.setLock 5 e)).lock 5 = e

theorem test_hyps_LockCommandRefusals :
    lockReady .query [64] (lockWith [] []) ∧ 64 ≤ (pick (words [64]) 0).toNat % 256 ∧
      lockReady .renew [5, 7, 65536] (lockWith [] []) ∧ 65535 < (pick (words [5, 7, 65536]) 2).toNat ∧
      lockReady .release [5, 7] (lockWith [] []) ∧ (lockWith [] []).holderOf (.agent 0) = none ∧
      lockReady .release [5, 8] (lockWith [holding (.agent 0) .shared 3] []) ∧
      (holding (.agent 0) .shared 3).token ≠ pick (words [5, 8]) 1 ∧
      lockReady .downgrade [5, 7] { lockWith [holding (.agent 0) .exclusive 3] [] with cls := .exclusiveOnly } ∧
      lockReady .downgrade [5, 7] (lockWith [holding (.agent 0) .shared 3] []) := by
  unfold lockReady Part.claims Part.serves
  decide +kernel

theorem test_hyps_CancelWaitRemovesWait :
    lockReady .cancelWait [5] (lockWith [holding (.agent 1) .exclusive 3] [waiting (.agent 0) .shared 3]) ∧
      lockReady .cancelWait [5] (lockWith [holding (.agent 0) .exclusive 3] []) ∧
      (lockWith [holding (.agent 0) .exclusive 3] []).waiterOf (.agent 0) = none ∧
      lockReady .cancelWait [5] (lockWith [] []) ∧ (pick (words [5]) 0).toNat % 256 = (5 : LockId).val := by
  unfold lockReady Part.claims Part.serves
  decide +kernel

theorem test_hyps_ReleaseGivesBack :
    lockReady .release [5, 7] (lockWith [holding (.agent 0) .exclusive 3] [waiting (.agent 1) .shared 3]) ∧
      lockReady .release [5, 7] { lockWith [holding (.agent 0) .shared 3] [] with state := .closing } ∧
      lockReady .release [5, 7]
        { lockWith [holding (.agent 0) .shared 3, holding (.agent 1) .shared 3] [] with state := .closing } ∧
      ((lockWith [holding (.agent 0) .shared 3] []).withoutHolder (.agent 0)).holders = [] ∧
      (holding (.agent 0) .exclusive 3).token = pick (words [5, 7]) 1 := by
  unfold lockReady Part.claims Part.serves
  decide +kernel

theorem test_hyps_RenewAndDowngrade :
    lockReady .renew [5, 7, 65535] (lockWith [holding (.agent 0) .exclusive 3] []) ∧
      (pick (words [5, 7, 65535]) 2).toNat = (65535 : Ticks).toNat ∧
      lockReady .downgrade [5, 7] (lockWith [holding (.agent 0) .exclusive 3] []) ∧
      (lockWith [holding (.agent 0) .exclusive 3] []).holderOf (.agent 0) = some (holding (.agent 0) .exclusive 3) := by
  unfold lockReady Part.claims Part.serves
  decide +kernel

/-- What the statements on a lock command of the supervisor ask, with lock 5 as `e`. -/
def superReady (c : Cmd) (xs : List Word) (e : LockEntry) (p : Part) : Prop :=
  (supClaimed c xs (p.setLock 5 e)).claims .supervisor c (words xs) ∧
    (supClaimed c xs (p.setLock 5 e)).mayServe supervisorPos = true ∧
    (supClaimed c xs (p.setLock 5 e)).clearing = false ∧ (supClaimed c xs (p.setLock 5 e)).lock 5 = e

/-- What the statements on INSPECT_LOCK and INSPECT_RECORD ask. -/
def inspectReady (c : Cmd) (xs : List Word) (p : Part) : Prop :=
  (supClaimed c xs p).claims .supervisor c (words xs) ∧ (supClaimed c xs p).mayServe supervisorPos = true

theorem test_hyps_LockReadouts :
    lockReady .query [5] (lockWith [] []) ∧
      (superReady .inspectLock [5, 0] full clean ∧ superReady .inspectLock [5, 1] full clean ∧
        superReady .inspectLock [5, 2] full clean) ∧
      (superReady .inspectRecord [5, 0, 1] full clean ∧ full.holders[0]? = some (holding (.agent 1) .exclusive 3) ∧
        superReady .inspectRecord [5, 1, 2] full clean ∧ full.waiters[1]? = some (waiting (.agent 3) .shared 3) ∧
        superReady .inspectRecord [5, 1, 18] full clean ∧ full.waiters.length ≤ 17 ∧
        superReady .inspectRecord [5, 0, 0] full clean ∧ superReady .inspectRecord [5, 0, 19] full clean ∧
        superReady .inspectRecord [5, 2, 1] full clean) := by
  unfold lockReady superReady Part.claims Part.serves
  decide +kernel

/-- Lock records at the bounds of the pools: ten holdings, sixteen waits of agents and two of channels. -/
def crammed : LockEntry :=
  lockWith (List.replicate 10 (holding (.agent 1) .shared 3))
    (List.replicate 16 (waiting (.agent 2) .exclusive 3) ++ [waiting (.chan .c0) .exclusive 3, waiting (.chan .c1) .exclusive 3])

theorem test_hyps_LockReadouts_layouts :
    (crammed.holders.length ≤ 10 ∧ (crammed.waiters.filter fun w => w.party.isAgent).length ≤ 16 ∧
        (crammed.waiters.filter fun w => !w.party.isAgent).length ≤ 2 ∧ crammed.holders ≠ [] ∧
        ∀ h ∈ crammed.holders, h.mode = .shared) ∧
      (lockWith [] []).holders = [] ∧ (∃ h ∈ full.holders, h.mode = .exclusive) ∧
      ({ full with queueLimit := 16 }).queueLimit ≤ 16 := by decide +kernel

theorem test_hyps_LockReadouts_clearing :
    inspectReady .inspectLock [5, 0] (clean.setClear (some .stepDue)) ∧
      inspectReady .inspectRecord [5, 0, 1] (clean.setClear (some .stepDue)) ∧
      inspectReady .inspectLock [5, 1] (clean.setClear (some .stopping)) := by
  unfold inspectReady Part.claims
  decide +kernel

theorem test_hyps_ConfigureOpensLock :
    superReady .configureLock [5, 1, 0, 0, 16, 255] LockEntry.reset clean ∧
      superReady .configureLock [5, 2, 1, 65535, 0, 1] (lockWith [] []) clean ∧
      (pick (words [5, 1, 0, 0, 16, 255]) 4).toNat ≤ 16 ∧
      ¬((pick (words [5, 1, 0, 0, 16, 255]) 2).toNat % 65536 = 0 ∧
        (pick (words [5, 1, 0, 0, 16, 255]) 3).toNat % 65536 ≠ 0) := by
  unfold superReady Part.claims
  decide +kernel

theorem test_hyps_CloseCancelsWaits :
    superReady .closeLock [5] full (clean.reserve .supervisor 15) ∧ full.holders ≠ [] ∧
      superReady .closeLock [5] (lockWith [] []) clean ∧
      ((supClaimed .closeLock [5] ((clean.reserve .supervisor 15).setLock 5 full)).queue .supervisor).reserved + 1 ≤ 16 := by
  unfold superReady Part.claims
  decide +kernel

theorem test_hyps_BreakTakesBack :
    superReady .breakLock [5] full clean ∧
      superReady .breakLock [5] { lockWith [holding (.chan .c0) .shared 3] [] with state := .closing } clean := by
  unfold superReady Part.claims
  decide +kernel

/-! ### Grants, the arbiter, time -/

theorem test_hyps_EffectiveLease :
    LockEntry.reset.maxLease = 0 ∧ (lockWith [] []).maxLease ≠ 0 ∧ (lockWith [] []).defaultLease ≠ 0 := by decide +kernel

theorem test_hyps_TokenIsFresh :
    (lockWith (List.replicate 10 (holding (.agent 1) .shared 3)) []).holders.length ≤ 10 := by decide +kernel

theorem test_hyps_GrantPassGrantsHeads :
    LockEntry.reset.state ≠ .opened ∧ (lockWith [] []).state = .opened ∧
      (lockWith [] [waiting (.agent 1) .exclusive 3]).waiters = waiting (.agent 1) .exclusive 3 :: [] ∧
      (∀ h ∈ full.holders, h.mode ≠ .shared) := by decide +kernel

theorem test_hyps_ArbiterTakesNextInTurn :
    (claimed 0 .query [] attached).engine.ranOut = [] ∧ (claimed 0 .query [] attached).pendingAt 0 = true ∧
      (claimed 0 .query [] attached).mayServe 0 = true ∧
      (claimed 3 .query [] (claimed 0 .query [] attached)).pendingAt 3 = true ∧
      (claimed 3 .query [] (claimed 0 .query [] attached)).mayServe 0 = true := by decide +kernel

theorem test_hyps_TickLowersCounts :
    ∀ k ∈ [CountKind.lease, .wait], (clean.setRanOut [⟨5, .agent 0, k⟩]).engine.ranOut = ⟨5, .agent 0, k⟩ :: [] := by
  decide +kernel

/-- The oldest claim of the expiry source is of A1 on lock 5, which is `e`. -/
def expiring (k : CountKind) (e : LockEntry) : Part := (attached.setLock 5 e).setExpiry [⟨5, .agent 1, k⟩]

theorem test_hyps_ExpiriesEndRecords_lease :
    (∀ e ∈ [lockWith [holding (.agent 1) .shared 0] [], { lockWith [holding (.agent 1) .shared 0] [] with state := .closing },
        { lockWith [holding (.agent 1) .shared 0, holding (.agent 2) .shared 9] [] with state := .closing }],
      (expiring .lease e).engine.expiry = ⟨5, .agent 1, .lease⟩ :: [] ∧ (expiring .lease e).mayServe expiryPos = true ∧
        (expiring .lease e).lock 5 = e ∧ e.holderOf (.agent 1) = some (holding (.agent 1) .shared 0)) ∧
      (expiring .lease (lockWith [] [])).mayServe expiryPos = true ∧
      (lockWith [] []).holderOf (.agent 1) = none := by decide +kernel

theorem test_hyps_ExpiriesEndRecords_wait :
    (expiring .wait (lockWith [holding (.agent 2) .exclusive 9] [waiting (.agent 1) .shared 0])).engine.expiry =
        ⟨5, .agent 1, .wait⟩ :: [] ∧
      (expiring .wait (lockWith [holding (.agent 2) .exclusive 9] [waiting (.agent 1) .shared 0])).mayServe expiryPos =
        true ∧
      (lockWith [holding (.agent 2) .exclusive 9] [waiting (.agent 1) .shared 0]).waiterOf (.agent 1) =
        some (waiting (.agent 1) .shared 0) ∧
      (lockWith [] []).waiterOf (.agent 1) = none := by decide +kernel

theorem test_hyps_PurgeRemovesRecords :
    (attached.setPurges [0, 2]).table.purges = 0 :: [2] ∧
      ((attached.setPurges [0, 2]).served expiryPos).mayServe tablePos = true := by decide +kernel

/-- C0's claim `cl` is pending, with lock 5 as `e`. -/
def chanClaims (cl : ChanClaim) (e : LockEntry) : Part := (clean.setLock 5 e).setClaim .c0 (some cl)

theorem test_hyps_ChannelAcquisitionAnswered :
    ∀ e ∈ [LockEntry.reset, lockWith [] [], full],
      (chanClaims (.acquisition 5 .exclusive 4 9 0) e).engine.claims.get .c0 = some (.acquisition 5 .exclusive 4 9 0) ∧
        (chanClaims (.acquisition 5 .exclusive 4 9 0) e).mayServe (chanPos .c0) = true ∧
        (chanClaims (.acquisition 5 .exclusive 4 9 0) e).lock 5 = e := by decide +kernel

theorem test_hyps_ChannelClaimsAnswered :
    ∀ cl ∈ [ChanClaim.removal 5, .release 5, .acquireGuard 5, .fenceGuard 5 0 7],
      ∀ e ∈ [lockWith [] [waiting (.chan .c0) .shared 3], lockWith [holding (.chan .c0) .shared 3] [],
          { lockWith [holding (.chan .c0) .shared 3] [] with state := .closing },
          { lockWith [holding (.chan .c0) .shared 3, holding (.agent 0) .shared 3] [] with state := .closing }, lockWith [] []],
        (chanClaims cl e).engine.claims.get .c0 = some cl ∧ (chanClaims cl e).mayServe (chanPos .c0) = true ∧
          (chanClaims cl e).lock 5 = e := by decide +kernel

/-! ### The supervisor's commands -/

theorem test_hyps_TimebaseAndBusWaitAreSet :
    ((supAsked .setTimebase [3] clean).waits .supervisor .setTimebase (words [3]) ∧
        (supAsked .setTimebase [3] clean).clearing = false ∧
        (pick (words [0]) 0).toNat = Period.us10.bits.toNat ∧ (pick (words [3]) 0).toNat = Period.ms10.bits.toNat ∧
        3 < (pick (words [4]) 0).toNat) ∧
      ((supAsked .setBusWait [255] clean).waits .supervisor .setBusWait (words [255]) ∧
        1 ≤ (pick (words [1]) 0).toNat ∧ (pick (words [255]) 0).toNat ≤ 255 ∧ (pick (words [0]) 0).toNat = 0 ∧
        255 < (pick (words [256]) 0).toNat) := by
  unfold Part.waits
  decide +kernel

theorem test_hyps_SupervisorRefusals_clearing :
    (∀ c ∈ [Cmd.enableAgent, .disableAgent, .evict, .clear, .pauseChannel, .resumeChannel, .setTimebase, .setBusWait],
        (supAsked c [] (clean.setClear (some .stopping))).waits .supervisor c (words []) ∧
          (supAsked c [] (clean.setClear (some .stopping))).clearing = true ∧
          (supAsked c [] (clean.setClear (some .stopping))).tableFree = true ∧
          (supAsked c [] (clean.setClear (some .stopping))).transferFree = true) ∧
      ∀ c ∈ [Cmd.configureLock, .closeLock, .breakLock], ∀ ph ∈ [ClearPhase.stopping, .stepDue],
        (supClaimed c [] (clean.setClear (some ph))).claims .supervisor c (words []) ∧
          (supClaimed c [] (clean.setClear (some ph))).mayServe supervisorPos = true ∧
          (supClaimed c [] (clean.setClear (some ph))).clearing = true := by
  unfold Part.waits Part.claims
  decide +kernel

theorem test_hyps_SupervisorRefusals_requests :
    (∀ c ∈ [Cmd.enableAgent, .disableAgent, .evict, .pauseChannel, .resumeChannel, .inspectChannel, .inspectAgent],
        (supAsked c [8, 16] (attached.reserve .supervisor 16)).waits .supervisor c (words [8, 16]) ∧
          (supAsked c [8, 16] (attached.reserve .supervisor 16)).clearing = false ∧
          (supAsked c [8, 16] (attached.reserve .supervisor 16)).tableFree = true ∧
          (supAsked c [8, 16] (attached.reserve .supervisor 16)).transferFree = true) ∧
      8 ≤ (pick (words [8]) 0).toNat ∧ 16 ≤ (pick (words [0, 16]) 1).toNat ∧ 1 < (pick (words [2]) 0).toNat ∧
      (attached.agent 0).state ≠ .disabled ∧ (attached.agent 0).state ≠ .detached ∧ (clean.agent 0).state ≠ .attached ∧
      ¬((attached.reserve .supervisor 16).queue .supervisor).reserved + 1 ≤ 16 := by
  unfold Part.waits
  decide +kernel

theorem test_hyps_SupervisorRefusals_claims :
    (∀ c ∈ [Cmd.inspectLock, .inspectRecord, .configureLock, .closeLock, .breakLock],
        superReady c [64] (lockWith [] []) (clean.reserve .supervisor 16) ∧ superReady c [5] LockEntry.reset clean) ∧
      superReady .closeLock [5] (lockWith [] []) (clean.reserve .supervisor 16) ∧
      superReady .configureLock [5, 0, 1, 1, 2, 255] LockEntry.reset clean ∧
      superReady .configureLock [5, 3, 1, 1, 2, 255] LockEntry.reset clean ∧
      superReady .configureLock [5, 1, 1, 1, 17, 255] LockEntry.reset clean ∧
      superReady .configureLock [5, 1, 0x10000, 1, 2, 255] LockEntry.reset clean ∧
      ((pick (words [5, 1, 0x10000, 1, 2, 255]) 2).toNat % 65536 = 0 ∧
        (pick (words [5, 1, 0x10000, 1, 2, 255]) 3).toNat % 65536 ≠ 0) := by
  unfold superReady Part.claims
  decide +kernel

theorem test_hyps_InspectionsRead :
    ((supAsked .inspectChannel [1, 1] clean).waits .supervisor .inspectChannel (words [1, 1]) ∧
        (pick (words [1, 1]) 0).toNat = (chanBit .c1).toNat ∧ (pick (words [1, 1]) 1).toNat = true.toNat ∧
        (pick (words [0, 0]) 0).toNat = (chanBit .c0).toNat ∧ (pick (words [0, 0]) 1).toNat = false.toNat) ∧
      ((supAsked .inspectAgent [7] clean).waits .supervisor .inspectAgent (words [7]) ∧
        (pick (words [7]) 0).toNat = (7 : AgentId).val) ∧
      (∀ ph ∈ [none, some ClearPhase.stepDue],
        (latch .supervisor .inspectAgent [7] (.entryClaimed AgentEntry.reset) (clean.setClear ph)).mayServe supervisorPos =
          true) ∧
      (∀ st ∈ [Stage.entryClaimed AgentEntry.reset, .entryCounted AgentEntry.reset 2,
          .entryCountedBoth AgentEntry.reset 2 1],
        ((latch .supervisor .inspectAgent [7] st clean).page .supervisor).inFlight =
          some { cmd := .inspectAgent, args := words [7], stage := st }) ∧
      ∀ view ∈ [false, true],
        ((latch .supervisor .inspectChannel [0, 0] (.channelRead ⟨.c0, view, Channel.reset⟩) clean).page .supervisor).inFlight =
          some { cmd := .inspectChannel, args := words [0, 0], stage := .channelRead ⟨.c0, view, Channel.reset⟩ } := by
  unfold Part.waits
  decide +kernel

/-! ### Transfers -/

/-- A COPY of 8 bytes of A0, started, with `n` bytes moved. -/
def descriptor (g : Guard) (n : Nat) : Descriptor :=
  { tag := 9, owner := 0, op := .copy 0x10000 0x20000 8, guard := g, moved := n, started := true }

/-- A descriptor of A0 that has not started. -/
def unstarted : Descriptor := { descriptor .none 0 with started := false, tag := 10 }

/-- The guards of the tests: none, ACQUIRE and FENCE of lock 5. -/
def guards : List Guard := [.none, .acquire 5 .exclusive 4 9, .fence 5 7]

/-- C0 in a state with a list. -/
def chanIn (st : ChanState) (ds : List Descriptor) (p : Part) : Part :=
  p.onChan .c0 fun ch => { ch with state := st, list := ds, currentLock := some 5 }

/-- Item `i` is the one item of the transfer engine's list. -/
def offered (i : TransferItem) (p : Part) : Part := p.setInbox [i]

theorem test_hyps_HeadIsTaken :
    ∀ g ∈ guards,
      let d := { descriptor g 0 with started := false }
      ((chanIn .idle [d] clean).chan .c0).list = d :: [] ∧ ((chanIn .idle [d] clean).chan .c0).state = .idle ∧
        ((chanIn .idle [d] clean).chan .c0).pausePending = false ∧ (chanIn .idle [d] clean).clearing = false := by
  decide +kernel

theorem test_hyps_InspectionsRead_layouts :
    ((clean.chan .c0).list = [] ∧ ((chanIn .moving [unstarted] clean).chan .c0).list = unstarted :: []) ∧
      ((chanIn .moving (List.replicate 32 unstarted) clean).chan .c0).list.length ≤ 32 ∧
      ((clean.reserve (.agent 0) 16).queue (.agent 0)).reserved ≤ 16 ∧
      ((clean.reserve (.agent 0) 16).queue (.agent 0)).notices.length ≤ 16 ∧
      (clean.master.current = none ∧ clean.master.pending.get .c0 = none) ∧ 94 < 2 ^ 16 := by decide +kernel

theorem test_hyps_PauseAndResumeChannel :
    (∀ st ∈ [ChanState.idle, .acquiring, .moving, .stopping, .paused], ∀ c ∈ [Cmd.pauseChannel, .resumeChannel],
        (supAsked c [0] (chanIn st [] clean)).waits .supervisor c (words [0]) ∧
          (supAsked c [0] (chanIn st [] clean)).transferFree = true ∧
          (supAsked c [0] (chanIn st [] clean)).clearing = false ∧
          ((supAsked c [0] (chanIn st [] clean)).chan .c0).state = st ∧
          ((supAsked c [0] (chanIn st [] clean)).chan .c0).pausePending = false) ∧
      (pick (words [0]) 0).toNat = (chanBit .c0).toNat ∧ (pick (words [1]) 0).toNat = (chanBit .c1).toNat ∧
      ((clean.reserve .supervisor 15).queue .supervisor).reserved + 1 ≤ 16 ∧
      16 < ((clean.reserve .supervisor 16).queue .supervisor).reserved + 1 := by
  unfold Part.waits
  decide +kernel

theorem test_hyps_ResumeChannel_forms :
    (∀ g ∈ guards, ((chanIn .paused [descriptor g 4] clean).chan .c0).list = descriptor g 4 :: [] ∧
        (g ≠ .none → (descriptor g 4).guardClaim ≠ none) ∧ (descriptor g 4).moved < (descriptor g 4).op.length) ∧
      unstarted.started = false ∧
      (((chanIn .paused [descriptor .none 8] clean).chan .c0).list = descriptor .none 8 :: [] ∧
        (descriptor .none 8).started = true ∧ (descriptor .none 8).guard = .none ∧
        (descriptor .none 8).op.length ≤ (descriptor .none 8).moved) ∧
      (((chanIn .paused [unstarted] clean).onChan .c0 fun ch => { ch with ending := some .done }).chan .c0).ending ≠
        none ∧
      ((clean.onChan .c0 fun ch => { ch with pausePending := true }).chan .c0).pausePending = true := by
  decide +kernel

/-- The registers of a POST: a COPY of 8 bytes from `src`, tag 9, C0, with guard field `g`. -/
def post (src : Word) (g : Word) : List Word := [src, 0x20000, 8, 0x10009 ||| g <<< 20, 7]

theorem test_hyps_PostIsAccepted_layout :
    (∀ w3 ∈ [0x00010009, 0x00020009, 0x00030009, 0x05550009, 0x3F960009, 0x3F250009],
        (postArgs 0 (words [0x10000, 0x20000, 65536, BitVec.ofNat 32 w3, 7])).isSome = true) ∧
      (∀ w3 ∈ [0x00000009, 0x00090009, 0x00310009, 0x05110009, 0x05D10009, 0x40210009],
        (postArgs 0 (words [0x10000, 0x20000, 8, BitVec.ofNat 32 w3, 7])).isSome = false) ∧
      (∀ n ∈ [0, 6, 65540], (postArgs 0 (words [0x10000, 0x20000, BitVec.ofNat 32 n, 0x00010009, 7])).isSome = false) ∧
      rangeAllowed attached.straps (0xFFFFFFFC, 4) = true ∧ rangeAllowed attached.straps (0xFFFFFFFC, 8) = false ∧
      rangeAllowed attached.straps (0x400, 4) = true ∧ rangeAllowed attached.straps (0x3FC, 4) = false := by decide +kernel

theorem test_hyps_PostIsAccepted :
    ((asked 0 .post (post 0x10000 0) attached).waits (.agent 0) .post (words (post 0x10000 0)) ∧
        (asked 0 .post (post 0x10000 0) attached).transferFree = true ∧
        (asked 0 .post (post 0x10000 0) attached).serves 0) ∧
      postArgs 0 (words []) = none ∧
      postArgs 0 (words (post 0x10000 0)) = some (.c0, { descriptor .none 0 with started := false }) ∧
      (descriptor .none 0).op.ranges.all (rangeAllowed attached.straps) = true ∧
      (postArgs 0 (words (post 0 0))).any (fun x => !x.2.op.ranges.all (rangeAllowed attached.straps)) = true ∧
      postArgs 0 (words (post 0x10000 0x52)) = some (.c0, { descriptor (.fence 5 7) 0 with started := false }) ∧
      attached.findDescriptor 0 9 = none ∧ (chanIn .moving [descriptor .none 0] attached).findDescriptor 0 9 ≠ none ∧
      attached.descriptorsFree ≠ 0 ∧
      (chanIn .moving (List.replicate 32 unstarted) attached).descriptorsFree = 0 := by
  unfold Part.waits Part.serves
  decide +kernel

theorem test_hyps_GuardedPostIsChecked :
    ((claimed 0 .post (post 0x10000 0x52) attached).claims (.agent 0) .post (words (post 0x10000 0x52)) ∧
        (claimed 0 .post (post 0x10000 0x52) attached).mayServe (agentPos 0) = true ∧
        (claimed 0 .post (post 0x10000 0x52) attached).serves 0 ∧ (Guard.fence 5 7).lock = some 5) ∧
      (∀ st ∈ [LockStanding.mk .disabled .sharedAllowed 255, .mk .opened .exclusiveOnly 255, .mk .opened .sharedAllowed 254,
          .mk .closing .sharedAllowed 255],
        ((latch (.agent 0) .post (post 0x10000 0x55) (.checked st) attached).page (.agent 0)).inFlight =
          some { cmd := .post, args := words (post 0x10000 0x55), stage := .checked st }) ∧
      postArgs 0 (words (post 0x10000 0x55)) = some (.c0, { descriptor (.acquire 5 .shared 7 0) 0 with started := false }) := by
  unfold Part.claims Part.serves
  decide +kernel

/-- A guarded POST of A0 whose lock check has been answered, taken up again while a CLEAR stands at a phase. -/
def postChecked (ph : Option ClearPhase) : Part :=
  latch (.agent 0) .post (post 0x10000 0x55) (.checked ⟨.opened, .sharedAllowed, 255⟩) (attached.setClear ph)

theorem test_hyps_GuardedPostIsChecked_joins :
    ∀ ph ∈ [none, some ClearPhase.stopping],
      ((postChecked ph).page (.agent 0)).inFlight =
          some ⟨.post, words (post 0x10000 0x55), .checked ⟨.opened, .sharedAllowed, 255⟩⟩ ∧
        (postChecked ph).findDescriptor 0 9 = none ∧
        ((postChecked ph).queue (.agent 0)).reserved + ((postChecked ph).queue (.agent 0)).notices.length + 1 ≤ 16 ∧
        (postChecked ph).descriptorsFree ≠ 0 ∧ ((postChecked ph).chan .c0).state = .idle ∧
        ((postChecked ph).chan .c0).pausePending = false ∧ ((postChecked ph).chan .c0).list = [] ∧
        (postChecked ph).clearing = ph.isSome := by decide +kernel

theorem test_hyps_WithdrawStopsOrRemoves :
    (∀ st ∈ [ChanState.acquiring, .moving, .stopping, .paused],
        ((chanIn st [descriptor .none 0] clean).chan .c0).list = descriptor .none 0 :: [] ∧
          ((chanIn st [descriptor .none 0] clean).chan .c0).state = st ∧
          ((chanIn st [descriptor .none 0] clean).chan .c0).inFlight = .nothing ∧
          ((chanIn st [descriptor .none 0] clean).chan .c0).currentLock = some 5 ∧
          ((chanIn st [descriptor .none 0] clean).chan .c0).stop = none ∧
          ((chanIn st [descriptor .none 0] clean).chan .c0).ending = none) ∧
      ((asked 0 .withdraw [9] (chanIn .moving [descriptor .none 0, unstarted] attached)).waits (.agent 0) .withdraw
          (words [9]) ∧
        (asked 0 .withdraw [9] (chanIn .moving [descriptor .none 0, unstarted] attached)).serves 0 ∧
        (pick (words [9]) 0).toNat = (9 : BitVec 16).toNat ∧ 65535 < (pick (words [65536]) 0).toNat) ∧
      (chanIn .moving [descriptor .none 0, unstarted] attached).findDescriptor 0 9 = some (.c0, descriptor .none 0) ∧
      (chanIn .moving [descriptor .none 0, unstarted] attached).findDescriptor 0 10 = some (.c0, unstarted) ∧
      (chanIn .moving [descriptor .none 0, unstarted] attached).findDescriptor 0 11 = none := by
  unfold Part.waits Part.serves
  decide +kernel

theorem test_hyps_LockAnswersReachChannel :
    ∀ st ∈ [ChanState.acquiring, .stopping],
      ∀ i ∈ [TransferItem.acquisitionAnswer .c0 .waits, .acquisitionAnswer .c0 (.granted 8 4),
          .acquisitionAnswer .c0 .closed, .grantReport .c0 8 4, .waitEnded .c0 .expired, .waitEnded .c0 .broken,
          .holdingEnded .c0 .leaseLost, .removalAnswer .c0 .gone, .removalAnswer .c0 (.holds 8),
          .removalAnswer .c0 .noRecord],
        (offered i (chanIn st [descriptor (.acquire 5 .exclusive 4 9) 0] clean)).takes i [] ∧
          ((offered i (chanIn st [descriptor (.acquire 5 .exclusive 4 9) 0] clean)).chan .c0).state = st ∧
          ((offered i (chanIn st [descriptor (.acquire 5 .exclusive 4 9) 0] clean)).chan .c0).currentLock = some 5 := by
  unfold Part.takes
  decide +kernel

theorem test_hyps_TransferGoesOn :
    (∀ st ∈ [ChanState.moving, .stopping], ∀ g ∈ guards,
        ∀ i ∈ [TransferItem.guardAnswer .c0 true, .guardAnswer .c0 false, .burstOutcome .c0 (.completed 4 none),
            .burstOutcome .c0 .sourceError, .burstOutcome .c0 .destError, .burstOutcome .c0 .busTimeout],
          (offered i (chanIn st [descriptor g 4] clean)).takes i [] ∧
            ((offered i (chanIn st [descriptor g 4] clean)).chan .c0).list = descriptor g 4 :: [] ∧
            ((offered i (chanIn st [descriptor g 4] clean)).chan .c0).state = st) ∧
      (descriptor .none 4).moved < (descriptor .none 4).op.length ∧
      (descriptor .none 8).op.length ≤ (descriptor .none 8).moved ∧ 0 + 4 < (descriptor .none 0).op.length ∧
      (descriptor .none 4).op.length ≤ 4 + 4 ∧
      ((clean.onChan .c0 fun ch => { ch with loss := some .leaseLost }).chan .c0).loss = some .leaseLost := by
  unfold Part.takes
  decide +kernel

theorem test_hyps_DescriptorEnds :
    ((offered (.releaseAnswer .c0 true) ((chanIn .stopping [descriptor .none 8] clean).onChan .c0 fun ch =>
          { ch with ending := some .done })).takes (.releaseAnswer .c0 true) [] ∧
        (((chanIn .stopping [descriptor .none 8] clean).onChan .c0 fun ch =>
          { ch with ending := some .done }).chan .c0).ending = some .done) ∧
      (∀ st ∈ [ChanState.moving, .stopping, .paused],
        ((chanIn st [descriptor .none 8, unstarted] clean).chan .c0).list = descriptor .none 8 :: [unstarted] ∧
          ((chanIn st [descriptor .none 8, unstarted] clean).chan .c0).state = st) ∧
      ((0 : AgentId) ∈ (clean.setWithdrawing [0]).transfer.withdrawing ∧
        (chanIn .stopping [descriptor .none 8] clean).descriptorCount 0 = 1) := by
  unfold Part.takes
  decide +kernel

/-! ### Eviction and CLEAR -/

/-- A0's eviction at a stage, with a report in the agent table's list. -/
def evicting (st : EvictionStage) (r : Report) : Part :=
  ((agentIn .evicting 0 clean).setEvictions [{ agent := 0, stage := st }]).setReports [r]

theorem test_hyps_EvictionStages :
    ((evicting .purge (.purgeDone 0)).table.reports = .purgeDone 0 :: [] ∧
        (evicting .purge (.purgeDone 0)).tableFree = true ∧
        (evicting .purge (.purgeDone 0)).evictionStage 0 = some .purge) ∧
      ((evicting .withdraw (.noDescriptorLeft 0)).table.reports = .noDescriptorLeft 0 :: [] ∧
        (evicting .withdraw (.noDescriptorLeft 0)).evictionStage 0 = some .withdraw ∧
        clean.evictionStage 0 ≠ some .withdraw) ∧
      (∀ c ∈ [none, some ClearPhase.stopSent, some .stopping, some .atRest],
        ((evicting .purge (.purgeDone 0)).setClear c).table.clear ∈ [none, some .stopSent, some .stopping, some .atRest] ∧
        ((evicting .purge (.purgeDone 0)).setClear c).evictionStage 0 = some .purge ∧
        ((evicting .withdraw (.noDescriptorLeft 0)).setClear c).evictionStage 0 = some .withdraw) ∧
      (∀ c ∈ [ClearPhase.stepDue, .stepPending, .stepDone, .transferSent, .transferDone],
        ((evicting .withdraw (.noDescriptorLeft 0)).setClear (some c)).table.clear ∉
            [none, some .stopSent, some .stopping, some .atRest] ∧
        ((evicting .purge (.purgeDone 0)).setClear (some c)).tableFree = true ∧
        ((evicting .withdraw (.noDescriptorLeft 0)).setClear (some c)).tableFree = true) ∧
      ∀ ds ∈ [[], [unstarted], [descriptor .none 4, unstarted]],
        (offered (.withdrawAll 0) (chanIn .moving ds clean)).takes (.withdrawAll 0) [] := by
  unfold Part.takes
  decide +kernel

theorem test_hyps_ClearStopsChannels :
    ((supAsked .clear [] (clean.reserve .supervisor 15)).waits .supervisor .clear (words []) ∧
        (supAsked .clear [] (clean.reserve .supervisor 15)).tableFree = true ∧
        (supAsked .clear [] (clean.reserve .supervisor 15)).clearing = false ∧
        ((clean.reserve .supervisor 15).queue .supervisor).reserved + 1 ≤ 16 ∧
        16 < ((clean.reserve .supervisor 16).queue .supervisor).reserved + 1) ∧
      (offered .clearStop (chanIn .moving [descriptor .none 4] clean)).takes .clearStop [] ∧
      ((clean.setClear (some .stopping)).table.clear = some .stopping ∧
        ((clean.setClear (some .stopping)).chan .c0).state = .idle ∧
        ((clean.setClear (some .stopping)).chan .c0).inFlight = .nothing) ∧
      ((clean.setReports [.channelsAtRest]).table.reports = .channelsAtRest :: [] ∧
        (clean.setReports [.channelsAtRest]).pageClaims .supervisor = false) ∧
      ((supClaimed .inspectLock [5, 0] (clean.setReports [.channelsAtRest])).table.reports = .channelsAtRest :: [] ∧
        (supClaimed .inspectLock [5, 0] (clean.setReports [.channelsAtRest])).tableFree = true ∧
        (supClaimed .inspectLock [5, 0] (clean.setReports [.channelsAtRest])).pageClaims .supervisor = true) := by
  unfold Part.waits Part.takes
  decide +kernel

theorem test_hyps_ClearSettlesEverything :
    ((clean.setClear (some .stepPending)).table.clear = some .stepPending ∧
        (clean.setClear (some .stepPending)).mayServe supervisorPos = true) ∧
      ((clean.setReports [.lockTableStep]).table.reports = .lockTableStep :: [] ∧ clean.tableFree = true) ∧
      (offered .clearTransferStep (chanIn .stopping [descriptor .none 4] clean)).takes .clearTransferStep [] ∧
      (clean.setReports [.transferStep]).table.reports = .transferStep :: [] := by
  unfold Part.takes
  decide +kernel

/-! ### The backplane master -/

/-- The master with a burst of C0 in a phase, its count absent outside REQUESTING. -/
def masterIn (ph : Phase) (b : Burst) (xs : List Word) : Part :=
  clean.setMaster { clean.master with
    phase := ph, current := some { chan := .c0, burst := b }, staging := xs,
    count := if ph = .requesting then some 4 else none }

theorem test_hyps_BurstsAreCutAndTaken :
    (descriptor .none 4).op = .copy 0x10000 0x20000 8 ∧ (descriptor .none 4).moved < 8 ∧
      clean.master.phase = .idle ∧ clean.master.pending.get .c1 = none ∧
      (masterIn .reading (.read 8) []).master.phase ≠ .idle ∧
      ({ clean.master with pending := ⟨some (.read 8), some (.read 12)⟩ }.pending.get .c0 = some (.read 8) ∧
        clean.master.lastServed = .c1) ∧
      (clean.master.pending.c0 = none ∧ clean.master.pending.c1 = none) := by decide +kernel

theorem test_hyps_MasterCarriesOutBurst :
    (∀ ph ∈ [Phase.requesting, .reading, .writing],
        ∀ b ∈ [Burst.copy 0x10000 0x20000 8, .write 0x20000 42, .read 0x10000],
          (masterIn ph b [42]).master.current = some { chan := .c0, burst := b } ∧ (masterIn ph b [42]).master.phase = ph) ∧
      (masterIn .requesting (.read 8) []).master.count ≠ some 0 ∧
      ({ (masterIn .requesting (.read 8) []).master with count := some 0 }).count = some 0 ∧
      (clean.requesting = false ∧ clean.master.phase ≠ .reading ∧ clean.master.phase ≠ .writing) ∧
      (clean.setMaster { (masterIn .requesting (.read 8) []).master with count := some 0 }).requesting = false ∧
      4 * (0 + 1) < (Burst.copy 0x10000 0x20000 8).length ∧ (Burst.read 8).length ≤ 4 * (0 + 1) ∧
      (masterIn .writing (.write 0x20000 42) [42]).master.staging[0]? = some 42 := by decide +kernel

/-! ### The invariants -/

/-- A state that meets every invariant, not the state after reset: A0 holds lock 5. -/
def held : Part := (attached.setLock 5 (lockWith [holding (.agent 0) .exclusive 3] [])).reserve (.agent 0) 1

theorem test_hyps_EveryStepKeepsLockDiscipline : held.LocksSound := by
  intro l
  have h : held.lock l = if l = 5 then lockWith [holding (.agent 0) .exclusive 3] [] else LockEntry.reset := by
    revert l
    decide +kernel
  rw [h]
  split
  · exact ⟨by decide, by decide, by decide, by decide, by decide, by simp [lockWith], by decide, by decide⟩
  · exact ⟨by decide, by decide, by simp [LockEntry.reset], by simp [LockEntry.reset], by simp [LockEntry.reset],
      by simp [LockEntry.reset], by decide, by decide⟩

theorem test_hyps_EveryStepKeepsCopiesAndMaster : held.CopiesAgree ∧ (masterIn .requesting (.read 8) []).master.Sound :=
  ⟨by unfold Part.CopiesAgree; decide +kernel, by decide +kernel, by decide +kernel, by decide +kernel, by decide +kernel⟩

/-- The eviction of A0, its last report in the agent table's list, beside one of A1 that still owes a place. -/
def leaving : Part :=
  ((evicting .withdraw (.noDescriptorLeft 0)).setEvictions [⟨0, .withdraw⟩, ⟨1, .withdraw⟩]).onChan .c0
    (fun ch => { ch with list := [{ unstarted with owner := 1 }] }) |>.reserve (.agent 1) 1

theorem test_hyps_EveryCommandKeepsRoom_agents :
    held.RoomKept ∧
      (leaving.RoomKept ∧ leaving.table.reports = .noDescriptorLeft 0 :: [] ∧
        leaving.evictionStage 0 = some .withdraw ∧ leaving.placesOwed 0 = 0 ∧ leaving.placesOwed 1 = 1) ∧
      ((clean.setReports [.transferStep]).RoomKept ∧ ∀ a, (clean.setReports [.transferStep]).placesOwed a = 0) := by
  unfold Part.RoomKept
  decide +kernel

/-- An eviction, a CLOSING lock, a pending pause and a CLEAR in flight, with their four places. -/
def owing : Part :=
  ((((evicting .purge (.transferStep)).setLock 5
    { lockWith [holding (.agent 1) .shared 3] [] with state := .closing }).onChan .c0
      fun ch => { ch with state := .moving, pausePending := true }).setClear (some .transferDone)).reserve .supervisor 4

theorem test_hyps_EveryCommandKeepsRoom_supervisor : owing.supervisorOwed = 4 ∧ owing.SupervisorRoomKept :=
  ⟨by decide +kernel,
    by decide +kernel, by decide +kernel,
    ⟨by decide +kernel, by decide +kernel, by decide +kernel, by decide +kernel, by decide +kernel⟩⟩

theorem test_hyps_steps :
    ∃ t, step { pending := [.tickBoundary], part := held } = .next t ∧ t.pending = [] :=
  ⟨_, rfl, rfl⟩

/-! ### One step of each kind -/

theorem test_step_acquire_granted :
    ((run (.acquire 0 .take) (claimed 0 .acquire [0x0205, 4, 0] (attached.setLock 5 (lockWith [] [])))).lock 5).holders =
      [{ party := .agent 0, owner := 0, mode := .exclusive, token := 8, remaining := some 4 }] := by decide +kernel

theorem test_step_release_grants_next :
    ((run (.release 0 .take) (claimed 0 .release [5, 7] (attached.setLock 5
        (lockWith [holding (.agent 0) .exclusive 3] [waiting (.agent 1) .shared 3])))).queue (.agent 1)).notices =
      [.granted 5 8 .shared 5] := by decide +kernel

theorem test_step_downgrade :
    (((run (.downgrade 0 .take) (claimed 0 .downgrade [5, 7] (attached.setLock 5
        (lockWith [holding (.agent 0) .exclusive 3] [])))).lock 5).holders.map Holding.mode) = [.shared] := by
  decide +kernel

theorem test_step_configure :
    ((run (.configureLock .take) (supClaimed .configureLock [63, 2, 5, 10, 2, 3] clean)).lock 63) =
      { lockWith [] [] with mask := 3, generation := 0 } := by decide +kernel

theorem test_step_write_then_status :
    (run (.attach 0 (.write 3 0)) (agentIn .detached 0 clean)).readRegister (.agent 0) .status = 0x9 ∧
      (run (.attach 0 .take) (run (.attach 0 (.write 3 0)) (agentIn .detached 0 clean))).readRegister (.agent 0)
        .status = 0x01000012 := by decide +kernel

theorem test_step_leaseExpiry :
    ((run .leaseExpiry (expiring .lease (lockWith [holding (.agent 1) .shared 0] []))).queue (.agent 1)).notices =
      [.revoked 5 7 .leaseExpired] := by decide +kernel

theorem test_step_tick_runs_out :
    (run .tickBoundary (attached.setLock 5 (lockWith [holding (.agent 1) .shared 1] []))).engine.ranOut =
      [⟨5, .agent 1, .lease⟩] := by decide +kernel

theorem test_step_post_starts_transfer :
    (run (.post 0 .take) (asked 0 .post (post 0x10000 0) attached)).master.current =
      some { chan := .c0, burst := .copy 0x10000 0x20000 8 } := by decide +kernel

theorem test_step_burst_crosses_64 :
    Descriptor.nextBurst { descriptor .none 0 with op := .copy 0x1003C 0x20000 8 } = .copy 0x1003C 0x20000 4 := by
  decide +kernel

theorem test_step_burst_outcome_ends_transfer :
    ((run .burstOutcome (offered (.burstOutcome .c0 (.completed 8 none))
        (chanIn .moving [descriptor .none 0] (attached.reserve (.agent 0) 1)))).queue (.agent 0)).notices =
      [.transferDone 9 .c0 8 none] := by decide +kernel

theorem test_step_readWord_completes :
    (run (.readCycleAnswered (.data 42)) (masterIn .reading (.read 8) [])).transfer.inbox =
      [.burstOutcome .c0 (.completed 4 (some 42))] := by decide +kernel

theorem test_step_purge :
    (run .purge ((attached.setLock 5 (lockWith [holding (.agent 0) .shared 3] [])).setPurges [0])).table.reports =
      [.purgeDone 0] ∧
    ((run .purge ((attached.setLock 5 (lockWith [holding (.agent 0) .shared 3] [])).setPurges [0])).lock 5).holders =
      [] := by decide +kernel

theorem test_step_clearAgentStep :
    ((run .clearAgentStep ((attached.setClear (some .transferDone)).setReports [.transferStep])).queue
        .supervisor).notices = [.clearDone] ∧
      ((run .clearAgentStep ((attached.setClear (some .transferDone)).setReports [.transferStep])).agent 0).evicted =
        true := by decide +kernel

theorem test_step_read_notice_words :
    ((clean.onQueue (.agent 0) (Queue.deliver (.granted 12 8 .shared 5) 1)).readRegister (.agent 0) .notice0 = 0x00010C01) ∧
      ((clean.onQueue (.agent 0) (Queue.deliver (.granted 12 8 .shared 5) 1)).readRegister (.agent 0) .notice1 = 8) ∧
      clean.readRegister (.agent 2) .ident = 0x10022408 := by decide +kernel

end Sys2Proof.Tests
end

section
/-! Proofs: the discipline of Chapter 1 on every lock (O58). What the changes of one lock entry make of its discipline, what
follows for all 64 locks, and the parts of `Preserved` for `Part.LocksSound`. -/

namespace Sys2Proof.Machine

/-! ### One lock entry -/

/-- A lock without records keeps the discipline, unless it is CLOSING (R4, R7). -/
theorem LockEntry.sound_of_empty {e : LockEntry} (hh : e.holders = []) (hw : e.waiters = []) (hs : e.state ≠ .closing) :
    e.Sound := by
  constructor <;> simp [hh, hw, hs, LockEntry.records, LockEntry.agentWaiters]

/-- Without a holding and without a wait, a party has no record on a lock. -/
theorem LockEntry.records_eq_zero {e : LockEntry} {q : Party} (hh : e.holderOf q = none) (hw : e.waiterOf q = none) :
    e.records (fun x => x == q) = 0 := by
  simp only [LockEntry.holderOf, LockEntry.waiterOf, List.find?_eq_none] at hh hw
  simp only [LockEntry.records, List.countP_eq_zero.2 hh, List.countP_eq_zero.2 hw]

theorem LockEntry.admits_of_admission {e : LockEntry} {a : AgentId} {m : Mode} (h : e.admission a m = none) :
    e.admits a m := by
  unfold LockEntry.admission at h
  cases hs : e.state with
  | disabled => simp [hs] at h
  | closing => simp [hs] at h
  | opened =>
    simp only [hs] at h
    split at h
    · simp at h
    · rename_i hm
      split at h
      · simp at h
      · rename_i hk
        cases hh : e.holderOf (.agent a) with
        | some x => simp [hh] at h
        | none => exact ⟨hs, hm, by simpa using hk, hh, by simpa [hh] using h⟩

theorem LockEntry.opened_of_admitsChannel {e : LockEntry} {m : Mode} {owner : AgentId} (h : e.admitsChannel m owner = true) :
    e.state = .opened := by
  simp only [LockEntry.admitsChannel, Bool.and_eq_true, beq_iff_eq] at h
  exact h.1.1

theorem LockEntry.grantableNow_iff (e : LockEntry) (m : Mode) :
    e.grantableNow m = true ↔ e.fits m = true ∧ e.waiters = [] := by
  simp [LockEntry.grantableNow]

/-- A grant at once keeps the discipline: the lock has no waiter (R41). -/
theorem LockEntry.Sound.withHolding {e : LockEntry} (h : e.Sound) (hst : e.state = .opened) (party : Party) (owner : AgentId)
    {m : Mode} (requested : Ticks) (hg : e.grantableNow m = true)
    (hp : ∀ a, party = .agent a → e.records (fun q => q == .agent a) = 0) :
    (e.withHolding (e.newHolding party owner m requested)).Sound := by
  obtain ⟨hf, hw⟩ := (e.grantableNow_iff m).1 hg
  exact (h.orderly.withHolding hst party owner m requested hf hp).sound
    (by simp [LockEntry.withHolding, hst]) (by simp [LockEntry.withHolding, hw])

/-- A wait that joins an OPEN lock keeps the discipline, where the request is not grantable now and, for an agent, it has no
record on the lock and the queue limit is not reached (R11, R12, R16). -/
theorem LockEntry.Sound.withWait {e : LockEntry} (h : e.Sound) (hst : e.state = .opened) (w : Waiting)
    (hg : e.grantableNow w.mode = false)
    (hp : ∀ a, w.party = .agent a → e.records (fun q => q == .agent a) = 0 ∧ e.agentWaiters < e.queueLimit) :
    (e.withWait w).Sound := by
  refine ⟨by simp [LockEntry.withWait, hst], by simp [LockEntry.withWait, hst], h.exclusive, h.tokens, h.leases, ?_, ?_, ?_⟩
  · intro _ x hx
    have hfits : (e.withWait w).fits x.mode = e.fits x.mode := by cases x.mode <;> rfl
    rw [hfits]
    cases hws : e.waiters with
    | nil =>
      simp only [LockEntry.withWait, hws, List.nil_append, List.head?_cons, Option.mem_def, Option.some.injEq] at hx
      subst hx
      simpa [LockEntry.grantableNow, hws] using hg
    | cons y ys =>
      refine h.settled hst x ?_
      simpa [LockEntry.withWait, hws] using hx
  · intro a
    have h1 := h.single a
    by_cases ha : w.party = .agent a
    · have h0 := (hp a ha).1
      simp only [LockEntry.records] at h0
      simp [LockEntry.records, LockEntry.withWait, ha]
      omega
    · simpa [LockEntry.records, LockEntry.withWait, ha] using h1
  · have h1 := h.limited
    have hadd : (e.withWait w).agentWaiters = e.agentWaiters + (if w.party.isAgent then 1 else 0) := by
      simp [LockEntry.agentWaiters, LockEntry.withWait, List.countP_cons]
    rw [hadd]
    cases hw : w.party with
    | agent a => exact (hp a hw).2
    | chan c => exact h1

/-- Records changed in place, each keeping its party, its token and whether it has a lease, leave an orderly lock orderly,
where no holding becomes EXCLUSIVE. -/
theorem LockEntry.Orderly.mapped {e : LockEntry} (h : e.Orderly) (f : Holding → Holding) (g : Waiting → Waiting)
    (hp : ∀ x, (f x).party = x.party) (hm : ∀ x, (f x).mode = .exclusive → x.mode = .exclusive)
    (ht : ∀ x, (f x).token = x.token) (hl : ∀ x ∈ e.holders, ((f x).remaining.isSome = true ↔ e.maxLease ≠ 0))
    (hw : ∀ w, (g w).party = w.party) :
    ({ e with holders := e.holders.map f, waiters := e.waiters.map g } : LockEntry).Orderly := by
  refine ⟨fun hs => ?_, fun hs => ?_, ?_, ?_, ?_, fun a => ?_, ?_⟩
  · simpa using h.disabled hs
  · simpa using h.closing hs
  · simp only [List.forall_mem_map, List.length_map]
    exact fun x hx hmx => h.exclusive x hx (hm x hmx)
  · simp only [List.forall_mem_map, ht]
    exact h.tokens
  · simpa only [List.forall_mem_map] using hl
  · simpa [LockEntry.records, List.countP_map, Function.comp_def, hp, hw] using h.single a
  · simpa [LockEntry.agentWaiters, List.countP_map, Function.comp_def, hw] using h.limited

/-- What fits beside the holdings is a matter of their modes (R13). -/
theorem LockEntry.fits_of_modes {e e' : LockEntry} (h : e'.holders.map Holding.mode = e.holders.map Holding.mode) (m : Mode) :
    e'.fits m = e.fits m := by
  have modes (x : LockEntry) : x.fits m = true ↔
      (m = .exclusive ∧ x.holders.map Holding.mode = []) ∨ (m = .shared ∧ ∀ y ∈ x.holders.map Holding.mode, y ≠ .exclusive) := by
    simp only [LockEntry.fits_iff, List.map_eq_nil_iff, List.forall_mem_map]
  rw [Bool.eq_iff_iff, modes, modes, h]

/-- Records changed in place as in `Orderly.mapped`, with their modes kept, keep the discipline. -/
theorem LockEntry.Sound.mapped {e : LockEntry} (h : e.Sound) (f : Holding → Holding) (g : Waiting → Waiting)
    (hp : ∀ x, (f x).party = x.party) (hm : ∀ x, (f x).mode = x.mode) (ht : ∀ x, (f x).token = x.token)
    (hl : ∀ x ∈ e.holders, ((f x).remaining.isSome = true ↔ e.maxLease ≠ 0))
    (hw : ∀ w, (g w).party = w.party ∧ (g w).mode = w.mode) :
    ({ e with holders := e.holders.map f, waiters := e.waiters.map g } : LockEntry).Sound := by
  refine (h.orderly.mapped f g hp (fun x => by rw [hm]; exact id) ht hl fun w => (hw w).1).sound (fun hs => ?_) fun hs w hx => ?_
  · simpa using (h.closing hs).1
  · simp only [List.head?_map, Option.mem_def, Option.map_eq_some_iff] at hx
    obtain ⟨y, hy, rfl⟩ := hx
    rw [(hw y).2, LockEntry.fits_of_modes (e := e) (by simp [hm])]
    exact h.settled hs y hy

theorem LockEntry.Sound.tick {e : LockEntry} (h : e.Sound) : e.tick.Sound :=
  h.mapped (fun x => { x with remaining := tickCount x.remaining }) (fun w => { w with remaining := tickCount w.remaining })
    (fun _ => rfl) (fun _ => rfl) (fun _ => rfl) (fun x hx => by simpa [tickCount] using h.leases x hx)
    (fun _ => ⟨rfl, rfl⟩)

/-- RENEW's change of a holding keeps the discipline (R71). -/
theorem LockEntry.Sound.renewed {e : LockEntry} (h : e.Sound) (q : Party) (requested : Ticks) :
    (e.onHolder q fun x => { x with remaining := e.leaseGiven requested }).Sound := by
  have hl (x : Holding) (hx : x ∈ e.holders) :
      ((if x.party = q then { x with remaining := e.leaseGiven requested } else x).remaining.isSome = true ↔
        e.maxLease ≠ 0) := by
    split
    · exact e.leaseGiven_isSome requested
    · exact h.leases x hx
  simpa [LockEntry.onHolder] using h.mapped (fun x => if x.party = q then { x with remaining := e.leaseGiven requested } else x)
    id (fun x => by split <;> rfl) (fun x => by split <;> rfl) (fun x => by split <;> rfl) hl (fun _ => ⟨rfl, rfl⟩)

/-- DOWNGRADE's change of a holding leaves an orderly lock orderly (R59). -/
theorem LockEntry.Orderly.downgraded {e : LockEntry} (h : e.Orderly) (q : Party) :
    (e.onHolder q fun x => { x with mode := .shared }).Orderly := by
  have hl (x : Holding) (hx : x ∈ e.holders) :
      ((if x.party = q then { x with mode := .shared } else x).remaining.isSome = true ↔ e.maxLease ≠ 0) := by
    split <;> exact h.leases x hx
  have hm (x : Holding) : (if x.party = q then { x with mode := .shared } else x).mode = .exclusive → x.mode = .exclusive := by
    split <;> simp
  simpa [LockEntry.onHolder] using h.mapped (fun x => if x.party = q then { x with mode := .shared } else x) id
    (fun x => by split <;> rfl) hm (fun x => by split <;> rfl) hl (fun _ => rfl)

theorem LockEntry.Sound.withoutHolder {e : LockEntry} (h : e.Sound) (q : Party) : (e.withoutHolder q).Orderly :=
  h.orderly.sub rfl rfl rfl List.eraseP_sublist (List.Sublist.refl _)

theorem LockEntry.Sound.withoutWaiter {e : LockEntry} (h : e.Sound) (q : Party) : (e.withoutWaiter q).Orderly :=
  h.orderly.sub rfl rfl rfl (List.Sublist.refl _) List.eraseP_sublist

/-- The purge of an agent keeps the discipline of a lock (R22). -/
theorem LockEntry.Sound.afterPurge {e : LockEntry} (h : e.Sound) (a : AgentId) : (e.afterPurge a).1.Sound := by
  have ho : (e.without a).Orderly := h.orderly.sub rfl rfl rfl List.filter_sublist List.filter_sublist
  unfold LockEntry.afterPurge
  split
  · exact h
  · cases hs : e.state with
    | opened => exact ho.grantPass (by simp [LockEntry.without, hs])
    | closing =>
      dsimp only
      split
      · rename_i hh
        exact LockEntry.sound_of_empty hh (ho.closing hs) (by simp)
      · rename_i hh
        exact ho.sound (fun _ => hh) (by simp [LockEntry.without, hs])
    | disabled => exact ho.sound (by simp [LockEntry.without, hs]) (by simp [LockEntry.without, hs])

/-! ### All locks -/

theorem Part.LocksSound.of_locks {p q : Part} (h : p.LocksSound) (hq : ∀ l, q.lock l = p.lock l := by simp) : q.LocksSound :=
  fun l => by rw [hq]; exact h l

/-- One lock changed to an entry that keeps the discipline. -/
theorem Part.LocksSound.set {p q : Part} {e : LockEntry} (h : p.LocksSound) (l : LockId) (he : e.Sound)
    (hq : ∀ l', q.lock l' = if l' = l then e else p.lock l' := by simp) : q.LocksSound := by
  intro l'
  rw [hq]
  split
  · exact he
  · exact h l'

/-- The grant pass on a lock whose entry has been changed to an orderly one (R16). -/
theorem Part.LocksSound.runPass {p q : Part} {e : LockEntry} (h : p.LocksSound) (l : LockId) (he : e.Orderly)
    (hc : e.state = .closing → e.holders ≠ []) (hq : ∀ l', q.lock l' = if l' = l then e else p.lock l' := by simp) :
    (q.runPass l).1.LocksSound := by
  refine h.set l (he.grantPass hc) fun l' => ?_
  rw [(q.runPass_spec l).1, hq, hq]
  split <;> simp_all

/-- The end of a claim on a lock whose entry has been changed to an orderly one: the grant pass, or the draining (R7). -/
theorem Part.LocksSound.settle {p q : Part} {e : LockEntry} (h : p.LocksSound) (l : LockId) (he : e.Orderly)
    (hq : ∀ l', q.lock l' = if l' = l then e else p.lock l' := by simp) : (q.settle l).1.LocksSound := by
  have hl : q.lock l = e := by rw [hq, if_pos rfl]
  unfold Part.settle
  rw [hl]
  cases hs : e.state with
  | opened => exact h.runPass l he (by simp [hs]) hq
  | disabled => exact h.set l (he.sound (by simp [hs]) (by simp [hs])) hq
  | closing =>
    dsimp only
    split
    · rename_i hh
      refine h.set l (e := { e with state := .disabled })
        (LockEntry.sound_of_empty (by simpa using hh) (he.closing hs) (by simp)) fun l' => ?_
      rw [Part.lock_drain, hl, hq]
      split <;> rfl
    · rename_i hh
      exact h.set l (he.sound (fun _ => by simpa using hh) (by simp [hs])) hq

/-! ### The lock engine's operations -/

theorem Part.LocksSound.acquireBody {p : Part} (h : p.LocksSound) (a : AgentId) (args : Vector Word 6) :
    (Part.acquireBody a args p).1.LocksSound := by
  unfold Part.acquireBody
  split
  · exact h
  · rename_i r _
    dsimp only
    split
    · exact h
    · rename_i ha
      obtain ⟨ho, _, _, hh, hw⟩ := LockEntry.admits_of_admission ha
      have hr : ∀ b, Party.agent a = .agent b → (p.lock r.lock).records (fun q => q == .agent b) = 0 := by
        rintro b ⟨⟩
        exact LockEntry.records_eq_zero hh hw
      split
      · rename_i hg
        unfold Part.acquireNow
        split
        · exact h
        · split
          · exact h
          · exact h.set r.lock ((h r.lock).withHolding ho (.agent a) a r.requested hg hr)
      · rename_i hg
        split
        · exact h
        · split
          · exact h
          · rename_i hlim
            unfold Part.acquireLater
            split
            · exact h
            · split
              · exact h
              · exact h.set r.lock ((h r.lock).withWait ho (newWait (.agent a) a r.mode r.requested r.waitLimit)
                  (by simpa [newWait] using hg) fun b hb => ⟨hr b hb, by omega⟩)

theorem Part.LocksSound.cancelWaitBody {p : Part} (h : p.LocksSound) (a : AgentId) (args : Vector Word 6) :
    (Part.cancelWaitBody a args p).1.LocksSound := by
  unfold Part.cancelWaitBody
  split
  · exact h
  · rename_i l _
    dsimp only
    split
    · exact h.runPass l ((h l).withoutWaiter (.agent a)) fun hc => ((h l).closing hc).1
    · split <;> exact h

theorem Part.LocksSound.releaseBody {p : Part} (h : p.LocksSound) (a : AgentId) (args : Vector Word 6) :
    (Part.releaseBody a args p).1.LocksSound := by
  unfold Part.releaseBody
  split
  · exact h
  · rename_i l _
    split
    · exact h
    · exact h.settle l ((h l).withoutHolder (.agent a))

theorem Part.LocksSound.renewBody {p : Part} (h : p.LocksSound) (a : AgentId) (args : Vector Word 6) :
    (Part.renewBody a args p).1.LocksSound := by
  unfold Part.renewBody
  split
  · rename_i l lease _ _
    dsimp only
    split
    · exact h
    · exact h.set l ((h l).renewed (.agent a) lease)
  · exact h

theorem Part.LocksSound.downgradeBody {p : Part} (h : p.LocksSound) (a : AgentId) (args : Vector Word 6) :
    (Part.downgradeBody a args p).1.LocksSound := by
  unfold Part.downgradeBody
  split
  · exact h
  · rename_i l _
    dsimp only
    split
    · exact h
    · split
      · exact h
      · split
        · exact h
        · exact h.runPass l ((h l).orderly.downgraded (.agent a))
            fun hc => by simpa [LockEntry.onHolder] using ((h l).closing hc).1

theorem Part.LocksSound.configureBody {p : Part} (h : p.LocksSound) (args : Vector Word 6) :
    (Part.configureBody args p).1.LocksSound := by
  unfold Part.configureBody
  split
  · exact h
  · rename_i r _
    dsimp only
    split
    · exact h
    · refine h.set r.lock ?_ (p.lock_setLock r.lock _)
      exact LockEntry.sound_of_empty rfl rfl (by simp)

/-- The entry that CLOSE_LOCK leaves of an OPEN lock keeps the discipline (R6). -/
theorem LockEntry.Sound.closed {e : LockEntry} (h : e.Sound) :
    ({ e with state := if e.holders.isEmpty then .disabled else .closing, waiters := [] } : LockEntry).Sound := by
  by_cases hh : e.holders = []
  · exact LockEntry.sound_of_empty hh rfl (by simp [hh])
  · have hst : (if e.holders.isEmpty then LockState.disabled else .closing) = .closing := by simp [hh]
    rw [hst]
    refine ⟨by simp, by simp [hh], h.exclusive, h.tokens, h.leases, by simp, fun a => ?_, by simp [LockEntry.agentWaiters]⟩
    exact (Nat.le_add_right _ _).trans (h.single a)

theorem Part.LocksSound.closeBody {p : Part} (h : p.LocksSound) (args : Vector Word 6) :
    (Part.closeBody args p).1.LocksSound := by
  unfold Part.closeBody
  split
  · exact h
  · rename_i l _
    dsimp only
    split
    · exact h
    · split
      · exact h
      · refine h.set l (h l).closed fun l' => ?_
        cases (p.lock l).holders.isEmpty
        · simp
        · simp only [if_true, Part.lock_drain, Part.reportCancelleds_keeps, Part.lock_setLock, Part.reserve_keeps]
          split <;> rfl

theorem Part.LocksSound.breakBody {p : Part} (h : p.LocksSound) (args : Vector Word 6) :
    (Part.breakBody args p).1.LocksSound := by
  unfold Part.breakBody
  split
  · exact h
  · rename_i l _
    dsimp only
    split
    · exact h
    · split
      · refine h.set l (e := { p.lock l with state := .disabled, holders := [], waiters := [] })
          (LockEntry.sound_of_empty rfl rfl (by simp)) fun l' => ?_
        simp only [Part.lock_drain, Part.reportCancelleds_keeps, Part.reportRevokeds_keeps, Part.lock_setLock, if_true]
        split <;> rfl
      · rename_i hc
        exact h.set l (e := { p.lock l with holders := [], waiters := [] }) (LockEntry.sound_of_empty rfl rfl hc)

theorem Part.LocksSound.expireLease {p : Part} (h : p.LocksSound) (l : LockId) (q : Party) :
    (Part.expireLease l q p).LocksSound := by
  unfold Part.expireLease
  split
  · split
    · exact h.settle l ((h l).withoutHolder q)
    · exact h
  · exact h

theorem Part.LocksSound.expireWait {p : Part} (h : p.LocksSound) (l : LockId) (q : Party) :
    (Part.expireWait l q p).LocksSound := by
  unfold Part.expireWait
  split
  · split
    · exact h.runPass l ((h l).withoutWaiter q) fun hc => ((h l).closing hc).1
    · exact h
  · exact h

theorem Part.LocksSound.purgeLock {p : Part} (h : p.LocksSound) (a : AgentId) (l : LockId) :
    (Part.purgeLock a p l).LocksSound :=
  h.set l ((h l).afterPurge a) (Part.purgeLock_spec a p l).1

theorem Part.LocksSound.clearLock {p : Part} (h : p.LocksSound) (l : LockId) : (p.clearLock l).LocksSound :=
  h.set l (LockEntry.sound_of_empty rfl rfl (by cases hs : (p.lock l).state <;> simp)) (p.clearLock_spec l).1

theorem Part.tick_lock (p : Part) (l : LockId) : p.tick.lock l = (p.lock l).tick := by
  simp only [Part.tick, Part.setMaster_keeps, Part.setRanOut_keeps, Part.lock_setLocks, pick_each]
  rfl

theorem Part.LocksSound.tick {p : Part} (h : p.LocksSound) : p.tick.LocksSound := by
  intro l
  rw [p.tick_lock l]
  exact (h l).tick

theorem Part.LocksSound.acquireFor {p : Part} (h : p.LocksSound) (c : ChanId) (l : LockId) (m : Mode) (r w : Ticks)
    (owner : AgentId) : (Part.acquireFor c l m r w owner p).LocksSound := by
  unfold Part.acquireFor
  dsimp only
  split
  · exact h.of_locks
  · rename_i ha
    have ho := LockEntry.opened_of_admitsChannel (by simpa using ha)
    split
    · rename_i hg
      exact h.set l ((h l).withHolding ho (.chan c) owner r hg (by simp))
    · rename_i hg
      exact h.set l ((h l).withWait ho (newWait (.chan c) owner m r w) (by simpa [newWait] using hg) (by simp [newWait]))

theorem Part.LocksSound.removeWaiterFor {p : Part} (h : p.LocksSound) (c : ChanId) (l : LockId) :
    (Part.removeWaiterFor c l p).LocksSound := by
  unfold Part.removeWaiterFor
  dsimp only
  split
  · exact (h.runPass (q := p.setLock l ((p.lock l).withoutWaiter (.chan c))) l ((h l).withoutWaiter (.chan c))
      fun hc => ((h l).closing hc).1).of_locks
  · split <;> exact h.of_locks

theorem Part.LocksSound.releaseFor {p : Part} (h : p.LocksSound) (c : ChanId) (l : LockId) :
    (Part.releaseFor c l p).LocksSound := by
  unfold Part.releaseFor
  dsimp only
  split
  · exact (h.settle (q := p.setLock l ((p.lock l).withoutHolder (.chan c))) l ((h l).withoutHolder (.chan c))).of_locks
  · exact h.of_locks

/-! ### Every command -/

theorem Part.locksSound_reset (straps : Straps) : (Part.reset straps).LocksSound := by
  intro l
  have hl : (Part.reset straps).lock l = LockEntry.reset := by simp [Part.reset, Part.lock, Engine.reset]
  rw [hl]
  exact LockEntry.sound_of_empty rfl rfl (by simp [LockEntry.reset])

theorem Part.notifySupervisors_lock {α : Type} (f : α → Notice) (xs : List α) (p : Part) (l : LockId) :
    (xs.foldl (fun q x => q.notifySupervisor (f x)) p).lock l = p.lock l := by
  induction xs generalizing p with
  | nil => rfl
  | cons x xs ih => simp [ih]

theorem Part.completeClear_lock (p : Part) (l : LockId) : p.completeClear.lock l = p.lock l := by
  simp [Part.completeClear, Part.notifySupervisors_lock (fun v : Eviction => .agentEvicted v.agent)]

theorem Part.completeEviction_lock (a : AgentId) (p : Part) (l : LockId) : (Part.completeEviction a p).lock l = p.lock l := by
  unfold Part.completeEviction
  split <;> simp

theorem Part.locksSound_preserved : Preserved Part.LocksSound where
  served _ _ h := h.of_locks
  present _ _ _ h := h.of_locks
  setStage _ _ _ h := h.of_locks
  setTableServing _ _ h := h.of_locks
  setTransferServing _ _ h := h.of_locks
  setReports _ _ h := h.of_locks
  setInbox _ _ h := h.of_locks
  setExpiry _ _ h := h.of_locks
  setRanOut _ _ h := h.of_locks
  setClear _ _ h := h.of_locks
  setPurges _ _ h := h.of_locks
  setEvictions _ _ h := h.of_locks
  setClaim _ _ _ h := h.of_locks
  setPeriod _ _ h := h.of_locks
  writeFrom _ _ _ _ _ h := h.of_locks
  access _ _ h := h.of_locks
  reset straps _ := (Part.locksSound_reset straps).of_locks fun _ => rfl
  reserveSupervisor _ _ h := h.of_locks
  acquireBody _ a args h := h.acquireBody a args
  cancelWaitBody _ a args h := h.cancelWaitBody a args
  releaseBody _ a args h := h.releaseBody a args
  renewBody _ a args h := h.renewBody a args
  downgradeBody _ a args h := h.downgradeBody a args
  attachBody p a h := h.of_locks fun l => by unfold Part.attachBody; (repeat' split) <;> simp
  concludeDetach p a n d h := h.of_locks fun l => by unfold Part.concludeDetach; dsimp only; split <;> simp
  enableBody p args h := h.of_locks fun l => by unfold Part.enableBody; (repeat' split) <;> simp
  disableBody p args h := h.of_locks fun l => by unfold Part.disableBody; (repeat' split) <;> simp
  evictBody p args h := h.of_locks fun l => by unfold Part.evictBody; (repeat' split) <;> simp
  configureBody _ args h := h.configureBody args
  closeBody _ args h := h.closeBody args
  breakBody _ args h := h.breakBody args
  pauseBody p args h := h.of_locks fun l => by unfold Part.pauseBody; dsimp only; (repeat' split) <;> simp
  resumeBody p args h := h.of_locks fun l => by
    unfold Part.resumeBody Part.resume; dsimp only; (repeat' split) <;> simp
  setBusWaitBody p args h := h.of_locks fun l => by unfold Part.setBusWaitBody; dsimp only; (repeat' split) <;> simp
  acceptPost p a c d args _ h := h.of_locks fun l => by unfold Part.acceptPost; dsimp only; (repeat' split) <;> simp
  withdrawBody p a args h := h.of_locks fun l => by unfold Part.withdrawBody; (repeat' split) <;> simp
  tick _ h := h.tick
  expireLease _ l q h := h.expireLease l q
  expireWait _ l q h := h.expireWait l q
  purgeLock _ a l h := h.purgeLock a l
  clearLock _ l h := h.clearLock l
  acquireFor _ c l m r w owner h := h.acquireFor c l m r w owner
  removeWaiterFor _ c l h := h.removeWaiterFor c l
  releaseFor _ c l h := h.releaseFor c l
  toTransfer _ _ h := h.of_locks
  toTable _ _ h := h.of_locks
  onAcquisition _ _ _ h := h.of_locks
  onGrantReport _ _ _ h := h.of_locks
  onWaitEnded _ _ _ h := h.of_locks
  onHoldingEnded _ _ _ h := h.of_locks
  onRemoval _ _ _ h := h.of_locks
  onGuard _ _ _ h := h.of_locks
  onRelease _ _ h := h.of_locks
  onBurst _ _ _ h := h.of_locks
  onWithdrawAll _ _ h := h.of_locks
  clearTransfer _ h := h.of_locks
  giveStop _ _ _ h := h.of_locks
  grant _ _ h := h.of_locks
  endBurst _ _ _ h := h.of_locks
  readData p b w _ h := h.of_locks fun l => by unfold Part.readData; dsimp only; (repeat' split) <;> simp
  writeDone p b _ h := h.of_locks fun l => by unfold Part.writeDone; dsimp only; (repeat' split) <;> simp

/-- What every command keeps, every step keeps: on an empty queue the state stands (log 1). -/
theorem step_keeps_of_exec {P : Part → Prop}
    (h : ∀ (i : Instr) (s t : State), P s.part → exec i s = .next t → P t.part) {s t : State} (hp : P s.part)
    (ht : step s = .next t) : P t.part := by
  obtain ⟨pending, part⟩ := s
  cases pending with
  | nil =>
    simp only [step, State.takeFront, Host.Outcome.next.injEq] at ht
    rw [← ht]
    exact hp
  | cons c rest => exact h c ⟨rest, part⟩ t hp ht

/-- Settles O58: the parts of every command keep the discipline (`Part.locksSound_preserved`), so every step does. -/
theorem everyStepKeepsLockDiscipline : Obligations.EveryStepKeepsLockDiscipline := by
  intro s t hs ht
  refine step_keeps_of_exec (P := Part.LocksSound) (fun i s t hp h => ?_) hs ht
  refine Part.locksSound_preserved.exec i s t hp h (fun a rest _ _ => ?_) fun rest _ _ => ?_
  · exact hp.of_locks fun l => by simp [Part.completeEviction_lock]
  · exact hp.of_locks fun l => by simp [Part.completeClear_lock]

end Sys2Proof.Machine
end

section
/-! Proofs: how the frames of operations in a row compose, what a served claim presents, and what a claim that changed one
lock's entry makes of the coordinator. The statements about one claim (O17 to O42) cite these. -/

namespace Sys2Proof.Machine

/-! ### Frames of the operations of a claim -/

theorem Frame.append {p q r : Part} {xs ys : List Piece} (h : Frame p q xs) (k : Frame q r ys) : Frame p r (xs ++ ys) :=
  (h.weaken fun _ hx => List.mem_append_left ys hx).trans (k.weaken fun _ hx => List.mem_append_right xs hx)

theorem Part.served_frame (p : Part) (pos : Fin 13) : Frame p (p.served pos) [.lastServed] := by
  intro x hx
  cases x <;> simp_all [SameAt]

theorem Part.raiseDueStep_frame (p : Part) : Frame p p.raiseDueStep [.clear] := by
  intro x hx
  cases x <;> simp_all [SameAt]

theorem Part.setLock_frame (p : Part) (l : LockId) (e : LockEntry) : Frame p (p.setLock l e) [.lock l] := by
  intro x hx
  cases x <;> simp_all [SameAt]

theorem Part.giveBack_frame (p : Part) (g : PageId) (k : Nat) : Frame p (p.giveBack g k) [.queue g] := by
  intro x hx
  cases x <;> simp_all [SameAt]

theorem Part.reserve_frame (p : Part) (g : PageId) (k : Nat) : Frame p (p.reserve g k) [.queue g] := by
  intro x hx
  cases x <;> simp_all [SameAt]

theorem Part.setStage_frame (p : Part) (g : PageId) (st : Stage) : Frame p (p.setStage g st) [.page g] := by
  intro x hx
  cases x <;> simp_all [SameAt]

theorem Part.setTableServing_frame (p : Part) (x : Option PageId) : Frame p (p.setTableServing x) [.tableServing] := by
  intro x hx
  cases x <;> simp_all [SameAt]

theorem Part.setExpiry_frame (p : Part) (xs : List ExpiryClaim) : Frame p (p.setExpiry xs) [.expiry] := by
  intro x hx
  cases x <;> simp_all [SameAt]

theorem Part.setRanOut_frame (p : Part) (xs : List ExpiryClaim) : Frame p (p.setRanOut xs) [.ranOut] := by
  intro x hx
  cases x <;> simp_all [SameAt]

theorem Part.setLocks_frame (p : Part) (ls : Vector LockEntry 64) : Frame p (p.setLocks ls) lockPieces := by
  intro x hx
  cases x <;> simp_all [SameAt, mem_lockPieces]

theorem Part.drain_frame (p : Part) (l : LockId) : Frame p (p.drain l) [.lock l, .queue .supervisor] := by
  intro x hx
  cases x <;> simp_all [SameAt]

theorem Part.runPass_frame (p : Part) (l : LockId) : Frame p (p.runPass l).1 (.lock l :: .inbox :: agentQueues) := by
  obtain ⟨hl, _, _, hs⟩ := p.runPass_spec l
  intro x hx
  simp only [List.mem_cons, mem_agentQueues, not_or, not_exists] at hx
  cases x with
  | queue g =>
    cases g with
    | agent a => exact absurd rfl (hx.2.2 a)
    | supervisor => exact hs
  | lock l' => simp_all [SameAt]
  | _ => simp_all [SameAt]

/-- The reports of revoked holdings go to the agents' queues and the transfer engine's list. -/
theorem Part.reportRevokeds_frame (l : LockId) (why : RevokeReason) (hs : List Holding) (p : Part) :
    Frame p (hs.foldl (Part.reportRevoked l why) p) (.inbox :: agentQueues) := by
  obtain ⟨_, hq, _⟩ := Part.reportRevokeds_spec l why hs p
  intro x hx
  simp only [List.mem_cons, mem_agentQueues, not_or, not_exists] at hx
  cases x with
  | queue g =>
    cases g with
    | agent a => exact absurd rfl (hx.2 a)
    | supervisor => exact hq
  | _ => simp_all [SameAt]

/-- The reports of cancelled waits go to the agents' queues and the transfer engine's list. -/
theorem Part.reportCancelleds_frame (l : LockId) (why : CancelReason) (ws : List Waiting) (p : Part) :
    Frame p (ws.foldl (Part.reportCancelled l why) p) (.inbox :: agentQueues) := by
  obtain ⟨_, hq, _⟩ := Part.reportCancelleds_spec l why ws p
  intro x hx
  simp only [List.mem_cons, mem_agentQueues, not_or, not_exists] at hx
  cases x with
  | queue g =>
    cases g with
    | agent a => exact absurd rfl (hx.2 a)
    | supervisor => exact hq
  | _ => simp_all [SameAt]

/-- What notices make of a queue does not depend on the arbiter's position. -/
theorem Part.queueAfter_served (p : Part) (pos : Fin 13) (b : AgentId) (ns : List Notice) (m : Nat) :
    (p.served pos).queueAfter b ns m = p.queueAfter b ns m :=
  Part.queueAfter_skip p _ b ns m (by simp) (Part.discards_congr (by simp) (by simp) b)

/-! ### Results presented -/

/-- A result presented with nothing else changed. -/
theorem Part.present_alone (p : Part) (g : PageId) (ans : Answer) :
    Answered p (p.present g ans) g ans.code ans.result0 ans.result1 ∧ Frame p (p.present g ans) [.page g] :=
  ⟨p.present_answered p g ans rfl, (Frame.refl p []).present g ans⟩

/-- A result presented when the arbiter has moved on to a claim, with nothing else changed. -/
theorem Part.present_served (p : Part) (pos : Fin 13) (g : PageId) (ans : Answer) :
    Answered p ((p.served pos).present g ans) g ans.code ans.result0 ans.result1 ∧
      ((p.served pos).present g ans).engine.lastServed = pos ∧
      Frame p ((p.served pos).present g ans) [.page g, .lastServed] :=
  ⟨p.present_answered _ g ans (by simp), by simp, (p.served_frame pos).present g ans⟩

/-- A lock command whose body changes nothing: its answer is presented, and the arbiter moves on. -/
theorem Part.serveAgent_answered {p : Part} {a : AgentId} {c : Cmd} {args : Vector Word 6} {ans : Answer}
    (body : Vector Word 6 → Part → Part × Answer) (hc : p.claims (.agent a) c args)
    (hm : p.mayServe (agentPos a) = true) (hs : p.serves a)
    (hb : body args (p.served (agentPos a)) = (p.served (agentPos a), ans)) :
    Answered p (p.serveAgent a c body) (.agent a) ans.code ans.result0 ans.result1 ∧
      (p.serveAgent a c body).engine.lastServed = agentPos a ∧
      Frame p (p.serveAgent a c body) [.page (.agent a), .lastServed] := by
  rw [Part.serveAgent_of body hc hm hs, hb]
  exact p.present_served (agentPos a) (.agent a) ans

/-! ### The checks of R28 and R37 -/

theorem Part.agentBar_of_evicting {p : Part} {a : AgentId} (h : (p.agent a).state = .evicting) :
    p.agentBar a = some .evicting := by
  simp [Part.agentBar, h]

theorem Part.agentBar_of_clearing {p : Part} {a : AgentId} (h : (p.agent a).state ≠ .evicting) (hc : p.clearing = true) :
    p.agentBar a = some .clearing := by
  simp [Part.agentBar, h, hc]

theorem Part.agentBar_eq_none {p : Part} {a : AgentId} (h : (p.agent a).state ≠ .evicting) (hc : p.clearing = false) :
    p.agentBar a = none := by
  simp [Part.agentBar, h, hc]

theorem Part.attachedBar_of_bar {p : Part} {a : AgentId} {code : ResultCode} (h : p.agentBar a = some code) :
    p.attachedBar a = some code := by
  simp [Part.attachedBar, h]

theorem Part.detachBar_of_bar {p : Part} {a : AgentId} {code : ResultCode} (h : p.agentBar a = some code) :
    p.detachBar a = some code := by
  simp [Part.detachBar, h]

theorem Part.attachedBar_of_unattached {p : Part} {a : AgentId} (h : (p.agent a).state = .disabled ∨ (p.agent a).state = .detached)
    (hc : p.clearing = false) : p.attachedBar a = some .notAttached := by
  rcases h with h | h <;> simp [Part.attachedBar, Part.agentBar_eq_none (p := p) (a := a) (by simp [h]) hc, h]

theorem Part.detachBar_of_detached {p : Part} {a : AgentId} (h : (p.agent a).state = .detached) (hc : p.clearing = false) :
    p.detachBar a = some .notAttached := by
  simp [Part.detachBar, Part.agentBar_eq_none (p := p) (a := a) (by simp [h]) hc, h]

theorem Part.detachBar_of_disabled {p : Part} {a : AgentId} (h : (p.agent a).state = .disabled) (hc : p.clearing = false) :
    p.detachBar a = some .notEnabled := by
  simp [Part.detachBar, Part.agentBar_eq_none (p := p) (a := a) (by simp [h]) hc, h]

@[simp] theorem Part.agentBar_served (p : Part) (pos : Fin 13) (a : AgentId) : (p.served pos).agentBar a = p.agentBar a := by
  simp [Part.agentBar]

@[simp] theorem Part.attachedBar_served (p : Part) (pos : Fin 13) (a : AgentId) :
    (p.served pos).attachedBar a = p.attachedBar a := by
  simp [Part.attachedBar]

/-! ### The lock commands of an agent page -/

/-- The checks and the effect of a lock command, by its name. -/
def lockBody (a : AgentId) (c : Cmd) : Vector Word 6 → Part → Part × Answer :=
  match c with
  | .acquire => Part.acquireBody a
  | .cancelWait => Part.cancelWaitBody a
  | .release => Part.releaseBody a
  | .renew => Part.renewBody a
  | .downgrade => Part.downgradeBody a
  | _ => Part.queryBody

/-- The engine's taking of a lock command serves the agent's claim with the command's body. -/
theorem exec_lockTake {a : AgentId} {c : Cmd} {i : Instr} (h : lockTakeOf a c = some i) (s : State) :
    exec i s = .next { s with part := s.part.serveAgent a c (lockBody a c) } := by
  cases c <;> simp only [lockTakeOf, reduceCtorEq, Option.some.injEq] at h <;> subst h <;> rfl

/-! ### A change of one lock, and the grants after it -/

/-- The grants of a pass that ran after `k` places of agent `a` were returned. -/
theorem GrantsReported.of_giveBack {p p' q : Part} {l : LockId} {hs : List Holding} {a : AgentId} {k : Nat}
    (h : GrantsReported p' q l hs fun _ => 0)
    (hq : ∀ b, p'.queue (.agent b) = if b = a then Queue.giveBack k (p.queue (.agent a)) else p.queue (.agent b))
    (hd : ∀ b, p'.discards b = p.discards b) (hi : p'.transfer.inbox = p.transfer.inbox) :
    GrantsReported p q l hs (placesOf a k) := by
  obtain ⟨h1, h2⟩ := h
  refine ⟨fun b => ?_, by rw [h2, hi]⟩
  rw [h1]
  unfold Part.queueAfter placesOf
  rw [hq, hd]
  by_cases hb : b = a
  · subst hb
    simp [Nat.sub_sub]
  · simp [hb]

/-- The grants of a pass that ran after changes that left the queues and the transfer engine's list alone. -/
theorem GrantsReported.of_same {p p' q : Part} {l : LockId} {hs : List Holding} {back : AgentId → Nat}
    (h : GrantsReported p' q l hs back) (hq : ∀ b, p'.queue (.agent b) = p.queue (.agent b))
    (hd : ∀ b, p'.discards b = p.discards b) (hi : p'.transfer.inbox = p.transfer.inbox) : GrantsReported p q l hs back :=
  ⟨fun b => by rw [h.1 b]; unfold Part.queueAfter; rw [hq, hd], by rw [h.2, hi]⟩

theorem GrantsReported.present {p q : Part} {l : LockId} {hs : List Holding} {back : AgentId → Nat}
    (h : GrantsReported p q l hs back) (g : PageId) (ans : Answer) : GrantsReported p (q.present g ans) l hs back :=
  ⟨fun b => by simpa using h.1 b, by simpa using h.2⟩

theorem Part.settle_of_opened {p : Part} {l : LockId} (h : (p.lock l).state = .opened) : p.settle l = p.runPass l := by
  simp [Part.settle, h]

theorem Part.settle_of_held {p : Part} {l : LockId} (h : (p.lock l).state = .closing) (hh : (p.lock l).holders ≠ []) :
    p.settle l = (p, 0) := by
  simp [Part.settle, h, hh]

theorem Part.settle_of_drained {p : Part} {l : LockId} (h : (p.lock l).state = .closing) (hh : (p.lock l).holders = []) :
    p.settle l = (p.drain l, 0) := by
  simp [Part.settle, h, hh]

/-! ### The checks that RELEASE, RENEW and DOWNGRADE share -/

theorem LockEntry.heldUnder_of_none {e : LockEntry} {a : AgentId} (t : Word) (h : e.holderOf (.agent a) = none) :
    e.heldUnder a t = .error (refuse .notHolder) := by
  simp [LockEntry.heldUnder, h]

theorem LockEntry.heldUnder_of_stale {e : LockEntry} {a : AgentId} {t : Word} {h : Holding}
    (hh : e.holderOf (.agent a) = some h) (ht : h.token ≠ t) :
    e.heldUnder a t = .error { code := .staleToken, result0 := h.token, result1 := 0 } := by
  simp [LockEntry.heldUnder, hh, ht]

theorem LockEntry.heldUnder_of_token {e : LockEntry} {a : AgentId} {t : Word} {h : Holding}
    (hh : e.holderOf (.agent a) = some h) (ht : h.token = t) : e.heldUnder a t = .ok h := by
  simp [LockEntry.heldUnder, hh, ht]

end Sys2Proof.Machine
end

section
/-! Proofs: the lock commands of an agent page and the checks before them (O17, O23, O24, O25). -/

namespace Sys2Proof.Machine

/-! ### ATTACH, DETACH, POST and WITHDRAW at their checks (O17) -/

/-- The checks that come before a command of an agent page that another block than the lock engine takes. -/
def Part.barOf (p : Part) (a : AgentId) (c : Cmd) : Option ResultCode :=
  match c with
  | .attach => p.agentBar a
  | .detach => p.detachBar a
  | _ => p.attachedBar a

theorem Part.barOf_of_bar {p : Part} {a : AgentId} {code : ResultCode} (c : Cmd) (h : p.agentBar a = some code) :
    p.barOf a c = some code := by
  unfold Part.barOf
  split
  · exact h
  · exact Part.detachBar_of_bar h
  · exact Part.attachedBar_of_bar h

theorem Part.takeAttach_bar {p : Part} {a : AgentId} {args : Vector Word 6} {code : ResultCode}
    (hw : p.waits (.agent a) .attach args) (hf : p.tableFree = true) (hb : p.agentBar a = some code) :
    p.takeAttach a = p.present (.agent a) (refuse code) := by
  simp [Part.takeAttach, Part.writtenArgs_of hw, hf, Part.attachBody, hb]

theorem Part.takeDetach_bar {p : Part} {a : AgentId} {args : Vector Word 6} {code : ResultCode}
    (hw : p.waits (.agent a) .detach args) (hf : p.tableFree = true) (hb : p.detachBar a = some code) :
    p.takeDetach a = p.present (.agent a) (refuse code) := by
  simp [Part.takeDetach, Part.writtenArgs_of hw, hf, hb]

theorem Part.takePost_bar {p : Part} {a : AgentId} {args : Vector Word 6} {code : ResultCode}
    (hw : p.waits (.agent a) .post args) (hf : p.transferFree = true) (hb : p.attachedBar a = some code) :
    p.takePost a = p.present (.agent a) (refuse code) := by
  simp [Part.takePost, Part.writtenArgs_of hw, hf, hb]

theorem Part.takeWithdraw_bar {p : Part} {a : AgentId} {args : Vector Word 6} {code : ResultCode}
    (hw : p.waits (.agent a) .withdraw args) (hf : p.transferFree = true) (hb : p.attachedBar a = some code) :
    p.takeWithdraw a = p.present (.agent a) (refuse code) := by
  simp [Part.takeWithdraw, Part.writtenArgs_of hw, hf, hb]

/-- ATTACH, DETACH, POST or WITHDRAW, taken by its block, is refused with the code of its checks. -/
theorem exec_take_bar {s : State} {a : AgentId} {args : Vector Word 6} {x : Cmd × Instr}
    (hx : x ∈ [(Cmd.attach, Instr.attach a .take), (.detach, .detach a .take), (.post, .post a .take),
      (.withdraw, .withdraw a .take)])
    (hw : s.part.waits (.agent a) x.1 args) (ht : s.part.tableFree = true) (hf : s.part.transferFree = true) :
    ∃ q, exec x.2 s = .next { s with part := q } ∧
      ∀ code, s.part.barOf a x.1 = some code → q = s.part.present (.agent a) (refuse code) := by
  simp only [List.mem_cons, List.not_mem_nil, or_false] at hx
  rcases hx with rfl | rfl | rfl | rfl
  · exact ⟨s.part.takeAttach a, rfl, fun _ hb => Part.takeAttach_bar hw ht hb⟩
  · exact ⟨s.part.takeDetach a, rfl, fun _ hb => Part.takeDetach_bar hw ht hb⟩
  · exact ⟨s.part.takePost a, rfl, fun _ hb => Part.takePost_bar hw hf hb⟩
  · exact ⟨s.part.takeWithdraw a, rfl, fun _ hb => Part.takeWithdraw_bar hw hf hb⟩

/-! ### The claims that DETACH and POST raise (O17) -/

/-- A raised claim is refused as R19 says: the command is turned away with the code, and the arbiter moves on. -/
theorem Part.serveRaised_bar {p : Part} {a : AgentId} {c : Cmd} {args : Vector Word 6} {code : ResultCode}
    (answer : Vector Word 6 → Part → Stage) (hc : p.claims (.agent a) c args) (hm : p.mayServe (agentPos a) = true)
    (hb : p.agentBar a = some code) :
    ((p.serveRaised a c answer).page (.agent a)).inFlight = some { cmd := c, args, stage := .turnedAway code } ∧
      (p.serveRaised a c answer).engine.lastServed = agentPos a ∧
      Frame p (p.serveRaised a c answer) [.page (.agent a), .lastServed] := by
  unfold Part.claims at hc
  have he : p.serveRaised a c answer = (p.served (agentPos a)).setStage (.agent a) (.turnedAway code) := by
    simp [Part.serveRaised, hc, hm, hb]
  rw [he]
  exact ⟨by simp [hc], by simp, ((p.served_frame _).append (Part.setStage_frame _ _ _)).weaken (by simp)⟩

theorem Part.proceedDetach_turnedAway {p : Part} {a : AgentId} {args : Vector Word 6} {code : ResultCode}
    (h : (p.page (.agent a)).inFlight = some { cmd := .detach, args, stage := .turnedAway code }) :
    p.proceedDetach a = (p.present (.agent a) (refuse code)).setTableServing none := by
  simp [Part.proceedDetach, h]

theorem Part.proceedPost_turnedAway {p : Part} {a : AgentId} {args : Vector Word 6} {code : ResultCode}
    (h : (p.page (.agent a)).inFlight = some { cmd := .post, args, stage := .turnedAway code }) :
    p.proceedPost a = (p.present (.agent a) (refuse code)).setTransferServing none := by
  simp [Part.proceedPost, h]

/-- A code that the engine refuses a raised claim with is that of the checks of R28. -/
theorem Part.agentBar_of_cases {p : Part} {a : AgentId} {code : ResultCode}
    (h : (p.agent a).state = .evicting ∧ code = .evicting ∨
      (p.agent a).state ≠ .evicting ∧ p.clearing = true ∧ code = .clearing) : p.agentBar a = some code := by
  rcases h with ⟨h, rfl⟩ | ⟨h, hc, rfl⟩
  · exact Part.agentBar_of_evicting h
  · exact Part.agentBar_of_clearing h hc

/-- A lock command refused at the checks of R28 and R37. -/
theorem exec_lockTake_bar {s : State} {a : AgentId} {c : Cmd} {args : Vector Word 6} {code : ResultCode}
    (hc : s.part.claims (.agent a) c args) (hm : s.part.mayServe (agentPos a) = true)
    (hb : s.part.attachedBar a = some code) :
    let q := s.part.serveAgent a c (lockBody a c)
    Answered s.part q (.agent a) code 0 0 ∧ q.engine.lastServed = agentPos a ∧
      Frame s.part q [.page (.agent a), .lastServed] := by
  intro q
  have hq : q = (s.part.served (agentPos a)).present (.agent a) (refuse code) :=
    Part.serveAgent_bar _ hc hm (by simpa using hb)
  rw [hq]
  exact s.part.present_served (agentPos a) (.agent a) (refuse code)

/-- Settles O17: each block's taking presents the code of the checks of R28, in their order, and so does the end of a command
whose raised claim was turned away. -/
theorem lockCommandsNeedAttachedAgent : Obligations.LockCommandsNeedAttachedAgent := by
  refine ⟨fun s a c i args hi hc hm => ?_, fun s a args x hx hw ht hf => ?_, fun s a args x hx => ⟨fun hc hm code hb => ?_, ?_⟩⟩
  · exact ⟨_, exec_lockTake hi s,
      fun h => exec_lockTake_bar hc hm (Part.attachedBar_of_bar (Part.agentBar_of_evicting h)),
      fun h hcl => exec_lockTake_bar hc hm (Part.attachedBar_of_bar (Part.agentBar_of_clearing h hcl)),
      fun h hcl => exec_lockTake_bar hc hm (Part.attachedBar_of_unattached h hcl)⟩
  · obtain ⟨q, hq, hbar⟩ := exec_take_bar hx hw ht hf
    have refused (code : ResultCode) (hb : s.part.barOf a x.1 = some code) :
        Answered s.part q (.agent a) code 0 0 ∧ Frame s.part q [.page (.agent a)] := by
      rw [hbar code hb]
      exact s.part.present_alone (.agent a) (refuse code)
    refine ⟨q, hq, fun h => ?_, fun h hcl => ?_, fun hne h hcl => refused _ ?_, fun hne h hcl => refused _ ?_⟩
    · exact refused _ (Part.barOf_of_bar x.1 (Part.agentBar_of_evicting h))
    · exact refused _ (Part.barOf_of_bar x.1 (Part.agentBar_of_clearing h hcl))
    · simp only [List.mem_cons, List.not_mem_nil, or_false] at hx
      rcases hx with rfl | rfl | rfl | rfl
      · exact absurd rfl hne
      · exact Part.detachBar_of_detached h hcl
      · exact Part.attachedBar_of_unattached (.inr h) hcl
      · exact Part.attachedBar_of_unattached (.inr h) hcl
    · simp only [List.mem_cons, List.not_mem_nil, or_false] at hx
      rcases hx with rfl | rfl | rfl | rfl
      · exact absurd rfl hne
      · exact Part.detachBar_of_disabled h hcl
      · exact Part.attachedBar_of_unattached (.inl h) hcl
      · exact Part.attachedBar_of_unattached (.inl h) hcl
  · have hbar := Part.agentBar_of_cases hb
    simp only [List.mem_cons, List.not_mem_nil, or_false] at hx
    rcases hx with rfl | rfl
    · exact ⟨s.part.serveRaised a .detach fun _ q => .counted (q.agentRecordCount a), rfl,
        Part.serveRaised_bar _ hc hm hbar⟩
    · exact ⟨s.part.serveRaised a .post (Part.standingFor a), rfl, Part.serveRaised_bar _ hc hm hbar⟩
  · intro code h
    simp only [List.mem_cons, List.not_mem_nil, or_false] at hx
    rcases hx with rfl | rfl
    · refine ⟨s.part.proceedDetach a, rfl, ?_⟩
      rw [Part.proceedDetach_turnedAway h]
      exact ⟨by simp [Answered, Page.present, refuse], rfl,
        ((s.part.present_alone (.agent a) (refuse code)).2.append (Part.setTableServing_frame _ none)).weaken (by simp)⟩
    · refine ⟨s.part.proceedPost a, rfl, ?_⟩
      rw [Part.proceedPost_turnedAway h]
      exact ⟨by simp [Answered, Page.present, refuse], rfl,
        (s.part.present_alone (.agent a) (refuse code)).2.notServing.weaken (by simp)⟩

/-! ### The refusals of CANCEL_WAIT, RELEASE, RENEW, DOWNGRADE and QUERY (O23) -/

/-- A lock number above 63 is refused by every lock command (R2, R39). -/
theorem lockBody_badLock {a : AgentId} {c : Cmd} {i : Instr} (hi : lockTakeOf a c = some i) {args : Vector Word 6}
    (h : 64 ≤ (pick args 0).toNat % 256) (p : Part) : lockBody a c args p = (p, refuse .badArgument) := by
  have hl := lockField_none _ h
  cases c <;> simp only [lockTakeOf, reduceCtorEq] at hi
  case acquire => simp [lockBody, Part.acquireBody, acquireArgs, hl]
  case cancelWait => simp [lockBody, Part.cancelWaitBody, hl]
  case release => simp [lockBody, Part.releaseBody, hl]
  case renew => simp [lockBody, Part.renewBody, hl]
  case downgrade => simp [lockBody, Part.downgradeBody, hl]
  case query => simp [lockBody, Part.queryBody, hl]

/-- A lease that is no count of ticks is refused by RENEW (R70). -/
theorem renewBody_badLease (a : AgentId) {args : Vector Word 6} (h : 65535 < (pick args 2).toNat) (p : Part) :
    Part.renewBody a args p = (p, refuse .badArgument) := by
  simp [Part.renewBody, wholeTicks_none _ h]

/-- RELEASE, RENEW and DOWNGRADE answer what the check of the holding and its token refuses with (R54, R58, R70). -/
theorem lockBody_unheld {a : AgentId} {c : Cmd} {args : Vector Word 6} {l : LockId} {p : Part} {ans : Answer}
    (hl : (pick args 0).toNat % 256 = l.val) (hc : c = .release ∨ c = .renew ∨ c = .downgrade)
    (ht : c = .renew → (pick args 2).toNat ≤ 65535) (he : (p.lock l).heldUnder a (pick args 1) = .error ans) :
    lockBody a c args p = (p, ans) := by
  have hf := lockField_of _ _ hl
  rcases hc with rfl | rfl | rfl
  · simp [lockBody, Part.releaseBody, hf, he]
  · have hlt := ht rfl
    have hw : wholeTicks (pick args 2) = some ((pick args 2).setWidth 16) := by simp [wholeTicks, hlt]
    simp [lockBody, Part.renewBody, hf, hw, he]
  · simp [lockBody, Part.downgradeBody, hf, he]

/-- DOWNGRADE under the holding's token: its last two checks (R58). -/
theorem downgradeBody_of_held {a : AgentId} {args : Vector Word 6} {l : LockId} {p : Part} {h : Holding}
    (hl : (pick args 0).toNat % 256 = l.val) (hh : (p.lock l).holderOf (.agent a) = some h) (ht : h.token = pick args 1) :
    ((p.lock l).cls = .exclusiveOnly → Part.downgradeBody a args p = (p, refuse .modeNotAllowed)) ∧
      ((p.lock l).cls ≠ .exclusiveOnly → h.mode = .shared → Part.downgradeBody a args p = (p, refuse .wrongMode)) := by
  have hu := LockEntry.heldUnder_of_token hh ht
  exact ⟨fun hc => by simp [Part.downgradeBody, lockField_of _ _ hl, hu, hc],
    fun hc hm => by simp [Part.downgradeBody, lockField_of _ _ hl, hu, hc, hm]⟩

/-- Settles O23: in each case the command's body leaves the coordinator as it is. -/
theorem lockCommandRefusals : Obligations.LockCommandRefusals := by
  intro s a c i args hi hc hm hs
  refine ⟨_, exec_lockTake hi s, ?_⟩
  have refused {ans : Answer}
      (hb : lockBody a c args (s.part.served (agentPos a)) = (s.part.served (agentPos a), ans)) :=
    Part.serveAgent_answered (lockBody a c) hc hm hs hb
  refine ⟨fun h => refused (lockBody_badLock hi h _), ?_, fun l hl hcmd ht => ⟨fun hn => ?_, fun h hh => ⟨fun hst => ?_, ?_⟩⟩⟩
  · rintro rfl h
    exact refused (renewBody_badLease a h _)
  · exact refused (lockBody_unheld hl hcmd ht (LockEntry.heldUnder_of_none _ (by simpa using hn)))
  · exact refused (lockBody_unheld hl hcmd ht (LockEntry.heldUnder_of_stale (by simpa using hh) hst))
  · rintro rfl htok
    have hd := downgradeBody_of_held (p := s.part.served (agentPos a)) hl (by simpa using hh) htok
    exact ⟨fun hx => refused (hd.1 (by simpa using hx)), fun hx hmode => refused (hd.2 (by simpa using hx) hmode)⟩

/-! ### CANCEL_WAIT (O24) -/

/-- CANCEL_WAIT of a wait, from the coordinator `p`: the coordinator before its grant pass (R50). -/
def Part.waitCancelled (p : Part) (a : AgentId) (l : LockId) : Part :=
  (p.setLock l ((p.lock l).withoutWaiter (.agent a))).giveBack (.agent a) 2

theorem Part.waitCancelled_frame (p : Part) (a : AgentId) (l : LockId) :
    Frame p (p.waitCancelled a l) [.lock l, .queue (.agent a)] :=
  (p.setLock_frame l _).append (Part.giveBack_frame _ _ _)

theorem cancelWaitBody_of_wait {a : AgentId} {args : Vector Word 6} {l : LockId} {p : Part}
    (hl : (pick args 0).toNat % 256 = l.val) (hw : (p.lock l).waiterOf (.agent a) ≠ none) :
    Part.cancelWaitBody a args p = (((p.waitCancelled a l).runPass l).1,
      accept (wordOf ((p.lock l).position (.agent a))) (wordOf ((p.waitCancelled a l).runPass l).2)) := by
  obtain ⟨w, hw⟩ := Option.ne_none_iff_exists'.1 hw
  simp [Part.cancelWaitBody, lockField_of _ _ hl, hw, Part.waitCancelled]

theorem cancelWaitBody_of_no_wait {a : AgentId} {args : Vector Word 6} {l : LockId} {p : Part}
    (hl : (pick args 0).toNat % 256 = l.val) (hw : (p.lock l).waiterOf (.agent a) = none) :
    (∀ h, (p.lock l).holderOf (.agent a) = some h →
      Part.cancelWaitBody a args p = (p, { code := .notWaiting, result0 := h.token, result1 := 1 })) ∧
    ((p.lock l).holderOf (.agent a) = none → Part.cancelWaitBody a args p = (p, refuse .notWaiting)) :=
  ⟨fun h hh => by simp [Part.cancelWaitBody, lockField_of _ _ hl, hw, hh],
    fun hh => by simp [Part.cancelWaitBody, lockField_of _ _ hl, hw, hh]⟩

theorem cancelWaitBody_lastServed (a : AgentId) (args : Vector Word 6) (p : Part) :
    (Part.cancelWaitBody a args p).1.engine.lastServed = p.engine.lastServed := by
  unfold Part.cancelWaitBody
  split
  · rfl
  · dsimp only
    split
    · simp
    · split <;> rfl

/-- Settles O24: the wait leaves the list and its places are returned (`Part.waitCancelled`), and the pass runs on that. -/
theorem cancelWaitRemovesWait : Obligations.CancelWaitRemovesWait := by
  intro s a args l hc hm hs hl
  have hexec : exec (.cancelWait a .take) s =
      .next { s with part := s.part.serveAgent a .cancelWait (Part.cancelWaitBody a) } := rfl
  refine ⟨_, hexec, ?_, fun hw => ?_, fun hw => ?_⟩
  · rw [Part.serveAgent_of _ hc hm hs]
    simp [cancelWaitBody_lastServed]
  · rw [Part.serveAgent_of _ hc hm hs, cancelWaitBody_of_wait hl (by simpa using hw)]
    have hframe : Frame s.part (((s.part.served (agentPos a)).waitCancelled a l).runPass l).1 (passPieces l) := by
      refine (((s.part.served_frame _).append (Part.waitCancelled_frame _ a l)).append (Part.runPass_frame _ l)).weaken ?_
      simp [passPieces, mem_agentQueues]
    generalize hp : (s.part.served (agentPos a)).waitCancelled a l = p at hframe ⊢
    have hlock : p.lock l = (s.part.lock l).withoutWaiter (.agent a) := by simp [← hp, Part.waitCancelled]
    obtain ⟨r1, r2, r3, _⟩ := p.runPass_spec l
    rw [hlock] at r1 r2 r3
    refine ⟨by simp [r1], ?_, ?_, hframe.present (.agent a) _⟩
    · have hg : GrantsReported s.part (p.runPass l).1 l _ (placesOf a 2) :=
        r3.of_giveBack (by simp [← hp, Part.waitCancelled]) (by simp [← hp, Part.waitCancelled, Part.discards])
          (by simp [← hp, Part.waitCancelled])
      exact hg.present _ _
    · have ha := s.part.present_answered (p.runPass l).1 (.agent a)
        (accept (wordOf ((s.part.lock l).position (.agent a))) (wordOf (p.runPass l).2)) (by simp [← hp, Part.waitCancelled])
      rw [r2] at ha
      simpa [accept, wordOf, r2] using ha
  · have hb := cancelWaitBody_of_no_wait (p := s.part.served (agentPos a)) (a := a) hl (by simpa using hw)
    refine ⟨?_, fun h hh => ?_, fun hh => ?_⟩
    · cases hh : (s.part.lock l).holderOf (.agent a) with
      | some h => exact (Part.serveAgent_answered _ hc hm hs (hb.1 h (by simpa using hh))).2.2
      | none => exact (Part.serveAgent_answered _ hc hm hs (hb.2 (by simpa using hh))).2.2
    · exact (Part.serveAgent_answered _ hc hm hs (hb.1 h (by simpa using hh))).1
    · exact (Part.serveAgent_answered _ hc hm hs (hb.2 (by simpa using hh))).1

/-! ### RELEASE (O25) -/

/-- RELEASE of a holding, from the coordinator `p`: the coordinator before the end of the claim (R55). -/
def Part.holdingReleased (p : Part) (a : AgentId) (l : LockId) : Part :=
  (p.setLock l ((p.lock l).withoutHolder (.agent a))).giveBack (.agent a) 1

theorem Part.holdingReleased_frame (p : Part) (a : AgentId) (l : LockId) :
    Frame p (p.holdingReleased a l) [.lock l, .queue (.agent a)] :=
  (p.setLock_frame l _).append (Part.giveBack_frame _ _ _)

theorem releaseBody_of_held {a : AgentId} {args : Vector Word 6} {l : LockId} {p : Part} {h : Holding}
    (hl : (pick args 0).toNat % 256 = l.val) (hh : (p.lock l).holderOf (.agent a) = some h) (ht : h.token = pick args 1) :
    Part.releaseBody a args p = (((p.holdingReleased a l).settle l).1,
      accept (wordOf (((p.holdingReleased a l).settle l).1.lock l).holders.length)
        (wordOf ((p.holdingReleased a l).settle l).2)) := by
  simp [Part.releaseBody, lockField_of _ _ hl, LockEntry.heldUnder_of_token hh ht, Part.holdingReleased]

/-- Settles O25: the holding leaves the list and its place is returned (`Part.holdingReleased`), and the claim ends on that
with a pass, with nothing more, or with the draining of the lock, by the lock's state. -/
theorem releaseGivesBack : Obligations.ReleaseGivesBack := by
  intro s a args l h hc hm hs hl hh ht
  have hexec : exec (.release a .take) s =
      .next { s with part := s.part.serveAgent a .release (Part.releaseBody a) } := rfl
  rw [Part.serveAgent_of _ hc hm hs, releaseBody_of_held hl (by simpa using hh) ht] at hexec
  refine ⟨_, hexec, by simp [Part.holdingReleased], ?_⟩
  have hframe := (s.part.served_frame (agentPos a)).append (Part.holdingReleased_frame _ a l)
  generalize hp : (s.part.served (agentPos a)).holdingReleased a l = p at hframe ⊢
  have hlock : p.lock l = (s.part.lock l).withoutHolder (.agent a) := by simp [← hp, Part.holdingReleased]
  have hqueue (b : AgentId) : p.queue (.agent b) =
      if b = a then Queue.giveBack 1 (s.part.queue (.agent a)) else s.part.queue (.agent b) := by
    simp [← hp, Part.holdingReleased]
  have hsup : p.queue .supervisor = s.part.queue .supervisor := by simp [← hp, Part.holdingReleased]
  have hpage : p.page (.agent a) = s.part.page (.agent a) := by simp [← hp, Part.holdingReleased]
  refine ⟨fun hst => ?_, fun hst => ?_⟩
  · rw [Part.settle_of_opened (by rw [hlock]; exact hst)]
    obtain ⟨r1, r2, r3, _⟩ := p.runPass_spec l
    rw [hlock] at r1 r2 r3
    refine ⟨by simp [r1], ?_, ?_, ?_⟩
    · exact (r3.of_giveBack hqueue (by simp [← hp, Part.holdingReleased, Part.discards])
        (by simp [← hp, Part.holdingReleased])).present _ _
    · simpa [accept, wordOf, r2] using s.part.present_answered (p.runPass l).1 (.agent a)
        (accept (wordOf ((p.runPass l).1.lock l).holders.length) (wordOf (p.runPass l).2)) (by simp [hpage])
    · exact ((hframe.append (p.runPass_frame l)).weaken (by simp [passPieces, mem_agentQueues])).present _ _
  · have hq : p.queue (.agent a) =
        { s.part.queue (.agent a) with reserved := (s.part.queue (.agent a)).reserved - 1 } := by
      rw [hqueue, if_pos rfl]
      rfl
    have hst' : (p.lock l).state = .closing := by rw [hlock]; exact hst
    by_cases he : ((s.part.lock l).withoutHolder (.agent a)).holders = []
    · rw [Part.settle_of_drained hst' (by rw [hlock]; exact he)]
      refine ⟨by simp [hq], ?_, fun hne => absurd he hne, fun _ => ⟨?_, ?_, ?_⟩⟩
      · simpa [accept, wordOf, hlock, he] using s.part.present_answered (p.drain l) (.agent a)
          (accept (wordOf ((p.drain l).lock l).holders.length) (wordOf 0)) (by simp [hpage])
      · simp [hlock]
      · simp [hsup, Queue.deliver]
      · exact ((hframe.append (p.drain_frame l)).present _ _).weaken (by simp)
    · rw [Part.settle_of_held hst' (by rw [hlock]; exact he)]
      refine ⟨by simp [hq], ?_, fun _ => ⟨by simp [hlock], ?_⟩, fun hnil => absurd hnil he⟩
      · simpa [accept, wordOf, hlock] using s.part.present_answered p (.agent a)
          (accept (wordOf (p.lock l).holders.length) (wordOf 0)) hpage
      · exact (hframe.present _ _).weaken (by simp)

end Sys2Proof.Machine
end

section
/-! Proofs: the supervisor's lock commands CONFIGURE_LOCK, CLOSE_LOCK and BREAK_LOCK (O29, O30, O31). -/

namespace Sys2Proof.Machine

/-! ### A claim of the supervisor page served -/

/-- A lock command of the supervisor page whose body changes nothing: its answer is presented, the arbiter moves on, and a
lock-table step that waited for the claim is raised (R145). -/
theorem Part.serveSupervisor_answered {p : Part} {c : Cmd} {args : Vector Word 6} {ans : Answer}
    (body : Vector Word 6 → Part → Part × Answer) (hc : p.claims .supervisor c args)
    (hm : p.mayServe supervisorPos = true) (hs : p.clearing = false ∨ isInspect c = true)
    (hb : body args (p.served supervisorPos).raiseDueStep = ((p.served supervisorPos).raiseDueStep, ans)) :
    Answered p (p.serveSupervisor c body) .supervisor ans.code ans.result0 ans.result1 ∧
      (p.serveSupervisor c body).engine.lastServed = supervisorPos ∧
      (p.serveSupervisor c body).table.clear = p.clearServed ∧
      Frame p (p.serveSupervisor c body) [.page .supervisor, .lastServed, .clear] := by
  rw [Part.serveSupervisor_of body hc hm hs, hb]
  refine ⟨p.present_answered _ _ _ (by simp), by simp, by simp [Part.clearServed], ?_⟩
  exact ((p.served_frame _).append (Part.raiseDueStep_frame _)).present _ _

/-- The same of a command that a CLEAR in flight refuses (R136, R145). -/
theorem Part.serveSupervisor_clearing {p : Part} {c : Cmd} {args : Vector Word 6}
    (body : Vector Word 6 → Part → Part × Answer) (hc : p.claims .supervisor c args)
    (hm : p.mayServe supervisorPos = true) (hs : p.clearing = true) (hi : isInspect c = false) :
    Answered p (p.serveSupervisor c body) .supervisor .clearing 0 0 ∧
      (p.serveSupervisor c body).engine.lastServed = supervisorPos ∧
      (p.serveSupervisor c body).table.clear = p.clearServed ∧
      Frame p (p.serveSupervisor c body) [.page .supervisor, .lastServed, .clear] := by
  have hp : p.port.supervisor.inFlight = some { cmd := c, args, stage := .claimed } := hc
  have he : p.serveSupervisor c body = (p.served supervisorPos).raiseDueStep.present .supervisor (refuse .clearing) := by
    simp [Part.serveSupervisor, hp, hm, hs, hi]
  rw [he]
  refine ⟨p.present_answered _ _ _ (by simp), by simp, by simp [Part.clearServed], ?_⟩
  exact ((p.served_frame _).append (Part.raiseDueStep_frame _)).present _ _

/-- A lock command of the supervisor page, with no CLEAR in flight. -/
theorem Part.serveSupervisor_quiet {p : Part} {c : Cmd} {args : Vector Word 6}
    (body : Vector Word 6 → Part → Part × Answer) (hc : p.claims .supervisor c args)
    (hm : p.mayServe supervisorPos = true) (hs : p.clearing = false) :
    p.serveSupervisor c body =
      (body args (p.served supervisorPos)).1.present .supervisor (body args (p.served supervisorPos)).2 := by
  rw [Part.serveSupervisor_of body hc hm (.inl hs), Part.raiseDueStep_of_clear (by simpa using hs)]

/-- The checks and the effect of a lock command of the supervisor page, by its name. -/
def superviseBody (c : Cmd) : Vector Word 6 → Part → Part × Answer :=
  match c with
  | .configureLock => Part.configureBody
  | .closeLock => Part.closeBody
  | .breakLock => Part.breakBody
  | .inspectLock => Part.inspectLockBody
  | _ => Part.inspectRecordBody

/-- The engine's taking of a lock command of the supervisor page. -/
def superviseTakeOf (c : Cmd) : Option Instr :=
  match c with
  | .configureLock => some (.configureLock .take)
  | .closeLock => some (.closeLock .take)
  | .breakLock => some (.breakLock .take)
  | .inspectLock => some (.inspectLock .take)
  | .inspectRecord => some (.inspectRecord .take)
  | _ => none

theorem exec_superviseTake {c : Cmd} {i : Instr} (h : superviseTakeOf c = some i) (s : State) :
    exec i s = .next { s with part := s.part.serveSupervisor c (superviseBody c) } := by
  cases c <;> simp only [superviseTakeOf, reduceCtorEq, Option.some.injEq] at h <;> subst h <;> rfl

/-! ### CONFIGURE_LOCK (O29) -/

theorem extractLsb'_low {n : Nat} (k : Nat) (w : BitVec n) : w.extractLsb' 0 k = w.setWidth k := by
  apply BitVec.eq_of_toNat_eq
  simp [BitVec.extractLsb'_toNat]

/-- CONFIGURE_LOCK's arguments where check 2 of R5 lets them pass. -/
theorem configureArgs_of {args : Vector Word 6} {l : LockId} {cls : LockClass} (h0 : (pick args 0).toNat = l.val)
    (h1 : (pick args 1).toNat = 1 ∧ cls = .exclusiveOnly ∨ (pick args 1).toNat = 2 ∧ cls = .sharedAllowed)
    (h4 : (pick args 4).toNat ≤ 16)
    (h23 : ¬((pick args 2).toNat % 65536 = 0 ∧ (pick args 3).toNat % 65536 ≠ 0)) :
    configureArgs args = some { lock := l, cls, defaultLease := (pick args 2).setWidth 16, maxLease := (pick args 3).setWidth 16,
                                queueLimit := (pick args 4).toNat, mask := (pick args 5).setWidth 8 } := by
  have e4 : wholeIndex 17 (pick args 4) = some ⟨(pick args 4).toNat, by omega⟩ := wholeIndex_of _ _ rfl
  have hleases : ¬((pick args 2).setWidth 16 = 0 ∧ (pick args 3).setWidth 16 ≠ 0) := by
    simpa [← BitVec.toNat_inj, BitVec.toNat_setWidth] using h23
  simp only [configureArgs, Option.bind_eq_bind, wholeIndex_of _ _ h0, wholeClass_of _ _ h1, e4, Option.bind_some,
    extractLsb'_low, if_neg hleases]
  rfl

/-- Settles O29. -/
theorem configureOpensLock : Obligations.ConfigureOpensLock := by
  intro s args l cls hc hm hs h0 h1 h4 h23
  have hexec := exec_superviseTake (c := .configureLock) rfl s
  rw [Part.serveSupervisor_quiet _ hc hm hs] at hexec
  have hargs := configureArgs_of h0 h1 h4 h23
  by_cases hst : (s.part.lock l).state = .disabled
  · simp only [superviseBody, Part.configureBody, hargs, Part.served_keeps, hst, ne_eq, not_true_eq_false, if_false] at hexec
    refine ⟨_, hexec, by simp, fun _ => ⟨by simp, ?_, ?_⟩, fun hne => absurd hst hne⟩
    · exact s.part.present_answered _ _ (accept (s.part.lock l).generation 0) (by simp)
    · exact (((s.part.served_frame _).append (Part.setLock_frame _ l _)).present _ _).weaken (by simp)
  · simp only [superviseBody, Part.configureBody, hargs, Part.served_keeps, ne_eq, hst, not_false_eq_true, if_true] at hexec
    obtain ⟨ha, hl, hf⟩ := s.part.present_served supervisorPos .supervisor (refuse .wrongState)
    exact ⟨_, hexec, hl, fun h => absurd h hst, fun _ => ⟨ha, hf⟩⟩

/-! ### CLOSE_LOCK (O30) -/

/-- CLOSE_LOCK of an OPEN lock, before the lock is drained where it has no holding (R6). -/
def Part.closed (p : Part) (l : LockId) : Part :=
  (p.lock l).waiters.foldl (Part.reportCancelled l .closed)
    ((p.reserve .supervisor 1).setLock l { p.lock l with state := .closing, waiters := [] })

theorem Part.closed_frame (p : Part) (l : LockId) :
    Frame p (p.closed l) (.queue .supervisor :: .lock l :: .inbox :: agentQueues) :=
  (((p.reserve_frame .supervisor 1).append (Part.setLock_frame _ l _)).append
    (Part.reportCancelleds_frame l .closed _ _)).weaken (by simp)

/-- What closing makes of the lock, the supervisor's queue, the agents' queues and the transfer engine's list (R6). -/
theorem Part.closed_spec (p : Part) (l : LockId) :
    (p.closed l).lock l = { p.lock l with state := .closing, waiters := [] } ∧
      (p.closed l).queue .supervisor = Queue.reserve 1 (p.queue .supervisor) ∧
      (∀ b, (p.closed l).queue (.agent b) = p.queueAfter b (cancelsTo l .closed b (p.lock l).waiters)
        (2 * (cancelsTo l .closed b (p.lock l).waiters).length)) ∧
      (p.closed l).transfer.inbox = p.transfer.inbox ++ waitReports .closed (p.lock l).waiters := by
  obtain ⟨h1, h2, h3⟩ := Part.reportCancelleds_spec l .closed (p.lock l).waiters
    ((p.reserve .supervisor 1).setLock l { p.lock l with state := .closing, waiters := [] })
  unfold Part.closed
  refine ⟨by simp, by simp [h2], fun b => ?_, by simp [h3]⟩
  rw [h1, Part.queueAfter_skip p _ b _ _ (by simp) (Part.discards_congr (by simp) (by simp) b)]

theorem closeBody_of_opened {args : Vector Word 6} {l : LockId} {p : Part} (h0 : (pick args 0).toNat = l.val)
    (hst : (p.lock l).state = .opened) (hr : p.hasRoom .supervisor 1 = true) :
    Part.closeBody args p = (if (p.lock l).holders.isEmpty then (p.closed l).drain l else p.closed l,
      accept (wordOf (p.lock l).holders.length) (wordOf (p.lock l).waiters.length)) := by
  simp only [Part.closeBody, wholeIndex_of _ _ h0, hst, hr, ne_eq, not_true_eq_false, if_false, Bool.not_true,
    Bool.false_eq_true]
  rfl

/-- Settles O30: the lock is closed (`Part.closed`), and drained at once where it has no holding. -/
theorem closeCancelsWaits : Obligations.CloseCancelsWaits := by
  intro s args l hc hm hs h0 hst hr
  have hexec := exec_superviseTake (c := .closeLock) rfl s
  rw [Part.serveSupervisor_quiet _ hc hm hs] at hexec
  simp only [superviseBody] at hexec
  rw [closeBody_of_opened h0 (by simpa using hst) ((Part.hasRoom_iff _ _ _).2 (by simpa using hr))] at hexec
  simp only [Part.served_keeps] at hexec
  have hframe := (s.part.served_frame supervisorPos).append (Part.closed_frame _ l)
  obtain ⟨k1, k2, k3, k4⟩ := (s.part.served supervisorPos).closed_spec l
  have hpage : ((s.part.served supervisorPos).closed l).page .supervisor = s.part.page .supervisor := by simp [Part.closed]
  have hserved : ((s.part.served supervisorPos).closed l).engine.lastServed = supervisorPos := by simp [Part.closed]
  simp only [Part.served_keeps, Part.queueAfter_served] at k1 k2 k3 k4
  generalize (s.part.served supervisorPos).closed l = p at *
  by_cases hh : (s.part.lock l).holders = []
  · simp only [hh, List.isEmpty_nil, if_true] at hexec k1 ⊢
    refine ⟨_, hexec, by simpa using hserved, fun hne => absurd rfl hne, fun _ => ⟨by simp [k1], ?_⟩, by simpa using k3,
      by simpa using k4, ?_, ?_⟩
    · simp [k2, Queue.deliver, Queue.reserve]
    · exact s.part.present_answered (p.drain l) .supervisor (accept (wordOf 0) (wordOf (s.part.lock l).waiters.length))
        (by simpa using hpage)
    · exact ((hframe.append (p.drain_frame l)).present _ _).weaken (by simp +contextual [passPieces, or_imp])
  · simp only [List.isEmpty_iff, hh, if_false] at hexec
    refine ⟨_, hexec, by simpa using hserved, fun _ => ⟨by simp [k1], ?_⟩, fun hnil => absurd hnil hh, by simpa using k3,
      by simpa using k4, ?_, ?_⟩
    · simp [k2, Queue.reserve]
    · exact s.part.present_answered p .supervisor
        (accept (wordOf (s.part.lock l).holders.length) (wordOf (s.part.lock l).waiters.length)) hpage
    · exact (hframe.present _ _).weaken (by simp +contextual [passPieces, or_imp])

/-! ### BREAK_LOCK (O31) -/

/-- BREAK_LOCK of a lock, before it is drained where it was CLOSING (R8, R75). -/
def Part.broken (p : Part) (l : LockId) : Part :=
  (p.lock l).waiters.foldl (Part.reportCancelled l .broken)
    ((p.lock l).holders.foldl (Part.reportRevoked l .broken) (p.setLock l { p.lock l with holders := [], waiters := [] }))

theorem Part.broken_frame (p : Part) (l : LockId) : Frame p (p.broken l) (.lock l :: .inbox :: agentQueues) :=
  (((p.setLock_frame l _).append (Part.reportRevokeds_frame l .broken _ _)).append
    (Part.reportCancelleds_frame l .broken _ _)).weaken (by simp +contextual [or_imp])

/-- What breaking makes of the lock, the supervisor's queue, the agents' queues and the transfer engine's list (R8, R75). -/
theorem Part.broken_spec (p : Part) (l : LockId) :
    (p.broken l).lock l = { p.lock l with holders := [], waiters := [] } ∧
      (p.broken l).queue .supervisor = p.queue .supervisor ∧
      (∀ b, (p.broken l).queue (.agent b) = p.queueAfter b
        (revokesTo l .broken b (p.lock l).holders ++ cancelsTo l .broken b (p.lock l).waiters)
        ((revokesTo l .broken b (p.lock l).holders).length + 2 * (cancelsTo l .broken b (p.lock l).waiters).length)) ∧
      (p.broken l).transfer.inbox =
        p.transfer.inbox ++ lossReports .lockBroken (p.lock l).holders ++ waitReports .broken (p.lock l).waiters := by
  obtain ⟨h1, h2, h3⟩ := Part.reportRevokeds_spec l .broken (p.lock l).holders
    (p.setLock l { p.lock l with holders := [], waiters := [] })
  obtain ⟨k1, k2, k3⟩ := Part.reportCancelleds_spec l .broken (p.lock l).waiters
    ((p.lock l).holders.foldl (Part.reportRevoked l .broken) (p.setLock l { p.lock l with holders := [], waiters := [] }))
  unfold Part.broken
  refine ⟨by simp, by simp [k2, h2], fun b => ?_, by simp [k3, h3]⟩
  rw [k1, Part.queueAfter_append p _ b _ _ _ _ ?_ (Part.discards_congr (by simp) (by simp) b)]
  rw [h1, Part.queueAfter_skip p _ b _ _ (by simp) (Part.discards_congr (by simp) (by simp) b)]

theorem breakBody_of {args : Vector Word 6} {l : LockId} {p : Part} (h0 : (pick args 0).toNat = l.val)
    (hst : (p.lock l).state ≠ .disabled) :
    Part.breakBody args p = (if (p.lock l).state = .closing then (p.broken l).drain l else p.broken l,
      accept (wordOf (p.lock l).holders.length) (wordOf (p.lock l).waiters.length)) := by
  simp only [Part.breakBody, wholeIndex_of _ _ h0, hst, if_false]
  rfl

/-- Settles O31: the lock is broken (`Part.broken`), and drained where it was CLOSING. -/
theorem breakTakesBack : Obligations.BreakTakesBack := by
  intro s args l hc hm hs h0 hst
  have hexec := exec_superviseTake (c := .breakLock) rfl s
  rw [Part.serveSupervisor_quiet _ hc hm hs] at hexec
  simp only [superviseBody] at hexec
  rw [breakBody_of h0 (by simpa using hst)] at hexec
  simp only [Part.served_keeps] at hexec
  have hframe := (s.part.served_frame supervisorPos).append (Part.broken_frame _ l)
  obtain ⟨k1, k2, k3, k4⟩ := (s.part.served supervisorPos).broken_spec l
  have hpage : ((s.part.served supervisorPos).broken l).page .supervisor = s.part.page .supervisor := by simp [Part.broken]
  have hserved : ((s.part.served supervisorPos).broken l).engine.lastServed = supervisorPos := by simp [Part.broken]
  simp only [Part.served_keeps, Part.queueAfter_served] at k1 k2 k3 k4
  generalize (s.part.served supervisorPos).broken l = p at *
  by_cases hcl : (s.part.lock l).state = .closing
  · simp only [hcl, if_true] at hexec
    refine ⟨_, hexec, by simpa using hserved, fun ho => by simp [hcl] at ho, fun _ => ⟨by simp [k1], ?_⟩, by simpa using k3,
      by simpa using k4, ?_, ?_⟩
    · simp [k2, Queue.deliver]
    · exact s.part.present_answered (p.drain l) .supervisor
        (accept (wordOf (s.part.lock l).holders.length) (wordOf (s.part.lock l).waiters.length)) (by simpa using hpage)
    · exact ((hframe.append (p.drain_frame l)).present _ _).weaken (by simp +contextual [passPieces, or_imp])
  · simp only [hcl, if_false] at hexec
    refine ⟨_, hexec, by simpa using hserved, fun _ => ⟨by simp [k1], by simpa using k2⟩, fun h => absurd h hcl,
      by simpa using k3, by simpa using k4, ?_, ?_⟩
    · exact s.part.present_answered p .supervisor
        (accept (wordOf (s.part.lock l).holders.length) (wordOf (s.part.lock l).waiters.length)) hpage
    · exact (hframe.present _ _).weaken (by simp +contextual [passPieces, or_imp])

end Sys2Proof.Machine
end

section
/-! Proofs: the refusals of the supervisor page's commands (O42), one lemma per command and check, then the four parts of the
statement. -/

namespace Sys2Proof.Machine

/-! ### Commands that another block than the lock engine carries out whole -/

/-- The checks and the effect of a command of the supervisor page that its block carries out whole, by its name. -/
def takenBody (c : Cmd) : Vector Word 6 → Part → Part × Answer :=
  match c with
  | .enableAgent => Part.enableBody
  | .disableAgent => Part.disableBody
  | .evict => Part.evictBody
  | .pauseChannel => Part.pauseBody
  | .resumeChannel => Part.resumeBody
  | .setTimebase => Part.setTimebaseBody
  | _ => Part.setBusWaitBody

/-- The taking of such a command by its block, and whether the block is free to take it. -/
def takenOf (p : Part) (c : Cmd) : Option (Instr × Bool) :=
  match c with
  | .enableAgent => some (.enableAgent .take, p.tableFree)
  | .disableAgent => some (.disableAgent .take, p.tableFree)
  | .evict => some (.evict .take, p.tableFree)
  | .pauseChannel => some (.pauseChannel .take, p.transferFree)
  | .resumeChannel => some (.resumeChannel .take, p.transferFree)
  | .setTimebase => some (.setTimebase .take, true)
  | .setBusWait => some (.setBusWait .take, true)
  | _ => none

theorem exec_taken {s : State} {c : Cmd} {i : Instr} {free : Bool} (h : takenOf s.part c = some (i, free)) :
    exec i s = .next { s with part := s.part.takeSupervisor c free (takenBody c) } := by
  cases c <;> simp only [takenOf, reduceCtorEq, Option.some.injEq, Prod.mk.injEq] at h <;> obtain ⟨rfl, rfl⟩ := h <;> rfl

theorem Part.takeSupervisor_clearing {p : Part} {c : Cmd} {args : Vector Word 6} {free : Bool}
    (body : Vector Word 6 → Part → Part × Answer) (hw : p.waits .supervisor c args) (hf : free = true)
    (hc : p.clearing = true) : p.takeSupervisor c free body = p.present .supervisor (refuse .clearing) := by
  simp [Part.takeSupervisor, Part.writtenArgs_of hw, hf, hc]

theorem Part.takeClear_clearing {p : Part} {args : Vector Word 6} (hw : p.waits .supervisor .clear args)
    (hf : p.tableFree = true) (hc : p.clearing = true) : p.takeClear = p.present .supervisor (refuse .clearing) := by
  simp [Part.takeClear, Part.writtenArgs_of hw, hf, hc]

/-- A command taken by its block whose body changes nothing: its answer is presented. -/
theorem Part.takeSupervisor_refused {p : Part} {c : Cmd} {args : Vector Word 6} {free : Bool} {code : ResultCode}
    (body : Vector Word 6 → Part → Part × Answer) (hw : p.waits .supervisor c args) (hf : free = true)
    (hc : p.clearing = false) (hb : body args p = (p, refuse code)) :
    Answered p (p.takeSupervisor c free body) .supervisor code 0 0 ∧
      Frame p (p.takeSupervisor c free body) [.page .supervisor] := by
  rw [Part.takeSupervisor_of free body hw hf hc, hb]
  exact p.present_alone .supervisor (refuse code)

/-! ### The checks of each command (R5, R6, R8, R26, R27, R31, R119, R122, R138) -/

theorem enableBody_badArgument {args : Vector Word 6} (h : 8 ≤ (pick args 0).toNat ∨ 16 ≤ (pick args 1).toNat) (p : Part) :
    Part.enableBody args p = (p, refuse .badArgument) := by
  unfold Part.enableBody
  rcases h with h | h
  · simp [wholeIndex_none _ h]
  · simp [wholeIndex_none _ h]

theorem enableBody_wrongState {args : Vector Word 6} {a : AgentId} {p : Part} (h0 : (pick args 0).toNat = a.val)
    (h1 : (pick args 1).toNat < 16) (hs : (p.agent a).state ≠ .disabled) :
    Part.enableBody args p = (p, refuse .wrongState) := by
  simp [Part.enableBody, wholeIndex_of _ _ h0, wholeIndex_of (pick args 1) ⟨_, h1⟩ rfl, hs]

theorem disableBody_badArgument {args : Vector Word 6} (h : 8 ≤ (pick args 0).toNat) (p : Part) :
    Part.disableBody args p = (p, refuse .badArgument) := by
  simp [Part.disableBody, wholeIndex_none _ h]

theorem disableBody_wrongState {args : Vector Word 6} {a : AgentId} {p : Part} (h0 : (pick args 0).toNat = a.val)
    (hs : (p.agent a).state ≠ .detached) : Part.disableBody args p = (p, refuse .wrongState) := by
  simp [Part.disableBody, wholeIndex_of _ _ h0, hs]

theorem evictBody_badArgument {args : Vector Word 6} (h : 8 ≤ (pick args 0).toNat) (p : Part) :
    Part.evictBody args p = (p, refuse .badArgument) := by
  simp [Part.evictBody, wholeIndex_none _ h]

theorem evictBody_wrongState {args : Vector Word 6} {a : AgentId} {p : Part} (h0 : (pick args 0).toNat = a.val)
    (hs : (p.agent a).state ≠ .attached) : Part.evictBody args p = (p, refuse .wrongState) := by
  simp [Part.evictBody, wholeIndex_of _ _ h0, hs]

theorem evictBody_noRoom {args : Vector Word 6} {a : AgentId} {p : Part} (h0 : (pick args 0).toNat = a.val)
    (hs : (p.agent a).state = .attached) (hr : ¬p.hasRoom .supervisor 1 = true) :
    Part.evictBody args p = (p, refuse .noNoticeRoom) := by
  simp [Part.evictBody, wholeIndex_of _ _ h0, hs, hr]

theorem pauseBody_badArgument {args : Vector Word 6} (h : 1 < (pick args 0).toNat) (p : Part) :
    Part.pauseBody args p = (p, refuse .badArgument) := by
  simp [Part.pauseBody, wholeChan_none _ h]

theorem resumeBody_badArgument {args : Vector Word 6} (h : 1 < (pick args 0).toNat) (p : Part) :
    Part.resumeBody args p = (p, refuse .badArgument) := by
  simp [Part.resumeBody, wholeChan_none _ h]

theorem inspectLockBody_badArgument {args : Vector Word 6} (h : 64 ≤ (pick args 0).toNat) (p : Part) :
    Part.inspectLockBody args p = (p, refuse .badArgument) := by
  simp [Part.inspectLockBody, wholeIndex_none _ h]

theorem inspectRecordBody_badArgument {args : Vector Word 6} (h : 64 ≤ (pick args 0).toNat) (p : Part) :
    Part.inspectRecordBody args p = (p, refuse .badArgument) := by
  simp [Part.inspectRecordBody, wholeIndex_none _ h]

theorem configureBody_badArgument {args : Vector Word 6} (h : configureArgs args = none) (p : Part) :
    Part.configureBody args p = (p, refuse .badArgument) := by
  simp [Part.configureBody, h]

theorem closeBody_badArgument {args : Vector Word 6} (h : 64 ≤ (pick args 0).toNat) (p : Part) :
    Part.closeBody args p = (p, refuse .badArgument) := by
  simp [Part.closeBody, wholeIndex_none _ h]

theorem closeBody_wrongState {args : Vector Word 6} {l : LockId} {p : Part} (h0 : (pick args 0).toNat = l.val)
    (hs : (p.lock l).state ≠ .opened) : Part.closeBody args p = (p, refuse .wrongState) := by
  simp [Part.closeBody, wholeIndex_of _ _ h0, hs]

theorem closeBody_noRoom {args : Vector Word 6} {l : LockId} {p : Part} (h0 : (pick args 0).toNat = l.val)
    (hs : (p.lock l).state = .opened) (hr : ¬p.hasRoom .supervisor 1 = true) :
    Part.closeBody args p = (p, refuse .noNoticeRoom) := by
  simp [Part.closeBody, wholeIndex_of _ _ h0, hs, hr]

theorem breakBody_badArgument {args : Vector Word 6} (h : 64 ≤ (pick args 0).toNat) (p : Part) :
    Part.breakBody args p = (p, refuse .badArgument) := by
  simp [Part.breakBody, wholeIndex_none _ h]

theorem breakBody_wrongState {args : Vector Word 6} {l : LockId} {p : Part} (h0 : (pick args 0).toNat = l.val)
    (hs : (p.lock l).state = .disabled) : Part.breakBody args p = (p, refuse .wrongState) := by
  simp [Part.breakBody, wholeIndex_of _ _ h0, hs]

theorem Part.takeInspectChannel_badArgument {p : Part} {args : Vector Word 6} (hw : p.waits .supervisor .inspectChannel args)
    (hf : p.transferFree = true) (h : 1 < (pick args 0).toNat ∨ 1 < (pick args 1).toNat) :
    p.takeInspectChannel = p.present .supervisor (refuse .badArgument) := by
  unfold Part.takeInspectChannel
  rcases h with h | h
  · simp [Part.writtenArgs_of hw, hf, wholeChan_none _ h]
  · simp [Part.writtenArgs_of hw, hf, wholeBit_none _ h]

theorem Part.takeInspectAgent_badArgument {p : Part} {args : Vector Word 6} (hw : p.waits .supervisor .inspectAgent args)
    (hf : p.tableFree = true) (h : 8 ≤ (pick args 0).toNat) :
    p.takeInspectAgent = p.present .supervisor (refuse .badArgument) := by
  simp [Part.takeInspectAgent, Part.writtenArgs_of hw, hf, wholeIndex_none _ h]

/-! ### O42 -/

/-- A command that a block carries out whole, and CLEAR, are refused CLEARING while a CLEAR is in flight (R136). -/
theorem exec_taken_clearing {s : State} {args : Vector Word 6} (hcl : s.part.clearing = true) {x : Cmd × Instr × Bool}
    (hx : takenOf s.part x.1 = some x.2 ∨ x = (.clear, .clear .take, s.part.tableFree))
    (hw : s.part.waits .supervisor x.1 args) (hf : x.2.2 = true) :
    exec x.2.1 s = .next { s with part := s.part.present .supervisor (refuse .clearing) } := by
  rcases hx with hx | rfl
  · rw [exec_taken hx, Part.takeSupervisor_clearing _ hw hf hcl]
  · rw [← Part.takeClear_clearing hw hf hcl]
    rfl

/-- Settles O42: in each case the page's answer is presented, over nothing or over the arbiter's move. -/
theorem supervisorRefusals : Obligations.SupervisorRefusals := by
  refine ⟨fun s args hcl => ⟨fun x hx hw hf => ?_, fun x hx hc hm => ?_⟩, fun s args hcl => ?_, fun s args => ?_,
    fun s args hm => ?_⟩
  · refine ⟨_, exec_taken_clearing hcl ?_ hw hf, s.part.present_alone .supervisor (refuse .clearing)⟩
    simp only [List.mem_cons, List.not_mem_nil, or_false] at hx
    rcases hx with rfl | rfl | rfl | rfl | rfl | rfl | rfl | rfl <;> simp [takenOf]
  · have hi : superviseTakeOf x.1 = some x.2 ∧ isInspect x.1 = false := by
      simp only [List.mem_cons, List.not_mem_nil, or_false] at hx
      rcases hx with rfl | rfl | rfl <;> exact ⟨rfl, rfl⟩
    exact ⟨_, exec_superviseTake hi.1 s, Part.serveSupervisor_clearing _ hc hm hcl hi.2⟩
  · have taken {c : Cmd} {i : Instr} {free : Bool} (hi : takenOf s.part c = some (i, free))
        (hw : s.part.waits .supervisor c args) (hf : free = true) :
        ∃ q, exec i s = .next { s with part := q } ∧ ∀ code, takenBody c args s.part = (s.part, refuse code) →
          Answered s.part q .supervisor code 0 0 ∧ Frame s.part q [.page .supervisor] :=
      ⟨_, exec_taken hi, fun code hb => Part.takeSupervisor_refused _ hw hf hcl hb⟩
    refine ⟨fun hw hf => ?_, fun hw hf => ?_, fun hw hf => ?_, fun hf h x hx hw => ?_⟩
    · obtain ⟨q, hq, refused⟩ := taken rfl hw hf
      exact ⟨q, hq, fun h => refused _ (enableBody_badArgument h _),
        fun a h0 h1 hs => refused _ (enableBody_wrongState h0 h1 hs)⟩
    · obtain ⟨q, hq, refused⟩ := taken rfl hw hf
      exact ⟨q, hq, fun h => refused _ (disableBody_badArgument h _), fun a h0 hs => refused _ (disableBody_wrongState h0 hs)⟩
    · obtain ⟨q, hq, refused⟩ := taken rfl hw hf
      exact ⟨q, hq, fun h => refused _ (evictBody_badArgument h _),
        fun a h0 => ⟨fun hs => refused _ (evictBody_wrongState h0 hs),
          fun hs hr => refused _ (evictBody_noRoom h0 hs (by rwa [Part.hasRoom_iff]))⟩⟩
    · simp only [List.mem_cons, List.not_mem_nil, or_false] at hx
      rcases hx with rfl | rfl
      · obtain ⟨q, hq, refused⟩ := taken rfl hw hf
        exact ⟨q, hq, refused _ (pauseBody_badArgument h _)⟩
      · obtain ⟨q, hq, refused⟩ := taken rfl hw hf
        exact ⟨q, hq, refused _ (resumeBody_badArgument h _)⟩
  · refine ⟨fun hw hf h => ⟨s.part.takeInspectChannel, rfl, ?_⟩, fun hw hf h => ⟨s.part.takeInspectAgent, rfl, ?_⟩⟩
    · rw [Part.takeInspectChannel_badArgument hw hf h]
      exact s.part.present_alone .supervisor (refuse .badArgument)
    · rw [Part.takeInspectAgent_badArgument hw hf h]
      exact s.part.present_alone .supervisor (refuse .badArgument)
  · have served {c : Cmd} {i : Instr} (hi : superviseTakeOf c = some i) (hc : s.part.claims .supervisor c args)
        (hs : s.part.clearing = false ∨ isInspect c = true) :
        ∃ q, exec i s = .next { s with part := q } ∧
          ∀ code, (∀ p : Part, (∀ l, p.lock l = s.part.lock l) → p.queue .supervisor = s.part.queue .supervisor →
              superviseBody c args p = (p, refuse code)) →
            Answered s.part q .supervisor code 0 0 ∧ q.engine.lastServed = supervisorPos ∧
              q.table.clear = s.part.clearServed ∧ Frame s.part q [.page .supervisor, .lastServed, .clear] :=
      ⟨_, exec_superviseTake hi s, fun code hb =>
        Part.serveSupervisor_answered _ hc hm hs (hb _ (fun l => by simp) (by simp))⟩
    refine ⟨fun x hx hc h => ?_, fun hcl => ⟨fun hc => ?_, fun hc => ?_, fun hc => ?_⟩⟩
    · simp only [List.mem_cons, List.not_mem_nil, or_false] at hx
      rcases hx with rfl | rfl
      · obtain ⟨q, hq, refused⟩ := served rfl hc (.inr rfl)
        exact ⟨q, hq, refused _ fun p _ _ => inspectLockBody_badArgument h p⟩
      · obtain ⟨q, hq, refused⟩ := served rfl hc (.inr rfl)
        exact ⟨q, hq, refused _ fun p _ _ => inspectRecordBody_badArgument h p⟩
    · obtain ⟨q, hq, refused⟩ := served rfl hc (.inl hcl)
      exact ⟨q, hq, fun h => refused _ fun p _ _ => configureBody_badArgument (configureArgs_none args h) p⟩
    · obtain ⟨q, hq, refused⟩ := served rfl hc (.inl hcl)
      exact ⟨q, hq, fun h => refused _ fun p _ _ => closeBody_badArgument h p, fun l h0 =>
        ⟨fun hs => refused _ fun p hl _ => closeBody_wrongState h0 (by rwa [hl]),
          fun hs hr => refused _ fun p hl hq => closeBody_noRoom h0 (by rwa [hl]) (by rwa [Part.hasRoom_iff, hq])⟩⟩
    · obtain ⟨q, hq, refused⟩ := served rfl hc (.inl hcl)
      exact ⟨q, hq, fun h => refused _ fun p _ _ => breakBody_badArgument h p,
        fun l h0 hs => refused _ fun p hl _ => breakBody_wrongState h0 (by rwa [hl])⟩

end Sys2Proof.Machine
end

section
/-! Proofs: tokens (O33), the grant pass (O34), the arbiter (O35), and the tick boundary (O36). -/

namespace Sys2Proof.Machine

/-! ### Tokens and the grant pass -/

/-- Settles O33, from the laws of the token's advance. -/
theorem tokenIsFresh : Obligations.TokenIsFresh := by
  intro e
  obtain ⟨n, _, hn, hbefore, _⟩ := advance_steps e.holders.length e.generation (e.holders.map Holding.token)
  exact ⟨e.nextToken_ne_zero, fun hl => e.nextToken_fresh (by omega), ⟨n, hn, hbefore⟩, fun _ _ _ _ => ⟨rfl, rfl, rfl⟩⟩

theorem Mode.ne_exclusive_iff (m : Mode) : m ≠ .exclusive ↔ m = .shared := by cases m <;> simp

/-- Settles O34: one step of the pass by `LockEntry.grantPass_cons`, and its end by `LockEntry.grantPass_settled`. -/
theorem grantPassGrantsHeads : Obligations.GrantPassGrantsHeads := by
  refine ⟨fun e h => e.grantPass_of_not_opened h, fun e _ h => e.grantPass_of_no_waiters h,
    fun e w rest ho hw => ⟨fun hf => ?_, fun hf => ?_⟩, fun e => ?_⟩
  · have hfits : ¬e.fits w.mode = true := by
      simpa only [LockEntry.fits_iff, Mode.ne_exclusive_iff] using hf
    rw [e.grantPass_cons w rest ho hw, if_neg hfits]
  · have hfits : e.fits w.mode = true := by
      simpa only [LockEntry.fits_iff, Mode.ne_exclusive_iff] using hf
    rw [e.grantPass_cons w rest ho hw, if_pos hfits]
    rfl
  · obtain ⟨hw, hh⟩ := e.grantPass_lists
    exact ⟨_, hw, rfl, hh, fun ho => e.grantPass_settled ho⟩

/-! ### The arbiter (R20) -/

/-- The first of `f 0`, ..., `f (n - 1)` that satisfies `p`. -/
theorem find?_map_finRange {α : Type} {n : Nat} (p : α → Bool) (f : Fin n → α) (x : α) :
    ((List.finRange n).map f).find? p = some x ↔ ∃ k : Fin n, x = f k ∧ p x = true ∧ ∀ j < k, p (f j) = false := by
  rw [List.find?_eq_some_iff_getElem]
  constructor
  · rintro ⟨hx, i, hi, hxi, hbefore⟩
    have hin : i < n := by simpa using hi
    refine ⟨⟨i, hin⟩, by simpa using hxi.symm, hx, fun j hj => ?_⟩
    simpa using hbefore j hj
  · rintro ⟨k, rfl, hk, hbefore⟩
    refine ⟨hk, k, by simp, by simp, fun j hj => ?_⟩
    simpa using hbefore ⟨j, by omega⟩ hj

/-- The position that is next: the first pending one in circular order after the one served last. -/
theorem Part.nextPosition_iff (p : Part) (pos : Fin 13) :
    p.nextPosition = some pos ↔ ∃ k : Fin 13, pos = p.engine.lastServed + 1 + k ∧ p.pendingAt pos = true ∧
      ∀ j < k, p.pendingAt (p.engine.lastServed + 1 + j) = false :=
  find?_map_finRange p.pendingAt (fun k => p.engine.lastServed + 1 + k) pos

theorem Part.mayServe_iff (p : Part) (pos : Fin 13) :
    p.mayServe pos = true ↔ p.engine.ranOut = [] ∧ p.nextPosition = some pos := by
  simp [Part.mayServe]

/-- Every position stands somewhere after another in circular order. -/
theorem circular_place (last pos : Fin 13) : pos = last + 1 + (pos - last - 1) := by abel

/-- While a position has a claim pending, some position is next. -/
theorem Part.nextPosition_isSome {p : Part} {pos : Fin 13} (h : p.pendingAt pos = true) : p.nextPosition.isSome = true := by
  unfold Part.nextPosition
  rw [List.find?_isSome]
  refine ⟨pos, List.mem_map.2 ⟨pos - p.engine.lastServed - 1, List.mem_finRange _, (circular_place _ _).symm⟩, h⟩

/-- A position that stands behind another in circular order comes nearer when that one is served. -/
theorem circular_nearer (last k j : Fin 13) (h : k < j) :
    ((last + 1 + j) - (last + 1 + k) - 1).val < ((last + 1 + j) - last - 1).val := by
  have e1 : (last + 1 + j) - (last + 1 + k) - 1 = j - k - 1 := by abel
  have e2 : (last + 1 + j) - last - 1 = j := by abel
  rw [e1, e2]
  clear e1 e2
  revert k j
  decide

/-- Settles O35. -/
theorem arbiterTakesNextInTurn : Obligations.ArbiterTakesNextInTurn := by
  intro p pos
  refine ⟨by rw [p.mayServe_iff, p.nextPosition_iff], fun hr hp => ?_, ?_⟩
  · obtain ⟨next, hn⟩ := Option.isSome_iff_exists.1 (Part.nextPosition_isSome hp)
    exact ⟨next, (p.mayServe_iff next).2 ⟨hr, hn⟩⟩
  · intro ahead next hp hm hne
    obtain ⟨_, hn⟩ := (p.mayServe_iff next).1 hm
    obtain ⟨k, hk, _, hbefore⟩ := (p.nextPosition_iff next).1 hn
    have hj := circular_place p.engine.lastServed pos
    generalize pos - p.engine.lastServed - 1 = j at hj
    have hkj : k < j := by
      rcases lt_trichotomy j k with hlt | heq | hgt
      · rw [hj, hbefore j hlt] at hp
        exact absurd hp (by simp)
      · exact absurd (by rw [hj, hk, heq]) hne
      · exact hgt
    have := circular_nearer p.engine.lastServed k j hkj
    rwa [← hj, ← hk] at this

/-! ### The tick boundary (R66, R129) -/

/-- The fall of a count as the model computes it. -/
theorem fallen_eq {w : Nat} (n : BitVec w) : (if n = 0 then 0 else n - 1) = fallen n := by
  unfold fallen
  split
  · rename_i h
    simp [h]
  · rename_i h
    have hn : 1 ≤ n.toNat := Nat.one_le_iff_ne_zero.2 fun h0 => h (BitVec.eq_of_toNat_eq (by simpa using h0))
    have hw : 1 < 2 ^ w := by have := n.isLt; omega
    rw [← BitVec.ofNat_sub_ofNat_of_le n.toNat 1 hw hn, BitVec.ofNat_toNat, BitVec.setWidth_eq]
    rfl

theorem tickCount_eq (t : Option Ticks) : tickCount t = t.map fallen := by
  unfold tickCount
  simp only [fallen_eq]

theorem Part.tick_frame (p : Part) : Frame p p.tick (.ranOut :: .master :: lockPieces) :=
  (((p.setLocks_frame _).append (Part.setRanOut_frame _ _)).append (Part.setMaster_frame _ _)).weaken
    (by simp +contextual [or_imp])

/-- The oldest count that has run out, of the kind named, is appended. -/
theorem Part.appendExpiry_of {p : Part} {x : ExpiryClaim} {rest : List ExpiryClaim} (h : p.engine.ranOut = x :: rest) :
    p.appendExpiry x.kind = (p.setRanOut rest).setExpiry (p.engine.expiry ++ [x]) := by
  simp [Part.appendExpiry, h]

/-- Settles O36. -/
theorem tickLowersCounts : Obligations.TickLowersCounts := by
  intro s
  refine ⟨⟨s.part.tick, rfl, fun l => ?_, ?_, ?_, s.part.tick_frame⟩, fun x rest hx => ?_⟩
  · rw [s.part.tick_lock l]
    simp only [LockEntry.tick, tickCount_eq]
  · have hm : s.part.tick.master = s.part.master.tick := by simp [Part.tick]
    rw [hm]
    simp only [Master.tick, fallen_eq]
  · simp only [Part.tick, Part.setMaster_keeps, Part.ranOut_setRanOut]
    rfl
  · refine ⟨s.part.appendExpiry x.kind, ?_, ?_⟩
    · cases x.kind <;> rfl
    · rw [Part.appendExpiry_of hx]
      exact ⟨by simp, by simp, ((s.part.setRanOut_frame rest).append (Part.setExpiry_frame _ _)).weaken (by simp)⟩

end Sys2Proof.Machine
end

section
/-! Proofs: the expiry claims (O37) and the purge of an agent (O38). -/

namespace Sys2Proof.Machine

/-! ### The expiry source's claims -/

/-- The coordinator once the engine has taken the oldest claim of the expiry source (R20, R21). -/
def Part.expiryTaken (p : Part) (rest : List ExpiryClaim) : Part := (p.served expiryPos).setExpiry rest

theorem Part.expiryTaken_frame (p : Part) (rest : List ExpiryClaim) : Frame p (p.expiryTaken rest) [.expiry, .lastServed] :=
  ((p.served_frame _).append (Part.setExpiry_frame _ _)).weaken (by simp)

theorem Part.expiryTaken_sets (p : Part) (rest : List ExpiryClaim) :
    (p.expiryTaken rest).engine.expiry = rest ∧ (p.expiryTaken rest).engine.lastServed = expiryPos := by
  simp [Part.expiryTaken]

theorem Part.serveExpiry_of {p : Part} {l : LockId} {party : Party} {k : CountKind} {rest : List ExpiryClaim}
    (body : LockId → Party → Part → Part) (he : p.engine.expiry = ⟨l, party, k⟩ :: rest)
    (hm : p.mayServe expiryPos = true) : p.serveExpiry k body = body l party (p.expiryTaken rest) := by
  simp [Part.serveExpiry, he, hm, Part.expiryTaken]

theorem Part.expireLease_keeps (l : LockId) (q : Party) (p : Part) :
    (Part.expireLease l q p).engine.expiry = p.engine.expiry ∧
      (Part.expireLease l q p).engine.lastServed = p.engine.lastServed := by
  unfold Part.expireLease
  (repeat' split) <;> simp

theorem Part.expireWait_keeps (l : LockId) (q : Party) (p : Part) :
    (Part.expireWait l q p).engine.expiry = p.engine.expiry ∧
      (Part.expireWait l q p).engine.lastServed = p.engine.lastServed := by
  unfold Part.expireWait
  (repeat' split) <;> simp

/-! ### The end of a lease -/

/-- A holding revoked at the end of its lease, before the end of the claim (R73). -/
def Part.leaseRevoked (p : Part) (l : LockId) (q : Party) (h : Holding) : Part :=
  Part.reportRevoked l .leaseExpired (p.setLock l ((p.lock l).withoutHolder q)) h

theorem Part.leaseRevoked_frame (p : Part) (l : LockId) (q : Party) (h : Holding) :
    Frame p (p.leaseRevoked l q h) (.lock l :: .inbox :: agentQueues) :=
  (p.setLock_frame l _).append (Part.reportRevokeds_frame l .leaseExpired [h] _)

theorem Part.leaseRevoked_spec (p : Part) (l : LockId) (q : Party) (h : Holding) :
    (p.leaseRevoked l q h).lock l = (p.lock l).withoutHolder q ∧
      (p.leaseRevoked l q h).queue .supervisor = p.queue .supervisor ∧
      (∀ b, (p.leaseRevoked l q h).queue (.agent b) =
        p.queueAfter b (revokesTo l .leaseExpired b [h]) (revokesTo l .leaseExpired b [h]).length) ∧
      (p.leaseRevoked l q h).transfer.inbox = p.transfer.inbox ++ lossReports .leaseLost [h] ∧
      ∀ b, (p.leaseRevoked l q h).discards b = p.discards b := by
  obtain ⟨h1, h2, h3⟩ := Part.reportRevokeds_spec l .leaseExpired [h] (p.setLock l ((p.lock l).withoutHolder q))
  simp only [List.foldl_cons, List.foldl_nil] at h1 h2 h3
  unfold Part.leaseRevoked
  refine ⟨by simp, by simp [h2], fun b => ?_, by simp [h3], fun b => Part.discards_congr (by simp) (by simp) b⟩
  rw [h1, Part.queueAfter_skip p _ b _ _ (by simp) (Part.discards_congr (by simp) (by simp) b)]

theorem Part.expireLease_of {p : Part} {l : LockId} {q : Party} {h : Holding} (hh : (p.lock l).holderOf q = some h)
    (hr : h.remaining = some 0) : Part.expireLease l q p = ((p.leaseRevoked l q h).settle l).1 := by
  simp [Part.expireLease, hh, hr, Part.leaseRevoked]

/-- Without a holding of the party whose lease has run out, the claim does nothing (R73). -/
theorem Part.expireLease_none {p : Part} {l : LockId} {q : Party}
    (hn : ∀ h, (p.lock l).holderOf q = some h → h.remaining ≠ some 0) : Part.expireLease l q p = p := by
  unfold Part.expireLease
  split
  · rename_i h hh
    exact if_neg (hn h hh)
  · rfl

/-! ### The end of a wait -/

/-- A wait that has expired, taken from its list and reported, before the grant pass (R49). -/
def Part.waitEnded (p : Part) (l : LockId) (q : Party) (w : Waiting) : Part :=
  Part.reportExpired l (p.setLock l ((p.lock l).withoutWaiter q)) w

theorem Part.waitEnded_spec (p : Part) (l : LockId) (q : Party) (w : Waiting) :
    (p.waitEnded l q w).lock l = (p.lock l).withoutWaiter q ∧
      (p.waitEnded l q w).queue .supervisor = p.queue .supervisor ∧
      (∀ b, (p.waitEnded l q w).queue (.agent b) = p.queueAfter b (expiresTo l b w) (2 * (expiresTo l b w).length)) ∧
      (p.waitEnded l q w).transfer.inbox = p.transfer.inbox ++ waitReports .expired [w] ∧
      ∀ b, (p.waitEnded l q w).discards b = p.discards b := by
  unfold Part.waitEnded
  refine ⟨by simp, ?_, fun b => ?_, ?_, fun b => Part.discards_congr (by simp) (by simp) b⟩
  · cases hp : w.party <;> simp [Part.reportExpired, hp]
  · cases hp : w.party with
    | agent a =>
      by_cases hb : b = a
      · subst hb
        simp only [Part.reportExpired, hp, Part.queue_notify, expiresTo, if_true, Part.queueAfter]
        cases hd : p.discards b <;>
          simp [Part.discards_congr (p := p) (q := p.setLock l _), hd, Queue.giveBack, Queue.deliver]
      · simp [Part.reportExpired, hp, expiresTo, hb, Ne.symm hb, Part.queueAfter]
    | chan c => simp [Part.reportExpired, hp, expiresTo, Part.queueAfter]
  · cases hp : w.party <;> simp [Part.reportExpired, hp, waitReports]

theorem Part.waitEnded_frame (p : Part) (l : LockId) (q : Party) (w : Waiting) :
    Frame p (p.waitEnded l q w) (.lock l :: .inbox :: agentQueues) := by
  have hq := (p.waitEnded_spec l q w).2.1
  unfold Part.waitEnded at hq ⊢
  intro x hx
  simp only [List.mem_cons, mem_agentQueues, not_or, not_exists] at hx
  cases x with
  | queue g =>
    cases g with
    | agent a => exact absurd rfl (hx.2.2 a)
    | supervisor => exact hq
  | _ => simp_all [SameAt]

theorem Part.expireWait_of {p : Part} {l : LockId} {q : Party} {w : Waiting} (hh : (p.lock l).waiterOf q = some w)
    (hr : w.remaining = some 0) : Part.expireWait l q p = ((p.waitEnded l q w).runPass l).1 := by
  simp [Part.expireWait, hh, hr, Part.waitEnded]

/-- Without a wait of the party that has run out, the claim does nothing (R49). -/
theorem Part.expireWait_none {p : Part} {l : LockId} {q : Party}
    (hn : ∀ w, (p.lock l).waiterOf q = some w → w.remaining ≠ some 0) : Part.expireWait l q p = p := by
  unfold Part.expireWait
  split
  · rename_i w hw
    exact if_neg (hn w hw)
  · rfl

/-! ### O37 -/

/-- A grant pass after reports: its own reports come behind them. -/
theorem Part.runPass_reports {p p1 : Part} {l : LockId} {ns : AgentId → List Notice} {k : AgentId → Nat}
    {rs : List TransferItem} (hq : ∀ b, p1.queue (.agent b) = p.queueAfter b (ns b) (k b))
    (hd : ∀ b, p1.discards b = p.discards b) (hi : p1.transfer.inbox = p.transfer.inbox ++ rs) :
    (∀ b, (p1.runPass l).1.queue (.agent b) =
      p.queueAfter b (ns b ++ grantsTo l b (p1.lock l).grantPass.2)
        (k b + (grantsTo l b (p1.lock l).grantPass.2).length)) ∧
      (p1.runPass l).1.transfer.inbox = p.transfer.inbox ++ rs ++ grantReports (p1.lock l).grantPass.2 := by
  obtain ⟨_, _, ⟨gq, gi⟩, _⟩ := p1.runPass_spec l
  refine ⟨fun b => ?_, by rw [gi, hi]⟩
  rw [gq, Nat.zero_add]
  exact Part.queueAfter_append p p1 b _ _ _ _ (hq b) (hd b)

theorem Part.lock_expiryTaken (p : Part) (rest : List ExpiryClaim) (l : LockId) :
    (p.expiryTaken rest).lock l = p.lock l := by
  simp [Part.expiryTaken]

theorem Part.queue_expiryTaken (p : Part) (rest : List ExpiryClaim) (g : PageId) :
    (p.expiryTaken rest).queue g = p.queue g := by
  simp [Part.expiryTaken]

theorem Part.inbox_expiryTaken (p : Part) (rest : List ExpiryClaim) :
    (p.expiryTaken rest).transfer.inbox = p.transfer.inbox := by
  simp [Part.expiryTaken]

theorem Part.discards_expiryTaken (p : Part) (rest : List ExpiryClaim) (b : AgentId) :
    (p.expiryTaken rest).discards b = p.discards b :=
  Part.discards_congr (by simp [Part.expiryTaken]) (by simp [Part.expiryTaken]) b

theorem Part.queueAfter_expiryTaken (p : Part) (rest : List ExpiryClaim) (b : AgentId) (ns : List Notice) (m : Nat) :
    (p.expiryTaken rest).queueAfter b ns m = p.queueAfter b ns m :=
  Part.queueAfter_skip p _ b ns m (p.queue_expiryTaken rest _) (p.discards_expiryTaken rest b)

/-- Settles O37: the record leaves the list with its report (`Part.leaseRevoked`, `Part.waitEnded`), and the claim ends on
that as the lock's state says. -/
theorem expiriesEndRecords : Obligations.ExpiriesEndRecords := by
  refine ⟨fun s l party rest he hm => ?_, fun s l party rest he hm => ?_⟩
  · have hexec : exec .leaseExpiry s = .next { s with part := s.part.serveExpiry .lease Part.expireLease } := rfl
    rw [Part.serveExpiry_of _ he hm] at hexec
    obtain ⟨kx, kl⟩ := s.part.expiryTaken_sets rest
    obtain ⟨ex, el⟩ := Part.expireLease_keeps l party (s.part.expiryTaken rest)
    refine ⟨_, hexec, ex.trans kx, el.trans kl, fun h hh hr => ?_, fun hn => ?_⟩
    · rw [Part.expireLease_of (by rwa [Part.lock_expiryTaken]) hr]
      have hframe := (s.part.expiryTaken_frame rest).append (Part.leaseRevoked_frame _ l party h)
      obtain ⟨hlock, hsup, hqueue, hinbox, hdisc⟩ := (s.part.expiryTaken rest).leaseRevoked_spec l party h
      simp only [Part.lock_expiryTaken, Part.queue_expiryTaken, Part.inbox_expiryTaken, Part.queueAfter_expiryTaken,
        Part.discards_expiryTaken] at hlock hsup hqueue hinbox hdisc
      generalize (s.part.expiryTaken rest).leaseRevoked l party h = p at *
      have hstate : (p.lock l).state = (s.part.lock l).state := by rw [hlock]; rfl
      refine ⟨fun ho => ?_, fun hcl => ?_⟩
      · rw [Part.settle_of_opened (hstate.trans ho)]
        obtain ⟨gq, gi⟩ := Part.runPass_reports (l := l) hqueue hdisc hinbox
        rw [hlock] at gq gi
        refine ⟨by rw [(p.runPass_spec l).1 l, if_pos rfl, hlock], gq, gi, ?_⟩
        exact (hframe.append (p.runPass_frame l)).weaken (by simp +contextual [passPieces, or_imp])
      · by_cases hh1 : ((s.part.lock l).withoutHolder party).holders = []
        · rw [Part.settle_of_drained (hstate.trans hcl) (by rw [hlock, hh1])]
          refine ⟨fun hne => absurd hh1 hne, fun _ => ⟨by simp [hlock], by simp [hsup, Queue.deliver]⟩,
            by simpa using hqueue, by simpa using hinbox, ?_⟩
          exact (hframe.append (p.drain_frame l)).weaken (by simp +contextual [passPieces, or_imp])
        · rw [Part.settle_of_held (hstate.trans hcl) (by rwa [hlock])]
          exact ⟨fun _ => ⟨hlock, hsup⟩, fun hnil => absurd hnil hh1, hqueue, hinbox,
            hframe.weaken (by simp +contextual [passPieces, or_imp])⟩
    · rw [Part.expireLease_none (by simpa only [Part.lock_expiryTaken] using hn)]
      exact s.part.expiryTaken_frame rest
  · have hexec : exec .waitExpiry s = .next { s with part := s.part.serveExpiry .wait Part.expireWait } := rfl
    rw [Part.serveExpiry_of _ he hm] at hexec
    obtain ⟨kx, kl⟩ := s.part.expiryTaken_sets rest
    obtain ⟨ex, el⟩ := Part.expireWait_keeps l party (s.part.expiryTaken rest)
    refine ⟨_, hexec, ex.trans kx, el.trans kl, fun w hw hr => ?_, fun hn => ?_⟩
    · rw [Part.expireWait_of (by rwa [Part.lock_expiryTaken]) hr]
      have hframe := (s.part.expiryTaken_frame rest).append (Part.waitEnded_frame _ l party w)
      obtain ⟨hlock, _, hqueue, hinbox, hdisc⟩ := (s.part.expiryTaken rest).waitEnded_spec l party w
      simp only [Part.lock_expiryTaken, Part.inbox_expiryTaken, Part.queueAfter_expiryTaken, Part.discards_expiryTaken]
        at hlock hqueue hinbox hdisc
      generalize (s.part.expiryTaken rest).waitEnded l party w = p at *
      obtain ⟨gq, gi⟩ := Part.runPass_reports (l := l) hqueue hdisc hinbox
      rw [hlock] at gq gi
      refine ⟨by rw [(p.runPass_spec l).1 l, if_pos rfl, hlock], gq, gi, ?_⟩
      exact (hframe.append (p.runPass_frame l)).weaken (by simp +contextual [passPieces, or_imp])
    · rw [Part.expireWait_none (by simpa only [Part.lock_expiryTaken] using hn)]
      exact s.part.expiryTaken_frame rest

/-! ### O38 -/

/-- The coordinator once the engine has taken the oldest purge of the agent table (R20, R22). -/
def Part.purgeTaken (p : Part) (rest : List AgentId) : Part := (p.served tablePos).setPurges rest

theorem exec_purge {s : State} {a : AgentId} {rest : List AgentId} (hp : s.part.table.purges = a :: rest)
    (hm : s.part.mayServe tablePos = true) :
    exec .purge s = .next
      { s with part := (allLocks.foldl (Part.purgeLock a) (s.part.purgeTaken rest)).toTable (.purgeDone a) } := by
  change execPurge s = _
  simp [execPurge, State.onPart, hp, hm, Part.purgeTaken]

theorem Part.purgeTaken_frame (p : Part) (rest : List AgentId) : Frame p (p.purgeTaken rest) [.lastServed, .purges] := by
  intro x hx
  cases x <;> simp_all [SameAt, Part.purgeTaken]

theorem Part.toTable_frame (p : Part) (r : Report) : Frame p (p.toTable r) [.reports] := by
  intro x hx
  cases x <;> simp_all [SameAt]

/-- The purge of an agent reaches the locks, the queues and the transfer engine's list, and nothing else. -/
theorem Part.purgeLocks_frame (a : AgentId) (ls : List LockId) (p : Part) :
    Frame p (ls.foldl (Part.purgeLock a) p) (.inbox :: .queue .supervisor :: (agentQueues ++ lockPieces)) := by
  intro x hx
  simp only [List.mem_cons, List.mem_append, mem_agentQueues, mem_lockPieces, not_or, not_exists] at hx
  cases x with
  | queue g =>
    cases g with
    | agent a => exact absurd rfl (hx.2.2.1 a)
    | supervisor => exact absurd rfl hx.2.1
  | lock l => exact absurd rfl (hx.2.2.2 l)
  | _ => simp_all [SameAt]

/-- Settles O38, from what the purge of an agent makes of all locks in turn. -/
theorem purgeRemovesRecords : Obligations.PurgeRemovesRecords := by
  intro s a rest hp hm
  have hlocks (l : LockId) : (s.part.purgeTaken rest).lock l = s.part.lock l := by simp [Part.purgeTaken]
  have hskip (b : AgentId) (ns : List Notice) (m : Nat) :
      (s.part.purgeTaken rest).queueAfter b ns m = s.part.queueAfter b ns m :=
    Part.queueAfter_skip _ _ b ns m (by simp [Part.purgeTaken])
      (Part.discards_congr (by simp [Part.purgeTaken]) (by simp [Part.purgeTaken]) b)
  have hqueue : (s.part.purgeTaken rest).queue .supervisor = s.part.queue .supervisor := by simp [Part.purgeTaken]
  have hinbox : (s.part.purgeTaken rest).transfer.inbox = s.part.transfer.inbox := by simp [Part.purgeTaken]
  obtain ⟨lock_eq, queue_eq, supervisor_eq, inbox_eq⟩ :=
    Part.purgeLocks_spec a allLocks (s.part.purgeTaken rest) allLocks_nodup
  simp only [hlocks, hskip, hqueue, hinbox, mem_allLocks, if_true] at lock_eq queue_eq supervisor_eq inbox_eq
  refine ⟨_, exec_purge hp hm, by simp [Part.purgeTaken], by simp [Part.purgeTaken], by simp [Part.purgeTaken],
    by simpa using lock_eq, by simpa using queue_eq, by simpa [Part.drainedBy] using supervisor_eq,
    by simpa using inbox_eq, ?_⟩
  exact (((s.part.purgeTaken_frame rest).append (Part.purgeLocks_frame a allLocks _)).append
    (Part.toTable_frame _ _)).weaken (by simp +contextual [or_imp])

end Sys2Proof.Machine
end

section
/-! Proofs: the values after hardware reset (O3), and the invariants at reset (O57). -/

namespace Sys2Proof.Machine

/-! ### What the accessors give at reset -/

@[simp] theorem Part.lock_reset (straps : Straps) (l : LockId) : (Part.reset straps).lock l = LockEntry.reset := by
  simp [Part.lock, Part.reset, Engine.reset]

@[simp] theorem Part.agent_reset (straps : Straps) (a : AgentId) : (Part.reset straps).agent a = AgentEntry.reset := by
  simp [Part.agent, Part.reset, Table.reset]

@[simp] theorem Part.page_reset (straps : Straps) (g : PageId) : (Part.reset straps).page g = Page.reset := by
  cases g <;> simp [Part.page, Part.reset, Port.reset]

@[simp] theorem Part.queue_reset (straps : Straps) (g : PageId) : (Part.reset straps).queue g = Queue.reset := by
  cases g <;> simp [Part.queue, Part.reset, Notices.reset]

@[simp] theorem Part.chan_reset (straps : Straps) (c : ChanId) : (Part.reset straps).chan c = Channel.reset := by
  cases c <;> rfl

theorem Part.clearing_reset (straps : Straps) : (Part.reset straps).clearing = false := rfl

theorem Part.copyOf_agent_reset (straps : Straps) (a : AgentId) :
    (Part.reset straps).copyOf (.agent a) = some AgentEntry.reset := by
  simp [Part.copyOf, Part.reset, Port.reset]

/-- At reset no lock has a record (R1, R9). -/
theorem Part.recordsInUse_reset (straps : Straps) (f : Party → Bool) : (Part.reset straps).recordsInUse f = 0 := by
  simp [Part.recordsInUse, LockEntry.records, LockEntry.reset]

/-- At reset no notice place is owed to an agent (R81, R84). -/
theorem Part.placesOwed_reset (straps : Straps) (a : AgentId) : (Part.reset straps).placesOwed a = 0 := by
  simp [Part.placesOwed, LockEntry.placesHeld, LockEntry.reset, Part.descriptorCount, Channel.reset]

/-- At reset no notice place is owed to the supervisor (R81, R137). -/
theorem Part.supervisorOwed_reset (straps : Straps) : (Part.reset straps).supervisorOwed = 0 := by
  have hclosing : LockEntry.reset.state ≠ .closing := by decide
  have hev : (Part.reset straps).table.evictions = [] := rfl
  simp [Part.supervisorOwed, hclosing, hev, Part.clearing_reset, Channel.reset]

/-- At reset the backplane master is IDLE, with no request pending (R124). -/
theorem Master.sound_reset : Master.reset.Sound := ⟨by decide, by decide, by decide, by decide⟩

/-! ### The registers at reset (R152) -/

/-- Every field of STATUS is 0 at reset, whether the page shows an agent's entry or none. -/
theorem statusWord_reset :
    statusWord Page.reset (some AgentEntry.reset) false Queue.reset = 0 ∧
      statusWord Page.reset none false Queue.reset = 0 := by
  decide

theorem controlWord_reset : controlWord Page.reset = 0 := by decide

/-- Every register of every page but IDENT reads 0 at reset. -/
theorem Part.readRegister_reset (straps : Straps) (g : PageId) {r : Reg} (hr : r ≠ .ident) :
    (Part.reset straps).readRegister g r = 0 := by
  unfold Part.readRegister
  rw [Part.page_reset, Part.queue_reset]
  cases r with
  | ident => exact absurd rfl hr
  | status =>
    rw [Part.clearing_reset]
    cases g with
    | agent a =>
      rw [Part.copyOf_agent_reset]
      exact statusWord_reset.1
    | supervisor => exact statusWord_reset.2
  | control => exact controlWord_reset
  | arg5 => simp [Page.reset]
  | notice0 | notice1 | notice2 => rfl
  | _ => simp [Page.reset, fieldAt]

/-! ### O3 and O57 -/

/-- Settles O3. -/
theorem resetValues : Obligations.ResetValues := by
  refine ⟨fun p hp => ?_, fun straps g r => ?_, fun straps s => ?_⟩
  · have hp : p = Part.reset Straps.atReset := hp
    subst hp
    refine ⟨fun l => ?_, ?_, fun c => ?_, rfl, rfl, rfl, fun a => ?_, rfl, fun g => ?_, rfl, fun c => ?_, rfl, rfl, rfl, rfl,
      rfl, rfl, rfl, rfl⟩
    · simp [LockEntry.reset]
    · rw [Part.agentFree, Part.recordsInUse_reset]
      rfl
    · simp [Part.setAsideFree, Part.recordsInUse_reset]
    · simp [AgentEntry.reset]
    · simp [Queue.reset, Part.line, lineLevel, Page.reset]
    · simp [Channel.reset]
  · split
    · rename_i hr
      subst hr
      rfl
    · rename_i hr
      exact Part.readRegister_reset straps g hr
  · exact ⟨{ Part.reset straps with fresh := s.part.fresh }, rfl, rfl, rfl, rfl, rfl, rfl, rfl, rfl, rfl, rfl⟩

/-- Settles O57. -/
theorem invariantsHoldAtReset : Obligations.InvariantsHoldAtReset := by
  intro straps
  refine ⟨rfl, Part.locksSound_reset straps, Master.sound_reset, fun a => ?_, ?_⟩
  · simp [Part.placesOwed_reset, Queue.reset]
  · exact ⟨by simp [Part.supervisorOwed_reset], by simp [Queue.reset], rfl, rfl, rfl, rfl, rfl⟩

end Sys2Proof.Machine
end

section
/-! Proofs: every step keeps the window port's copies and the backplane master's state (O59). The parts of `Preserved` for
each of the two, and what the two commands that `Preserved.exec` leaves open make of them. -/

namespace Sys2Proof.Machine

/-! ### The copies (R24) -/

theorem Part.CopiesAgree.of_same {p q : Part} (h : p.CopiesAgree) (hc : q.port.copies = p.port.copies := by simp)
    (ha : q.table.agents = p.table.agents := by simp) : q.CopiesAgree := by
  unfold Part.CopiesAgree at *
  rw [hc, ha, h]

/-- An entry is written in the agent table and in the port's copy together (R24). -/
theorem Part.CopiesAgree.setAgent {p : Part} (h : p.CopiesAgree) (a : AgentId) (e : AgentEntry) :
    (p.setAgent a e).CopiesAgree := by
  unfold Part.CopiesAgree at *
  simp [h]

theorem Part.setAgents_copiesAgree (p : Part) (es : Vector AgentEntry 8) : (p.setAgents es).CopiesAgree := rfl

theorem Part.copiesAgree_preserved : Preserved Part.CopiesAgree where
  served _ _ h := h.of_same
  present _ _ _ h := h.of_same
  setStage _ _ _ h := h.of_same
  setTableServing _ _ h := h.of_same
  setTransferServing _ _ h := h.of_same
  setReports _ _ h := h.of_same
  setInbox _ _ h := h.of_same
  setExpiry _ _ h := h.of_same
  setRanOut _ _ h := h.of_same
  setClear _ _ h := h.of_same
  setPurges _ _ h := h.of_same
  setEvictions _ _ h := h.of_same
  setClaim _ _ _ h := h.of_same
  setPeriod _ _ h := h.of_same
  writeFrom _ _ _ _ _ h := h.of_same
  access _ _ h := h.of_same
  reset _ _ := rfl
  reserveSupervisor _ _ h := h.of_same
  acquireBody p a args h := by
    unfold Part.acquireBody Part.acquireNow Part.acquireLater; dsimp only; (repeat' split) <;> exact h.of_same
  cancelWaitBody p a args h := by unfold Part.cancelWaitBody; dsimp only; (repeat' split) <;> exact h.of_same
  releaseBody p a args h := by unfold Part.releaseBody; dsimp only; (repeat' split) <;> exact h.of_same
  renewBody p a args h := by unfold Part.renewBody; dsimp only; (repeat' split) <;> exact h.of_same
  downgradeBody p a args h := by unfold Part.downgradeBody; dsimp only; (repeat' split) <;> exact h.of_same
  attachBody p a h := by unfold Part.attachBody; (repeat' split) <;> first | exact h | exact h.setAgent a _
  concludeDetach p a n d h := by
    unfold Part.concludeDetach
    dsimp only
    split
    · exact (h.setAgent a _).of_same rfl rfl
    · exact h
  enableBody p args h := by unfold Part.enableBody; (repeat' split) <;> first | exact h | exact h.setAgent _ _
  disableBody p args h := by
    unfold Part.disableBody
    (repeat' split) <;> first | exact h | exact (h.setAgent _ _).of_same rfl rfl
  evictBody p args h := by
    unfold Part.evictBody
    (repeat' split) <;> first | exact h | exact ((h.of_same (q := p.reserve .supervisor 1)).setAgent _ _).of_same rfl rfl
  configureBody p args h := by unfold Part.configureBody; dsimp only; (repeat' split) <;> exact h.of_same
  closeBody p args h := by unfold Part.closeBody; dsimp only; (repeat' split) <;> exact h.of_same
  breakBody p args h := by unfold Part.breakBody; dsimp only; (repeat' split) <;> exact h.of_same
  pauseBody p args h := by unfold Part.pauseBody; dsimp only; (repeat' split) <;> exact h.of_same
  resumeBody p args h := by unfold Part.resumeBody Part.resume; dsimp only; (repeat' split) <;> exact h.of_same
  setBusWaitBody p args h := by unfold Part.setBusWaitBody; dsimp only; (repeat' split) <;> exact h.of_same
  acceptPost p a c d args _ h := by unfold Part.acceptPost; dsimp only; (repeat' split) <;> exact h.of_same
  withdrawBody p a args h := by unfold Part.withdrawBody; (repeat' split) <;> exact h.of_same
  tick p h := by unfold Part.tick; exact h.of_same
  expireLease p l q h := by unfold Part.expireLease; (repeat' split) <;> exact h.of_same
  expireWait p l q h := by unfold Part.expireWait; (repeat' split) <;> exact h.of_same
  purgeLock _ _ _ h := h.of_same
  clearLock _ _ h := h.of_same
  acquireFor p c l m r w owner h := by unfold Part.acquireFor; dsimp only; (repeat' split) <;> exact h.of_same
  removeWaiterFor p c l h := by unfold Part.removeWaiterFor; dsimp only; (repeat' split) <;> exact h.of_same
  releaseFor p c l h := by unfold Part.releaseFor; dsimp only; (repeat' split) <;> exact h.of_same
  toTransfer _ _ h := h.of_same
  toTable _ _ h := h.of_same
  onAcquisition _ _ _ h := h.of_same
  onGrantReport _ _ _ h := h.of_same
  onWaitEnded _ _ _ h := h.of_same
  onHoldingEnded _ _ _ h := h.of_same
  onRemoval _ _ _ h := h.of_same
  onGuard _ _ _ h := h.of_same
  onRelease _ _ h := h.of_same
  onBurst _ _ _ h := h.of_same
  onWithdrawAll _ _ h := h.of_same
  clearTransfer _ h := h.of_same
  giveStop _ _ _ h := h.of_same
  grant _ _ h := h.of_same
  endBurst _ _ _ h := h.of_same
  readData p b w _ h := by unfold Part.readData; dsimp only; (repeat' split) <;> exact h.of_same
  writeDone p b _ h := by unfold Part.writeDone; dsimp only; (repeat' split) <;> exact h.of_same

theorem Part.CopiesAgree.completeEviction {p : Part} (h : p.CopiesAgree) (a : AgentId) :
    (Part.completeEviction a p).CopiesAgree := by
  unfold Part.completeEviction
  split
  · exact ((h.of_same (q := p.setQueue (.agent a) Queue.emptied)).setAgent a _).of_same rfl rfl
  · exact h

/-- A row of notices for the supervisor changes its queue alone. -/
theorem Part.notifySupervisors_keeps {α : Type} (f : α → Notice) (xs : List α) (p : Part) :
    (xs.foldl (fun q x => q.notifySupervisor (f x)) p).port = p.port ∧
      (xs.foldl (fun q x => q.notifySupervisor (f x)) p).table = p.table ∧
      (xs.foldl (fun q x => q.notifySupervisor (f x)) p).transfer = p.transfer ∧
      (xs.foldl (fun q x => q.notifySupervisor (f x)) p).master = p.master ∧
      (∀ a, (xs.foldl (fun q x => q.notifySupervisor (f x)) p).queue (.agent a) = p.queue (.agent a)) ∧
      (xs.foldl (fun q x => q.notifySupervisor (f x)) p).queue .supervisor =
        { notices := (p.queue .supervisor).notices ++ xs.map f,
          reserved := (p.queue .supervisor).reserved - xs.length } := by
  induction xs generalizing p with
  | nil => simp
  | cons x xs ih =>
    obtain ⟨h1, h2, h3, h4, h5, h6⟩ := ih (p.notifySupervisor (f x))
    simp only [List.foldl_cons]
    refine ⟨by simp [h1], by simp [h2], by simp [h3], by simp [h4], fun a => by simp [h5], ?_⟩
    rw [h6]
    simp [Nat.sub_sub, Nat.add_comm]

theorem Part.completeClear_copiesAgree (p : Part) : p.completeClear.CopiesAgree := by
  unfold Part.completeClear
  obtain ⟨h1, h2, _⟩ := Part.notifySupervisors_keeps (fun v : Eviction => .agentEvicted v.agent) p.table.evictions
    (((p.setAgents (each AgentEntry.cleared p.table.agents)).setQueues
      (each (fun _ => Queue.emptied) p.notices.agents)).setEvictions [])
  exact (p.setAgents_copiesAgree (each AgentEntry.cleared p.table.agents)).of_same (by simp [h1]) (by simp [h2])

/-! ### The backplane master (R124 to R133) -/

/-- The master's state fits together in `p`. -/
def Part.MasterSound (p : Part) : Prop := p.master.Sound

theorem Part.MasterSound.of_same {p q : Part} (h : p.MasterSound) (hm : q.master = p.master := by simp) : q.MasterSound := by
  unfold Part.MasterSound at *
  rw [hm]
  exact h

/-- A burst request handed over keeps the master's state together (R127). -/
theorem Part.MasterSound.handBurst {p : Part} (h : p.MasterSound) (c : ChanId) (d : Descriptor) :
    (p.handBurst c d).MasterSound := by
  unfold Part.MasterSound
  rw [Part.master_handBurst]
  exact Master.offer_sound h c d.nextBurst

theorem Part.MasterSound.endBurst {p : Part} (h : p.MasterSound) (c : ChanId) (r : BurstResult) :
    (p.endBurst c r).MasterSound := by
  have hs := Master.ended_sound p.master h.limited
  unfold Part.MasterSound Part.endBurst
  simpa using hs

/-- A grant takes the burst that waits for the backplane out of REQUESTING, with its count (R129). -/
theorem Master.Sound.grant {m : Master} (h : m.Sound) (g : GrantFor) : (m.grant g).Sound := by
  unfold Master.grant
  split
  · rename_i b hp hb
    split
    · exact h
    · cases hg : b.burst.grantedPhase with
      | reading => exact ⟨by simp, by simp [hb], by simp, h.limited⟩
      | writing => exact ⟨by simp, by simp [hb], by simp, h.limited⟩
      | idle | requesting => cases hk : b.burst <;> simp [Burst.grantedPhase, hk] at hg
  · exact h

theorem Master.Sound.tick {m : Master} (h : m.Sound) : m.tick.Sound :=
  ⟨by simpa [Master.tick] using h.counting, h.busy, h.taken, h.limited⟩

/-- A word read or written moves the burst on outside IDLE and REQUESTING, where no count is kept (R131, R132). -/
theorem Master.Sound.moved {m n : Master} (h : m.Sound) (hm : m.phase = .reading ∨ m.phase = .writing)
    (hn : n.phase = .reading ∨ n.phase = .writing) (h1 : n.count = m.count) (h2 : n.current = m.current)
    (h3 : n.limit = m.limit) : n.Sound := by
  obtain ⟨k1, k2, _, k4⟩ := h
  refine ⟨?_, ?_, ?_, h3 ▸ k4⟩
  · rw [h1, k1]
    rcases hm with e | e <;> rcases hn with f | f <;> simp [e, f]
  · rw [h2, k2]
    rcases hm with e | e <;> rcases hn with f | f <;> simp [e, f]
  · rcases hn with f | f <;> simp [f]

theorem Part.MasterSound.readData {p : Part} (h : p.MasterSound) (b : CurrentBurst) (w : Word)
    (hp : p.master.phase = .reading) : (p.readData b w).MasterSound := by
  unfold Part.readData
  split
  · refine Master.Sound.moved h (.inl hp) ?_ rfl rfl rfl
    dsimp only [Part.setMaster]
    split <;> simp
  · exact h.endBurst _ _
  · exact h

theorem Part.MasterSound.writeDone {p : Part} (h : p.MasterSound) (b : CurrentBurst)
    (hp : p.master.phase = .writing) : (p.writeDone b).MasterSound := by
  unfold Part.writeDone
  split
  · exact h.endBurst _ _
  · exact Master.Sound.moved h (.inr hp) (.inr hp) rfl rfl rfl

/-- SET_BUS_WAIT takes a limit from 1 to 255 (R130). -/
theorem busWaitArg_ne_zero {w : Word} {n : BitVec 8} (h : busWaitArg w = some n) : n ≠ 0 := by
  unfold busWaitArg at h
  split at h
  · rename_i hw
    simp only [Option.some.injEq] at h
    rintro rfl
    have hz : (w.setWidth 8).toNat = (0 : BitVec 8).toNat := congrArg BitVec.toNat h
    rw [BitVec.toNat_setWidth] at hz
    change w.toNat % 256 = 0 at hz
    omega
  · simp at h

theorem Part.MasterSound.setBusWaitBody {p : Part} (h : p.MasterSound) (args : Vector Word 6) :
    (Part.setBusWaitBody args p).1.MasterSound := by
  unfold Part.setBusWaitBody
  split
  · exact h
  · rename_i n hn
    exact ⟨h.counting, h.busy, h.taken, busWaitArg_ne_zero hn⟩

/-! ### The transfer engine's operations on the master -/

theorem Part.MasterSound.beginHead {p : Part} (h : p.MasterSound) (c : ChanId) (d : Descriptor) :
    (p.beginHead c d).MasterSound := by
  unfold Part.beginHead
  split
  · exact (h.of_same (q := p.onChan c fun ch => { ch with state := .moving }) (by simp)).handBurst c d
  · exact h.of_same (by simp)
  · exact h.of_same (by simp)

theorem Part.MasterSound.takeHead {p : Part} (h : p.MasterSound) (c : ChanId) : (p.takeHead c).MasterSound := by
  unfold Part.takeHead
  split
  · exact h
  · split
    · exact Part.MasterSound.beginHead (h.of_same (by simp)) c _
    · exact h

theorem Part.MasterSound.afterEnd {p : Part} (h : p.MasterSound) (c : ChanId) : (p.afterEnd c).MasterSound := by
  unfold Part.afterEnd
  dsimp only
  (repeat' split)
  · exact h
  · exact h.of_same (by simp)
  · exact h.of_same (by simp)
  · exact Part.MasterSound.takeHead (h.of_same (by simp)) c

theorem Part.MasterSound.finishEnd {p : Part} (h : p.MasterSound) (c : ChanId) (o : EndOutcome) :
    (p.finishEnd c o).MasterSound := by
  unfold Part.finishEnd
  split
  · exact h
  · exact Part.MasterSound.afterEnd (h.of_same (by simp)) c

theorem Part.MasterSound.endDescriptor {p : Part} (h : p.MasterSound) (c : ChanId) (o : EndOutcome) :
    (p.endDescriptor c o).MasterSound := by
  unfold Part.endDescriptor
  split
  · exact h.of_same (by simp)
  · exact h.finishEnd c o

theorem Part.MasterSound.endFault {p : Part} (h : p.MasterSound) (c : ChanId) (r : TransferFault) :
    (p.endFault c r).MasterSound := h.endDescriptor c _

theorem Part.MasterSound.afterGuard {p : Part} (h : p.MasterSound) (c : ChanId) : (p.afterGuard c).MasterSound := by
  unfold Part.afterGuard
  (repeat' split)
  · exact h.of_same (by simp)
  · exact h.handBurst c _
  · exact h.endDescriptor c _
  · exact h

theorem Part.MasterSound.goOn {p : Part} (h : p.MasterSound) (c : ChanId) : (p.goOn c).MasterSound := by
  unfold Part.goOn
  (repeat' split)
  · exact h.of_same (by simp)
  · exact h.afterGuard c
  · exact h

theorem Part.MasterSound.granted {p : Part} (h : p.MasterSound) (c : ChanId) (t : Word) : (p.granted c t).MasterSound := by
  unfold Part.granted
  dsimp only
  split
  · exact h.of_same (by simp)
  · exact Part.MasterSound.goOn (h.of_same (by simp)) c

theorem Part.MasterSound.giveStop {p : Part} (h : p.MasterSound) (c : ChanId) (r : StopReason) :
    (p.giveStop c r).MasterSound := by
  unfold Part.giveStop
  dsimp only
  (repeat' split) <;>
    first | exact h | exact Part.MasterSound.endDescriptor (h.of_same (by simp)) c _ | exact h.of_same (by simp)

theorem Part.MasterSound.stopFor {p : Part} (h : p.MasterSound) (a : AgentId) (c : ChanId) : (p.stopFor a c).MasterSound := by
  unfold Part.stopFor
  (repeat' split) <;> first | exact h | exact h.giveStop c _

/-! ### The answers, reports and outcomes that a channel takes -/

theorem Part.MasterSound.onAcquisition {p : Part} (h : p.MasterSound) (c : ChanId) (ans : AcquisitionAnswer) :
    (Part.onAcquisition c ans p).MasterSound := by
  unfold Part.onAcquisition
  dsimp only
  split
  · exact Part.MasterSound.endFault (h.of_same (by simp)) c _
  · exact Part.MasterSound.granted (h.of_same (by simp)) c _
  · exact h.of_same (by simp)
  · exact Part.MasterSound.endFault (h.of_same (by simp)) c _
  · exact Part.MasterSound.endFault (h.of_same (by simp)) c _
  · exact h.of_same (by simp)
  all_goals exact h

theorem Part.MasterSound.onGrantReport {p : Part} (h : p.MasterSound) (c : ChanId) (t : Word) :
    (Part.onGrantReport c t p).MasterSound := by
  unfold Part.onGrantReport
  split
  · exact h.granted c t
  · exact h.of_same (by simp)
  all_goals exact h

theorem Part.MasterSound.onWaitEnded {p : Part} (h : p.MasterSound) (c : ChanId) (w : WaitEnd) :
    (Part.onWaitEnded c w p).MasterSound := by
  unfold Part.onWaitEnded
  split
  · exact h.endFault c _
  all_goals exact h

theorem Part.MasterSound.onRemoval {p : Part} (h : p.MasterSound) (c : ChanId) (ans : RemovalAnswer) :
    (Part.onRemoval c ans p).MasterSound := by
  unfold Part.onRemoval
  dsimp only
  split
  iterate 3 exact Part.MasterSound.endFault (h.of_same (by simp)) c _
  all_goals exact h

theorem Part.MasterSound.onGuard {p : Part} (h : p.MasterSound) (c : ChanId) (b : Bool) :
    (Part.onGuard c b p).MasterSound := by
  unfold Part.onGuard
  dsimp only
  split
  · exact Part.MasterSound.afterGuard (h.of_same (by simp)) c
  · exact Part.MasterSound.endDescriptor (h.of_same (by simp)) c _
  · exact Part.MasterSound.endFault (h.of_same (by simp)) c _
  · exact Part.MasterSound.endFault (h.of_same (by simp)) c _
  all_goals exact h

theorem Part.MasterSound.onRelease {p : Part} (h : p.MasterSound) (c : ChanId) : (Part.onRelease c p).MasterSound := by
  unfold Part.onRelease
  split
  · exact Part.MasterSound.finishEnd (h.of_same (by simp)) c _
  · exact h

theorem Part.MasterSound.onBurst {p : Part} (h : p.MasterSound) (c : ChanId) (r : BurstResult) :
    (Part.onBurst c r p).MasterSound := by
  unfold Part.onBurst
  dsimp only
  split
  · split
    · exact h.of_same (by simp)
    · exact Part.MasterSound.goOn (h.of_same (by simp)) c
  · exact Part.MasterSound.endFault (h.of_same (by simp)) c _
  iterate 6 exact Part.MasterSound.endDescriptor (h.of_same (by simp)) c _
  all_goals exact h

theorem Part.MasterSound.onWithdrawAll {p : Part} (h : p.MasterSound) (a : AgentId) :
    (Part.onWithdrawAll a p).MasterSound := by
  unfold Part.onWithdrawAll
  dsimp only
  generalize hq : Part.giveBack _ _ _ = q
  have hs : q.MasterSound := h.of_same (by rw [← hq]; simp)
  exact ((hs.stopFor a .c0).stopFor a .c1).of_same (by simp)

/-! ### The transfer engine's commands, and ticks -/

theorem Part.MasterSound.resumeBody {p : Part} (h : p.MasterSound) (args : Vector Word 6) :
    (Part.resumeBody args p).1.MasterSound := by
  unfold Part.resumeBody Part.resume
  dsimp only
  split
  · exact h
  · rename_i c _
    split
    · exact h.of_same (by simp)
    · (repeat' split)
      · exact h.of_same (by simp)
      · exact Part.MasterSound.goOn (h.of_same (by simp)) c
      · exact Part.MasterSound.takeHead (h.of_same (by simp)) c
      · exact h

theorem Part.MasterSound.acceptPost {p : Part} (h : p.MasterSound) (a : AgentId) (c : ChanId) (d : Descriptor) :
    (p.acceptPost a c d).1.MasterSound := by
  unfold Part.acceptPost
  dsimp only
  (repeat' split) <;> first | exact h | exact Part.MasterSound.takeHead (h.of_same (by simp)) c

theorem Part.MasterSound.withdrawBody {p : Part} (h : p.MasterSound) (a : AgentId) (args : Vector Word 6) :
    (p.withdrawBody a args).1.MasterSound := by
  unfold Part.withdrawBody
  (repeat' split) <;> first | exact h | exact h.giveStop _ _

theorem Part.MasterSound.tick {p : Part} (h : p.MasterSound) : p.tick.MasterSound := Master.Sound.tick h

/-! ### Every command -/

theorem Part.masterSound_preserved : Preserved Part.MasterSound where
  served _ _ h := h.of_same
  present _ _ _ h := h.of_same
  setStage _ _ _ h := h.of_same
  setTableServing _ _ h := h.of_same
  setTransferServing _ _ h := h.of_same
  setReports _ _ h := h.of_same
  setInbox _ _ h := h.of_same
  setExpiry _ _ h := h.of_same
  setRanOut _ _ h := h.of_same
  setClear _ _ h := h.of_same
  setPurges _ _ h := h.of_same
  setEvictions _ _ h := h.of_same
  setClaim _ _ _ h := h.of_same
  setPeriod _ _ h := h.of_same
  writeFrom _ _ _ _ _ h := h.of_same
  access _ _ h := h.of_same
  reset _ _ := Master.sound_reset
  reserveSupervisor _ _ h := h.of_same
  acquireBody p a args h := by
    unfold Part.acquireBody Part.acquireNow Part.acquireLater; dsimp only; (repeat' split) <;> exact h.of_same
  cancelWaitBody p a args h := by unfold Part.cancelWaitBody; dsimp only; (repeat' split) <;> exact h.of_same
  releaseBody p a args h := by unfold Part.releaseBody; dsimp only; (repeat' split) <;> exact h.of_same
  renewBody p a args h := by unfold Part.renewBody; dsimp only; (repeat' split) <;> exact h.of_same
  downgradeBody p a args h := by unfold Part.downgradeBody; dsimp only; (repeat' split) <;> exact h.of_same
  attachBody p a h := by unfold Part.attachBody; (repeat' split) <;> exact h.of_same
  concludeDetach p a n d h := by unfold Part.concludeDetach; dsimp only; split <;> exact h.of_same
  enableBody p args h := by unfold Part.enableBody; (repeat' split) <;> exact h.of_same
  disableBody p args h := by unfold Part.disableBody; (repeat' split) <;> exact h.of_same
  evictBody p args h := by unfold Part.evictBody; (repeat' split) <;> exact h.of_same
  configureBody p args h := by unfold Part.configureBody; dsimp only; (repeat' split) <;> exact h.of_same
  closeBody p args h := by unfold Part.closeBody; dsimp only; (repeat' split) <;> exact h.of_same
  breakBody p args h := by unfold Part.breakBody; dsimp only; (repeat' split) <;> exact h.of_same
  pauseBody p args h := by unfold Part.pauseBody; dsimp only; (repeat' split) <;> exact h.of_same
  resumeBody _ args h := h.resumeBody args
  setBusWaitBody _ args h := h.setBusWaitBody args
  acceptPost _ a c d _ _ h := h.acceptPost a c d
  withdrawBody _ a args h := h.withdrawBody a args
  tick _ h := h.tick
  expireLease p l q h := by unfold Part.expireLease; (repeat' split) <;> exact h.of_same
  expireWait p l q h := by unfold Part.expireWait; (repeat' split) <;> exact h.of_same
  purgeLock _ _ _ h := h.of_same
  clearLock _ _ h := h.of_same
  acquireFor p c l m r w owner h := by unfold Part.acquireFor; dsimp only; (repeat' split) <;> exact h.of_same
  removeWaiterFor p c l h := by unfold Part.removeWaiterFor; dsimp only; (repeat' split) <;> exact h.of_same
  releaseFor p c l h := by unfold Part.releaseFor; dsimp only; (repeat' split) <;> exact h.of_same
  toTransfer _ _ h := h.of_same
  toTable _ _ h := h.of_same
  onAcquisition _ c ans h := h.onAcquisition c ans
  onGrantReport _ c t h := h.onGrantReport c t
  onWaitEnded _ c w h := h.onWaitEnded c w
  onHoldingEnded _ _ _ h := h.of_same
  onRemoval _ c ans h := h.onRemoval c ans
  onGuard _ c b h := h.onGuard c b
  onRelease _ c h := h.onRelease c
  onBurst _ c r h := h.onBurst c r
  onWithdrawAll _ a h := h.onWithdrawAll a
  clearTransfer _ h := h.of_same
  giveStop _ c r h := h.giveStop c r
  grant _ g h := Master.Sound.grant h g
  endBurst _ c r h := h.endBurst c r
  readData _ b w hp h := h.readData b w hp
  writeDone _ b hp h := h.writeDone b hp

theorem Part.completeEviction_master (a : AgentId) (p : Part) : (Part.completeEviction a p).master = p.master := by
  unfold Part.completeEviction
  split <;> simp

theorem Part.completeClear_master (p : Part) : p.completeClear.master = p.master := by
  unfold Part.completeClear
  obtain ⟨_, _, _, h, _⟩ := Part.notifySupervisors_keeps (fun v : Eviction => .agentEvicted v.agent) p.table.evictions
    (((p.setAgents (each AgentEntry.cleared p.table.agents)).setQueues
      (each (fun _ => Queue.emptied) p.notices.agents)).setEvictions [])
  simp [h]

/-! ### O59 -/

/-- Settles O59: the parts of every command keep the copies (`Part.copiesAgree_preserved`) and the master's state
(`Part.masterSound_preserved`), and so do the ends of an eviction and of a CLEAR. -/
theorem everyStepKeepsCopiesAndMaster : Obligations.EveryStepKeepsCopiesAndMaster := by
  intro s t ht
  refine ⟨fun hs => ?_, fun hs => ?_⟩
  · refine step_keeps_of_exec (P := Part.CopiesAgree) (fun i s t hp h => ?_) hs ht
    refine Part.copiesAgree_preserved.exec i s t hp h (fun a rest _ _ => ?_) fun rest _ _ => ?_
    · exact Part.CopiesAgree.completeEviction hp.of_same a
    · exact Part.completeClear_copiesAgree _
  · refine step_keeps_of_exec (P := Part.MasterSound) (fun i s t hp h => ?_) hs ht
    refine Part.masterSound_preserved.exec i s t hp h (fun a rest _ _ => ?_) fun rest _ _ => ?_
    · exact hp.of_same (by simp [Part.completeEviction_master])
    · exact hp.of_same (by simp [Part.completeClear_master])

end Sys2Proof.Machine
end

section
/-! Proofs: every command keeps room in the agents' notice queues (first half of O60). `Part.RoomFor` says that each queue has
set aside what is owed and a slack beyond it; each operation is shown to keep it, or to take from the slack what it uses. -/

namespace Sys2Proof.Machine

/-! ### Room with slack (R84) -/

/-- Each agent's queue has set aside the places its records and descriptors call for and `slack` more, and R + Q is at most
16. -/
structure Part.RoomFor (p : Part) (slack : AgentId → Nat) : Prop where
  owed : ∀ b, p.placesOwed b + slack b ≤ (p.queue (.agent b)).reserved
  room : ∀ b, (p.queue (.agent b)).reserved + (p.queue (.agent b)).notices.length ≤ 16

theorem Part.roomKept_iff (p : Part) : p.RoomKept ↔ p.RoomFor fun _ => 0 :=
  ⟨fun h => ⟨fun b => by simpa using (h b).1, fun b => (h b).2⟩, fun h b => ⟨by simpa using h.owed b, h.room b⟩⟩

/-- The owners of the descriptors on a channel's list, in order. -/
def Channel.owners (ch : Channel) : List AgentId := ch.list.map Descriptor.owner

theorem Part.descriptorCount_eq (p : Part) (b : AgentId) :
    p.descriptorCount b = (p.chan .c0).owners.count b + (p.chan .c1).owners.count b := by
  simp [Part.descriptorCount, Channel.owners, List.count, List.countP_map, Function.comp_def]

variable {p q : Part} {s t : AgentId → Nat}

theorem Part.placesOwed_congr (hl : ∀ l, q.lock l = p.lock l) (hc : ∀ c, (q.chan c).owners = (p.chan c).owners)
    (b : AgentId) : q.placesOwed b = p.placesOwed b := by
  simp only [Part.placesOwed, Part.descriptorCount_eq, hl, hc]

/-- Room where each queue changes by notices, and what they use was owed before or is slack (R84, R86, R87). -/
theorem Part.RoomFor.of_queueAfter (h : p.RoomFor s)
    (hq : ∀ b, ∃ ns k, q.queue (.agent b) = p.queueAfter b ns k ∧ ns.length ≤ k ∧
      q.placesOwed b + t b + k ≤ p.placesOwed b + s b) : q.RoomFor t := by
  have hb (b : AgentId) : q.placesOwed b + t b ≤ (q.queue (.agent b)).reserved ∧
      (q.queue (.agent b)).reserved + (q.queue (.agent b)).notices.length ≤ 16 := by
    obtain ⟨ns, k, h1, h2, h3⟩ := hq b
    have k1 := h.owed b
    have k2 := h.room b
    have h4 : (if p.discards b then [] else ns).length ≤ ns.length := by split <;> simp
    rw [h1]
    simp only [Part.queueAfter, List.length_append]
    omega
  exact ⟨fun b => (hb b).1, fun b => (hb b).2⟩

/-- Room where no queue changes and no more is owed. -/
theorem Part.RoomFor.of_owed (h : p.RoomFor s) (hq : ∀ b, q.queue (.agent b) = p.queue (.agent b))
    (ho : ∀ b, q.placesOwed b + t b ≤ p.placesOwed b + s b) : q.RoomFor t :=
  h.of_queueAfter fun b => ⟨[], 0, by rw [hq, Part.queueAfter_nil], by simp, by simpa using ho b⟩

/-- Room where neither the queues nor the locks nor the lists' owners change. -/
theorem Part.RoomFor.of_same (h : p.RoomFor s) (hq : ∀ b, q.queue (.agent b) = p.queue (.agent b) := by simp)
    (hl : ∀ l, q.lock l = p.lock l := by simp) (hc : ∀ c, (q.chan c).owners = (p.chan c).owners := by simp) :
    q.RoomFor s :=
  h.of_owed hq fun b => (congrArg (· + s b) (Part.placesOwed_congr hl hc b)).le

/-! ### The notice unit -/

theorem Part.queue_notify_agent (p : Part) (a : AgentId) (n : Notice) (k : Nat) (b : AgentId) :
    (p.notify a n k).queue (.agent b) = p.queueAfter b (if b = a then [n] else []) (placesOf a k b) := by
  by_cases hb : b = a
  · subst hb
    simp only [Part.queue_notify, if_true, Part.queueAfter, Queue.giveBack, Queue.deliver, placesOf]
    split <;> simp
  · simp [hb, placesOf, Part.queueAfter]

/-- A notice for an agent uses the places it accounts for, whether it is delivered or discarded (R86, R88). -/
theorem Part.RoomFor.notify {a : AgentId} {k : Nat} (h : p.RoomFor fun b => s b + placesOf a k b) (n : Notice)
    (hk : 1 ≤ k) : (p.notify a n k).RoomFor s := by
  refine h.of_queueAfter fun b => ?_
  have ho : (p.notify a n k).placesOwed b = p.placesOwed b := Part.placesOwed_congr (by simp) (by simp) b
  refine ⟨_, _, p.queue_notify_agent a n k b, ?_, by simp [ho, Nat.add_assoc]⟩
  unfold placesOf
  split <;> simp [hk]

theorem Part.RoomFor.giveBack {a : AgentId} {k : Nat} (h : p.RoomFor fun b => s b + placesOf a k b) :
    (p.giveBack (.agent a) k).RoomFor s := by
  refine h.of_queueAfter fun b => ?_
  have ho : (p.giveBack (.agent a) k).placesOwed b = p.placesOwed b := Part.placesOwed_congr (by simp) (by simp) b
  refine ⟨[], placesOf a k b, ?_, by simp, by simp [ho, Nat.add_assoc]⟩
  by_cases hb : b = a <;> simp [hb, placesOf, Part.queueAfter, Queue.giveBack]

/-- Places set aside after the room check are slack (R84, R85). -/
theorem Part.RoomFor.reserve {a : AgentId} {k : Nat} (h : p.RoomFor s) (hr : p.hasRoom (.agent a) k = true) :
    (p.reserve (.agent a) k).RoomFor fun b => s b + placesOf a k b := by
  rw [Part.hasRoom_iff] at hr
  have ho (b : AgentId) : (p.reserve (.agent a) k).placesOwed b = p.placesOwed b :=
    Part.placesOwed_congr (by simp) (by simp) b
  refine ⟨fun b => ?_, fun b => ?_⟩
  · have h1 := h.owed b
    by_cases hb : b = a
    · simp [ho, hb, placesOf] at h1 ⊢
      omega
    · simpa [ho, hb, placesOf] using h1
  · have h2 := h.room b
    by_cases hb : b = a
    · simp [hb] at h2 ⊢
      omega
    · simpa [hb] using h2

/-! ### Locks -/

theorem Part.RoomFor.setLock (h : p.RoomFor s) (l : LockId) (e : LockEntry)
    (he : ∀ b, e.placesHeld b + t b ≤ (p.lock l).placesHeld b + s b) : (p.setLock l e).RoomFor t := by
  refine h.of_owed (by simp) fun b => ?_
  have ho := Part.placesOwed_lock (p := p) (q := p.setLock l e) (l := l) (b := b) (fun l' hl => by simp [hl])
    (by simp [Part.descriptorCount])
  have hb := he b
  simp only [Part.lock_setLock, if_true] at ho
  omega

/-- The grant pass uses for its notices what the waits it ends no longer call for (R17, R86). -/
theorem Part.RoomFor.runPass (h : p.RoomFor s) (l : LockId) : (p.runPass l).1.RoomFor s := by
  obtain ⟨h1, _, ⟨h3, _⟩, _⟩ := p.runPass_spec l
  refine h.of_queueAfter fun b => ⟨_, (grantsTo l b (p.lock l).grantPass.2).length, by simpa using h3 b, le_rfl, ?_⟩
  have ho := Part.placesOwed_lock (p := p) (q := (p.runPass l).1) (l := l) (b := b) (fun l' hl => by rw [h1, if_neg hl])
    (by simp [Part.descriptorCount])
  rw [h1, if_pos rfl] at ho
  have hg := LockEntry.placesHeld_grantPass l b (p.lock l)
  omega

theorem Part.RoomFor.drain (h : p.RoomFor s) (l : LockId) : (p.drain l).RoomFor s := by
  have h1 : (p.setLock l { p.lock l with state := .disabled }).RoomFor s := h.setLock l _ fun _ => le_rfl
  exact h1.of_same (by simp) (by simp) (by simp)

theorem Part.RoomFor.settle (h : p.RoomFor s) (l : LockId) : (p.settle l).1.RoomFor s := by
  unfold Part.settle
  split
  · exact h.runPass l
  · split
    · exact h.drain l
    · exact h
  · exact h

theorem Part.RoomFor.reportRevoked {l : LockId} {why : RevokeReason} {x : Holding}
    (h : p.RoomFor fun b => s b + if x.party = .agent b then 1 else 0) : (Part.reportRevoked l why p x).RoomFor s := by
  unfold Part.reportRevoked
  split
  · rename_i a ha
    refine Part.RoomFor.notify (k := 1) ?_ _ le_rfl
    simpa [ha, placesOf, eq_comm] using h
  · rename_i c hc
    have h' : p.RoomFor s := by simpa [hc] using h
    exact h'.of_same (by simp) (by simp) (by simp)

theorem Part.RoomFor.reportCancelled {l : LockId} {why : CancelReason} {w : Waiting}
    (h : p.RoomFor fun b => s b + if w.party = .agent b then 2 else 0) : (Part.reportCancelled l why p w).RoomFor s := by
  unfold Part.reportCancelled
  split
  · rename_i a ha
    refine Part.RoomFor.notify (k := 2) ?_ _ (by simp)
    simpa [ha, placesOf, eq_comm] using h
  · rename_i c hc
    have h' : p.RoomFor s := by simpa [hc] using h
    exact h'.of_same (by simp) (by simp) (by simp)

theorem Part.RoomFor.reportExpired {l : LockId} {w : Waiting}
    (h : p.RoomFor fun b => s b + if w.party = .agent b then 2 else 0) : (Part.reportExpired l p w).RoomFor s := by
  unfold Part.reportExpired
  split
  · rename_i a ha
    refine Part.RoomFor.notify (k := 2) ?_ _ (by simp)
    simpa [ha, placesOf, eq_comm] using h
  · rename_i c hc
    have h' : p.RoomFor s := by simpa [hc] using h
    exact h'.of_same (by simp) (by simp) (by simp)

/-- Operations in a row, each with what it takes from the slack. -/
theorem Part.RoomFor.foldl {α : Type} (f : Part → α → Part) (cost : α → AgentId → Nat)
    (hf : ∀ (p : Part) (x : α) (s : AgentId → Nat), p.RoomFor (fun b => s b + cost x b) → (f p x).RoomFor s)
    (xs : List α) (p : Part) (s : AgentId → Nat) (h : p.RoomFor fun b => s b + (xs.map fun x => cost x b).sum) :
    (xs.foldl f p).RoomFor s := by
  induction xs generalizing p with
  | nil => simpa using h
  | cons x xs ih =>
    refine ih (f p x) (hf p x _ ?_)
    have hs : (fun b => s b + ((x :: xs).map fun x => cost x b).sum) =
        fun b => s b + (xs.map fun x => cost x b).sum + cost x b := by
      funext b
      simp only [List.map_cons, List.sum_cons]
      omega
    rwa [hs] at h

/-- `k` places for each element that satisfies `f`. -/
theorem sum_if_eq_countP {α : Type} (f : α → Bool) (k : Nat) (xs : List α) :
    (xs.map fun x => if f x = true then k else 0).sum = k * xs.countP f := by
  induction xs with
  | nil => rfl
  | cons x xs ih =>
    rw [List.map_cons, List.sum_cons, ih, List.countP_cons]
    split <;> simp [Nat.mul_add, Nat.add_comm]

theorem Part.RoomFor.reportRevokeds {l : LockId} {why : RevokeReason} {hs : List Holding}
    (h : p.RoomFor fun b => s b + hs.countP fun x => x.party == .agent b) :
    (hs.foldl (Part.reportRevoked l why) p).RoomFor s := by
  refine Part.RoomFor.foldl _ (fun x b => if x.party = .agent b then 1 else 0) (fun _ _ _ h => h.reportRevoked) hs p s ?_
  have hsum (b : AgentId) := sum_if_eq_countP (fun x : Holding => x.party == .agent b) 1 hs
  simp only [beq_iff_eq] at hsum
  simpa only [hsum, Nat.one_mul] using h

theorem Part.RoomFor.reportCancelleds {l : LockId} {why : CancelReason} {ws : List Waiting}
    (h : p.RoomFor fun b => s b + 2 * ws.countP fun w => w.party == .agent b) :
    (ws.foldl (Part.reportCancelled l why) p).RoomFor s := by
  refine Part.RoomFor.foldl _ (fun w b => if w.party = .agent b then 2 else 0) (fun _ _ _ h => h.reportCancelled) ws p s ?_
  have hsum (b : AgentId) := sum_if_eq_countP (fun w : Waiting => w.party == .agent b) 2 ws
  simp only [beq_iff_eq] at hsum
  simpa only [hsum] using h

/-! ### The lock engine's commands -/

theorem LockEntry.placesHeld_withHolding (e : LockEntry) (h : Holding) (b : AgentId) :
    (e.withHolding h).placesHeld b = e.placesHeld b + if h.party = .agent b then 1 else 0 := by
  simp only [LockEntry.placesHeld, LockEntry.withHolding, List.countP_append, List.countP_singleton, beq_iff_eq]
  omega

theorem LockEntry.placesHeld_withWait (e : LockEntry) (w : Waiting) (b : AgentId) :
    (e.withWait w).placesHeld b = e.placesHeld b + if w.party = .agent b then 2 else 0 := by
  simp only [LockEntry.placesHeld, LockEntry.withWait, List.countP_append, List.countP_singleton, beq_iff_eq]
  split <;> omega

/-- The places of an agent, by the party its records name. -/
theorem placesOf_eq (a : AgentId) (k : Nat) (b : AgentId) : placesOf a k b = if Party.agent a = .agent b then k else 0 := by
  simp only [placesOf, Party.agent.injEq, eq_comm]

theorem Part.RoomFor.acquireBody (h : p.RoomFor s) (a : AgentId) (args : Vector Word 6) :
    (Part.acquireBody a args p).1.RoomFor s := by
  unfold Part.acquireBody
  dsimp only
  split
  · exact h
  · rename_i r _
    split
    · exact h
    · split
      · unfold Part.acquireNow
        split
        · exact h
        · rename_i hr
          split
          · exact h
          · refine (h.reserve (k := 1) (by simpa using hr)).setLock r.lock _ fun b => ?_
            rw [LockEntry.placesHeld_withHolding, placesOf_eq]
            exact (Nat.add_right_comm _ _ _).le.trans (Nat.add_assoc _ _ _).le
      · split
        · exact h
        · split
          · exact h
          · unfold Part.acquireLater
            split
            · exact h
            · rename_i hr
              split
              · exact h
              · refine (h.reserve (k := 2) (by simpa using hr)).setLock r.lock _ fun b => ?_
                rw [LockEntry.placesHeld_withWait, placesOf_eq]
                exact (Nat.add_right_comm _ _ _).le.trans (Nat.add_assoc _ _ _).le

theorem Part.RoomFor.cancelWaitBody (h : p.RoomFor s) (a : AgentId) (args : Vector Word 6) :
    (Part.cancelWaitBody a args p).1.RoomFor s := by
  unfold Part.cancelWaitBody
  dsimp only
  split
  · exact h
  · rename_i l _
    split
    · rename_i w hw
      refine Part.RoomFor.runPass (Part.RoomFor.giveBack (h.setLock l _ fun b => ?_)) l
      have hb := LockEntry.placesHeld_withoutWaiter b hw
      rw [placesOf_eq]
      omega
    · split <;> exact h

theorem Part.RoomFor.releaseBody (h : p.RoomFor s) (a : AgentId) (args : Vector Word 6) :
    (Part.releaseBody a args p).1.RoomFor s := by
  unfold Part.releaseBody
  dsimp only
  split
  · exact h
  · rename_i l _
    split
    · exact h
    · rename_i x hx
      refine Part.RoomFor.settle (Part.RoomFor.giveBack (h.setLock l _ fun b => ?_)) l
      have hh : ∃ y, (p.lock l).holderOf (.agent a) = some y := by
        cases hn : (p.lock l).holderOf (.agent a) with
        | none => simp [LockEntry.heldUnder_of_none _ hn] at hx
        | some y => exact ⟨y, rfl⟩
      obtain ⟨y, hy⟩ := hh
      have hb := LockEntry.placesHeld_withoutHolder b hy
      rw [placesOf_eq]
      omega

/-- A holding changed in place, its party kept, holds the places it held. -/
theorem LockEntry.placesHeld_onHolder (e : LockEntry) (x : Party) (f : Holding → Holding) (hf : ∀ h, (f h).party = h.party)
    (b : AgentId) : (e.onHolder x f).placesHeld b = e.placesHeld b := by
  have hp (h : Holding) : (if h.party = x then f h else h).party = h.party := by split <;> simp [hf]
  simp [LockEntry.placesHeld, LockEntry.onHolder, List.countP_map, Function.comp_def, hp]

theorem Part.RoomFor.renewBody (h : p.RoomFor s) (a : AgentId) (args : Vector Word 6) :
    (Part.renewBody a args p).1.RoomFor s := by
  unfold Part.renewBody
  dsimp only
  split
  · split
    · exact h
    · exact h.setLock _ _ fun b => by rw [LockEntry.placesHeld_onHolder _ _ _ (by simp)]
  · exact h

theorem Part.RoomFor.downgradeBody (h : p.RoomFor s) (a : AgentId) (args : Vector Word 6) :
    (Part.downgradeBody a args p).1.RoomFor s := by
  unfold Part.downgradeBody
  dsimp only
  split
  · exact h
  · split
    · exact h
    · split
      · exact h
      · split
        · exact h
        · exact Part.RoomFor.runPass (h.setLock _ _ fun b => by rw [LockEntry.placesHeld_onHolder _ _ _ (by simp)]) _

/-- A lock without records holds no places. -/
theorem LockEntry.placesHeld_of_empty {e : LockEntry} (hh : e.holders = []) (hw : e.waiters = []) (b : AgentId) :
    e.placesHeld b = 0 := by
  simp [LockEntry.placesHeld, hh, hw]

theorem Part.RoomFor.configureBody (h : p.RoomFor s) (args : Vector Word 6) : (Part.configureBody args p).1.RoomFor s := by
  unfold Part.configureBody
  dsimp only
  split
  · exact h
  · split
    · exact h
    · refine h.setLock _ _ fun b => ?_
      rw [LockEntry.placesHeld_of_empty (by rfl) (by rfl)]
      omega

theorem Part.RoomFor.closeBody (h : p.RoomFor s) (args : Vector Word 6) : (Part.closeBody args p).1.RoomFor s := by
  unfold Part.closeBody
  dsimp only
  split
  · exact h
  · rename_i l _
    split
    · exact h
    · split
      · exact h
      · have h1 : (p.reserve .supervisor 1).RoomFor s := h.of_same (by simp) (by simp) (by simp)
        have h2 : ((p.lock l).waiters.foldl (Part.reportCancelled l .closed)
            ((p.reserve .supervisor 1).setLock l { p.lock l with state := .closing, waiters := [] })).RoomFor s := by
          refine Part.RoomFor.reportCancelleds (h1.setLock l _ fun b => ?_)
          simp [LockEntry.placesHeld]
          omega
        split
        · exact h2.drain l
        · exact h2

theorem Part.RoomFor.breakBody (h : p.RoomFor s) (args : Vector Word 6) : (Part.breakBody args p).1.RoomFor s := by
  unfold Part.breakBody
  dsimp only
  split
  · exact h
  · rename_i l _
    split
    · exact h
    · have h2 : ((p.lock l).waiters.foldl (Part.reportCancelled l .broken) ((p.lock l).holders.foldl
          (Part.reportRevoked l .broken) (p.setLock l { p.lock l with holders := [], waiters := [] }))).RoomFor s := by
        refine Part.RoomFor.reportCancelleds (Part.RoomFor.reportRevokeds (h.setLock l _ fun b => ?_))
        simp [LockEntry.placesHeld]
        omega
      split
      · exact h2.drain l
      · exact h2

theorem Part.RoomFor.tick (h : p.RoomFor s) : p.tick.RoomFor s := by
  refine h.of_owed (by simp [Part.tick]) fun b => ?_
  have hl (l : LockId) : (p.tick.lock l).placesHeld b = (p.lock l).placesHeld b := by
    rw [p.tick_lock l]
    simp [LockEntry.placesHeld, LockEntry.tick, List.countP_map, Function.comp_def]
  have hd : p.tick.descriptorCount b = p.descriptorCount b := by simp [Part.descriptorCount, Part.tick]
  simp only [Part.placesOwed, hl, hd, le_refl]

theorem Part.RoomFor.expireLease (h : p.RoomFor s) (l : LockId) (x : Party) : (Part.expireLease l x p).RoomFor s := by
  unfold Part.expireLease
  split
  · rename_i y hy
    split
    · refine Part.RoomFor.settle (Part.RoomFor.reportRevoked (h.setLock l _ fun b => ?_)) l
      have hb := LockEntry.placesHeld_withoutHolder b hy
      have hx : y.party = x := by simpa using List.find?_some hy
      rw [hx]
      omega
    · exact h
  · exact h

theorem Part.RoomFor.expireWait (h : p.RoomFor s) (l : LockId) (x : Party) : (Part.expireWait l x p).RoomFor s := by
  unfold Part.expireWait
  split
  · rename_i w hw
    split
    · refine Part.RoomFor.runPass (Part.RoomFor.reportExpired (h.setLock l _ fun b => ?_)) l
      have hb := LockEntry.placesHeld_withoutWaiter b hw
      have hx : w.party = x := by simpa using List.find?_some hw
      rw [hx]
      omega
    · exact h
  · exact h

/-- A lock without an agent's records holds no places of that agent, and those of the others as before (R22). -/
theorem LockEntry.placesHeld_without (e : LockEntry) (a b : AgentId) :
    (e.without a).placesHeld b + placesOf a (e.placesHeld a) b = e.placesHeld b := by
  have hne (x : Party) : (x == .agent b && x != .agent a) = if b = a then false else x == .agent b := by
    by_cases hb : b = a
    · simp [hb]
    · by_cases hx : x = .agent b <;> simp [hb, hx]
  simp only [LockEntry.placesHeld, LockEntry.without, List.countP_filter, hne, placesOf]
  split
  · rename_i hb
    simp [hb]
  · rfl

theorem Part.purgeLock_eq (a : AgentId) (p : Part) (l : LockId) : Part.purgeLock a p l =
    if (p.lock l).records (fun x => x == .agent a) = 0 then p
    else (((p.setLock l ((p.lock l).without a)).giveBack (.agent a) ((p.lock l).placesHeld a)).settle l).1 := rfl

theorem Part.RoomFor.purgeLock (h : p.RoomFor s) (a : AgentId) (l : LockId) : (Part.purgeLock a p l).RoomFor s := by
  rw [Part.purgeLock_eq]
  split
  · exact h
  · refine Part.RoomFor.settle (Part.RoomFor.giveBack (h.setLock l _ fun b => ?_)) l
    have hb := (p.lock l).placesHeld_without a b
    omega

theorem Part.RoomFor.clearLock (h : p.RoomFor s) (l : LockId) : (p.clearLock l).RoomFor s := by
  obtain ⟨h1, h2, _⟩ := p.clearLock_spec l
  refine h.of_owed h2 fun b => ?_
  have ho := Part.placesOwed_lock (p := p) (q := p.clearLock l) (l := l) (b := b) (fun l' hl => by rw [h1, if_neg hl])
    (by simp [Part.descriptorCount])
  have he : ((p.clearLock l).lock l).placesHeld b = 0 :=
    LockEntry.placesHeld_of_empty (by rw [h1, if_pos rfl]) (by rw [h1, if_pos rfl]) b
  omega

theorem Part.RoomFor.acquireFor (h : p.RoomFor s) (c : ChanId) (l : LockId) (m : Mode) (r w : Ticks) (owner : AgentId) :
    (Part.acquireFor c l m r w owner p).RoomFor s := by
  unfold Part.acquireFor
  dsimp only
  split
  · exact h.of_same (by simp) (by simp) (by simp)
  · split
    · refine Part.RoomFor.of_same (p := p.setLock l _) (h.setLock l _ fun b => ?_) (by simp) (fun _ => rfl)
      simp [LockEntry.placesHeld_withHolding, LockEntry.newHolding]
    · refine Part.RoomFor.of_same (p := p.setLock l _) (h.setLock l _ fun b => ?_) (by simp) (fun _ => rfl)
      simp [LockEntry.placesHeld_withWait, newWait]

theorem Part.RoomFor.removeWaiterFor (h : p.RoomFor s) (c : ChanId) (l : LockId) :
    (Part.removeWaiterFor c l p).RoomFor s := by
  unfold Part.removeWaiterFor
  dsimp only
  split
  · rename_i w hw
    have h1 : (p.setLock l ((p.lock l).withoutWaiter (.chan c))).RoomFor s := h.setLock l _ fun b => by
      have hb := LockEntry.placesHeld_withoutWaiter b hw
      omega
    exact (h1.runPass l).of_same (by simp) (by simp) (by simp)
  · split <;> exact h.of_same (by simp) (by simp) (by simp)

theorem Part.RoomFor.releaseFor (h : p.RoomFor s) (c : ChanId) (l : LockId) : (Part.releaseFor c l p).RoomFor s := by
  unfold Part.releaseFor
  dsimp only
  split
  · rename_i x hx
    have h1 : (p.setLock l ((p.lock l).withoutHolder (.chan c))).RoomFor s := h.setLock l _ fun b => by
      have hb := LockEntry.placesHeld_withoutHolder b hx
      omega
    exact (h1.settle l).of_same (by simp) (by simp) (by simp)
  · exact h.of_same (by simp) (by simp) (by simp)

/-! ### Channels -/

/-- Room where one channel changes, and what its list calls for less is slack. -/
theorem Part.RoomFor.onChan_owners (h : p.RoomFor s) (c : ChanId) (f : Channel → Channel)
    (hf : ∀ b, (f (p.chan c)).owners.count b + t b ≤ (p.chan c).owners.count b + s b) : (p.onChan c f).RoomFor t := by
  refine h.of_owed (by simp) fun b => ?_
  have hb := hf b
  simp only [Part.placesOwed, Part.descriptorCount_eq, Part.onChan_keeps]
  cases c <;> simp <;> omega

/-- Room where a channel's record changes and its list keeps its owners. -/
theorem Part.RoomFor.onChan (h : p.RoomFor s) (c : ChanId) (f : Channel → Channel)
    (hf : (f (p.chan c)).owners = (p.chan c).owners) : (p.onChan c f).RoomFor s :=
  h.onChan_owners c f fun b => by rw [hf]

theorem Channel.owners_onHead (ch : Channel) (f : Descriptor → Descriptor) (hf : ∀ d, (f d).owner = d.owner) :
    (ch.onHead f).owners = ch.owners := by
  unfold Channel.onHead
  split <;> simp_all [Channel.owners]

theorem Part.RoomFor.raiseClaim (h : p.RoomFor s) (c : ChanId) (cl : ChanClaim) (f : InFlight) :
    (p.raiseClaim c cl f).RoomFor s :=
  (h.onChan c (fun ch => { ch with inFlight := f }) rfl).of_same (by simp) (by simp) (by simp)

theorem Part.RoomFor.handBurst (h : p.RoomFor s) (c : ChanId) (d : Descriptor) : (p.handBurst c d).RoomFor s :=
  (h.onChan c (fun ch => { ch with inFlight := .burst }) rfl).of_same (by simp) (by simp) (by simp)

theorem Part.RoomFor.pauseNow (h : p.RoomFor s) (c : ChanId) : (p.pauseNow c).RoomFor s :=
  (h.onChan c (fun ch => { ch with state := .paused, pausePending := false, inFlight := .nothing }) rfl).of_same
    (by simp) (by simp) (by simp)

theorem Part.RoomFor.beginHead (h : p.RoomFor s) (c : ChanId) (d : Descriptor) : (p.beginHead c d).RoomFor s := by
  unfold Part.beginHead
  split
  · exact (h.onChan c (fun ch => { ch with state := .moving }) rfl).handBurst c d
  · exact (h.onChan c (fun ch => { ch with state := .moving }) rfl).raiseClaim c _ _
  · rename_i l _ _ _ _
    exact (h.onChan c (fun ch => { ch with state := .acquiring, currentLock := some l }) rfl).raiseClaim c _ _

theorem Part.RoomFor.takeHead (h : p.RoomFor s) (c : ChanId) : (p.takeHead c).RoomFor s := by
  unfold Part.takeHead
  split
  · exact h
  · split
    · refine Part.RoomFor.beginHead (h.onChan c _ ?_) c _
      exact Channel.owners_onHead _ (fun d => { d with started := true }) fun _ => rfl
    · exact h

theorem Part.RoomFor.reportIfNone (h : p.RoomFor s) (a : AgentId) : (p.reportIfNone a).RoomFor s := by
  unfold Part.reportIfNone
  split
  · exact h.of_same (by simp) (by simp) (by simp)
  · exact h

theorem Part.RoomFor.afterEnd (h : p.RoomFor s) (c : ChanId) : (p.afterEnd c).RoomFor s := by
  have h1 : (p.onChan c fun ch => { ch with state := .idle }).RoomFor s := h.onChan c _ rfl
  unfold Part.afterEnd
  dsimp only
  split
  · exact h
  · split
    · exact h1
    · split
      · exact h1.pauseNow c
      · exact h1.takeHead c

/-- A descriptor that leaves the head of its list gives its place to its notice (R86, R113). -/
theorem Part.RoomFor.notify_leaves (h : p.RoomFor s) (c : ChanId) (f : Channel → Channel) {d : Descriptor}
    {ds : List Descriptor} (n : Notice) (hl : (p.chan c).list = d :: ds) (hf : (f (p.chan c)).list = ds) :
    ((p.notify d.owner n 1).onChan c f).RoomFor s := by
  refine h.of_queueAfter fun b => ⟨_, _, p.queue_notify_agent d.owner n 1 b, ?_, ?_⟩
  · unfold placesOf
    split <;> simp
  · have hd := Part.descriptorCount_onChan (p.notify d.owner n 1) c f d ds b (by simpa using hl) (by simpa using hf)
    have hn : (p.notify d.owner n 1).descriptorCount b = p.descriptorCount b := by simp [Part.descriptorCount]
    simp only [Part.placesOwed, Part.onChan_keeps, Part.notify_keeps, placesOf, eq_comm (a := b)]
    omega

theorem Part.RoomFor.finishEnd (h : p.RoomFor s) (c : ChanId) (o : EndOutcome) : (p.finishEnd c o).RoomFor s := by
  unfold Part.finishEnd
  split
  · exact h
  · rename_i hl
    exact ((h.notify_leaves c _ _ hl (by rfl)).reportIfNone _).afterEnd c

theorem Part.RoomFor.endDescriptor (h : p.RoomFor s) (c : ChanId) (o : EndOutcome) : (p.endDescriptor c o).RoomFor s := by
  unfold Part.endDescriptor
  split
  · exact (h.onChan c _ rfl).raiseClaim c _ _
  · exact h.finishEnd c o

theorem Part.RoomFor.endFault (h : p.RoomFor s) (c : ChanId) (r : TransferFault) : (p.endFault c r).RoomFor s :=
  h.endDescriptor c _

theorem Part.RoomFor.afterGuard (h : p.RoomFor s) (c : ChanId) : (p.afterGuard c).RoomFor s := by
  unfold Part.afterGuard
  (repeat' split)
  · exact h.pauseNow c
  · exact h.handBurst c _
  · exact h.endDescriptor c _
  · exact h

theorem Part.RoomFor.goOn (h : p.RoomFor s) (c : ChanId) : (p.goOn c).RoomFor s := by
  unfold Part.goOn
  (repeat' split)
  · exact h.raiseClaim c _ _
  · exact h.afterGuard c
  · exact h

theorem Part.RoomFor.granted (h : p.RoomFor s) (c : ChanId) (x : Word) : (p.granted c x).RoomFor s := by
  have h1 : (p.onChan c fun ch => { ch with holding := some x, inFlight := .nothing }).RoomFor s := h.onChan c _ rfl
  unfold Part.granted
  dsimp only
  split
  · exact h1.pauseNow c
  · exact (h1.onChan c (fun ch => { ch with state := .moving }) rfl).goOn c

theorem Part.RoomFor.raiseRemoval (h : p.RoomFor s) (c : ChanId) : (p.raiseRemoval c).RoomFor s := by
  unfold Part.raiseRemoval
  split
  · exact h.raiseClaim c _ _
  · exact h

theorem Part.RoomFor.giveStop (h : p.RoomFor s) (c : ChanId) (r : StopReason) : (p.giveStop c r).RoomFor s := by
  have h1 : (p.onChan c fun ch => { ch with stop := some r, state := .stopping }).RoomFor s := h.onChan c _ rfl
  unfold Part.giveStop
  dsimp only
  split
  · exact h
  · split
    · exact h
    · split
      · exact h1.raiseRemoval c
      · exact h1
    · exact h1
    · exact h
    · split
      · exact (h.onChan c (fun ch => { ch with stop := some r }) rfl).endDescriptor c _
      · exact h

theorem Part.RoomFor.stopFor (h : p.RoomFor s) (a : AgentId) (c : ChanId) : (p.stopFor a c).RoomFor s := by
  unfold Part.stopFor
  split
  · split
    · exact h.giveStop c _
    · exact h
  · exact h

/-! ### The answers, reports and outcomes that a channel takes -/

theorem Part.RoomFor.onAcquisition (h : p.RoomFor s) (c : ChanId) (ans : AcquisitionAnswer) :
    (Part.onAcquisition c ans p).RoomFor s := by
  have h1 : (p.onChan c fun ch => { ch with inFlight := .nothing }).RoomFor s := h.onChan c _ rfl
  unfold Part.onAcquisition
  dsimp only
  split
  · exact h1.endFault c _
  · exact h1.granted c _
  · exact h1
  · exact h1.endFault c _
  · rename_i x _ _
    exact (h1.onChan c (fun ch => { ch with holding := some x }) rfl).endFault c _
  · exact h1.raiseRemoval c
  all_goals exact h

theorem Part.RoomFor.onGrantReport (h : p.RoomFor s) (c : ChanId) (x : Word) : (Part.onGrantReport c x p).RoomFor s := by
  unfold Part.onGrantReport
  split
  · exact h.granted c x
  · exact h.onChan c _ rfl
  all_goals exact h

theorem Part.RoomFor.onWaitEnded (h : p.RoomFor s) (c : ChanId) (w : WaitEnd) : (Part.onWaitEnded c w p).RoomFor s := by
  unfold Part.onWaitEnded
  split
  · exact h.endFault c _
  all_goals exact h

theorem Part.RoomFor.onRemoval (h : p.RoomFor s) (c : ChanId) (ans : RemovalAnswer) :
    (Part.onRemoval c ans p).RoomFor s := by
  have h1 : (p.onChan c fun ch => { ch with inFlight := .nothing }).RoomFor s := h.onChan c _ rfl
  unfold Part.onRemoval
  dsimp only
  split
  · exact h1.endFault c _
  · rename_i x _
    exact (h1.onChan c (fun ch => { ch with holding := some x }) rfl).endFault c _
  · exact h1.endFault c _
  all_goals exact h

theorem Part.RoomFor.freshen (h : p.RoomFor s) : p.freshen.RoomFor s := h.of_same (by simp) (by simp) (by simp)

theorem Part.RoomFor.onGuard (h : p.RoomFor s) (c : ChanId) (b : Bool) : (Part.onGuard c b p).RoomFor s := by
  have h1 : (p.onChan c fun ch => { ch with inFlight := .nothing }).RoomFor s := h.onChan c _ rfl
  unfold Part.onGuard
  dsimp only
  split
  · exact h1.afterGuard c
  · exact h1.freshen.endDescriptor c _
  · exact h1.endFault c _
  · exact h1.freshen.endFault c _
  all_goals exact h

theorem Part.RoomFor.onRelease (h : p.RoomFor s) (c : ChanId) : (Part.onRelease c p).RoomFor s := by
  unfold Part.onRelease
  split
  · exact (h.onChan c (fun ch => { ch with holding := none, inFlight := .nothing, ending := none }) rfl).finishEnd c _
  · exact h

theorem Part.RoomFor.onBurst (h : p.RoomFor s) (c : ChanId) (r : BurstResult) : (Part.onBurst c r p).RoomFor s := by
  have h1 : (p.onChan c fun ch => { ch with inFlight := .nothing }).RoomFor s := h.onChan c _ rfl
  have h2 (n : Nat) (w : Option Word) : ((p.onChan c fun ch => { ch with inFlight := .nothing }).onChan c
      fun ch => ch.onHead fun d => d.afterBurst n w).RoomFor s :=
    h1.onChan c _ (Channel.owners_onHead _ _ fun _ => rfl)
  unfold Part.onBurst
  dsimp only
  split
  · split
    · exact (h2 _ _).pauseNow c
    · exact (h2 _ _).goOn c
  · exact (h2 _ _).endFault c _
  iterate 6 exact h1.endDescriptor c _
  all_goals exact h

/-! ### The transfer engine's commands -/

theorem Part.RoomFor.pauseBody (h : p.RoomFor s) (args : Vector Word 6) : (Part.pauseBody args p).1.RoomFor s := by
  have h1 : (p.reserve .supervisor 1).RoomFor s := h.of_same (by simp) (by simp) (by simp)
  unfold Part.pauseBody
  dsimp only
  split
  · exact h
  · rename_i c _
    split
    · exact h
    · split
      · exact h
      · split
        · exact h1.pauseNow c
        · exact h1.onChan c (fun ch => { ch with pausePending := true }) rfl

theorem Part.RoomFor.resumeBody (h : p.RoomFor s) (args : Vector Word 6) : (Part.resumeBody args p).1.RoomFor s := by
  unfold Part.resumeBody Part.resume
  dsimp only
  split
  · exact h
  · rename_i c _
    split
    · exact (h.onChan c (fun ch => { ch with pausePending := false }) rfl).of_same (by simp) (by simp) (by simp)
    · split
      · dsimp only
        (repeat' split)
        · exact h.onChan c _ rfl
        · exact (h.onChan c (fun ch => { ch with state := .moving }) rfl).goOn c
        · exact (h.onChan c (fun ch => { ch with state := .idle }) rfl).takeHead c
      · exact h

/-- The owner of a descriptor that a POST describes (R99). -/
theorem postArgs_owner {a : AgentId} {args : Vector Word 6} {c : ChanId} {d : Descriptor}
    (h : postArgs a args = some (c, d)) : d.owner = a := by
  simp only [postArgs, Option.bind_eq_bind, Option.bind_eq_some_iff] at h
  obtain ⟨_, _, _, _, _, _, h⟩ := h
  simp only [Option.pure_def, Option.some.injEq, Prod.mk.injEq] at h
  rw [← h.2]

theorem Part.RoomFor.acceptPost (h : p.RoomFor s) (c : ChanId) (d : Descriptor) :
    (p.acceptPost d.owner c d).1.RoomFor s := by
  unfold Part.acceptPost
  split
  · exact h
  · split
    · exact h
    · rename_i hr
      split
      · exact h
      · have h1 : ((p.reserve (.agent d.owner) 1).onChan c fun ch => { ch with list := ch.list ++ [d] }).RoomFor s := by
          refine (h.reserve (by simpa using hr)).onChan_owners c _ fun b => ?_
          simp only [Channel.owners, List.map_append, List.count_append, List.map_cons, List.map_nil, List.count_singleton,
            placesOf, Part.reserve_keeps, beq_iff_eq]
          by_cases hb : b = d.owner
          · simp [hb]; omega
          · simp [hb, Ne.symm hb]
        dsimp only
        split
        · exact h1.takeHead c
        · exact h1

/-- `findDescriptor` finds the first descriptor with the owner and the tag on its channel's list. -/
theorem Part.findDescriptor_find {a : AgentId} {tag : BitVec 16} {c : ChanId} {d : Descriptor}
    (h : p.findDescriptor a tag = some (c, d)) :
    (p.chan c).list.find? (fun d => d.owner == a && d.tag == tag) = some d := by
  unfold Part.findDescriptor at h
  split at h
  · rename_i hd
    simp only [Option.some.injEq, Prod.mk.injEq] at h
    obtain ⟨rfl, rfl⟩ := h
    exact hd
  · split at h
    · rename_i hd
      simp only [Option.some.injEq, Prod.mk.injEq] at h
      obtain ⟨rfl, rfl⟩ := h
      exact hd
    · simp at h

theorem Part.RoomFor.withdrawBody (h : p.RoomFor s) (a : AgentId) (args : Vector Word 6) :
    (p.withdrawBody a args).1.RoomFor s := by
  unfold Part.withdrawBody
  split
  · exact h
  · rename_i tag _
    split
    · exact h
    · rename_i c d hf
      split
      · split
        · exact h
        · exact h.giveStop c _
      · refine Part.RoomFor.giveBack (h.onChan_owners c _ fun b => ?_)
        have he := countP_eraseP_of_find _ (fun d => d.owner == b) _ _ (Part.findDescriptor_find hf)
        obtain ⟨_, ho, _⟩ := Part.findDescriptor_mem hf
        simp only [Channel.owners, Channel.without, List.count, List.countP_map, Function.comp_def, placesOf, ho,
          beq_iff_eq, eq_comm (a := a)] at he ⊢
        omega

/-- The descriptors of an agent that have not started are those the withdraw-all takes from the list (R34). -/
theorem Channel.owners_withoutUnstarted (ch : Channel) (a b : AgentId) :
    (ch.withoutUnstarted a).owners.count b + placesOf a (ch.unstartedOf a) b = ch.owners.count b := by
  have hsplit := List.countP_eq_countP_filter_add ch.list (fun d => d.owner == b) fun d => !(d.owner == a && !d.started)
  have htaken : (ch.list.filter fun d => !!(d.owner == a && !d.started)).countP (fun d => d.owner == b) =
      placesOf a (ch.unstartedOf a) b := by
    unfold placesOf Channel.unstartedOf
    rw [List.countP_filter]
    split
    · rename_i hb
      exact List.countP_congr fun d _ => by simp [hb]
    · rename_i hb
      refine List.countP_eq_zero.2 fun d _ => ?_
      rw [Bool.and_eq_true, Bool.not_not, Bool.and_eq_true, beq_iff_eq, beq_iff_eq]
      rintro ⟨h1, h2, _⟩
      exact hb (h1.symm.trans h2)
  simp only [Channel.owners, Channel.withoutUnstarted, List.count, List.countP_map, Function.comp_def]
  rw [← htaken]
  exact hsplit.symm

/-- The withdraw-all returns a place for each descriptor it removes (R34, R87). -/
theorem Part.RoomFor.onWithdrawAll (h : p.RoomFor s) (a : AgentId) : (Part.onWithdrawAll a p).RoomFor s := by
  unfold Part.onWithdrawAll
  dsimp only
  generalize hq : Part.giveBack _ _ _ = q
  have hs : q.RoomFor s := by
    rw [← hq]
    have h0 := h.onChan_owners (t := fun b => s b + placesOf a ((p.chan .c0).unstartedOf a) b) .c0
      (fun ch => ch.withoutUnstarted a) fun b => by
        have := (p.chan .c0).owners_withoutUnstarted a b
        omega
    refine Part.RoomFor.giveBack (h0.onChan_owners .c1 _ fun b => ?_)
    have h1 := (p.chan .c1).owners_withoutUnstarted a b
    simp only [Part.chan_onChan, reduceCtorEq, if_false, placesOf] at h1 ⊢
    split at h1
    · simp_all; omega
    · simp_all
  exact ((hs.stopFor a .c0).stopFor a .c1 |>.of_same (q := Part.setWithdrawing _ _)
    (by simp) (by simp) (by simp)).reportIfNone a

theorem Part.RoomFor.clearTransfer (h : p.RoomFor s) : p.clearTransfer.RoomFor s := by
  have hc (q : Part) (c : ChanId) (hq : q.RoomFor s) : (q.onChan c Channel.cleared).RoomFor s :=
    hq.onChan_owners c _ fun b => by simp [Channel.cleared, Channel.owners]
  have hn (q : Part) (b : Bool) (n : Notice) (hq : q.RoomFor s) : (if b then q.notifySupervisor n else q).RoomFor s := by
    split
    · exact hq.of_same (by simp) (by simp) (by simp)
    · exact hq
  have h1 := hn _ (p.chan .c1).pausePending (.channelPaused .c1) (hn _ (p.chan .c0).pausePending (.channelPaused .c0)
    (hc _ .c1 (hc (p.setWithdrawing []) .c0 (h.of_same (by simp) (by simp) (by simp)))))
  exact h1.of_same (q := Part.toTable _ _) (by simp) (by simp) (by simp)

/-! ### Accesses of the window -/

/-- What a write of the window does to a notice queue: no place is taken or returned, and no notice is added (R93). -/
def Queue.Drained (x y : Queue) : Prop := y.reserved = x.reserved ∧ y.notices.length ≤ x.notices.length

theorem Queue.Drained.refl (x : Queue) : Queue.Drained x x := ⟨rfl, le_rfl⟩

theorem Part.writeRegister_queue (p : Part) (g : PageId) (r : Reg) (v : Word) (g' : PageId) :
    Queue.Drained (p.queue g') ((p.writeRegister g r v).queue g') := by
  unfold Part.writeRegister
  cases r with
  | pop =>
    simp only [Part.queue_onQueue]
    split
    · rename_i hg
      exact ⟨by rw [hg]; rfl, by simp [hg, Queue.pop]⟩
    · exact .refl _
  | arg5 => dsimp only; split <;> simp [Queue.Drained]
  | _ => simp [Queue.Drained]

theorem Part.writeFrom_queue (p : Part) (g : PageId) (slot : Slot) (r : Reg) (v : Word) (g' : PageId) :
    Queue.Drained (p.queue g') ((p.writeFrom g slot r v).queue g') := by
  unfold Part.writeFrom
  split
  · exact p.writeRegister_queue g r v g'
  · exact .refl _

theorem Part.access_queue (p : Part) (acc : Access) (g' : PageId) :
    Queue.Drained (p.queue g') ((p.access acc).queue g') := by
  unfold Part.access
  split
  iterate 3 exact .refl _
  split
  · exact p.writeRegister_queue _ _ _ g'
  · exact .refl _

theorem Part.RoomFor.of_drained (h : p.RoomFor s) (hq : ∀ b, Queue.Drained (p.queue (.agent b)) (q.queue (.agent b)))
    (hl : ∀ l, q.lock l = p.lock l := by simp) (hc : ∀ c, (q.chan c).owners = (p.chan c).owners := by simp) :
    q.RoomFor s := by
  refine ⟨fun b => ?_, fun b => ?_⟩
  · rw [Part.placesOwed_congr hl hc, (hq b).1]
    exact h.owed b
  · have h1 := h.room b
    obtain ⟨h2, h3⟩ := hq b
    omega

/-! ### Every command -/

theorem Part.roomFor_reset (straps : Straps) : (Part.reset straps).RoomFor fun _ => 0 := by
  constructor <;> simp [Part.placesOwed_reset, Queue.reset]

theorem Part.roomFor_preserved : Preserved fun p => p.RoomFor fun _ => 0 where
  served _ _ h := h.of_same
  present _ _ _ h := h.of_same
  setStage _ _ _ h := h.of_same
  setTableServing _ _ h := h.of_same
  setTransferServing _ _ h := h.of_same
  setReports _ _ h := h.of_same
  setInbox _ _ h := h.of_same
  setExpiry _ _ h := h.of_same
  setRanOut _ _ h := h.of_same
  setClear _ _ h := h.of_same
  setPurges _ _ h := h.of_same
  setEvictions _ _ h := h.of_same
  setClaim _ _ _ h := h.of_same
  setPeriod _ _ h := h.of_same
  writeFrom p g slot r v h := h.of_drained fun b => p.writeFrom_queue g slot r v (.agent b)
  access p acc h := h.of_drained fun b => p.access_queue acc (.agent b)
  reset straps _ := (Part.roomFor_reset straps).of_same (fun _ => rfl) (fun _ => rfl) fun _ => rfl
  reserveSupervisor _ _ h := h.of_same
  acquireBody _ a args h := h.acquireBody a args
  cancelWaitBody _ a args h := h.cancelWaitBody a args
  releaseBody _ a args h := h.releaseBody a args
  renewBody _ a args h := h.renewBody a args
  downgradeBody _ a args h := h.downgradeBody a args
  attachBody p a h := by unfold Part.attachBody; (repeat' split) <;> exact h.of_same
  concludeDetach p a n d h := by unfold Part.concludeDetach; dsimp only; split <;> exact h.of_same
  enableBody p args h := by unfold Part.enableBody; (repeat' split) <;> exact h.of_same
  disableBody p args h := by unfold Part.disableBody; (repeat' split) <;> exact h.of_same
  evictBody p args h := by unfold Part.evictBody; (repeat' split) <;> exact h.of_same
  configureBody _ args h := h.configureBody args
  closeBody _ args h := h.closeBody args
  breakBody _ args h := h.breakBody args
  pauseBody _ args h := h.pauseBody args
  resumeBody _ args h := h.resumeBody args
  setBusWaitBody p args h := by unfold Part.setBusWaitBody; split <;> exact h.of_same
  acceptPost _ _ c d _ hd h := by rw [← postArgs_owner hd]; exact h.acceptPost c d
  withdrawBody _ a args h := h.withdrawBody a args
  tick _ h := h.tick
  expireLease _ l x h := h.expireLease l x
  expireWait _ l x h := h.expireWait l x
  purgeLock _ a l h := h.purgeLock a l
  clearLock _ l h := h.clearLock l
  acquireFor _ c l m r w owner h := h.acquireFor c l m r w owner
  removeWaiterFor _ c l h := h.removeWaiterFor c l
  releaseFor _ c l h := h.releaseFor c l
  toTransfer _ _ h := h.of_same
  toTable _ _ h := h.of_same
  onAcquisition _ c ans h := h.onAcquisition c ans
  onGrantReport _ c x h := h.onGrantReport c x
  onWaitEnded _ c w h := h.onWaitEnded c w
  onHoldingEnded _ c why h := h.onChan c (fun ch => { ch with holding := none, loss := some why }) rfl
  onRemoval _ c ans h := h.onRemoval c ans
  onGuard _ c b h := h.onGuard c b
  onRelease _ c h := h.onRelease c
  onBurst _ c r h := h.onBurst c r
  onWithdrawAll _ a h := h.onWithdrawAll a
  clearTransfer _ h := h.clearTransfer
  giveStop _ c r h := h.giveStop c r
  grant _ _ h := h.of_same
  endBurst _ _ _ h := h.of_same
  readData p b w _ h := by unfold Part.readData; dsimp only; (repeat' split) <;> exact h.of_same
  writeDone p b _ h := by unfold Part.writeDone; split <;> exact h.of_same

/-- The end of an eviction empties the queue of an agent that is owed nothing (R35, R90). -/
theorem Part.RoomFor.completeEviction (h : p.RoomFor fun _ => 0) (a : AgentId)
    (ho : p.evictionStage a = some .withdraw → p.placesOwed a = 0) : (Part.completeEviction a p).RoomFor fun _ => 0 := by
  unfold Part.completeEviction
  split
  · rename_i hs
    dsimp only
    generalize hq : Part.notifySupervisor _ _ = q
    have ho' (b : AgentId) : q.placesOwed b = p.placesOwed b :=
      Part.placesOwed_congr (by rw [← hq]; simp) (by rw [← hq]; simp) b
    have hb (b : AgentId) : q.queue (.agent b) = if b = a then Queue.emptied else p.queue (.agent b) := by
      rw [← hq]
      simp
    refine ⟨fun b => ?_, fun b => ?_⟩
    · have h1 := h.owed b
      rw [ho', hb]
      split
      · rename_i e
        simp [e, ho hs.2]
      · exact h1
    · rw [hb]
      split
      · simp [Queue.emptied]
      · exact h.room b
  · exact h

/-- The end of a CLEAR empties the queues of agents that are owed nothing (R90, R147). -/
theorem Part.completeClear_roomFor (ho : ∀ a, p.placesOwed a = 0) : p.completeClear.RoomFor fun _ => 0 := by
  have hc (c : ChanId) : p.completeClear.chan c = p.chan c := by
    unfold Part.completeClear
    obtain ⟨_, _, h, _⟩ := Part.notifySupervisors_keeps (fun v : Eviction => .agentEvicted v.agent) p.table.evictions
      (((p.setAgents (each AgentEntry.cleared p.table.agents)).setQueues
        (each (fun _ => Queue.emptied) p.notices.agents)).setEvictions [])
    simp only [Part.setClear_keeps, Part.notifySupervisor_keeps, Part.chan, h]
    rfl
  have hq (b : AgentId) : p.completeClear.queue (.agent b) = Queue.emptied := by
    unfold Part.completeClear
    obtain ⟨_, _, _, _, h, _⟩ := Part.notifySupervisors_keeps (fun v : Eviction => .agentEvicted v.agent) p.table.evictions
      (((p.setAgents (each AgentEntry.cleared p.table.agents)).setQueues
        (each (fun _ => Queue.emptied) p.notices.agents)).setEvictions [])
    simp [h]
  refine ⟨fun b => ?_, fun b => by simp [hq, Queue.emptied]⟩
  have hb : p.completeClear.placesOwed b = p.placesOwed b :=
    Part.placesOwed_congr p.completeClear_lock (fun c => by rw [hc]) b
  simp [hb, ho]

/-- The agents' half of O60: every command keeps room in the agents' queues. -/
theorem exec_keeps_roomKept {c : Instr} {x y : State} (hx : x.part.RoomKept) (hy : exec c x = .next y)
    (he : c = .noDescriptorLeftReport → ∀ a rest, x.part.table.reports = .noDescriptorLeft a :: rest →
      x.part.evictionStage a = some .withdraw → x.part.placesOwed a = 0)
    (hc : c = .clearAgentStep → ∀ rest, x.part.table.reports = .transferStep :: rest → ∀ a, x.part.placesOwed a = 0) :
    y.part.RoomKept := by
  rw [Part.roomKept_iff] at hx ⊢
  have hrest (rest : List Report) (b : AgentId) : (x.part.setReports rest).placesOwed b = x.part.placesOwed b :=
    Part.placesOwed_congr (by simp) (by simp) b
  refine Part.roomFor_preserved.exec c x y hx hy (fun a rest hi hr => ?_) fun rest hi hr => ?_
  · refine Part.RoomFor.completeEviction hx.of_same a fun hs => ?_
    rw [hrest]
    exact he hi a rest hr hs
  · exact Part.completeClear_roomFor fun a => by rw [hrest]; exact hc hi rest hr a

end Sys2Proof.Machine
end

section
/-! Proofs: every command keeps room in the supervisor's notice queue (second half of O60). The bodies of the commands and the
channels' events keep the places (`KeepsPlaces`); the stages of a CLEAR and the end of an eviction move what is due and keep
`Part.SupervisorRoomKept`. -/

namespace Sys2Proof.Machine

/-! ### Pages, accesses, the arbiter -/

theorem Part.present_keepsPlaces (p : Part) (g : PageId) (ans : Answer) : KeepsPlaces p (p.present g ans) :=
  p.setPage_keepsPlaces g _

theorem Part.setStage_keepsPlaces (p : Part) (g : PageId) (st : Stage) : KeepsPlaces p (p.setStage g st) :=
  p.setPage_keepsPlaces g _

theorem Part.served_keepsPlaces (p : Part) (pos : Fin 13) : KeepsPlaces p (p.served pos) := .of_same

theorem Part.setTableServing_keepsPlaces (p : Part) (x : Option PageId) : KeepsPlaces p (p.setTableServing x) := .of_same

theorem Part.setTransferServing_keepsPlaces (p : Part) (x : Option AgentId) : KeepsPlaces p (p.setTransferServing x) :=
  .of_same

theorem Part.writeFrom_keepsPlaces (p : Part) (g : PageId) (slot : Slot) (r : Reg) (v : Word) :
    KeepsPlaces p (p.writeFrom g slot r v) := by
  obtain ⟨h1, h2⟩ := p.writeFrom_queue g slot r v .supervisor
  exact ⟨.of_same (h4 := h1) (h5 := h2), .of_same⟩

theorem Part.access_keepsPlaces (p : Part) (acc : Access) : KeepsPlaces p (p.access acc) := by
  obtain ⟨h1, h2⟩ := p.access_queue acc .supervisor
  exact ⟨.of_same (h4 := h1) (h5 := h2), .of_same⟩

/-! ### The lock engine's commands and claims -/

theorem Part.acquireBody_keepsPlaces (a : AgentId) (args : Vector Word 6) (p : Part) :
    KeepsPlaces p (Part.acquireBody a args p).1 := by
  have hlock (l : LockId) (e : LockEntry) (k : Nat) (he : e.state = (p.lock l).state) :
      KeepsPlaces p ((p.setLock l e).reserve (.agent a) k) :=
    (p.setLock_keepsPlaces l e he).trans (Part.reserve_keepsPlaces _ _ _)
  unfold Part.acquireBody Part.acquireNow Part.acquireLater
  dsimp only
  (repeat' split) <;> first | exact .refl p | exact hlock _ _ _ rfl

theorem Part.cancelWaitBody_keepsPlaces (a : AgentId) (args : Vector Word 6) (p : Part) :
    KeepsPlaces p (Part.cancelWaitBody a args p).1 := by
  unfold Part.cancelWaitBody
  dsimp only
  split
  · exact .refl p
  · split
    · exact ((p.setLock_keepsPlaces _ _ (by rfl)).trans (Part.giveBack_keepsPlaces _ _ _)).trans
        (Part.runPass_keepsPlaces _ _)
    · split <;> exact .refl p

theorem Part.releaseBody_keepsPlaces (a : AgentId) (args : Vector Word 6) (p : Part) :
    KeepsPlaces p (Part.releaseBody a args p).1 := by
  unfold Part.releaseBody
  dsimp only
  split
  · exact .refl p
  · split
    · exact .refl p
    · exact ((p.setLock_keepsPlaces _ _ (by rfl)).trans (Part.giveBack_keepsPlaces _ _ _)).trans
        (Part.settle_keepsPlaces _ _)

theorem Part.renewBody_keepsPlaces (a : AgentId) (args : Vector Word 6) (p : Part) :
    KeepsPlaces p (Part.renewBody a args p).1 := by
  unfold Part.renewBody
  dsimp only
  split
  · split
    · exact .refl p
    · exact p.setLock_keepsPlaces _ _ (by rfl)
  · exact .refl p

theorem Part.downgradeBody_keepsPlaces (a : AgentId) (args : Vector Word 6) (p : Part) :
    KeepsPlaces p (Part.downgradeBody a args p).1 := by
  unfold Part.downgradeBody
  dsimp only
  split
  · exact .refl p
  · split
    · exact .refl p
    · split
      · exact .refl p
      · split
        · exact .refl p
        · exact (p.setLock_keepsPlaces _ _ (by rfl)).trans (Part.runPass_keepsPlaces _ _)

theorem Part.queryBody_keepsPlaces (args : Vector Word 6) (p : Part) : KeepsPlaces p (Part.queryBody args p).1 := by
  unfold Part.queryBody
  split <;> exact .refl p

theorem Part.inspectLockBody_keepsPlaces (args : Vector Word 6) (p : Part) :
    KeepsPlaces p (Part.inspectLockBody args p).1 := by
  unfold Part.inspectLockBody
  split <;> exact .refl p

theorem Part.inspectRecordBody_keepsPlaces (args : Vector Word 6) (p : Part) :
    KeepsPlaces p (Part.inspectRecordBody args p).1 := by
  unfold Part.inspectRecordBody
  dsimp only
  (repeat' split) <;> exact .refl p

theorem Part.expireLease_keepsPlaces (l : LockId) (x : Party) (p : Part) : KeepsPlaces p (Part.expireLease l x p) := by
  unfold Part.expireLease
  split
  · split
    · exact ((p.setLock_keepsPlaces _ _ (by rfl)).trans (Part.reportRevoked_keepsPlaces _ _ _ _)).trans
        (Part.settle_keepsPlaces _ _)
    · exact .refl p
  · exact .refl p

theorem Part.expireWait_keepsPlaces (l : LockId) (x : Party) (p : Part) : KeepsPlaces p (Part.expireWait l x p) := by
  unfold Part.expireWait
  split
  · split
    · exact ((p.setLock_keepsPlaces _ _ (by rfl)).trans (Part.reportExpired_keepsPlaces _ _ _)).trans
        (Part.runPass_keepsPlaces _ _)
    · exact .refl p
  · exact .refl p

theorem Part.tick_keepsPlaces (p : Part) : KeepsPlaces p p.tick := by
  refine .of_same (by simp [Part.tick]) (by simp [Part.tick]) (by simp [Part.tick]) (by simp [Part.tick]) (fun l => ?_)
    (by simp [Part.tick]) (by simp [Part.tick])
  rw [p.tick_lock l]
  rfl

theorem Part.acquireFor_keepsPlaces (c : ChanId) (l : LockId) (m : Mode) (r w : Ticks) (owner : AgentId) (p : Part) :
    KeepsPlaces p (Part.acquireFor c l m r w owner p) := by
  have hsend (q : Part) (ans : AcquisitionAnswer) : KeepsPlaces q (q.toTransfer (.acquisitionAnswer c ans)) :=
    q.toTransfer_keepsPlaces _ (by simp) (by simp)
  unfold Part.acquireFor
  dsimp only
  split
  · exact hsend _ _
  · split
    · exact (p.setLock_keepsPlaces _ _ (by rfl)).trans (hsend _ _)
    · exact (p.setLock_keepsPlaces _ _ (by rfl)).trans (hsend _ _)

theorem Part.removeWaiterFor_keepsPlaces (c : ChanId) (l : LockId) (p : Part) :
    KeepsPlaces p (Part.removeWaiterFor c l p) := by
  have hsend (q : Part) (ans : RemovalAnswer) : KeepsPlaces q (q.toTransfer (.removalAnswer c ans)) :=
    q.toTransfer_keepsPlaces _ (by simp) (by simp)
  unfold Part.removeWaiterFor
  dsimp only
  split
  · exact ((p.setLock_keepsPlaces _ _ (by rfl)).trans (Part.runPass_keepsPlaces _ _)).trans (hsend _ _)
  · split <;> exact hsend _ _

theorem Part.releaseFor_keepsPlaces (c : ChanId) (l : LockId) (p : Part) : KeepsPlaces p (Part.releaseFor c l p) := by
  have hsend (q : Part) (b : Bool) : KeepsPlaces q (q.toTransfer (.releaseAnswer c b)) :=
    q.toTransfer_keepsPlaces _ (by simp) (by simp)
  unfold Part.releaseFor
  dsimp only
  split
  · exact ((p.setLock_keepsPlaces _ _ (by rfl)).trans (Part.settle_keepsPlaces _ _)).trans (hsend _ _)
  · exact hsend _ _

theorem Part.guardAnswer_keepsPlaces (p : Part) (c : ChanId) (b : Bool) :
    KeepsPlaces p (p.toTransfer (.guardAnswer c b)) :=
  p.toTransfer_keepsPlaces _ (by simp) (by simp)

/-! ### The agent table's commands -/

theorem Part.attachBody_keepsPlaces (p : Part) (a : AgentId) : KeepsPlaces p (p.attachBody a).1 := by
  unfold Part.attachBody
  split
  · exact .refl p
  · split
    iterate 3 exact .refl p
    exact p.setAgent_keepsPlaces _ _

theorem Part.concludeDetach_keepsPlaces (p : Part) (a : AgentId) (n d : Nat) :
    KeepsPlaces p (p.concludeDetach a n d).1 := by
  unfold Part.concludeDetach
  dsimp only
  split
  · exact (p.setAgent_keepsPlaces _ _).trans (Part.freshen_keepsPlaces _)
  · exact .refl p

theorem Part.enableBody_keepsPlaces (args : Vector Word 6) (p : Part) : KeepsPlaces p (Part.enableBody args p).1 := by
  unfold Part.enableBody
  split
  · split
    · exact .refl p
    · exact p.setAgent_keepsPlaces _ _
  · exact .refl p

theorem Part.disableBody_keepsPlaces (args : Vector Word 6) (p : Part) : KeepsPlaces p (Part.disableBody args p).1 := by
  unfold Part.disableBody
  split
  · split
    · exact .refl p
    · dsimp only
      exact (p.setAgent_keepsPlaces _ _).trans (Part.setPage_keepsPlaces _ _ _)
  · exact .refl p

theorem Part.setTimebaseBody_keepsPlaces (args : Vector Word 6) (p : Part) :
    KeepsPlaces p (Part.setTimebaseBody args p).1 := by
  unfold Part.setTimebaseBody
  split
  · exact .refl p
  · exact .of_same

theorem Part.setBusWaitBody_keepsPlaces (args : Vector Word 6) (p : Part) :
    KeepsPlaces p (Part.setBusWaitBody args p).1 := by
  unfold Part.setBusWaitBody
  split
  · exact .refl p
  · exact p.setMaster_keepsPlaces _

/-! ### The transfer engine's commands and events -/

theorem Part.acceptPost_keepsPlaces (p : Part) (a : AgentId) (c : ChanId) (d : Descriptor) :
    KeepsPlaces p (p.acceptPost a c d).1 := by
  have h := (p.reserve_keepsPlaces a 1).trans (Part.onChan_keepsPlaces _ c (fun ch => { ch with list := ch.list ++ [d] }) rfl)
  unfold Part.acceptPost
  dsimp only
  split
  · exact .refl p
  · split
    · exact .refl p
    · split
      · exact .refl p
      · split
        · exact h.trans (Part.takeHead_keepsPlaces _ _)
        · exact h

theorem Part.withdrawBody_keepsPlaces (p : Part) (a : AgentId) (args : Vector Word 6) :
    KeepsPlaces p (p.withdrawBody a args).1 := by
  unfold Part.withdrawBody
  split
  · exact .refl p
  · split
    · exact .refl p
    · split
      · split
        · exact .refl p
        · exact p.giveStop_keepsPlaces _ _
      · exact (p.onChan_keepsPlaces _ _ (by rfl)).trans (Part.giveBack_keepsPlaces _ _ _)

/-- A channel that takes an answer waits for nothing more, and goes on. -/
theorem Part.answered_keepsPlaces (p : Part) (c : ChanId) :
    KeepsPlaces p (p.onChan c fun ch => { ch with inFlight := .nothing }) := p.onChan_keepsPlaces c _ rfl

theorem Part.onAcquisition_keepsPlaces (c : ChanId) (ans : AcquisitionAnswer) (p : Part) :
    KeepsPlaces p (Part.onAcquisition c ans p) := by
  have h := p.answered_keepsPlaces c
  unfold Part.onAcquisition
  dsimp only
  split
  · exact h.trans (Part.endFault_keepsPlaces _ _ _)
  · exact h.trans (Part.granted_keepsPlaces _ _ _)
  · exact h
  · exact h.trans (Part.endFault_keepsPlaces _ _ _)
  · exact (h.trans (Part.onChan_keepsPlaces _ c _ (by rfl))).trans (Part.endFault_keepsPlaces _ _ _)
  · exact h.trans (Part.raiseRemoval_keepsPlaces _ _)
  all_goals exact .refl p

theorem Part.onGrantReport_keepsPlaces (c : ChanId) (x : Word) (p : Part) : KeepsPlaces p (Part.onGrantReport c x p) := by
  unfold Part.onGrantReport
  split
  · exact p.granted_keepsPlaces _ _
  · exact p.onChan_keepsPlaces c _ (by rfl)
  all_goals exact .refl p

theorem Part.onWaitEnded_keepsPlaces (c : ChanId) (w : WaitEnd) (p : Part) : KeepsPlaces p (Part.onWaitEnded c w p) := by
  unfold Part.onWaitEnded
  split
  · exact p.endFault_keepsPlaces _ _
  all_goals exact .refl p

theorem Part.onRemoval_keepsPlaces (c : ChanId) (ans : RemovalAnswer) (p : Part) :
    KeepsPlaces p (Part.onRemoval c ans p) := by
  have h := p.answered_keepsPlaces c
  unfold Part.onRemoval
  dsimp only
  split
  · exact h.trans (Part.endFault_keepsPlaces _ _ _)
  · exact (h.trans (Part.onChan_keepsPlaces _ c _ (by rfl))).trans (Part.endFault_keepsPlaces _ _ _)
  · exact h.trans (Part.endFault_keepsPlaces _ _ _)
  all_goals exact .refl p

theorem Part.onGuard_keepsPlaces (c : ChanId) (b : Bool) (p : Part) : KeepsPlaces p (Part.onGuard c b p) := by
  have h := p.answered_keepsPlaces c
  unfold Part.onGuard
  dsimp only
  split
  · exact h.trans (Part.afterGuard_keepsPlaces _ _)
  · exact (h.trans (Part.freshen_keepsPlaces _)).trans (Part.endDescriptor_keepsPlaces _ _ _)
  · exact h.trans (Part.endFault_keepsPlaces _ _ _)
  · exact (h.trans (Part.freshen_keepsPlaces _)).trans (Part.endFault_keepsPlaces _ _ _)
  all_goals exact .refl p

theorem Part.onRelease_keepsPlaces (c : ChanId) (p : Part) : KeepsPlaces p (Part.onRelease c p) := by
  unfold Part.onRelease
  split
  · exact (p.onChan_keepsPlaces c _ (by rfl)).trans (Part.finishEnd_keepsPlaces _ _ _)
  · exact .refl p

theorem Channel.pausePending_onHead (ch : Channel) (f : Descriptor → Descriptor) :
    (ch.onHead f).pausePending = ch.pausePending := by
  unfold Channel.onHead
  split <;> rfl

theorem Part.onBurst_keepsPlaces (c : ChanId) (r : BurstResult) (p : Part) : KeepsPlaces p (Part.onBurst c r p) := by
  have h := p.answered_keepsPlaces c
  have hd (f : Descriptor → Descriptor) := h.trans
    (Part.onChan_keepsPlaces _ c (fun ch => ch.onHead f) (Channel.pausePending_onHead _ f))
  unfold Part.onBurst
  dsimp only
  split
  · split
    · rename_i hp
      exact (hd _).trans (Part.pauseNow_keepsPlaces _ c (by simpa [Channel.pausePending_onHead] using hp))
    · exact (hd _).trans (Part.goOn_keepsPlaces _ _)
  · exact (hd _).trans (Part.endFault_keepsPlaces _ _ _)
  iterate 6 exact h.trans (Part.endDescriptor_keepsPlaces _ _ _)
  all_goals exact .refl p

theorem Part.onWithdrawAll_keepsPlaces (a : AgentId) (p : Part) : KeepsPlaces p (Part.onWithdrawAll a p) := by
  have hset (q : Part) (xs : List AgentId) : KeepsPlaces q (q.setWithdrawing xs) := .of_same
  unfold Part.onWithdrawAll
  dsimp only
  exact ((((((p.onChan_keepsPlaces .c0 _ (by rfl)).trans (Part.onChan_keepsPlaces _ .c1 _ (by rfl))).trans
    (Part.giveBack_keepsPlaces _ _ _)).trans (Part.stopFor_keepsPlaces _ _ _)).trans (Part.stopFor_keepsPlaces _ _ _)).trans
    (hset _ _)).trans (Part.reportIfNone_keepsPlaces _ _)

theorem Part.readData_keepsPlaces (p : Part) (b : CurrentBurst) (w : Word) : KeepsPlaces p (p.readData b w) := by
  unfold Part.readData
  split
  · exact p.setMaster_keepsPlaces _
  · exact p.endBurst_keepsPlaces _ _
  · exact .refl p

theorem Part.writeDone_keepsPlaces (p : Part) (b : CurrentBurst) : KeepsPlaces p (p.writeDone b) := by
  unfold Part.writeDone
  split
  · exact p.endBurst_keepsPlaces _ _
  · exact p.setMaster_keepsPlaces _

/-! ### The ways in which a command is taken -/

theorem Part.lockCommand_keepsPlaces (p : Part) (a : AgentId) (c : Cmd) (m : Moment)
    (body : Vector Word 6 → Part → Part × Answer) (hb : ∀ args p, KeepsPlaces p (body args p).1) :
    KeepsPlaces p (p.lockCommand a c m body) := by
  unfold Part.lockCommand Part.serveAgent
  split
  · exact p.writeFrom_keepsPlaces _ _ _ _
  · split
    · split
      · have h := p.served_keepsPlaces (agentPos a)
        dsimp only
        split
        · exact h.trans (Part.present_keepsPlaces _ _ _)
        · exact (h.trans (hb _ _)).trans (Part.present_keepsPlaces _ _ _)
      · exact .refl p
    · exact .refl p

/-- A command of the supervisor page carried out whole by another block than the lock engine: its write, or its taking. -/
theorem Part.supervised_keepsPlaces (p : Part) (c : Cmd) (m : Moment) (free : Bool)
    (body : Vector Word 6 → Part → Part × Answer) (hb : ∀ args p, KeepsPlaces p (body args p).1) :
    KeepsPlaces p (match m with
      | .write slot high => p.startFrom .supervisor slot high c
      | .take => p.takeSupervisor c free body) := by
  split
  · exact p.writeFrom_keepsPlaces _ _ _ _
  · unfold Part.takeSupervisor
    split
    · split
      · split
        · exact p.present_keepsPlaces _ _
        · exact (hb _ _).trans (Part.present_keepsPlaces _ _ _)
      · exact .refl p
    · exact .refl p

theorem Part.serveChannel_keepsPlaces (p : Part) (c : ChanId) (body : ChanClaim → Option (Part → Part))
    (hb : ∀ cl f p, body cl = some f → KeepsPlaces p (f p)) : KeepsPlaces p (p.serveChannel c body) := by
  unfold Part.serveChannel
  split
  · split
    · rename_i f hf
      split
      · have h : KeepsPlaces p ((p.served (chanPos c)).setClaim c none) := .of_same
        exact h.trans (hb _ _ _ hf)
      · exact .refl p
    · exact .refl p
  · exact .refl p

theorem Part.serveRaised_keepsPlaces (p : Part) (a : AgentId) (c : Cmd) (answer : Vector Word 6 → Part → Stage) :
    KeepsPlaces p (p.serveRaised a c answer) := by
  have h (st : Stage) := (p.served_keepsPlaces (agentPos a)).trans (Part.setStage_keepsPlaces _ (.agent a) st)
  unfold Part.serveRaised
  split
  · split
    · dsimp only
      split <;> exact h _
    · exact .refl p
  · exact .refl p

theorem Part.serveExpiry_keepsPlaces (p : Part) (k : CountKind) (body : LockId → Party → Part → Part)
    (hb : ∀ l x p, KeepsPlaces p (body l x p)) : KeepsPlaces p (p.serveExpiry k body) := by
  unfold Part.serveExpiry
  split
  · rename_i rest _
    split
    · have h : KeepsPlaces p ((p.served expiryPos).setExpiry rest) := .of_same
      exact h.trans (hb _ _ _)
    · exact .refl p
  · exact .refl p

theorem Part.appendExpiry_keepsPlaces (p : Part) (k : CountKind) : KeepsPlaces p (p.appendExpiry k) := by
  unfold Part.appendExpiry
  split
  · split
    · exact .of_same
    · exact .refl p
  · exact .refl p

/-! ### The stages of a CLEAR and of an eviction -/

variable {p : Part}

/-- What a CLEAR has on the lists in each stage. -/
theorem Part.ClearInStep.of_counts {p q : Part} (h : p.ClearInStep)
    (h1 : q.transfer.inbox.count .clearStop + (if p.table.clear = some .stopSent then 1 else 0) =
      p.transfer.inbox.count .clearStop + if q.table.clear = some .stopSent then 1 else 0)
    (h2 : q.table.reports.count .channelsAtRest + (if p.table.clear = some .atRest then 1 else 0) =
      p.table.reports.count .channelsAtRest + if q.table.clear = some .atRest then 1 else 0)
    (h3 : q.table.reports.count .lockTableStep + (if p.table.clear = some .stepDone then 1 else 0) =
      p.table.reports.count .lockTableStep + if q.table.clear = some .stepDone then 1 else 0)
    (h4 : q.transfer.inbox.count .clearTransferStep + (if p.table.clear = some .transferSent then 1 else 0) =
      p.transfer.inbox.count .clearTransferStep + if q.table.clear = some .transferSent then 1 else 0)
    (h5 : q.table.reports.count .transferStep + (if p.table.clear = some .transferDone then 1 else 0) =
      p.table.reports.count .transferStep + if q.table.clear = some .transferDone then 1 else 0) : q.ClearInStep := by
  obtain ⟨k1, k2, k3, k4, k5⟩ := h
  exact ⟨by omega, by omega, by omega, by omega, by omega⟩

/-- A CLEAR that moves on while the notices due and the supervisor's queue stand. -/
theorem Part.SupervisorRoomKept.of_clear {p q : Part} (h : p.SupervisorRoomKept) (hr : RoomLeft p q)
    (hc : q.clearing = p.clearing) (hs : q.ClearInStep) : q.SupervisorRoomKept := by
  have ho := h.owed
  rw [Part.supervisorOwed_eq] at ho
  obtain ⟨h1, h2⟩ := hr _ ho h.room
  exact ⟨by rwa [Part.supervisorOwed_eq, hc], h2, hs⟩

/-- The claim of the supervisor page has been taken: a lock-table step that waited for it is raised (R145). -/
theorem Part.SupervisorRoomKept.raiseDueStep (h : p.SupervisorRoomKept) : p.raiseDueStep.SupervisorRoomKept := by
  unfold Part.raiseDueStep
  split
  · rename_i hp
    have hc := h.clear
    exact h.of_clear .of_same (by simp [Part.clearing, hp])
      (hc.of_counts (by simp [hp]) (by simp [hp]) (by simp [hp]) (by simp [hp]) (by simp [hp]))
  · exact h

/-- The report that the channels have come to rest is made once, at the end of the stage that waits for it (R145). -/
theorem Part.SupervisorRoomKept.reportRest (h : p.SupervisorRoomKept) : p.reportRest.SupervisorRoomKept := by
  unfold Part.reportRest
  split
  · rename_i hp
    obtain ⟨hp, _⟩ := hp
    exact h.of_clear .of_same (by simp [Part.clearing, hp])
      (h.clear.of_counts (by simp [hp]) (by simp [hp]) (by simp [hp]) (by simp [hp]) (by simp [hp]))
  · exact h

theorem Part.raiseHeld_keepsPlaces (p : Part) : KeepsPlaces p p.raiseHeld := by
  unfold Part.raiseHeld
  split
  · split
    iterate 2 exact p.setStage_keepsPlaces _ _
    all_goals exact .refl p
  · exact .refl p

/-- A CLEAR is taken: its place is reserved and the stop is sent (R143). -/
theorem Part.SupervisorRoomKept.takeClear (h : p.SupervisorRoomKept) : p.takeClear.SupervisorRoomKept := by
  unfold Part.takeClear
  split
  · split
    · split
      · exact (p.present_keepsPlaces _ _).roomKept h
      · rename_i hc
        split
        · exact (p.present_keepsPlaces _ _).roomKept h
        · rename_i hr
          rw [Bool.not_eq_true, Bool.not_eq_false', Part.hasRoom_iff] at hr
          have hp : p.table.clear = none := by simpa [Part.clearing] using hc
          generalize hq : Part.toTransfer _ _ = q
          have hn : q.noticesDue = p.noticesDue := by
            rw [← hq]
            exact Part.noticesDue_same (by simp) (by simp) (by simp)
          have hq1 : q.queue .supervisor = Queue.reserve 1 (p.queue .supervisor) := by rw [← hq]; simp
          have hq2 : q.clearing = true := by rw [← hq]; simp
          have ho := h.owed
          rw [Part.supervisorOwed_eq, show p.clearing = false by simpa using hc] at ho
          refine ⟨?_, ?_, h.clear.of_counts ?_ ?_ ?_ ?_ ?_⟩
          · rw [Part.supervisorOwed_eq, hn, hq1, hq2]
            exact Nat.succ_le_succ ho
          · rw [hq1, Queue.reserve_reserved, Queue.reserve_notices]
            omega
          all_goals rw [← hq]; simp [hp]
    · exact h
  · exact h

/-- The stage of a CLEAR, told by what it has on a list. -/
theorem stage_of_count {c : Prop} [Decidable c] {n : Nat} (h : n = if c then 1 else 0) (hn : 0 < n) : c := by
  by_contra hc
  rw [if_neg hc] at h
  omega

/-- The stop of a CLEAR is given to the channels (R143). -/
theorem Part.SupervisorRoomKept.giveClearStop (h : p.SupervisorRoomKept) {rest : List TransferItem}
    (hi : p.transfer.inbox = .clearStop :: rest) : (p.setInbox rest).giveClearStop.SupervisorRoomKept := by
  have hp : p.table.clear = some .stopSent := stage_of_count h.clear.stop (by simp [hi])
  obtain ⟨hroom, hphase, h1, h2, h3, h4, h5⟩ :=
    ((p.setInbox rest).giveStop_keepsPlaces .c0 .cleared).trans (Part.giveStop_keepsPlaces _ .c1 .cleared)
  unfold Part.giveClearStop
  dsimp only
  generalize ((p.setInbox rest).giveStop .c0 .cleared).giveStop .c1 .cleared = q at *
  have hfirst : RoomLeft p (p.setInbox rest) := .of_same
  simp only [Part.inbox_setInbox, Part.setInbox_keeps] at h1 h2 h3 h4 h5
  exact h.of_clear ((hfirst.trans hroom).trans .of_same) (by simp [Part.clearing, hp])
    (h.clear.of_counts (by simp [h1, hp, hi]) (by simp [h3, hp]) (by simp [h4, hp]) (by simp [h2, hp, hi])
      (by simp [h5, hp]))

/-- The channels' rest is reported to the agent table, and the lock-table step is raised or waits (R145). -/
theorem Part.SupervisorRoomKept.raiseLockTableStep (h : p.SupervisorRoomKept) {rest : List Report}
    (hr : p.table.reports = .channelsAtRest :: rest) : (p.setReports rest).raiseLockTableStep.SupervisorRoomKept := by
  have hp : p.table.clear = some .atRest := stage_of_count h.clear.rest (by simp [hr])
  unfold Part.raiseLockTableStep
  refine h.of_clear .of_same (by simp [Part.clearing, hp]) (h.clear.of_counts ?_ ?_ ?_ ?_ ?_) <;>
    split <;> simp [hp, hr]

/-- The lock-table step is carried out and reported (R145). -/
theorem Part.SupervisorRoomKept.clearLockTableStep (h : p.SupervisorRoomKept) (hp : p.table.clear = some .stepPending) :
    ((((allLocks.foldl Part.clearLock (p.served supervisorPos)).setClear (some .stepDone)).toTable
      .lockTableStep).raiseHeld).SupervisorRoomKept := by
  obtain ⟨hroom, hphase, h1, h2, h3, h4, h5⟩ :=
    (p.served_keepsPlaces supervisorPos).trans (KeepsPlaces.foldl _ Part.clearLock_keepsPlaces allLocks _)
  generalize allLocks.foldl Part.clearLock (p.served supervisorPos) = q at *
  refine (Part.raiseHeld_keepsPlaces _).roomKept ?_
  exact h.of_clear (hroom.trans .of_same) (by simp [Part.clearing, hp])
    (h.clear.of_counts (by simp [h1, hp]) (by simp [h3, hp]) (by simp [h4, hp]) (by simp [h2, hp]) (by simp [h5, hp]))

/-- The lock-table step's report is taken, and the transfer step is asked for (R146). -/
theorem Part.SupervisorRoomKept.sendTransferStep (h : p.SupervisorRoomKept) {rest : List Report}
    (hr : p.table.reports = .lockTableStep :: rest) : (p.setReports rest).sendTransferStep.SupervisorRoomKept := by
  have hp : p.table.clear = some .stepDone := stage_of_count h.clear.locks (by simp [hr])
  unfold Part.sendTransferStep
  exact h.of_clear .of_same (by simp [Part.clearing, hp])
    (h.clear.of_counts (by simp [hp]) (by simp [hp, hr]) (by simp [hp, hr]) (by simp [hp]) (by simp [hp, hr]))

/-- CLEAR's transfer step delivers CHANNEL_PAUSED for each pending pause (R146). -/
theorem Part.clearTransfer_supervisor (p : Part) :
    (p.clearTransfer.queue .supervisor).reserved = (p.queue .supervisor).reserved - p.pausesPending ∧
      (p.clearTransfer.queue .supervisor).notices.length = (p.queue .supervisor).notices.length + p.pausesPending := by
  unfold Part.clearTransfer Part.pausesPending
  cases h0 : (p.chan .c0).pausePending <;> cases h1 : (p.chan .c1).pausePending <;> simp [Nat.sub_sub]

theorem Part.clearTransfer_course (p : Part) :
    p.clearTransfer.transfer.inbox = p.transfer.inbox ∧ p.clearTransfer.table.clear = some .transferDone ∧
      p.clearTransfer.table.evictions = p.table.evictions ∧
      p.clearTransfer.table.reports = p.table.reports ++ [.transferStep] ∧ p.clearTransfer.pausesPending = 0 := by
  unfold Part.clearTransfer Part.pausesPending
  cases h0 : (p.chan .c0).pausePending <;> cases h1 : (p.chan .c1).pausePending <;> simp [Channel.cleared]

/-- CLEAR's transfer step (R146). -/
theorem Part.SupervisorRoomKept.clearTransfer (h : p.SupervisorRoomKept) {rest : List TransferItem}
    (hi : p.transfer.inbox = .clearTransferStep :: rest) : (p.setInbox rest).clearTransfer.SupervisorRoomKept := by
  have hp : p.table.clear = some .transferSent := stage_of_count h.clear.transfer (by simp [hi])
  obtain ⟨h1, h2⟩ := (p.setInbox rest).clearTransfer_supervisor
  obtain ⟨h3, h4, h5, h6, h7⟩ := (p.setInbox rest).clearTransfer_course
  have hl : (p.setInbox rest).clearTransfer.closingLocks = p.closingLocks := Part.closingLocks_same (by simp)
  have hpp : (p.setInbox rest).pausesPending = p.pausesPending := by simp [Part.pausesPending]
  rw [hpp] at h1 h2
  simp only [Part.inbox_setInbox, Part.setInbox_keeps] at h1 h2 h3 h5 h6
  generalize (p.setInbox rest).clearTransfer = q at *
  refine h.of_clear (fun k a b => ?_) (by simp [Part.clearing, hp, h4]) (h.clear.of_counts ?_ ?_ ?_ ?_ ?_)
  · unfold Part.noticesDue at *
    rw [h5, h1, h2, h7, hl]
    omega
  all_goals simp [h3, h4, h6, hp, hi]

theorem Part.completeClear_course (p : Part) :
    p.completeClear.transfer = p.transfer ∧ p.completeClear.table.clear = none ∧ p.completeClear.table.evictions = [] ∧
      p.completeClear.table.reports = p.table.reports ∧
      p.completeClear.queue .supervisor =
        { notices := (p.queue .supervisor).notices ++ p.table.evictions.map (fun v => .agentEvicted v.agent) ++ [.clearDone],
          reserved := (p.queue .supervisor).reserved - p.table.evictions.length - 1 } := by
  unfold Part.completeClear
  obtain ⟨_, h2, h3, _, _, h6⟩ := Part.notifySupervisors_keeps (fun v : Eviction => .agentEvicted v.agent)
    p.table.evictions (((p.setAgents (each AgentEntry.cleared p.table.agents)).setQueues
      (each (fun _ => Queue.emptied) p.notices.agents)).setEvictions [])
  simp [h2, h3, h6, Queue.deliver]

/-- The end of a CLEAR delivers AGENT_EVICTED for each eviction in flight, and CLEAR_DONE (R147). -/
theorem Part.SupervisorRoomKept.completeClear (h : p.SupervisorRoomKept) {rest : List Report}
    (hr : p.table.reports = .transferStep :: rest) : (p.setReports rest).completeClear.SupervisorRoomKept := by
  have hp : p.table.clear = some .transferDone := stage_of_count h.clear.agents (by simp [hr])
  obtain ⟨h1, h2, h3, h4, h5⟩ := (p.setReports rest).completeClear_course
  have hl : (p.setReports rest).completeClear.closingLocks = p.closingLocks :=
    Part.closingLocks_same fun l => by rw [Part.completeClear_lock]; simp
  have hpp : (p.setReports rest).completeClear.pausesPending = p.pausesPending := by
    simp [Part.pausesPending, Part.chan, h1]
  have ho := h.owed
  have hroom := h.room
  simp only [Part.setReports_keeps, Part.reports_setReports] at h1 h4 h5
  generalize (p.setReports rest).completeClear = q at *
  have hq : q.clearing = false := by simp [Part.clearing, h2]
  have hc : p.clearing = true := by simp [Part.clearing, hp]
  rw [Part.supervisorOwed_eq, Part.noticesDue, hc, Bool.toNat_true] at ho
  refine ⟨?_, ?_, h.clear.of_counts ?_ ?_ ?_ ?_ ?_⟩
  · rw [Part.supervisorOwed_eq, Part.noticesDue, hq, hl, hpp, h3, h5, List.length_nil, Bool.toNat_false]
    dsimp only
    omega
  · rw [h5]
    simp only [List.length_append, List.length_map, List.length_singleton]
    omega
  all_goals simp [h1, h2, h4, hp, hr]

/-- An agent whose eviction is in flight leaves a shorter list of evictions. -/
theorem Part.evictions_shorter {a : AgentId} {st : EvictionStage} (h : p.evictionStage a = some st) :
    (p.table.evictions.filter fun v => v.agent != a).length < p.table.evictions.length := by
  unfold Part.evictionStage at h
  obtain ⟨v, hv, _⟩ := Option.map_eq_some_iff.1 h
  refine List.length_filter_lt_length_iff_exists.2 ⟨v, List.mem_of_find?_eq_some hv, ?_⟩
  simpa using List.find?_some hv

/-- The end of an eviction delivers AGENT_EVICTED (R35). -/
theorem Part.completeEviction_keepsPlaces (a : AgentId) (p : Part) : KeepsPlaces p (Part.completeEviction a p) := by
  unfold Part.completeEviction
  split
  · rename_i hs
    have hv := Part.evictions_shorter hs.2
    dsimp only
    generalize hq : Part.notifySupervisor _ _ = q
    have h1 : q.table.evictions = p.table.evictions.filter fun v => v.agent != a := by rw [← hq]; simp
    have h2 : q.queue .supervisor = Queue.deliver (.agentEvicted a) 1 (p.queue .supervisor) := by rw [← hq]; simp
    have h3 : q.closingLocks = p.closingLocks := Part.closingLocks_same (by rw [← hq]; simp)
    have h4 : q.pausesPending = p.pausesPending := by rw [← hq]; simp [Part.pausesPending]
    refine ⟨fun k hk hroom => ?_, by rw [← hq]; exact .of_same⟩
    rw [Part.noticesDue, h1, h2, h3, h4, Queue.deliver_reserved, Queue.deliver_notices, List.length_append,
      List.length_singleton]
    unfold Part.noticesDue at hk
    omega
  · exact .refl p

theorem Part.sendWithdrawAll_keepsPlaces (a : AgentId) (p : Part) : KeepsPlaces p (Part.sendWithdrawAll a p) := by
  unfold Part.sendWithdrawAll
  split
  · have h : KeepsPlaces p (p.setEvictions (p.table.evictions.map (Eviction.advanced a))) :=
      ⟨.of_same (h1 := by simp), .of_same⟩
    exact h.trans (Part.toTransfer_keepsPlaces _ _ (by simp) (by simp))
  · exact .refl p

/-! ### Lists taken from, and the supervisor page's claims -/

/-- An item that is not a CLEAR's leaves the transfer engine's list. -/
theorem Part.setInbox_keepsPlaces {i : TransferItem} {rest : List TransferItem} (hi : p.transfer.inbox = i :: rest)
    (h1 : i ≠ .clearStop) (h2 : i ≠ .clearTransferStep) : KeepsPlaces p (p.setInbox rest) :=
  ⟨.of_same, by simp, by simp [hi, h1], by simp [hi, h2], by simp, by simp, by simp⟩

/-- A report that is not a CLEAR's leaves the agent table's list. -/
theorem Part.setReports_keepsPlaces {r : Report} {rest : List Report} (hr : p.table.reports = r :: rest)
    (h1 : r ≠ .channelsAtRest) (h2 : r ≠ .lockTableStep) (h3 : r ≠ .transferStep) : KeepsPlaces p (p.setReports rest) :=
  ⟨.of_same, by simp, by simp, by simp, by simp [hr, h1], by simp [hr, h2], by simp [hr, h3]⟩

theorem Part.SupervisorRoomKept.takeItem (h : p.SupervisorRoomKept) (body : TransferItem → Option (Part → Part))
    (hb : ∀ i rest f, p.transfer.inbox = i :: rest → body i = some f → (f (p.setInbox rest)).SupervisorRoomKept) :
    (p.takeItem body).SupervisorRoomKept := by
  unfold Part.takeItem
  split
  · rename_i i rest hi
    split
    · rename_i f hf
      split
      · exact (hb i rest f hi hf).reportRest
      · exact h
    · exact h
  · exact h

/-- An answer, report or outcome that a channel takes. -/
theorem Part.SupervisorRoomKept.takeEvent (h : p.SupervisorRoomKept) (body : TransferItem → Option (Part → Part))
    (h1 : body .clearStop = none) (h2 : body .clearTransferStep = none)
    (hb : ∀ i f q, body i = some f → KeepsPlaces q (f q)) : (p.takeItem body).SupervisorRoomKept := by
  refine h.takeItem body fun i rest f hi hf => ?_
  exact ((Part.setInbox_keepsPlaces hi (by rintro rfl; simp [h1] at hf) (by rintro rfl; simp [h2] at hf)).trans
    (hb i f _ hf)).roomKept h

theorem Part.SupervisorRoomKept.lockSupervision (h : p.SupervisorRoomKept) (c : Cmd) (m : Moment)
    (body : Vector Word 6 → Part → Part × Answer) (hb : ∀ args p, KeepsPlaces p (body args p).1) :
    (p.lockSupervision c m body).SupervisorRoomKept := by
  have h1 := Part.SupervisorRoomKept.raiseDueStep ((p.served_keepsPlaces supervisorPos).roomKept h)
  unfold Part.lockSupervision Part.serveSupervisor
  split
  · exact (p.writeFrom_keepsPlaces _ _ _ _).roomKept h
  · split
    · split
      · dsimp only
        split
        · exact (Part.present_keepsPlaces _ _ _).roomKept h1
        · exact ((hb _ _).trans (Part.present_keepsPlaces _ _ _)).roomKept h1
      · exact h
    · exact h

/-! ### The moments of the commands in which more than one block has a part -/

theorem Part.takeAttach_keepsPlaces (p : Part) (a : AgentId) : KeepsPlaces p (p.takeAttach a) := by
  unfold Part.takeAttach
  split
  · split
    · exact (p.attachBody_keepsPlaces a).trans (Part.present_keepsPlaces _ _ _)
    · exact .refl p
  · exact .refl p

theorem Part.takeDetach_keepsPlaces (p : Part) (a : AgentId) : KeepsPlaces p (p.takeDetach a) := by
  unfold Part.takeDetach
  split
  · split
    · split
      · exact p.present_keepsPlaces _ _
      · exact (p.setStage_keepsPlaces _ _).trans (Part.setTableServing_keepsPlaces _ _)
    · exact .refl p
  · exact .refl p

theorem Part.proceedDetach_keepsPlaces (p : Part) (a : AgentId) : KeepsPlaces p (p.proceedDetach a) := by
  unfold Part.proceedDetach
  split
  · split
    · split
      · exact (p.present_keepsPlaces _ _).trans (Part.setTableServing_keepsPlaces _ _)
      · split
        · exact p.setStage_keepsPlaces _ _
        · exact .refl p
      · exact ((p.concludeDetach_keepsPlaces a _ _).trans (Part.present_keepsPlaces _ _ _)).trans
          (Part.setTableServing_keepsPlaces _ _)
      all_goals exact .refl p
    · exact .refl p
  · exact .refl p

theorem Part.takePost_keepsPlaces (p : Part) (a : AgentId) : KeepsPlaces p (p.takePost a) := by
  have hp (ans : Answer) := p.present_keepsPlaces (.agent a) ans
  unfold Part.takePost
  split
  · split
    · split
      · exact hp _
      · split
        · exact hp _
        · split
          · exact hp _
          · split
            · exact (p.acceptPost_keepsPlaces a _ _).trans (Part.present_keepsPlaces _ _ _)
            · exact (p.setStage_keepsPlaces _ _).trans (Part.setTransferServing_keepsPlaces _ _)
    · exact .refl p
  · exact .refl p

theorem Part.proceedPost_keepsPlaces (p : Part) (a : AgentId) : KeepsPlaces p (p.proceedPost a) := by
  have hp (ans : Answer) := (p.present_keepsPlaces (.agent a) ans).trans (Part.setTransferServing_keepsPlaces _ none)
  unfold Part.proceedPost
  split
  · split
    · exact hp _
    · split
      · exact hp _
      · split
        · exact hp _
        · exact ((p.acceptPost_keepsPlaces a _ _).trans (Part.present_keepsPlaces _ _ _)).trans
            (Part.setTransferServing_keepsPlaces _ _)
    · exact .refl p
  · exact .refl p

theorem Part.takeWithdraw_keepsPlaces (p : Part) (a : AgentId) : KeepsPlaces p (p.takeWithdraw a) := by
  unfold Part.takeWithdraw
  split
  · split
    · split
      · exact p.present_keepsPlaces _ _
      · exact (p.withdrawBody_keepsPlaces a _).trans (Part.present_keepsPlaces _ _ _)
    · exact .refl p
  · exact .refl p

theorem Part.takeInspectChannel_keepsPlaces (p : Part) : KeepsPlaces p p.takeInspectChannel := by
  unfold Part.takeInspectChannel
  split
  · split
    · split
      · exact p.setStage_keepsPlaces _ _
      · exact p.present_keepsPlaces _ _
    · exact .refl p
  · exact .refl p

theorem Part.proceedInspectChannel_keepsPlaces (p : Part) : KeepsPlaces p p.proceedInspectChannel := by
  unfold Part.proceedInspectChannel
  split
  · split
    · exact p.present_keepsPlaces _ _
    · exact .refl p
  · exact .refl p

theorem Part.takeInspectAgent_keepsPlaces (p : Part) : KeepsPlaces p p.takeInspectAgent := by
  unfold Part.takeInspectAgent
  split
  · split
    · split
      · exact p.present_keepsPlaces _ _
      · exact (p.setStage_keepsPlaces _ _).trans (Part.setTableServing_keepsPlaces _ _)
    · exact .refl p
  · exact .refl p

theorem Part.proceedInspectAgent_keepsPlaces (p : Part) : KeepsPlaces p p.proceedInspectAgent := by
  unfold Part.proceedInspectAgent
  split
  · split
    · split
      · split
        · exact p.setStage_keepsPlaces _ _
        · exact .refl p
      · exact (p.present_keepsPlaces _ _).trans (Part.setTableServing_keepsPlaces _ _)
      all_goals exact .refl p
    · exact .refl p
  · exact .refl p

/-- The record count of INSPECT_AGENT serves the supervisor page's claim (R142). -/
theorem Part.SupervisorRoomKept.countForInspection (h : p.SupervisorRoomKept) :
    p.countForInspection.SupervisorRoomKept := by
  have h1 := Part.SupervisorRoomKept.raiseDueStep ((p.served_keepsPlaces supervisorPos).roomKept h)
  unfold Part.countForInspection
  split
  · split
    · split
      · exact (Part.setStage_keepsPlaces _ _ _).roomKept h1
      · exact h
    · exact h
  · exact h

/-- The purge of the oldest claim (R22, R33). -/
theorem Part.purge_keepsPlaces (p : Part) (a : AgentId) (rest : List AgentId) :
    KeepsPlaces p ((allLocks.foldl (Part.purgeLock a) ((p.served tablePos).setPurges rest)).toTable (.purgeDone a)) := by
  have h : KeepsPlaces p ((p.served tablePos).setPurges rest) := .of_same
  exact (h.trans (KeepsPlaces.foldl _ (Part.purgeLock_keepsPlaces a) allLocks _)).trans
    (Part.toTable_keepsPlaces _ _ (by simp) (by simp) (by simp))

/-- At hardware reset nothing is due (R135, R148). -/
theorem Part.supervisorRoom_reset (straps : Straps) (n : Nat) :
    ({ Part.reset straps with fresh := n } : Part).SupervisorRoomKept := by
  have h : KeepsPlaces (Part.reset straps) { Part.reset straps with fresh := n } :=
    .of_same rfl rfl rfl rfl (fun _ => rfl) (fun _ => rfl) rfl
  exact h.roomKept (invariantsHoldAtReset straps).2.2.2.2

/-! ### Every command -/

/-- The supervisor's half of O60: every command keeps room in the supervisor's queue. -/
theorem exec_keeps_supervisorRoom {i : Instr} {x y : State} (hx : x.part.SupervisorRoomKept) (hy : exec i x = .next y) :
    y.part.SupervisorRoomKept := by
  have hk (g : Part → Part) (hg : (g x.part).SupervisorRoomKept)
      (e : Host.Outcome.next (x.onPart g) = (Host.Outcome.next y : Host.Outcome State Fault Refusal)) :
      y.part.SupervisorRoomKept := by
    simp only [Host.Outcome.next.injEq] at e
    rw [← e]
    exact hg
  have kept (g : Part → Part) (hg : KeepsPlaces x.part (g x.part))
      (e : Host.Outcome.next (x.onPart g) = (Host.Outcome.next y : Host.Outcome State Fault Refusal)) :
      y.part.SupervisorRoomKept := hk g (hg.roomKept hx) e
  have event (body : TransferItem → Option (Part → Part)) (h1 : body .clearStop = none)
      (h2 : body .clearTransferStep = none) (hb : ∀ i f q, body i = some f → KeepsPlaces q (f q))
      (e : Host.Outcome.next (x.onPart fun p => p.takeItem body) =
        (Host.Outcome.next y : Host.Outcome State Fault Refusal)) : y.part.SupervisorRoomKept :=
    hk _ (hx.takeEvent body h1 h2 hb) e
  have writes (g : PageId) (slot : Slot) (r : Reg) (v : Word) := Part.writeFrom_keepsPlaces x.part g slot r v
  have endings (p : Part) (c : ChanId) (r : BurstResult) := p.endBurst_keepsPlaces c r
  cases i with
  | attach a m => exact kept _ (by split; exacts [writes _ _ _ _, Part.takeAttach_keepsPlaces _ _]) hy
  | detach a m =>
    exact kept _ (by
      split
      exacts [writes _ _ _ _, Part.takeDetach_keepsPlaces _ _, Part.proceedDetach_keepsPlaces _ _]) hy
  | acquire a m => exact kept _ (Part.lockCommand_keepsPlaces _ _ _ _ _ (Part.acquireBody_keepsPlaces a)) hy
  | cancelWait a m => exact kept _ (Part.lockCommand_keepsPlaces _ _ _ _ _ (Part.cancelWaitBody_keepsPlaces a)) hy
  | release a m => exact kept _ (Part.lockCommand_keepsPlaces _ _ _ _ _ (Part.releaseBody_keepsPlaces a)) hy
  | renew a m => exact kept _ (Part.lockCommand_keepsPlaces _ _ _ _ _ (Part.renewBody_keepsPlaces a)) hy
  | downgrade a m => exact kept _ (Part.lockCommand_keepsPlaces _ _ _ _ _ (Part.downgradeBody_keepsPlaces a)) hy
  | query a m => exact kept _ (Part.lockCommand_keepsPlaces _ _ _ _ _ Part.queryBody_keepsPlaces) hy
  | post a m =>
    exact kept _ (by
      split
      exacts [writes _ _ _ _, Part.takePost_keepsPlaces _ _, Part.proceedPost_keepsPlaces _ _]) hy
  | withdraw a m => exact kept _ (by split; exacts [writes _ _ _ _, Part.takeWithdraw_keepsPlaces _ _]) hy
  | enableAgent m => exact kept _ (Part.supervised_keepsPlaces _ _ _ _ _ Part.enableBody_keepsPlaces) hy
  | disableAgent m => exact kept _ (Part.supervised_keepsPlaces _ _ _ _ _ Part.disableBody_keepsPlaces) hy
  | evict m =>
    exact kept _ (Part.supervised_keepsPlaces _ _ _ _ _ fun args p => Part.evictBody_keepsPlaces p args) hy
  | configureLock m => exact hk _ (hx.lockSupervision _ _ _ fun args p => Part.configureBody_keepsPlaces p args) hy
  | closeLock m => exact hk _ (hx.lockSupervision _ _ _ fun args p => Part.closeBody_keepsPlaces p args) hy
  | breakLock m => exact hk _ (hx.lockSupervision _ _ _ fun args p => Part.breakBody_keepsPlaces p args) hy
  | pauseChannel m =>
    exact kept _ (Part.supervised_keepsPlaces _ _ _ _ _ fun args p => Part.pauseBody_keepsPlaces p args) hy
  | resumeChannel m =>
    exact kept _ (Part.supervised_keepsPlaces _ _ _ _ _ fun args p => Part.resumeBody_keepsPlaces p args) hy
  | setTimebase m => exact kept _ (Part.supervised_keepsPlaces _ _ _ _ _ Part.setTimebaseBody_keepsPlaces) hy
  | setBusWait m => exact kept _ (Part.supervised_keepsPlaces _ _ _ _ _ Part.setBusWaitBody_keepsPlaces) hy
  | inspectLock m => exact hk _ (hx.lockSupervision _ _ _ Part.inspectLockBody_keepsPlaces) hy
  | inspectRecord m => exact hk _ (hx.lockSupervision _ _ _ Part.inspectRecordBody_keepsPlaces) hy
  | inspectChannel m =>
    exact kept _ (by
      split
      exacts [writes _ _ _ _, Part.takeInspectChannel_keepsPlaces _, Part.proceedInspectChannel_keepsPlaces _]) hy
  | inspectAgent m =>
    exact kept _ (by
      split
      exacts [writes _ _ _ _, Part.takeInspectAgent_keepsPlaces _, Part.proceedInspectAgent_keepsPlaces _]) hy
  | clear m =>
    refine hk _ ?_ hy
    split
    · exact (writes _ _ _ _).roomKept hx
    · exact hx.takeClear
    · refine hx.takeItem _ fun i rest f hi hf => ?_
      cases i <;> simp only [reduceCtorEq, Option.some.injEq] at hf
      subst hf
      exact hx.giveClearStop hi
  | undefinedCommandCode g slot v => exact kept _ (writes _ _ _ _) hy
  | collision g slot v => exact kept _ (writes _ _ _ _) hy
  | pop g slot v => exact kept _ (writes _ _ _ _) hy
  | controlWrite g slot v => exact kept _ (writes _ _ _ _) hy
  | registerWrite acc => exact kept _ (Part.access_keepsPlaces _ _) hy
  | busError acc => exact kept _ (Part.access_keepsPlaces _ _) hy
  | hardwareReset straps =>
    exact hk (fun p => { Part.reset straps with fresh := p.fresh }) (Part.supervisorRoom_reset straps _) hy
  | tickBoundary => exact kept _ (Part.tick_keepsPlaces _) hy
  | leaseRunsOut => exact kept _ (Part.appendExpiry_keepsPlaces _ _) hy
  | waitRunsOut => exact kept _ (Part.appendExpiry_keepsPlaces _ _) hy
  | leaseExpiry => exact kept _ (Part.serveExpiry_keepsPlaces _ _ _ Part.expireLease_keepsPlaces) hy
  | waitExpiry => exact kept _ (Part.serveExpiry_keepsPlaces _ _ _ Part.expireWait_keepsPlaces) hy
  | purge =>
    refine kept _ ?_ hy
    split
    · split
      · exact Part.purge_keepsPlaces _ _ _
      · exact .refl _
    · exact .refl _
  | postLockCheck a => exact kept _ (Part.serveRaised_keepsPlaces _ _ _ _) hy
  | detachRecordCount a => exact kept _ (Part.serveRaised_keepsPlaces _ _ _ _) hy
  | inspectAgentRecordCount => exact hk _ hx.countForInspection hy
  | channelAcquisition c =>
    refine kept _ (Part.serveChannel_keepsPlaces _ _ _ fun cl f p hf => ?_) hy
    cases cl <;> simp only [reduceCtorEq, Option.some.injEq] at hf
    subst hf
    exact Part.acquireFor_keepsPlaces _ _ _ _ _ _ _
  | channelWaiterRemoval c =>
    refine kept _ (Part.serveChannel_keepsPlaces _ _ _ fun cl f p hf => ?_) hy
    cases cl <;> simp only [reduceCtorEq, Option.some.injEq] at hf
    subst hf
    exact Part.removeWaiterFor_keepsPlaces _ _ _
  | channelRelease c =>
    refine kept _ (Part.serveChannel_keepsPlaces _ _ _ fun cl f p hf => ?_) hy
    cases cl <;> simp only [reduceCtorEq, Option.some.injEq] at hf
    subst hf
    exact Part.releaseFor_keepsPlaces _ _ _
  | acquireGuardCheck c =>
    refine kept _ (Part.serveChannel_keepsPlaces _ _ _ fun cl f p hf => ?_) hy
    cases cl <;> simp only [reduceCtorEq, Option.some.injEq] at hf
    subst hf
    exact Part.guardAnswer_keepsPlaces _ _ _
  | fenceGuardCheck c =>
    refine kept _ (Part.serveChannel_keepsPlaces _ _ _ fun cl f p hf => ?_) hy
    cases cl <;> simp only [reduceCtorEq, Option.some.injEq] at hf
    subst hf
    exact Part.guardAnswer_keepsPlaces _ _ _
  | acquisitionAnswer =>
    refine event _ rfl rfl (fun i f q hf => ?_) hy
    cases i <;> simp only [reduceCtorEq, Option.some.injEq] at hf
    subst hf
    exact Part.onAcquisition_keepsPlaces _ _ _
  | channelGrantReport =>
    refine event _ rfl rfl (fun i f q hf => ?_) hy
    cases i <;> simp only [reduceCtorEq, Option.some.injEq] at hf
    subst hf
    exact Part.onGrantReport_keepsPlaces _ _ _
  | channelWaitEndedReport =>
    refine event _ rfl rfl (fun i f q hf => ?_) hy
    cases i <;> simp only [reduceCtorEq, Option.some.injEq] at hf
    subst hf
    exact Part.onWaitEnded_keepsPlaces _ _ _
  | holdingEndedReport =>
    refine event _ rfl rfl (fun i f q hf => ?_) hy
    cases i <;> simp only [reduceCtorEq, Option.some.injEq] at hf
    subst hf
    exact q.onChan_keepsPlaces _ _ (by rfl)
  | waiterRemovalAnswer =>
    refine event _ rfl rfl (fun i f q hf => ?_) hy
    cases i <;> simp only [reduceCtorEq, Option.some.injEq] at hf
    subst hf
    exact Part.onRemoval_keepsPlaces _ _ _
  | guardCheckAnswer =>
    refine event _ rfl rfl (fun i f q hf => ?_) hy
    cases i <;> simp only [reduceCtorEq, Option.some.injEq] at hf
    subst hf
    exact Part.onGuard_keepsPlaces _ _ _
  | releaseAnswer =>
    refine event _ rfl rfl (fun i f q hf => ?_) hy
    cases i <;> simp only [reduceCtorEq, Option.some.injEq] at hf
    subst hf
    exact Part.onRelease_keepsPlaces _ _
  | burstOutcome =>
    refine event _ rfl rfl (fun i f q hf => ?_) hy
    cases i <;> simp only [reduceCtorEq, Option.some.injEq] at hf
    subst hf
    exact Part.onBurst_keepsPlaces _ _ _
  | withdrawAll =>
    refine event _ rfl rfl (fun i f q hf => ?_) hy
    cases i <;> simp only [reduceCtorEq, Option.some.injEq] at hf
    subst hf
    exact Part.onWithdrawAll_keepsPlaces _ _
  | purgeDoneReport =>
    refine hk _ (Preserved.takeReport _ _ (fun r rest f hr hf => ?_) hx) hy
    cases r <;> simp only [reduceCtorEq, Option.some.injEq] at hf
    subst hf
    exact ((Part.setReports_keepsPlaces hr (by simp) (by simp) (by simp)).trans
      (Part.sendWithdrawAll_keepsPlaces _ _)).roomKept hx
  | noDescriptorLeftReport =>
    refine hk _ (Preserved.takeReport _ _ (fun r rest f hr hf => ?_) hx) hy
    cases r <;> simp only [reduceCtorEq, Option.some.injEq] at hf
    subst hf
    exact ((Part.setReports_keepsPlaces hr (by simp) (by simp) (by simp)).trans
      (Part.completeEviction_keepsPlaces _ _)).roomKept hx
  | channelsAtRestReport =>
    refine hk _ (Preserved.takeReport _ _ (fun r rest f hr hf => ?_) hx) hy
    cases r <;> simp only [reduceCtorEq, Option.some.injEq] at hf
    subst hf
    exact hx.raiseLockTableStep hr
  | clearLockTableStep =>
    refine hk _ ?_ hy
    split
    · rename_i hc
      exact hx.clearLockTableStep hc.1
    · exact hx
  | clearTransferStep =>
    refine hk _ (hx.takeItem _ fun i rest f hi hf => ?_) hy
    cases i <;> simp only [reduceCtorEq, Option.some.injEq] at hf
    subst hf
    exact hx.clearTransfer hi
  | clearAgentStep =>
    refine hk _ (Preserved.takeReport _ _ (fun r rest f hr hf => ?_) hx) hy
    cases r <;> simp only [reduceCtorEq, Option.some.injEq] at hf
    subst hf
    exact hx.completeClear hr
  | busGrant g => exact kept _ (Part.setMaster_keepsPlaces _ _) hy
  | busTimeout =>
    refine kept _ ?_ hy
    split
    · split
      · exact endings _ _ _
      · exact .refl _
    · exact .refl _
  | readCycleAnswered answer =>
    refine kept _ ?_ hy
    split
    exacts [Part.readData_keepsPlaces _ _ _, endings _ _ _, .refl _]
  | writeCycleAnswered answer =>
    refine kept _ ?_ hy
    split
    exacts [Part.writeDone_keepsPlaces _ _, endings _ _ _, .refl _]
  | lockTableStepReport =>
    refine hk _ (Preserved.takeReport _ _ (fun r rest f hr hf => ?_) hx) hy
    cases r <;> simp only [reduceCtorEq, Option.some.injEq] at hf
    subst hf
    exact hx.sendTransferStep hr

/-! ### O60 -/

/-- Settles O60: the agents' queues by `exec_keeps_roomKept`, the supervisor's by `exec_keeps_supervisorRoom`. -/
theorem everyCommandKeepsRoom : Obligations.EveryCommandKeepsRoom :=
  fun _ _ _ hy => ⟨fun hx he hc => exec_keeps_roomKept hx hy he hc, fun hx => exec_keeps_supervisorRoom hx hy⟩

end Sys2Proof.Machine
end

section
/-! Proofs: what the window port refuses itself (O5), which accesses it answers with a bus error (O11), and the agent table's
commands (O13 to O16). -/

namespace Sys2Proof.Machine

/-! ### Frames of the agent table's updates -/

theorem Part.setPage_frame (p : Part) (g : PageId) (pg : Page) : Frame p (p.setPage g pg) [.page g] := by
  intro x hx
  cases x <;> simp_all [SameAt]

theorem Part.setAgent_frame (p : Part) (a : AgentId) (e : AgentEntry) : Frame p (p.setAgent a e) [.agent a] := by
  intro x hx
  cases x <;> simp_all [SameAt, pick_put]

theorem Part.freshen_frame (p : Part) : Frame p p.freshen [.fresh] := by
  intro x hx
  cases x <;> simp_all [SameAt]

theorem Part.setPurges_frame (p : Part) (xs : List AgentId) : Frame p (p.setPurges xs) [.purges] := by
  intro x hx
  cases x <;> simp_all [SameAt]

theorem Part.setEvictions_frame (p : Part) (xs : List Eviction) : Frame p (p.setEvictions xs) [.evictions] := by
  intro x hx
  cases x <;> simp_all [SameAt]

/-! ### COMMAND writes that the port refuses (R28, R153) -/

/-- The COMMAND write of a command is a write of its code, with bits 31 to 8 ignored (R153, R158). -/
theorem exec_writeOf {g : PageId} {c : Cmd} {slot : Slot} {high : BitVec 24} {i : Instr} (h : writeOf g c slot high = some i)
    (s : State) : exec i s = .next { s with part := s.part.writeFrom g slot .command (high ++ cmdCode c) } := by
  cases g <;> cases c <;> simp only [writeOf, reduceCtorEq, Option.some.injEq] at h <;> subst h <;> rfl

/-- What a COMMAND write to a page without a command leaves where the port refuses it itself. -/
def Page.refusedAtOnce (pg : Page) (code : BitVec 8) (why : ResultCode) : Page :=
  { pg with command := code, done := true, code := why, result0 := 0, result1 := 0 }

variable {p : Part} {g : PageId} {slot : Slot} {value : Word}

theorem Part.writeFrom_evicting (hs : p.slotPasses g slot = true) (hf : (p.page g).inFlight = none)
    (he : p.portRefuses g = true) :
    p.writeFrom g slot .command value = p.setPage g ((p.page g).refusedAtOnce (value.extractLsb' 0 8) .evicting) := by
  simp [Part.writeFrom, hs, Part.writeRegister, Part.commandWrite, hf, he, Page.present, refuse, Page.refusedAtOnce]

theorem Part.writeFrom_undefined (hs : p.slotPasses g slot = true) (hf : (p.page g).inFlight = none)
    (he : p.portRefuses g = false) (hc : cmdOfCode g (value.extractLsb' 0 8) = none) :
    p.writeFrom g slot .command value = p.setPage g ((p.page g).refusedAtOnce (value.extractLsb' 0 8) .badArgument) := by
  simp [Part.writeFrom, hs, Part.writeRegister, Part.commandWrite, hf, he, hc, Page.present, refuse, Page.refusedAtOnce]

theorem cmdOfCode_none {code : BitVec 8} (h : ∀ c ∈ pageCmds g, cmdCode c ≠ code) : cmdOfCode g code = none :=
  List.find?_eq_none.2 fun c hc => by simpa using h c hc

theorem Part.portRefuses_false (h : ∀ e, p.copyOf g = some e → e.state ≠ .evicting) : p.portRefuses g = false := by
  unfold Part.portRefuses
  split
  · rename_i e he
    simpa using h e he
  · rfl

/-- Settles O5. -/
theorem portRefusesAtOnce : Obligations.PortRefusesAtOnce := by
  refine ⟨fun s a c slot high i hi hs hf he => ?_, fun s g slot value hc hs hf he => ?_⟩
  · have hr : s.part.portRefuses (.agent a) = true := by simp [Part.portRefuses, Part.copyOf, he]
    refine ⟨_, exec_writeOf hi s, ?_⟩
    rw [Part.writeFrom_evicting hs hf hr, BitVec.extractLsb'_append_eq_right]
    exact ⟨by simp [Page.refusedAtOnce], s.part.setPage_frame _ _⟩
  · refine ⟨s.part.writeFrom g slot .command value, rfl, ?_⟩
    rw [Part.writeFrom_undefined hs hf (Part.portRefuses_false he) (cmdOfCode_none hc)]
    exact ⟨by simp [Page.refusedAtOnce], s.part.setPage_frame _ _⟩

/-! ### Bus errors (R150, R151) -/

theorem extractLsb'_two_eq_zero_iff (w : Word) : w.extractLsb' 0 2 = 0 ↔ w.toNat % 4 = 0 := by
  rw [← BitVec.toNat_inj]
  simp [BitVec.extractLsb'_toNat]

/-- The port's judgement of an access within the window (R150). -/
theorem Part.judge_busError_iff {acc : Access} (hb : acc.address.extractLsb' 10 22 = p.straps.base) :
    p.judge acc = .busError ↔ acc.address.toNat % 4 ≠ 0 ∨ acc.lanes ≠ 15 ∨
      ∃ g, pageAt (acc.address.extractLsb' 6 4) = some g ∧ p.slotPasses g acc.slot = false := by
  unfold Part.judge
  rw [if_neg (by simp [hb])]
  simp only [ne_eq, extractLsb'_two_eq_zero_iff]
  split
  · rename_i h
    simpa using h.imp_right .inl
  · rename_i h
    obtain ⟨ha, hl⟩ := not_or.1 h
    have ha : acc.address.toNat % 4 = 0 := not_not.1 ha
    have hl : acc.lanes = 15 := not_not.1 hl
    cases hg : pageAt (acc.address.extractLsb' 6 4) with
    | none => simp [ha, hl]
    | some g => cases hs : p.slotPasses g acc.slot <;> simp [ha, hl, hs]

theorem Part.access_busError {acc : Access} (h : p.judge acc = .busError) : p.access acc = p := by
  simp [Part.access, h]

/-- Settles O11. -/
theorem busErrorChangesNothing : Obligations.BusErrorChangesNothing := by
  refine ⟨fun s acc hb => ⟨Part.judge_busError_iff hb, fun h => ⟨?_, by simp [Part.windowRead, h]⟩⟩,
    fun p slot => ⟨by simp [Part.slotPasses], fun a => by simp [Part.slotPasses]⟩⟩
  have hexec : exec (.busError acc) s = .next { s with part := s.part.access acc } := rfl
  rw [hexec, Part.access_busError h]

/-! ### ATTACH (R29) -/

theorem Part.takeAttach_of {a : AgentId} {args : Vector Word 6} (hw : p.waits (.agent a) .attach args)
    (hf : p.tableFree = true) : p.takeAttach a = (p.attachBody a).1.present (.agent a) (p.attachBody a).2 := by
  simp [Part.takeAttach, Part.writtenArgs_of hw, hf]

/-- ATTACH by the agent's state, while no CLEAR is in flight (R28, R29). -/
theorem Part.attachBody_of (a : AgentId) (hc : p.clearing = false) :
    p.attachBody a = match (p.agent a).state with
      | .disabled => (p, refuse .notEnabled)
      | .attached => (p, refuse .wrongState)
      | .evicting => (p, refuse .evicting)
      | .detached => (p.setAgent a { p.agent a with state := .attached, evicted := false }, accept 0 0) := by
  cases hs : (p.agent a).state <;> simp [Part.attachBody, Part.agentBar, hs, hc]

/-- Settles O13. -/
theorem attachMakesAttached : Obligations.AttachMakesAttached := by
  intro s a args hw hf hc
  have hexec : exec (.attach a .take) s = .next { s with part := s.part.takeAttach a } := rfl
  rw [Part.takeAttach_of hw hf, Part.attachBody_of a hc] at hexec
  refine ⟨_, hexec, fun hs => ?_, fun hs => ?_, fun hs => ?_, fun hs => ?_⟩ <;> simp only [hs]
  · refine ⟨by simp, by simp, s.part.present_answered _ _ (accept 0 0) (by simp), ?_⟩
    exact ((s.part.setAgent_frame a _).present (.agent a) _).weaken (by simp)
  · exact s.part.present_alone _ (refuse .notEnabled)
  · exact s.part.present_alone _ (refuse .wrongState)
  · exact s.part.present_alone _ (refuse .evicting)

/-! ### DETACH (R30) -/

theorem Part.detachBar_of_serves {a : AgentId} (h : p.serves a) : p.detachBar a = none := by
  obtain ⟨h1, h2⟩ := h
  simp [Part.detachBar, Part.agentBar, h1, h2]

theorem Part.agentBar_of_serves {a : AgentId} (h : p.serves a) : p.agentBar a = none := by
  obtain ⟨h1, h2⟩ := h
  simp [Part.agentBar, h1, h2]

theorem Part.takeDetach_of {a : AgentId} {args : Vector Word 6} (hw : p.waits (.agent a) .detach args)
    (hf : p.tableFree = true) (hs : p.serves a) :
    p.takeDetach a = (p.setStage (.agent a) .claimed).setTableServing (some (.agent a)) := by
  simp [Part.takeDetach, Part.writtenArgs_of hw, hf, Part.detachBar_of_serves hs]

/-- The lock engine answers a claim raised for an agent page's command that R19 does not refuse. -/
theorem Part.serveRaised_of {a : AgentId} {c : Cmd} {args : Vector Word 6} (answer : Vector Word 6 → Part → Stage)
    (hc : p.claims (.agent a) c args) (hm : p.mayServe (agentPos a) = true) (hs : p.serves a) :
    p.serveRaised a c answer =
      (p.served (agentPos a)).setStage (.agent a) (answer args (p.served (agentPos a))) := by
  unfold Part.claims at hc
  simp [Part.serveRaised, hc, hm, Part.agentBar_of_serves hs]

theorem Part.proceedDetach_counted {a : AgentId} {args : Vector Word 6} {n : Nat}
    (h : (p.page (.agent a)).inFlight = some { cmd := .detach, args, stage := .counted n }) (hf : p.transferFree = true) :
    p.proceedDetach a = p.setStage (.agent a) (.countedBoth n (p.descriptorCount a)) := by
  simp [Part.proceedDetach, h, hf]

theorem Part.proceedDetach_countedBoth {a : AgentId} {args : Vector Word 6} {n d : Nat}
    (h : (p.page (.agent a)).inFlight = some { cmd := .detach, args, stage := .countedBoth n d }) :
    p.proceedDetach a =
      ((p.concludeDetach a n d).1.present (.agent a) (p.concludeDetach a n d).2).setTableServing none := by
  simp [Part.proceedDetach, h]

/-- The end of a DETACH with both counts and both notice counts 0. -/
theorem Part.concludeDetach_free {a : AgentId} (hr : (p.queue (.agent a)).reserved = 0)
    (hn : (p.queue (.agent a)).notices = []) :
    p.concludeDetach a 0 0 = ((p.setAgent a { p.agent a with state := .detached }).freshen,
      accept (Config.detachResult0 p.fresh) (Config.detachResult1 p.fresh)) := by
  simp [Part.concludeDetach, hr, hn]

theorem Part.concludeDetach_inUse {a : AgentId} {n d : Nat}
    (h : ¬(n = 0 ∧ d = 0 ∧ (p.queue (.agent a)).reserved = 0 ∧ (p.queue (.agent a)).notices = [])) :
    p.concludeDetach a n d = (p, { code := .inUse, result0 := wordOf n, result1 := wordOf d }) := by
  rw [← List.length_eq_zero_iff] at h
  simp only [Part.concludeDetach, if_neg h]

/-- A result presented before the agent table becomes free. -/
theorem Part.present_notServing (p q : Part) (g : PageId) (ans : Answer) {xs : List Piece} (hg : q.page g = p.page g)
    (hf : Frame p q xs) :
    ((q.present g ans).setTableServing none).table.serving = none ∧
      Answered p ((q.present g ans).setTableServing none) g ans.code ans.result0 ans.result1 ∧
      Frame p ((q.present g ans).setTableServing none) (.page g :: xs ++ [.tableServing]) :=
  ⟨rfl, by simpa [Answered] using p.present_answered q g ans hg,
    (hf.present g ans).append (Part.setTableServing_frame _ none)⟩

/-- Settles O14. -/
theorem detachCountsAndDetaches : Obligations.DetachCountsAndDetaches := by
  intro s a args
  refine ⟨fun hw hf hs => ?_, fun hc hm hs => ?_, fun n h hf => ?_, fun n d h => ?_⟩
  · have hexec : exec (.detach a .take) s = .next { s with part := s.part.takeDetach a } := rfl
    rw [Part.takeDetach_of hw hf hs] at hexec
    unfold Part.waits at hw
    exact ⟨_, hexec, by simp [Part.claims, hw], rfl,
      (s.part.setStage_frame (.agent a) .claimed).append (Part.setTableServing_frame _ _)⟩
  · have hexec : exec (.detachRecordCount a) s =
        .next { s with part := s.part.serveRaised a .detach fun _ q => .counted (q.agentRecordCount a) } := rfl
    have hcount : (s.part.served (agentPos a)).agentRecordCount a = s.part.agentRecordCount a := by
      simp [Part.agentRecordCount, Part.recordsInUse]
    rw [Part.serveRaised_of _ hc hm hs, hcount] at hexec
    unfold Part.claims at hc
    exact ⟨_, hexec, by simp [hc], by simp,
      ((s.part.served_frame (agentPos a)).append (Part.setStage_frame _ (.agent a) _)).weaken (by simp)⟩
  · have hexec : exec (.detach a .proceed) s = .next { s with part := s.part.proceedDetach a } := rfl
    rw [Part.proceedDetach_counted h hf] at hexec
    exact ⟨_, hexec, by simp [h], s.part.setStage_frame _ _⟩
  · have hexec : exec (.detach a .proceed) s = .next { s with part := s.part.proceedDetach a } := rfl
    rw [Part.proceedDetach_countedBoth h] at hexec
    refine ⟨_, hexec, rfl, fun hn hd hr hq => ?_, fun hu => ?_⟩
    · subst hn hd
      rw [Part.concludeDetach_free hr hq]
      obtain ⟨_, h2, h3⟩ := s.part.present_notServing _ (.agent a)
        (accept (Config.detachResult0 s.part.fresh) (Config.detachResult1 s.part.fresh)) (by simp)
        ((s.part.setAgent_frame a { s.part.agent a with state := .detached }).append (Part.freshen_frame _))
      exact ⟨by simp, by simp, ⟨_, _, h2⟩, h3.weaken (by simp)⟩
    · rw [Part.concludeDetach_inUse hu]
      obtain ⟨_, h2, h3⟩ := s.part.present_notServing s.part (.agent a)
        { code := .inUse, result0 := wordOf n, result1 := wordOf d } rfl (Frame.refl _ [])
      exact ⟨h2, h3⟩

/-! ### ENABLE_AGENT, DISABLE_AGENT, EVICT (R26, R27, R31) -/

theorem enableBody_of {args : Vector Word 6} {a : AgentId} (h0 : (pick args 0).toNat = a.val)
    (h1 : (pick args 1).toNat = slot.toNat) (hs : (p.agent a).state = .disabled) :
    Part.enableBody args p = (p.setAgent a { p.agent a with state := .detached, slot := some slot }, accept 0 0) := by
  have h2 : wholeIndex 16 (pick args 1) = some ⟨slot.toNat, slot.isLt⟩ := wholeIndex_of _ _ h1
  simp [Part.enableBody, wholeIndex_of _ _ h0, h2, hs]

/-- The agent disabled, and the indications of its page cleared (R27). -/
def Part.disabled (p : Part) (a : AgentId) : Part :=
  (p.setAgent a { p.agent a with state := .disabled, slot := none }).setPage (.agent a) (p.page (.agent a)).quieted

theorem disableBody_of {args : Vector Word 6} {a : AgentId} (h0 : (pick args 0).toNat = a.val)
    (hs : (p.agent a).state = .detached) : Part.disableBody args p = (p.disabled a, accept 0 0) := by
  simp [Part.disableBody, wholeIndex_of _ _ h0, hs, Part.disabled]

theorem Part.disabled_frame (p : Part) (a : AgentId) : Frame p (p.disabled a) [.agent a, .page (.agent a)] :=
  (p.setAgent_frame a _).append (Part.setPage_frame _ _ _)

/-- A page with its enables clear has its line deasserted (R95). -/
theorem lineLevel_quieted (pg : Page) (x : Queue) : lineLevel pg.quieted x = false := by
  simp [lineLevel, Page.quieted]

/-- Settles O15. -/
theorem enableAndDisableAgent : Obligations.EnableAndDisableAgent := by
  refine ⟨fun s a slot args hw hf hc h0 h1 hs => ?_, fun s a args hw hf hc h0 hs => ?_⟩
  · have hexec : exec (.enableAgent .take) s =
        .next { s with part := s.part.takeSupervisor .enableAgent s.part.tableFree Part.enableBody } := rfl
    rw [Part.takeSupervisor_of _ _ hw hf hc, enableBody_of h0 h1 hs] at hexec
    exact ⟨_, hexec, by simp, by simp, s.part.present_answered _ _ (accept 0 0) (by simp),
      ((s.part.setAgent_frame a _).present .supervisor _).weaken (by simp)⟩
  · have hexec : exec (.disableAgent .take) s =
        .next { s with part := s.part.takeSupervisor .disableAgent s.part.tableFree Part.disableBody } := rfl
    rw [Part.takeSupervisor_of _ _ hw hf hc, disableBody_of h0 hs] at hexec
    refine ⟨_, hexec, by simp [Part.disabled], by simp [Part.disabled], by simp [Part.disabled, Page.quieted],
      by simp [Part.line, Part.disabled, lineLevel_quieted], ?_, ?_⟩
    · exact s.part.present_answered _ _ (accept 0 0) (by simp [Part.disabled])
    · exact ((s.part.disabled_frame a).present .supervisor _).weaken (by simp)

/-- The first stage of an agent's eviction (R31). -/
def Part.evictionBegun (p : Part) (a : AgentId) : Part :=
  (((p.reserve .supervisor 1).setAgent a { p.agent a with state := .evicting }).setPurges
    (p.table.purges ++ [a])).setEvictions (p.table.evictions ++ [{ agent := a, stage := .purge }])

theorem evictBody_of {args : Vector Word 6} {a : AgentId} (h0 : (pick args 0).toNat = a.val)
    (hs : (p.agent a).state = .attached) (hr : p.hasRoom .supervisor 1 = true) :
    Part.evictBody args p = (p.evictionBegun a, accept 0 0) := by
  simp [Part.evictBody, wholeIndex_of _ _ h0, hs, hr, Part.evictionBegun]

theorem Part.evictionBegun_frame (p : Part) (a : AgentId) :
    Frame p (p.evictionBegun a) [.queue .supervisor, .agent a, .purges, .evictions] :=
  (((p.reserve_frame .supervisor 1).append (Part.setAgent_frame _ a _)).append (Part.setPurges_frame _ _)).append
    (Part.setEvictions_frame _ _)

/-- Settles O16. -/
theorem evictBeginsEviction : Obligations.EvictBeginsEviction := by
  intro s a args hw hf hc h0 hs hr
  have hexec : exec (.evict .take) s =
      .next { s with part := s.part.takeSupervisor .evict s.part.tableFree Part.evictBody } := rfl
  rw [Part.takeSupervisor_of _ _ hw hf hc, evictBody_of h0 hs ((Part.hasRoom_iff _ _ _).2 hr)] at hexec
  refine ⟨_, hexec, by simp [Part.evictionBegun], by simp [Part.evictionBegun], by simp [Part.evictionBegun],
    by simp [Part.evictionBegun], by simp [Part.evictionBegun, Queue.reserve], ?_, ?_⟩
  · exact s.part.present_answered _ _ (accept 0 0) (by simp [Part.evictionBegun])
  · exact ((s.part.evictionBegun_frame a).present .supervisor _).weaken (by simp)

end Sys2Proof.Machine
end

section
/-! Proofs: the end of a descriptor (O51). -/

namespace Sys2Proof.Machine

/-! ### Frames of the steps of an end (R113, R114) -/

theorem Part.notify_frame (p : Part) (a : AgentId) (n : Notice) (k : Nat) : Frame p (p.notify a n k) [.queue (.agent a)] := by
  intro x hx
  cases x <;> simp_all [SameAt]

theorem Part.setWithdrawing_frame (p : Part) (as : List AgentId) : Frame p (p.setWithdrawing as) [.withdrawing] := by
  intro x hx
  cases x <;> simp_all [SameAt]

/-! ### The report that no descriptor is left (R34) -/

theorem Part.reportIfNone_of {p : Part} {a : AgentId} (hw : a ∈ p.transfer.withdrawing) (hn : p.descriptorCount a = 0) :
    p.reportIfNone a = (p.setWithdrawing (p.transfer.withdrawing.erase a)).toTable (.noDescriptorLeft a) :=
  if_pos ⟨hw, hn⟩

theorem Part.reportIfNone_of_not {p : Part} {a : AgentId}
    (h : ¬(a ∈ p.transfer.withdrawing ∧ p.descriptorCount a = 0)) : p.reportIfNone a = p :=
  if_neg h

theorem Part.reportIfNone_frame (p : Part) (a : AgentId) : Frame p (p.reportIfNone a) [.withdrawing, .reports] := by
  by_cases h : a ∈ p.transfer.withdrawing ∧ p.descriptorCount a = 0
  · rw [Part.reportIfNone_of h.1 h.2]
    exact (p.setWithdrawing_frame _).append (Part.toTable_frame _ _)
  · rw [Part.reportIfNone_of_not h]
    exact .refl p _

/-! ### Step 4 of an end (R113, R120, R123) -/

theorem Part.afterEnd_paused {p : Part} {c : ChanId} (h : (p.chan c).state = .paused) : p.afterEnd c = p :=
  if_pos h

theorem Part.afterEnd_clearing {p : Part} {c : ChanId} (h : (p.chan c).state ≠ .paused) (hc : p.clearing = true) :
    p.afterEnd c = p.onChan c fun ch => { ch with state := .idle } := by
  simp [Part.afterEnd, h, hc]

theorem Part.afterEnd_pausing {p : Part} {c : ChanId} (h : (p.chan c).state ≠ .paused) (hc : p.clearing = false)
    (hp : (p.chan c).pausePending = true) :
    p.afterEnd c = (p.onChan c fun ch => { ch with state := .idle }).pauseNow c := by
  simp [Part.afterEnd, h, hc, hp]

theorem Part.afterEnd_goingOn {p : Part} {c : ChanId} (h : (p.chan c).state ≠ .paused) (hc : p.clearing = false)
    (hp : (p.chan c).pausePending = false) :
    p.afterEnd c = (p.onChan c fun ch => { ch with state := .idle }).takeHead c := by
  simp [Part.afterEnd, h, hc, hp]

/-- Step 4 concerns no agent's queue. -/
theorem Part.queue_afterEnd_agent (p : Part) (c : ChanId) (b : AgentId) :
    (p.afterEnd c).queue (.agent b) = p.queue (.agent b) := by
  unfold Part.afterEnd
  dsimp only
  split
  · rfl
  · split
    · simp
    · split
      · simp
      · simp [Part.queue]

theorem TookHead.of_same {p p' q : Part} {c : ChanId} {ch : Channel} {d : Descriptor} {rest : List Descriptor}
    (h : TookHead p' q c ch d rest) (hm : p'.master = p.master)
    (hc : p'.engine.claims.get c = p.engine.claims.get c) : TookHead p q c ch d rest := by
  unfold TookHead at h ⊢
  rwa [hm, hc] at h

/-- An IDLE channel that may take its head does (R106). -/
theorem Part.takeHead_took {p : Part} {c : ChanId} {d : Descriptor} {rest : List Descriptor}
    (hl : (p.chan c).list = d :: rest) (hm : p.mayTakeHead c = true) :
    TookHead p (p.takeHead c) c (p.chan c) d rest ∧ Frame p (p.takeHead c) [.chan c, .claim c, .master] := by
  have ht : p.takeHead c = (p.onChan c fun ch =>
      { ch.onHead (fun d => { d with started := true }) with stop := none, loss := none }).beginHead c
        { d with started := true } := by
    simp only [Part.takeHead, hl, hm, if_true]
  rw [ht]
  obtain ⟨h1, h2⟩ := Part.beginHead_took (p.onChan c fun ch =>
    { ch.onHead (fun d => { d with started := true }) with stop := none, loss := none }) c d rest (p.chan c)
    (by simp [Channel.onHead, hl])
  exact ⟨h1.of_same (by simp) (by simp), ((p.onChan_frame c _).append h2).weaken (by simp)⟩

theorem Part.takeHead_nil {p : Part} {c : ChanId} (hl : (p.chan c).list = []) : p.takeHead c = p := by
  simp [Part.takeHead, hl]

/-! ### Steps 2 and 3 of an end (R113) -/

/-- The record of a channel whose head has left its list, with `rest` behind it (R113). -/
def Channel.freed (ch : Channel) (rest : List Descriptor) : Channel :=
  { ch with list := rest, stop := none, loss := none, currentLock := none, holding := none, inFlight := .nothing,
            ending := none }

/-- The notice of head `d` delivered, and `d` freed, with `rest` behind it (R113, R114). -/
def Part.headFreed (p : Part) (c : ChanId) (o : EndOutcome) (d : Descriptor) (rest : List Descriptor) : Part :=
  (p.notify d.owner (d.endNotice c o) 1).onChan c fun ch => ch.freed rest

/-- Steps 2 and 3: the head freed, and the report made where it was the last of an evicted owner (R34, R113). -/
def Part.headEnded (p : Part) (c : ChanId) (o : EndOutcome) (d : Descriptor) (rest : List Descriptor) : Part :=
  (p.headFreed c o d rest).reportIfNone d.owner

section
variable {p : Part} {c : ChanId} {o : EndOutcome} {d : Descriptor} {ds : List Descriptor}

theorem Part.finishEnd_of (hl : (p.chan c).list = d :: ds) : p.finishEnd c o = (p.headEnded c o d ds).afterEnd c := by
  simp only [Part.finishEnd, hl]
  rfl

theorem Part.headEnded_chan : (p.headEnded c o d ds).chan c = (p.chan c).freed ds := by
  simp [Part.headEnded, Part.headFreed]

theorem Part.headEnded_clearing : (p.headEnded c o d ds).clearing = p.clearing := by
  simp [Part.headEnded, Part.headFreed]

theorem Part.headEnded_queue :
    (p.headEnded c o d ds).queue (.agent d.owner) = p.queueAfter d.owner [d.endNotice c o] 1 := by
  have h := p.queue_notify_agent d.owner (d.endNotice c o) 1 d.owner
  rw [if_pos rfl, placesOf, if_pos rfl] at h
  simp only [Part.headEnded, Part.headFreed, Part.reportIfNone_keeps, Part.onChan_keeps, h]

theorem Part.headEnded_frame :
    Frame p (p.headEnded c o d ds) [.queue (.agent d.owner), .chan c, .withdrawing, .reports] :=
  ((p.notify_frame d.owner _ _).append (Part.onChan_frame _ c _)).append (Part.reportIfNone_frame _ _)

/-- The owner has no descriptor left exactly where the freed one was its last. -/
theorem Part.headFreed_count (hl : (p.chan c).list = d :: ds) :
    (p.headFreed c o d ds).descriptorCount d.owner = 0 ↔ p.descriptorCount d.owner = 1 := by
  have h := Part.descriptorCount_onChan (p.notify d.owner (d.endNotice c o) 1) c (fun ch => ch.freed ds) d ds d.owner
    (by simpa using hl) rfl
  have hn : (p.notify d.owner (d.endNotice c o) 1).descriptorCount d.owner = p.descriptorCount d.owner := by
    simp [Part.descriptorCount]
  rw [hn, if_pos rfl] at h
  unfold Part.headFreed
  omega

theorem Part.headFreed_withdrawing : (p.headFreed c o d ds).transfer.withdrawing = p.transfer.withdrawing := by
  simp [Part.headFreed]

theorem Part.headEnded_last (hl : (p.chan c).list = d :: ds) (hw : d.owner ∈ p.transfer.withdrawing)
    (hn : p.descriptorCount d.owner = 1) :
    (p.headEnded c o d ds).table.reports = p.table.reports ++ [.noDescriptorLeft d.owner] ∧
      (p.headEnded c o d ds).transfer.withdrawing = p.transfer.withdrawing.erase d.owner := by
  unfold Part.headEnded
  rw [Part.reportIfNone_of (by rwa [Part.headFreed_withdrawing]) ((Part.headFreed_count hl).2 hn)]
  simp [Part.headFreed]

theorem Part.headEnded_notLast (hl : (p.chan c).list = d :: ds)
    (h : ¬(d.owner ∈ p.transfer.withdrawing ∧ p.descriptorCount d.owner = 1)) :
    (p.headEnded c o d ds).table.reports = p.table.reports ∧
      (p.headEnded c o d ds).transfer.withdrawing = p.transfer.withdrawing := by
  unfold Part.headEnded
  rw [Part.reportIfNone_of_not (by rwa [Part.headFreed_withdrawing, Part.headFreed_count hl])]
  simp [Part.headFreed]

/-- Where no descriptor is behind the one that ended, the channel becomes IDLE (R106, R113). -/
theorem Part.afterEnd_nil (h : (p.chan c).state ≠ .paused) (hc : p.clearing = false)
    (hp : (p.chan c).pausePending = false) (hl : (p.chan c).list = []) :
    p.afterEnd c = p.onChan c fun ch => { ch with state := .idle } := by
  rw [Part.afterEnd_goingOn h hc hp, Part.takeHead_nil (by simpa using hl)]

/-- Where one is behind it, the channel takes it (R106, R113). -/
theorem Part.afterEnd_took (h : (p.chan c).state ≠ .paused) (hc : p.clearing = false)
    (hp : (p.chan c).pausePending = false) (hl : (p.chan c).list = d :: ds) :
    TookHead p (p.afterEnd c) c { p.chan c with state := .idle } d ds ∧
      Frame p (p.afterEnd c) [.chan c, .claim c, .master] := by
  rw [Part.afterEnd_goingOn h hc hp]
  obtain ⟨h1, h2⟩ := Part.takeHead_took (p := p.onChan c fun ch => { ch with state := .idle }) (c := c) (d := d) (rest := ds)
    (by simpa using hl) (by simp [Part.mayTakeHead, hp, hc])
  rw [Part.chan_onChan, if_pos rfl] at h1
  exact ⟨h1.of_same (by simp) (by simp), ((p.onChan_frame c _).append h2).weaken (by simp)⟩

/-- A pending pause takes effect (R113, R120). -/
theorem Part.afterEnd_pausedNow (h : (p.chan c).state ≠ .paused) (hc : p.clearing = false)
    (hp : (p.chan c).pausePending = true) :
    (p.afterEnd c).chan c = { p.chan c with state := .paused, pausePending := false, inFlight := .nothing } ∧
      (p.afterEnd c).queue .supervisor = { notices := (p.queue .supervisor).notices ++ [.channelPaused c],
                                           reserved := (p.queue .supervisor).reserved - 1 } ∧
      Frame p (p.afterEnd c) [.chan c, .queue .supervisor] := by
  rw [Part.afterEnd_pausing h hc hp]
  obtain ⟨h1, h2, h3⟩ := Part.pauseNow_paused (p.onChan c fun ch => { ch with state := .idle }) c
  exact ⟨by simp, by simpa using h2, ((p.onChan_frame c _).append h3).weaken (by simp)⟩

end

/-- A command that takes the oldest item of the transfer engine's list, where it knows the item and the engine is free. -/
theorem exec_takesItem {i : Instr} {s : State} {x : TransferItem} {rest : List TransferItem} {f : Part → Part}
    {body : TransferItem → Option (Part → Part)} (hx : exec i s = .next (s.onPart fun p => p.takeItem body))
    (ht : s.part.takes x rest) (hb : body x = some f) :
    exec i s = .next { s with part := (f (s.part.setInbox rest)).reportRest } := by
  obtain ⟨h1, h2⟩ := ht
  rw [hx, State.onPart, Part.takeItem_of body h1 hb h2]

theorem Part.onRelease_of {p : Part} {c : ChanId} {o : EndOutcome} (ho : (p.chan c).ending = some o)
    (rest : List TransferItem) :
    Part.onRelease c (p.setInbox rest) =
      (p.taken rest c fun ch => { ch with holding := none, inFlight := .nothing, ending := none }).finishEnd c o := by
  simp [Part.onRelease, Part.taken, ho]

theorem Descriptor.endNotice_done (d : Descriptor) (c : ChanId) :
    d.endNotice c .done =
      .transferDone d.tag c d.moved (match d.op with | .readWord _ v => v | _ => none) := by
  unfold Descriptor.endNotice
  cases d.op <;> rfl

/-- Settles O51. -/
theorem descriptorEnds : Obligations.DescriptorEnds := by
  refine ⟨fun s c rest held o ht ho => ?_, fun d c => ⟨d.endNotice_done c, fun r => rfl⟩,
    fun p c o d ds hl => ?_⟩
  · rw [exec_takesItem (i := .releaseAnswer) rfl ht rfl, Part.onRelease_of ho]
  dsimp only
  rw [Part.finishEnd_of hl]
  have hch : (p.headEnded c o d ds).chan c = (p.chan c).freed ds := Part.headEnded_chan
  have hcl : (p.headEnded c o d ds).clearing = p.clearing := Part.headEnded_clearing
  have hfr : Frame p (p.headEnded c o d ds) [.queue (.agent d.owner), .chan c, .withdrawing, .reports] :=
    Part.headEnded_frame
  have hs : ((p.headEnded c o d ds).chan c).state = (p.chan c).state := by rw [hch]; rfl
  have hpp : ((p.headEnded c o d ds).chan c).pausePending = (p.chan c).pausePending := by rw [hch]; rfl
  have hli : ((p.headEnded c o d ds).chan c).list = ds := by rw [hch]; rfl
  have hidle : ((p.headEnded c o d ds).onChan c fun ch => { ch with state := .idle }).chan c =
        { (p.chan c).freed ds with state := .idle } ∧
      Frame p ((p.headEnded c o d ds).onChan c fun ch => { ch with state := .idle })
        [.queue (.agent d.owner), .chan c, .reports, .withdrawing] :=
    ⟨by simp [hch], (hfr.append (Part.onChan_frame _ c _)).weaken (by simp)⟩
  refine ⟨?_, fun hw hn => ?_, fun h => ?_, fun h => ?_, fun h hc => ?_, fun h hc => ⟨fun hp => ?_, fun hp hd => ?_, ?_⟩⟩
  · rw [Part.queue_afterEnd_agent, Part.headEnded_queue]
  · simpa using Part.headEnded_last hl hw hn
  · simpa using Part.headEnded_notLast hl h
  · rw [Part.afterEnd_paused (by rw [hs, h])]
    exact ⟨hch, hfr.weaken (by simp)⟩
  · rw [Part.afterEnd_clearing (by rwa [hs]) (by rw [hcl, hc])]
    exact hidle
  · obtain ⟨h1, h2, h3⟩ := Part.afterEnd_pausedNow (p := p.headEnded c o d ds) (c := c) (by rwa [hs]) (by rw [hcl, hc])
      (by rw [hpp, hp])
    have hq : (p.headEnded c o d ds).queue .supervisor = p.queue .supervisor := hfr (.queue .supervisor) (by simp)
    exact ⟨by rw [h1, hch]; rfl, by rw [h2, hq], (hfr.append h3).weaken (by simp)⟩
  · rw [Part.afterEnd_nil (by rwa [hs]) (by rw [hcl, hc]) (by rw [hpp, hp]) (by rw [hli, hd])]
    exact hidle
  · intro d2 ds2 hp hd
    obtain ⟨h1, h2⟩ := Part.afterEnd_took (p := p.headEnded c o d ds) (c := c) (by rwa [hs]) (by rw [hcl, hc])
      (by rw [hpp, hp]) (hli.trans hd)
    rw [hch] at h1
    exact ⟨h1.of_same (hfr .master (by simp)) (hfr (.claim c) (by simp)), (hfr.append h2).weaken (by simp)⟩

end Sys2Proof.Machine
end

section
/-! Proofs: the later stages of an eviction (O52). -/

namespace Sys2Proof.Machine

/-! ### Frames -/

theorem Part.setInbox_frame (p : Part) (is : List TransferItem) : Frame p (p.setInbox is) [.inbox] := by
  intro x hx
  cases x <;> simp_all [SameAt]

theorem Part.setReports_frame (p : Part) (rs : List Report) : Frame p (p.setReports rs) [.reports] := by
  intro x hx
  cases x <;> simp_all [SameAt]

theorem Part.setQueue_frame (p : Part) (g : PageId) (x : Queue) : Frame p (p.setQueue g x) [.queue g] := by
  intro x hx
  cases x <;> simp_all [SameAt]

theorem Part.toTransfer_frame (p : Part) (i : TransferItem) : Frame p (p.toTransfer i) [.inbox] :=
  p.setInbox_frame _

theorem Part.notifySupervisor_frame (p : Part) (n : Notice) : Frame p (p.notifySupervisor n) [.queue .supervisor] :=
  p.setQueue_frame .supervisor _

/-! ### Reports of the stages (R33 to R36) -/

/-- A command that takes the agent table's oldest report, where it knows the report and the table is free. -/
theorem exec_takesReport {i : Instr} {s : State} {r : Report} {rest : List Report} {f : Part → Part}
    {body : Report → Option (Part → Part)} (hx : exec i s = .next (s.onPart fun p => p.takeReport body))
    (hr : s.part.table.reports = r :: rest) (hf : s.part.tableFree = true) (hb : body r = some f) :
    exec i s = .next { s with part := f (s.part.setReports rest) } := by
  rw [hx, State.onPart, Part.takeReport_of body hr hb hf]

section
variable {p : Part} {a : AgentId} (rest : List Report)

theorem Part.evictionsGoOn_setReports : (p.setReports rest).evictionsGoOn = p.evictionsGoOn := rfl

theorem Part.evictionStage_setReports : (p.setReports rest).evictionStage a = p.evictionStage a := rfl

theorem Part.sendWithdrawAll_sent (hg : p.evictionsGoOn = true) (hs : p.evictionStage a = some .purge) :
    Part.sendWithdrawAll a (p.setReports rest) =
      ((p.setReports rest).setEvictions (p.table.evictions.map (Eviction.advanced a))).toTransfer (.withdrawAll a) :=
  if_pos ⟨hg, hs⟩

theorem Part.sendWithdrawAll_ignored (h : ¬(p.evictionsGoOn = true ∧ p.evictionStage a = some .purge)) :
    Part.sendWithdrawAll a (p.setReports rest) = p.setReports rest :=
  if_neg h

theorem Part.reports_sendWithdrawAll (p : Part) (a : AgentId) :
    (Part.sendWithdrawAll a p).table.reports = p.table.reports := by
  unfold Part.sendWithdrawAll
  split <;> rfl

/-- The state in which the eviction of an agent has ended (R35). -/
def Part.evictionEnded (p : Part) (a : AgentId) : Part :=
  (((p.setQueue (.agent a) Queue.emptied).setAgent a
    { p.agent a with state := .detached, evicted := true }).setEvictions
      (p.table.evictions.filter fun v => v.agent != a)).notifySupervisor (.agentEvicted a)

theorem Part.completeEviction_ended (hg : p.evictionsGoOn = true) (hs : p.evictionStage a = some .withdraw) :
    Part.completeEviction a (p.setReports rest) = (p.setReports rest).evictionEnded a :=
  if_pos ⟨hg, hs⟩

theorem Part.completeEviction_ignored (h : ¬(p.evictionsGoOn = true ∧ p.evictionStage a = some .withdraw)) :
    Part.completeEviction a (p.setReports rest) = p.setReports rest :=
  if_neg h

end

theorem Part.reports_completeEviction (p : Part) (a : AgentId) :
    (Part.completeEviction a p).table.reports = p.table.reports := by
  unfold Part.completeEviction
  split
  · simp
  · rfl

theorem Part.evictionEnded_frame (p : Part) (a : AgentId) :
    Frame p (p.evictionEnded a) [.queue (.agent a), .agent a, .evictions, .queue .supervisor] :=
  (((p.setQueue_frame _ _).append (Part.setAgent_frame _ a _)).append (Part.setEvictions_frame _ _)).append
    (Part.notifySupervisor_frame _ _)

/-! ### The withdraw-all (R34) -/

/-- The coordinator without the descriptors of an agent that have not started, their places returned (R34, R87). -/
def Part.unstartedWithdrawn (p : Part) (a : AgentId) : Part :=
  ((p.onChan .c0 fun ch => ch.withoutUnstarted a).onChan .c1 fun ch => ch.withoutUnstarted a).giveBack (.agent a)
    ((p.chan .c0).unstartedOf a + (p.chan .c1).unstartedOf a)

theorem Part.unstartedWithdrawn_chan (p : Part) (a : AgentId) (c : ChanId) :
    (p.unstartedWithdrawn a).chan c = (p.chan c).withoutUnstarted a := by
  cases c <;> simp [Part.unstartedWithdrawn]

theorem Part.unstartedWithdrawn_queue (p : Part) (a : AgentId) :
    (p.unstartedWithdrawn a).queue (.agent a) = { p.queue (.agent a) with
      reserved := (p.queue (.agent a)).reserved - ((p.chan .c0).unstartedOf a + (p.chan .c1).unstartedOf a) } := by
  simp [Part.unstartedWithdrawn, Queue.giveBack]

theorem Part.unstartedWithdrawn_frame (p : Part) (a : AgentId) :
    Frame p (p.unstartedWithdrawn a) [.chan .c0, .chan .c1, .queue (.agent a)] :=
  ((p.onChan_frame .c0 _).append (Part.onChan_frame _ .c1 _)).append (Part.giveBack_frame _ _ _)

/-- The stop of an eviction goes to a channel whose head has started and is the agent's (R34, R115). -/
theorem Part.stopFor_eq (p : Part) (a : AgentId) (c : ChanId) :
    p.stopFor a c =
      if (p.chan c).list.head?.any (fun d => d.started && d.owner == a) then p.giveStop c .evicted else p := by
  unfold Part.stopFor Channel.startedHead
  cases (p.chan c).list.head? with
  | none => simp
  | some d => cases hs : d.started <;> simp [Option.filter, hs]

/-- The withdraw-all noted as taken, and the report made where no descriptor is left (R34, log 10). -/
def Part.withdrawNoted (p : Part) (a : AgentId) : Part :=
  (p.setWithdrawing (p.transfer.withdrawing ++ [a])).reportIfNone a

theorem Part.onWithdrawAll_eq (p : Part) (a : AgentId) :
    Part.onWithdrawAll a p = (((p.unstartedWithdrawn a).stopFor a .c0).stopFor a .c1).withdrawNoted a := rfl

theorem Part.descriptorCount_setWithdrawing (p : Part) (as : List AgentId) (a : AgentId) :
    (p.setWithdrawing as).descriptorCount a = p.descriptorCount a := rfl

theorem Part.withdrawNoted_left {p : Part} {a : AgentId} (h : p.descriptorCount a ≠ 0) :
    p.withdrawNoted a = p.setWithdrawing (p.transfer.withdrawing ++ [a]) :=
  Part.reportIfNone_of_not fun ⟨_, hn⟩ => h hn

theorem Part.withdrawNoted_none {p : Part} {a : AgentId} (h : p.descriptorCount a = 0) :
    p.withdrawNoted a = ((p.setWithdrawing (p.transfer.withdrawing ++ [a])).setWithdrawing
      ((p.transfer.withdrawing ++ [a]).erase a)).toTable (.noDescriptorLeft a) :=
  Part.reportIfNone_of (by simp) h

/-! ### The stages -/

/-- Settles O52. -/
theorem evictionStages : Obligations.EvictionStages := by
  intro s a
  dsimp only
  rw [← Part.evictionsGoOn_iff]
  refine ⟨fun rest hr hf => ?_, fun rest ht => ?_, fun rest hr hf => ?_⟩
  · refine ⟨Part.sendWithdrawAll a (s.part.setReports rest), exec_takesReport (i := .purgeDoneReport) rfl hr hf rfl,
      Part.reports_sendWithdrawAll _ a, fun hg hs => ?_, fun h => ?_⟩
    · rw [Part.sendWithdrawAll_sent rest hg hs]
      refine ⟨rfl, rfl, ?_⟩
      exact ((s.part.setReports_frame rest).append (Part.setEvictions_frame _ _)).append (Part.toTransfer_frame _ _)
    · rw [Part.sendWithdrawAll_ignored rest h]
      exact s.part.setReports_frame rest
  · refine ⟨(s.part.setInbox rest).unstartedWithdrawn a, Part.onWithdrawAll a (s.part.setInbox rest),
      exec_takesItem (i := .withdrawAll) rfl ht rfl, ?_⟩
    rw [Part.onWithdrawAll_eq]
    simp only [← Part.stopFor_eq]
    refine ⟨rfl, Part.unstartedWithdrawn_chan _ a, Part.unstartedWithdrawn_queue _ a, ?_, fun h => ?_, fun h => ?_⟩
    · exact (s.part.setInbox_frame rest).append (Part.unstartedWithdrawn_frame _ a)
    · rw [Part.withdrawNoted_left h]
      exact ⟨rfl, Part.setWithdrawing_frame _ _⟩
    · rw [Part.withdrawNoted_none h]
      refine ⟨rfl, rfl, ?_⟩
      exact ((Part.setWithdrawing_frame _ _).trans (Part.setWithdrawing_frame _ _)).append (Part.toTable_frame _ _)
  · refine ⟨Part.completeEviction a (s.part.setReports rest), exec_takesReport (i := .noDescriptorLeftReport) rfl hr hf rfl,
      Part.reports_completeEviction _ a, fun hg hs => ?_, fun h => ?_⟩
    · rw [Part.completeEviction_ended rest hg hs]
      refine ⟨by simp [Part.evictionEnded], by simp [Part.evictionEnded], by simp [Part.evictionEnded, Queue.emptied],
        by simp [Part.evictionEnded], by simp [Part.evictionEnded, Queue.deliver], ?_⟩
      exact ((s.part.setReports_frame rest).append (Part.evictionEnded_frame _ a)).weaken (by simp)
    · rw [Part.completeEviction_ignored rest h]
      exact s.part.setReports_frame rest

end Sys2Proof.Machine
end

section
/-! Proofs: a COMMAND write that is taken (O4), and ACQUIRE and DOWNGRADE of an agent page (O18 to O22, O27). -/

namespace Sys2Proof.Machine

/-! ### A COMMAND write that is taken (R37, R145, R153, R158) -/

/-- No two commands of one kind of page have the same code (R158). -/
theorem cmdOfCode_cmdCode {g : PageId} {c : Cmd} (h : c ∈ pageCmds g) : cmdOfCode g (cmdCode c) = some c := by
  have agents : ∀ c ∈ agentCmds, (agentCmds.find? fun d => cmdCode d == cmdCode c) = some c := by decide
  have supervisors : ∀ c ∈ supervisorCmds, (supervisorCmds.find? fun d => cmdCode d == cmdCode c) = some c := by decide
  cases g with
  | agent a => exact agents c h
  | supervisor => exact supervisors c h

theorem mem_pageCmds_of_writeOf {g : PageId} {c : Cmd} {slot : Slot} {high : BitVec 24} {i : Instr}
    (h : writeOf g c slot high = some i) : c ∈ pageCmds g := by
  cases g <;> cases c <;> simp only [writeOf, reduceCtorEq] at h <;> simp [pageCmds, agentCmds, supervisorCmds]

theorem Part.firstStage_eq (p : Part) (g : PageId) (c : Cmd) :
    p.firstStage g c =
      if cmdBlock c = .lockEngine then
        (if g = .supervisor ∧ p.table.clear = some .stepPending then .held else .claimed)
      else .written := by
  unfold Part.firstStage
  cases cmdBlock c <;> simp

/-- A page once the port has taken a command of code `cmdCode c` (R153). -/
def Page.started (pg : Page) (c : Cmd) (stage : Stage) : Page :=
  { pg with command := cmdCode c, done := false, code := .noResult, inFlight := some { cmd := c, args := pg.args, stage } }

theorem Part.writeFrom_taken {p : Part} {g : PageId} {slot : Slot} {c : Cmd} {value : Word}
    (hs : p.slotPasses g slot = true) (hf : (p.page g).inFlight = none) (he : p.portRefuses g = false)
    (hv : value.extractLsb' 0 8 = cmdCode c) (hc : c ∈ pageCmds g) :
    p.writeFrom g slot .command value = p.setPage g ((p.page g).started c (p.firstStage g c)) := by
  simp [Part.writeFrom, hs, Part.writeRegister, Part.commandWrite, hf, he, hv, cmdOfCode_cmdCode hc, Page.started]

/-- Settles O4: the port takes the write as the command its code names (`Page.started`). -/
theorem commandWriteIsTaken : Obligations.CommandWriteIsTaken := by
  intro s g c slot high i hi hs hf he
  refine ⟨_, exec_writeOf hi s, ?_⟩
  rw [Part.writeFrom_taken hs hf (Part.portRefuses_false he) BitVec.extractLsb'_append_eq_right
    (mem_pageCmds_of_writeOf hi), Part.firstStage_eq]
  exact ⟨by simp [Page.started], s.part.setPage_frame _ _⟩

/-! ### ACQUIRE's arguments (R39, R159) -/

theorem modeField_of_register (w : Word) (m : Mode) :
    modeField (w.extractLsb' 8 2) = some m ↔
      (w.toNat / 256 % 4 = 1 ∧ m = .shared ∨ w.toNat / 256 % 4 = 2 ∧ m = .exclusive) := by
  rw [modeField_iff, BitVec.extractLsb'_toNat, Nat.shiftRight_eq_div_pow]

theorem extractLsb'_bit (w : Word) (k : Nat) : (w.extractLsb' k 1 == 1) = w.getLsbD k := by
  have h : w.extractLsb' k 1 = BitVec.ofBool (w.getLsbD k) := by
    apply BitVec.eq_of_getLsbD_eq
    intro j hj
    simp [show j = 0 by omega]
  rw [h]
  cases w.getLsbD k <;> rfl

theorem acquireArgs_iff (args : Vector Word 6) (r : AcquireArgs) : acquireArgs args = some r ↔
    lockField (pick args 0) = some r.lock ∧ modeField ((pick args 0).extractLsb' 8 2) = some r.mode ∧
      r.queue = (pick args 0).getLsbD 12 ∧ wholeTicks (pick args 1) = some r.requested ∧
      wholeTicks (pick args 2) = some r.waitLimit := by
  obtain ⟨l, m, q, t, w⟩ := r
  simp only [acquireArgs, extractLsb'_bit, Option.bind_eq_bind, Option.bind_eq_some_iff, Option.pure_def, Option.some.injEq,
    AcquireArgs.mk.injEq]
  constructor
  · rintro ⟨l', hl, m', hm, t', ht, w', hw, rfl, rfl, rfl, rfl, rfl⟩
    exact ⟨hl, hm, rfl, ht, hw⟩
  · rintro ⟨hl, hm, hq, ht, hw⟩
    exact ⟨l, hl, m, hm, t, ht, w, hw, rfl, rfl, hq.symm, rfl, rfl⟩

/-! ### The checks of the lock and of the agent's standing on it (R40) -/

section
variable {e : LockEntry} {a : AgentId} {m : Mode}

theorem LockEntry.admission_of_disabled (h : e.state = .disabled) : e.admission a m = some (refuse .lockDisabled) := by
  simp [LockEntry.admission, h]

theorem LockEntry.admission_of_closing (h : e.state = .closing) : e.admission a m = some (refuse .lockClosing) := by
  simp [LockEntry.admission, h]

theorem LockEntry.admission_of_class (h : e.state = .opened) (hm : m = .shared ∧ e.cls = .exclusiveOnly) :
    e.admission a m = some (refuse .modeNotAllowed) := by
  simp [LockEntry.admission, h, hm]

theorem LockEntry.admission_of_mask (h : e.state = .opened) (hm : ¬(m = .shared ∧ e.cls = .exclusiveOnly))
    (hk : e.mask.getLsbD a.val = false) : e.admission a m = some (refuse .notPermitted) := by
  simp only [LockEntry.admission, h, if_neg hm, hk, Bool.not_false, if_true]

theorem LockEntry.admission_of_holder {x : Holding} (h : e.state = .opened) (hm : ¬(m = .shared ∧ e.cls = .exclusiveOnly))
    (hk : e.mask.getLsbD a.val = true) (hx : e.holderOf (.agent a) = some x) :
    e.admission a m =
      some { code := .alreadyHeld, result0 := x.token, result1 := if x.mode = .exclusive then 1 else 0 } := by
  cases hx' : x.mode <;> simp [LockEntry.admission, h, hm, hk, hx, hx']

theorem LockEntry.admission_of_waiter (h : e.state = .opened) (hm : ¬(m = .shared ∧ e.cls = .exclusiveOnly))
    (hk : e.mask.getLsbD a.val = true) (hx : e.holderOf (.agent a) = none) (hw : e.waiterOf (.agent a) ≠ none) :
    e.admission a m =
      some { code := .alreadyWaiting, result0 := wordOf (e.position (.agent a)), result1 := 0 } := by
  simp [LockEntry.admission, h, hm, hk, hx, Option.isSome_iff_ne_none.2 hw]

end

/-! ### ACQUIRE's course (R39 to R45) -/

theorem LockEntry.agentWaiters_eq (e : LockEntry) :
    e.agentWaiters = (e.waiters.filter fun w => w.party.isAgent).length := List.countP_eq_length_filter

section
variable {p : Part} {a : AgentId} {args : Vector Word 6} {r : AcquireArgs}

theorem acquireBody_badArgument (h : acquireArgs args = none) : Part.acquireBody a args p = (p, refuse .badArgument) := by
  simp [Part.acquireBody, h]

theorem acquireBody_of_admission {ans : Answer} (h : acquireArgs args = some r)
    (ha : (p.lock r.lock).admission a r.mode = some ans) : Part.acquireBody a args p = (p, ans) := by
  simp [Part.acquireBody, h, ha]

theorem acquireBody_now (h : acquireArgs args = some r) (ha : (p.lock r.lock).admits a r.mode)
    (hg : (p.lock r.lock).grantableNow r.mode = true) : Part.acquireBody a args p = p.acquireNow a r := by
  simp [Part.acquireBody, h, LockEntry.admission_of_admits ha, hg]

theorem acquireBody_busy (h : acquireArgs args = some r) (ha : (p.lock r.lock).admits a r.mode)
    (hg : (p.lock r.lock).grantableNow r.mode = false) (hq : r.queue = false) :
    Part.acquireBody a args p = (p, { code := .busy, result0 := wordOf (p.lock r.lock).holders.length,
                                      result1 := wordOf (p.lock r.lock).waiters.length }) := by
  simp [Part.acquireBody, h, LockEntry.admission_of_admits ha, hg, hq]

theorem acquireBody_full (h : acquireArgs args = some r) (ha : (p.lock r.lock).admits a r.mode)
    (hg : (p.lock r.lock).grantableNow r.mode = false) (hq : r.queue = true)
    (hl : (p.lock r.lock).queueLimit ≤ (p.lock r.lock).agentWaiters) :
    Part.acquireBody a args p = (p, refuse .queueFull) := by
  simp [Part.acquireBody, h, LockEntry.admission_of_admits ha, hg, hq, hl]

theorem acquireBody_later (h : acquireArgs args = some r) (ha : (p.lock r.lock).admits a r.mode)
    (hg : (p.lock r.lock).grantableNow r.mode = false) (hq : r.queue = true)
    (hl : (p.lock r.lock).agentWaiters < (p.lock r.lock).queueLimit) :
    Part.acquireBody a args p = p.acquireLater a r := by
  simp [Part.acquireBody, h, LockEntry.admission_of_admits ha, hg, hq, Nat.not_le.2 hl]

theorem fieldAt_zero {w : Nat} (x : BitVec w) : fieldAt 0 x = x.setWidth 32 := by simp [fieldAt]

/-- A new record on a lock, with `k` places reserved for its notices (R42, R45). -/
def Part.recordMade (p : Part) (a : AgentId) (l : LockId) (e : LockEntry) (k : Nat) : Part :=
  (p.setLock l e).reserve (.agent a) k

/-- The two checks of a request that is to make a record, and then the record (R42, R45). -/
def Part.ifRoom (p : Part) (a : AgentId) (k : Nat) (made : Part × Answer) : Part × Answer :=
  if p.hasRoom (.agent a) k = false then (p, refuse .noNoticeRoom)
  else if p.agentFree = 0 then (p, refuse .noRecord)
  else made

theorem Part.acquireNow_eq (p : Part) (a : AgentId) (r : AcquireArgs) :
    p.acquireNow a r =
      let h := (p.lock r.lock).newHolding (.agent a) a r.mode r.requested
      p.ifRoom a 1 (p.recordMade a r.lock ((p.lock r.lock).withHolding h) 1,
        { code := .granted, result0 := h.token,
          result1 := ((p.lock r.lock).effectiveLease r.requested).setWidth 32 }) := by
  simp only [Part.acquireNow, fieldAt_zero, Part.ifRoom, Part.recordMade, LockEntry.newHolding,
    LockEntry.leaseGiven_getD, Bool.not_eq_true']

theorem Part.acquireLater_eq (p : Part) (a : AgentId) (r : AcquireArgs) :
    p.acquireLater a r =
      let e := (p.lock r.lock).withWait (newWait (.agent a) a r.mode r.requested r.waitLimit)
      p.ifRoom a 2 (p.recordMade a r.lock e 2,
        { code := .queued, result0 := wordOf ((p.lock r.lock).waiters.length + 1), result1 := 0 }) := by
  simp [Part.acquireLater, Part.ifRoom, Part.recordMade, LockEntry.withWait]

end

theorem Part.agentFree_served (p : Part) (pos : Fin 13) : (p.served pos).agentFree = p.agentFree := by
  simp [Part.agentFree, Part.recordsInUse]

/-- From `p` to `q` an ACQUIRE that asks for a record on lock `l`, and for `k` places, has been answered: refused without room
or without a free record; or else `e` is the lock's entry and `ans` the answer. O19 and O22 state this of the grant at once
and of the wait (R42, R45). -/
def RecordAsked (p q : Part) (a : AgentId) (l : LockId) (e : LockEntry) (k : Nat) (ans : Answer) : Prop :=
  q.engine.lastServed = agentPos a ∧
    let room := (p.queue (.agent a)).reserved + (p.queue (.agent a)).notices.length + k ≤ 16
    (¬room → Answered p q (.agent a) .noNoticeRoom 0 0 ∧ Frame p q [.page (.agent a), .lastServed]) ∧
    (room → p.agentFree = 0 →
      Answered p q (.agent a) .noRecord 0 0 ∧ Frame p q [.page (.agent a), .lastServed]) ∧
    (room → p.agentFree ≠ 0 →
      q.lock l = e ∧
      q.queue (.agent a) = { p.queue (.agent a) with reserved := (p.queue (.agent a)).reserved + k } ∧
      Answered p q (.agent a) ans.code ans.result0 ans.result1 ∧
      Frame p q [.lock l, .queue (.agent a), .page (.agent a), .lastServed])

/-- A record made and its answer presented, once the arbiter has moved on to the claim. -/
theorem Part.recordMade_present (p : Part) (a : AgentId) (l : LockId) (e : LockEntry) (k : Nat) (ans : Answer) :
    Frame p (((p.served (agentPos a)).recordMade a l e k).present (.agent a) ans)
        [.lock l, .queue (.agent a), .page (.agent a), .lastServed] ∧
      Answered p (((p.served (agentPos a)).recordMade a l e k).present (.agent a) ans) (.agent a)
        ans.code ans.result0 ans.result1 := by
  refine ⟨?_, p.present_answered _ _ ans (by simp [Part.recordMade])⟩
  exact ((((p.served_frame _).append (Part.setLock_frame _ l e)).append (Part.reserve_frame _ _ k)).present _ ans).weaken
    (by simp)

/-- An ACQUIRE whose body asks for a record is answered so. -/
theorem Part.serveAgent_asked {p : Part} {a : AgentId} {args : Vector Word 6} {l : LockId} {e : LockEntry} {k : Nat}
    {ans : Answer} (hc : p.claims (.agent a) .acquire args) (hm : p.mayServe (agentPos a) = true) (hs : p.serves a)
    (hb : Part.acquireBody a args (p.served (agentPos a)) = (p.served (agentPos a)).ifRoom a k
      ((p.served (agentPos a)).recordMade a l e k, ans)) :
    RecordAsked p (p.serveAgent a .acquire (Part.acquireBody a)) a l e k ans := by
  have hroom : (p.served (agentPos a)).hasRoom (.agent a) k = true ↔
      (p.queue (.agent a)).reserved + (p.queue (.agent a)).notices.length + k ≤ 16 := by
    simp [Part.hasRoom_iff]
  unfold RecordAsked
  simp only [← hroom]
  unfold Part.ifRoom at hb
  rw [Part.agentFree_served] at hb
  by_cases hr : (p.served (agentPos a)).hasRoom (.agent a) k = true
  · by_cases hn : p.agentFree = 0
    · simp only [hr, hn, Bool.true_eq_false, if_false, if_true] at hb
      obtain ⟨h1, h2, h3⟩ := Part.serveAgent_answered _ hc hm hs hb
      exact ⟨h2, fun hx => absurd hr hx, fun _ _ => ⟨h1, h3⟩, fun _ hx => absurd hn hx⟩
    · simp only [hr, hn, Bool.true_eq_false, if_false] at hb
      rw [Part.serveAgent_of _ hc hm hs, hb]
      obtain ⟨h1, h2⟩ := p.recordMade_present a l e k ans
      refine ⟨by simp [Part.recordMade], fun hx => absurd hr hx, fun _ hx => absurd hx hn, fun _ _ => ⟨?_, ?_, h2, h1⟩⟩
      · simp [Part.recordMade]
      · simp [Part.recordMade, Queue.reserve]
  · simp only [hr, if_true] at hb
    obtain ⟨h1, h2, h3⟩ := Part.serveAgent_answered _ hc hm hs hb
    exact ⟨h2, fun _ => ⟨h1, h3⟩, fun hx => absurd hx hr, fun hx => absurd hx hr⟩

/-! ### O18 to O22 -/

/-- Settles O18: a refused ACQUIRE leaves the coordinator as it is. -/
theorem acquireRefusalsInOrder : Obligations.AcquireRefusalsInOrder := by
  refine ⟨fun args r => ?_, fun s a args hc hm hs => ?_⟩
  · rw [acquireArgs_iff, lockField_iff, modeField_of_register, wholeTicks_iff, wholeTicks_iff]
  · refine ⟨_, exec_lockTake (c := .acquire) rfl s, ?_⟩
    have refused {ans : Answer}
        (hb : Part.acquireBody a args (s.part.served (agentPos a)) = (s.part.served (agentPos a), ans)) :=
      Part.serveAgent_answered (Part.acquireBody a) hc hm hs hb
    refine ⟨fun h => refused (acquireBody_badArgument h), fun r h => ?_⟩
    have turned {ans : Answer} (ha : (s.part.lock r.lock).admission a r.mode = some ans) :=
      refused (acquireBody_of_admission h (by simpa using ha))
    refine ⟨fun h0 => turned (LockEntry.admission_of_disabled h0), fun h0 => turned (LockEntry.admission_of_closing h0),
      fun h0 => ⟨fun hx => turned (LockEntry.admission_of_class h0 hx), fun hx => ⟨fun hk => ?_, fun hk => ⟨?_, ?_⟩⟩⟩⟩
    · exact turned (LockEntry.admission_of_mask h0 hx hk)
    · exact fun x hh => turned (LockEntry.admission_of_holder h0 hx hk hh)
    · exact fun hh hw => turned (LockEntry.admission_of_waiter h0 hx hk hh hw)

/-- Settles O19: the request asks for a holding and one place (`RecordAsked`). -/
theorem acquireGrantedAtOnce : Obligations.AcquireGrantedAtOnce := by
  refine ⟨fun e m => ?_, fun s a args r hc hm hs h ha hg => ?_⟩
  · rw [LockEntry.grantableNow_iff, LockEntry.fits_iff, and_comm]
  · have hb := acquireBody_now (p := s.part.served (agentPos a)) h (by simpa using ha) (by simpa using hg)
    rw [Part.acquireNow_eq] at hb
    have hasked := Part.serveAgent_asked hc hm hs hb
    simp only [Part.served_keeps] at hasked
    exact ⟨_, exec_lockTake (c := .acquire) rfl s, hasked⟩

/-- Settles O20: the refusal leaves the coordinator as it is. -/
theorem acquireBusyWhenNotQueued : Obligations.AcquireBusyWhenNotQueued := by
  intro s a args r hc hm hs h ha hg hq
  have hb := acquireBody_busy (p := s.part.served (agentPos a)) h (by simpa using ha) (by simpa using hg) hq
  obtain ⟨hans, _, hframe⟩ := Part.serveAgent_answered _ hc hm hs hb
  simp only [Part.served_keeps] at hans
  exact ⟨_, exec_lockTake (c := .acquire) rfl s, hans, hframe⟩

/-- Settles O21: the refusal leaves the coordinator as it is. -/
theorem acquireQueueFull : Obligations.AcquireQueueFull := by
  intro s a args r hc hm hs h ha hg hq hl
  have hfull : (s.part.lock r.lock).queueLimit ≤ (s.part.lock r.lock).agentWaiters := by
    rw [LockEntry.agentWaiters_eq, hl]
  have hb := acquireBody_full (p := s.part.served (agentPos a)) h (by simpa using ha) (by simpa using hg) hq
    (by simpa using hfull)
  obtain ⟨hans, _, hframe⟩ := Part.serveAgent_answered _ hc hm hs hb
  exact ⟨_, exec_lockTake (c := .acquire) rfl s, hans, hframe⟩

/-- Settles O22: the request asks for a wait and two places (`RecordAsked`). -/
theorem acquireQueued : Obligations.AcquireQueued := by
  intro s a args r hc hm hs h ha hg hq hl
  have hplace : (s.part.lock r.lock).agentWaiters < (s.part.lock r.lock).queueLimit := by
    rwa [LockEntry.agentWaiters_eq]
  have hb := acquireBody_later (p := s.part.served (agentPos a)) h (by simpa using ha) (by simpa using hg) hq
    (by simpa using hplace)
  rw [Part.acquireLater_eq] at hb
  have hasked := Part.serveAgent_asked hc hm hs hb
  simp only [Part.served_keeps] at hasked
  exact ⟨_, exec_lockTake (c := .acquire) rfl s, hasked⟩

/-! ### DOWNGRADE (O27) -/

/-- DOWNGRADE of a holding, before the grant pass (R59). -/
def Part.downgraded (p : Part) (a : AgentId) (l : LockId) : Part :=
  p.setLock l ((p.lock l).onHolder (.agent a) fun h => { h with mode := .shared })

theorem downgradeBody_of_exclusive {a : AgentId} {args : Vector Word 6} {l : LockId} {p : Part} {h : Holding}
    (hl : (pick args 0).toNat % 256 = l.val) (hh : (p.lock l).holderOf (.agent a) = some h) (ht : h.token = pick args 1)
    (hc : (p.lock l).cls = .sharedAllowed) (hm : h.mode = .exclusive) :
    Part.downgradeBody a args p =
      (((p.downgraded a l).runPass l).1, accept h.token (wordOf ((p.downgraded a l).runPass l).2)) := by
  simp [Part.downgradeBody, lockField_of _ _ hl, LockEntry.heldUnder_of_token hh ht, hc, hm, Part.downgraded]

/-- Settles O27: the pass runs on the lock with the holding's mode changed (`Part.downgraded`). -/
theorem downgradeMakesShared : Obligations.DowngradeMakesShared := by
  intro s a args l h hc hm hs hl hh ht hcls hmode
  have hexec := exec_lockTake (a := a) (c := .downgrade) rfl s
  have hb := downgradeBody_of_exclusive (p := s.part.served (agentPos a)) hl (by simpa using hh) ht
    (by simpa using hcls) hmode
  rw [Part.serveAgent_of _ hc hm hs, lockBody, hb] at hexec
  refine ⟨_, hexec, by simp [Part.downgraded], ?_⟩
  have hframe := ((s.part.served_frame (agentPos a)).append (Part.setLock_frame _ l _)).append
    (((s.part.served (agentPos a)).downgraded a l).runPass_frame l)
  obtain ⟨hlock, hcount, hgrants, _⟩ := ((s.part.served (agentPos a)).downgraded a l).runPass_spec l
  have hentry : ((s.part.served (agentPos a)).downgraded a l).lock l =
      (s.part.lock l).onHolder (.agent a) fun h => { h with mode := .shared } := by simp [Part.downgraded]
  rw [hentry] at hlock hcount hgrants
  refine ⟨by simp [hlock, LockEntry.onHolder], ?_, ?_, ?_⟩
  · exact (hgrants.of_same (by simp [Part.downgraded]) (by simp [Part.downgraded, Part.discards])
      (by simp [Part.downgraded])).present _ _
  · rw [hcount]
    exact s.part.present_answered _ (.agent a) (accept h.token (wordOf _)) (by simp [Part.downgraded])
  · exact (hframe.present _ _).weaken (by simp +contextual [passPieces, or_imp])

end Sys2Proof.Machine
end

section
/-! Proofs: QUERY, INSPECT_LOCK and INSPECT_RECORD, and the layouts of what they answer (O28). -/

namespace Sys2Proof.Machine

/-! ### What the three commands answer (R61, R138 to R140) -/

theorem queryBody_of {args : Vector Word 6} {l : LockId} (hl : (pick args 0).toNat % 256 = l.val) (p : Part) :
    Part.queryBody args p = (p, accept (p.lock l).standingWord (p.lock l).generation) := by
  simp [Part.queryBody, lockField_of _ _ hl]

/-- INSPECT_LOCK changes nothing itself. -/
theorem inspectLockBody_fst (args : Vector Word 6) (p : Part) : (Part.inspectLockBody args p).1 = p := by
  unfold Part.inspectLockBody
  split <;> rfl

/-- INSPECT_RECORD changes nothing itself. -/
theorem inspectRecordBody_fst (args : Vector Word 6) (p : Part) : (Part.inspectRecordBody args p).1 = p := by
  unfold Part.inspectRecordBody
  split
  · dsimp only
    split <;> rfl
  · rfl

theorem inspectLockBody_badView {args : Vector Word 6} (h : 1 < (pick args 1).toNat) (p : Part) :
    (Part.inspectLockBody args p).2 = refuse .badArgument := by
  simp [Part.inspectLockBody, wholeBit_none _ h]

theorem inspectRecordBody_badArgument_of {args : Vector Word 6}
    (h : (pick args 2).toNat = 0 ∨ 18 < (pick args 2).toNat ∨ 1 < (pick args 1).toNat) (p : Part) :
    (Part.inspectRecordBody args p).2 = refuse .badArgument := by
  unfold Part.inspectRecordBody
  split
  · rename_i list _ hbit
    have hview : ¬1 < (pick args 1).toNat := fun hx => by simp [wholeBit_none _ hx] at hbit
    rw [if_neg (by omega)]
  · rfl

section
variable {args : Vector Word 6} {l : LockId} (hl : (pick args 0).toNat = l.val) (p : Part)
include hl

theorem inspectLockBody_standing (h : (pick args 1).toNat = 0) :
    (Part.inspectLockBody args p).2 =
      accept ((p.lock l).standingWord ||| periodField p.period) (p.lock l).generation := by
  simp [Part.inspectLockBody, wholeIndex_of _ _ hl, wholeBit_of _ false h]

theorem inspectLockBody_config (h : (pick args 1).toNat = 1) :
    (Part.inspectLockBody args p).2 = accept ((p.lock l).configWord ||| periodField p.period) (p.lock l).leaseWord := by
  simp [Part.inspectLockBody, wholeIndex_of _ _ hl, wholeBit_of _ true h]

theorem inspectRecordBody_of {n : Nat} {list : Bool} (hn : (pick args 2).toNat = n + 1) (h18 : n < 18)
    (h : (pick args 1).toNat = list.toNat) : (Part.inspectRecordBody args p).2 = (p.lock l).recordAnswer list (n + 1) := by
  simp [Part.inspectRecordBody, wholeIndex_of _ _ hl, wholeBit_of _ list h, hn, show n + 1 ≤ 18 by omega]

end

theorem LockEntry.recordAnswer_holder {e : LockEntry} {n : Nat} {h : Holding} (hn : e.holders[n]? = some h) :
    e.recordAnswer false (n + 1) = accept h.word h.token := by
  simp [LockEntry.recordAnswer, hn]

theorem LockEntry.recordAnswer_waiter {e : LockEntry} {n : Nat} {w : Waiting} (hn : e.waiters[n]? = some w) :
    e.recordAnswer true (n + 1) = accept w.word (w.requested.setWidth 32) := by
  simp [LockEntry.recordAnswer, hn, fieldAt_zero]

theorem LockEntry.recordAnswer_beyond {e : LockEntry} {n : Nat} :
    (e.holders.length ≤ n → e.recordAnswer false (n + 1) = accept 0 0) ∧
      (e.waiters.length ≤ n → e.recordAnswer true (n + 1) = accept 0 0) :=
  ⟨fun h => by simp [LockEntry.recordAnswer, h], fun h => by simp [LockEntry.recordAnswer, h]⟩

/-- The engine's taking of an INSPECT command whose body changes nothing: its answer, which reads the coordinator with the
arbiter moved on, is presented whether or not a CLEAR is in flight (R138, R145). -/
theorem Part.serveSupervisor_read {p : Part} {c : Cmd} {args : Vector Word 6} (body : Vector Word 6 → Part → Part × Answer)
    (hc : p.claims .supervisor c args) (hm : p.mayServe supervisorPos = true) (hi : isInspect c = true)
    (hb : ∀ q, (body args q).1 = q) :
    (∀ ans, (body args (p.served supervisorPos).raiseDueStep).2 = ans →
      Answered p (p.serveSupervisor c body) .supervisor ans.code ans.result0 ans.result1) ∧
    (p.serveSupervisor c body).engine.lastServed = supervisorPos ∧
    (p.serveSupervisor c body).table.clear = p.clearServed ∧
    Frame p (p.serveSupervisor c body) [.page .supervisor, .lastServed, .clear] := by
  obtain ⟨hans, hrest⟩ := Part.serveSupervisor_answered body hc hm (.inr hi) (Prod.ext (hb _) rfl)
  exact ⟨by rintro _ rfl; exact hans, hrest⟩

/-! ### The layouts (R162, R163) -/

theorem LockEntry.channelWaiters_eq (e : LockEntry) :
    e.channelWaiters = (e.waiters.filter fun w => !w.party.isAgent).length := List.countP_eq_length_filter

/-- A field put above the bits of a word of known value. -/
theorem toNat_or_fieldAt_of {w n : Nat} {a : Word} (ha : a.toNat = n) (lo : Nat) (x : BitVec w) (hn : n < 2 ^ lo)
    (hw : w + lo ≤ 32) : (a ||| fieldAt lo x).toNat = n + 2 ^ lo * x.toNat := by
  rw [toNat_or_fieldAt a lo x (by omega) hw, ha]

theorem fieldAt_zero_toNat {w : Nat} (x : BitVec w) (hw : w ≤ 32) : (fieldAt 0 x).toNat = x.toNat := by
  rw [fieldAt_toNat 0 x hw, pow_zero, one_mul]

theorem holdingModeBits_of (e : LockEntry) {mode : Nat}
    (h : mode = 0 ∧ e.holders = [] ∨ mode = 1 ∧ e.holders ≠ [] ∧ (∀ h ∈ e.holders, h.mode = .shared) ∨
      mode = 2 ∧ ∃ h ∈ e.holders, h.mode = .exclusive) : (holdingModeBits e.holdingMode).toNat = mode := by
  unfold LockEntry.holdingMode
  rcases h with ⟨rfl, hh⟩ | ⟨rfl, hh, hs⟩ | ⟨rfl, x, hx, he⟩
  · simp [hh, holdingModeBits]
  · have hn : (e.holders.any fun h => h.mode == .exclusive) = false := by
      simpa using fun h hm => by simp [hs h hm]
    simp [hh, hn, holdingModeBits, Mode.bits]
  · have hn : (e.holders.any fun h => h.mode == .exclusive) = true := by simpa using ⟨x, hx, he⟩
    have hne : e.holders ≠ [] := List.ne_nil_of_mem hx
    simp [hne, hn, holdingModeBits, Mode.bits]

theorem LockState.bits_toNat (st : LockState) :
    st.bits.toNat = match st with | .disabled => 0 | .opened => 1 | .closing => 2 := by cases st <;> rfl

theorem Period.bits_toNat (t : Period) :
    t.bits.toNat = match t with | .us10 => 0 | .us100 => 1 | .ms1 => 2 | .ms10 => 3 := by cases t <;> rfl

theorem LockClass.bits_toNat (c : LockClass) :
    c.bits.toNat = match c with | .exclusiveOnly => 1 | .sharedAllowed => 2 := by cases c <;> rfl

theorem Mode.bits_toNat (m : Mode) : m.bits.toNat = match m with | .shared => 1 | .exclusive => 2 := by cases m <;> rfl

theorem Party.bits_toNat (q : Party) :
    q.bits.toNat = match q with | .agent a => a.val | .chan .c0 => 8 | .chan .c1 => 9 := by
  cases q with
  | agent a => exact Nat.mod_eq_of_lt (by omega)
  | chan c => cases c <;> rfl

theorem LockEntry.standingWord_toNat (e : LockEntry) (hh : e.holders.length ≤ 10) (ha : e.agentWaiters ≤ 16)
    (hc : e.channelWaiters ≤ 2) :
    e.standingWord.toNat = e.state.bits.toNat + 2 ^ 2 * (holdingModeBits e.holdingMode).toNat + 2 ^ 8 * e.holders.length +
      2 ^ 16 * e.agentWaiters + 2 ^ 24 * e.channelWaiters := by
  have b0 := e.state.bits.isLt
  have b1 := (holdingModeBits e.holdingMode).isLt
  have n2 : (BitVec.ofNat 4 e.holders.length).toNat = e.holders.length := Nat.mod_eq_of_lt (by omega)
  have n3 : (BitVec.ofNat 5 e.agentWaiters).toNat = e.agentWaiters := Nat.mod_eq_of_lt (by omega)
  have n4 : (BitVec.ofNat 2 e.channelWaiters).toNat = e.channelWaiters := Nat.mod_eq_of_lt (by omega)
  have h0 := fieldAt_zero_toNat e.state.bits (by norm_num)
  have h1 := toNat_or_fieldAt_of h0 2 (holdingModeBits e.holdingMode) (by omega) (by norm_num)
  have h2 := toNat_or_fieldAt_of h1 8 (BitVec.ofNat 4 e.holders.length) (by omega) (by norm_num)
  have h3 := toNat_or_fieldAt_of h2 16 (BitVec.ofNat 5 e.agentWaiters) (by omega) (by norm_num)
  have h4 := toNat_or_fieldAt_of h3 24 (BitVec.ofNat 2 e.channelWaiters) (by omega) (by norm_num)
  rw [n2, n3, n4] at h4
  exact h4

theorem LockEntry.configWord_toNat (e : LockEntry) (hq : e.queueLimit ≤ 16) :
    e.configWord.toNat =
      e.state.bits.toNat + 2 ^ 4 * e.cls.bits.toNat + 2 ^ 8 * e.queueLimit + 2 ^ 16 * e.mask.toNat := by
  have b0 := e.state.bits.isLt
  have b1 := e.cls.bits.isLt
  have n2 : (BitVec.ofNat 5 e.queueLimit).toNat = e.queueLimit := Nat.mod_eq_of_lt (by omega)
  have h0 := fieldAt_zero_toNat e.state.bits (by norm_num)
  have h1 := toNat_or_fieldAt_of h0 4 e.cls.bits (by omega) (by norm_num)
  have h2 := toNat_or_fieldAt_of h1 8 (BitVec.ofNat 5 e.queueLimit) (by omega) (by norm_num)
  have h3 := toNat_or_fieldAt_of h2 16 e.mask (by omega) (by norm_num)
  rw [n2] at h3
  exact h3

theorem LockEntry.leaseWord_toNat (e : LockEntry) : e.leaseWord.toNat = e.defaultLease.toNat + 2 ^ 16 * e.maxLease.toNat :=
  toNat_or_fieldAt_of (fieldAt_zero_toNat e.defaultLease (by norm_num)) 16 e.maxLease e.defaultLease.isLt (by norm_num)

/-- The period code stands above the word of either view of INSPECT_LOCK. -/
theorem toNat_or_periodField {a : Word} {n : Nat} (ha : a.toNat = n) (t : Period) (hn : n < 2 ^ 28) :
    (a ||| periodField t).toNat = n + 2 ^ 28 * t.bits.toNat :=
  toNat_or_fieldAt_of ha 28 t.bits hn (by norm_num)

/-- The two fields of a count: a bit that says it is there, and its value (R163). -/
theorem countFields_toNat (count : Option Ticks) :
    2 ^ 15 * count.isSome.toNat + 2 ^ 16 * (count.getD 0).toNat =
      match count with | none => 0 | some n => 2 ^ 15 + 2 ^ 16 * n.toNat := by
  cases count <;> simp

theorem recordWord_toNat (kind : BitVec 2) (party : Party) (owner : AgentId) (mode : Mode) (count : Option Ticks) :
    (recordWord kind party owner mode count).toNat =
      kind.toNat + (2 ^ 4 * party.bits.toNat + 2 ^ 8 * owner.val + 2 ^ 12 * mode.bits.toNat +
        (2 ^ 15 * count.isSome.toNat + 2 ^ 16 * (count.getD 0).toNat)) := by
  have b0 := kind.isLt
  have b1 := party.bits.isLt
  have b3 := mode.bits.isLt
  have b4 := Bool.toNat_lt count.isSome
  have n2 : (BitVec.ofNat 3 owner.val).toNat = owner.val := Nat.mod_eq_of_lt (by omega)
  have n4 : (BitVec.ofBool count.isSome).toNat = count.isSome.toNat := BitVec.toNat_ofBool _
  have h0 := fieldAt_zero_toNat kind (by norm_num)
  have h1 := toNat_or_fieldAt_of h0 4 party.bits (by omega) (by norm_num)
  have h2 := toNat_or_fieldAt_of h1 8 (BitVec.ofNat 3 owner.val) (by omega) (by norm_num)
  have h3 := toNat_or_fieldAt_of h2 12 mode.bits (by omega) (by norm_num)
  have h4 := toNat_or_fieldAt_of h3 15 (BitVec.ofBool count.isSome) (by omega) (by norm_num)
  have h5 := toNat_or_fieldAt_of h4 16 (count.getD 0) (by omega) (by norm_num)
  rw [n2, n4] at h5
  exact h5.trans (by omega)

/-! ### O28 -/

/-- Settles O28: a readout leaves the coordinator as it is, and each of its words is read field by field. -/
theorem lockReadouts : Obligations.LockReadouts := by
  refine ⟨fun s args l => ⟨fun a hc hm hs hl => ?_, fun hc hm hl => ?_, fun hc hm hl => ?_⟩, fun e t => ?_, fun h w => ?_⟩
  · obtain ⟨hans, hserved, hframe⟩ := Part.serveAgent_answered _ hc hm hs (queryBody_of hl _)
    simp only [Part.served_keeps] at hans
    exact ⟨_, exec_lockTake (c := .query) rfl s, hans, hserved, hframe⟩
  · obtain ⟨hans, hrest⟩ := Part.serveSupervisor_read Part.inspectLockBody hc hm rfl (inspectLockBody_fst args)
    refine ⟨_, exec_superviseTake (c := .inspectLock) rfl s, fun h => ?_, fun h => ?_, fun h => ?_, hrest⟩
    · exact hans (accept _ _) ((inspectLockBody_standing hl _ h).trans (by simp))
    · exact hans (accept _ (s.part.lock l).leaseWord) ((inspectLockBody_config hl _ h).trans (by simp))
    · exact hans _ (inspectLockBody_badView h _)
  · obtain ⟨hans, hrest⟩ := Part.serveSupervisor_read Part.inspectRecordBody hc hm rfl (inspectRecordBody_fst args)
    refine ⟨_, exec_superviseTake (c := .inspectRecord) rfl s, fun n hn h18 => ?_,
      fun h => hans _ (inspectRecordBody_badArgument_of h _), hrest⟩
    have found (list : Bool) (h : (pick args 1).toNat = list.toNat) {ans : Answer}
        (he : (s.part.lock l).recordAnswer list (n + 1) = ans) :=
      hans ans ((inspectRecordBody_of hl _ hn h18 h).trans (by simpa using he))
    refine ⟨fun h => ⟨fun x hx => ?_, fun hx => ?_⟩, fun h => ⟨fun x hx => ?_, fun hx => ?_⟩⟩
    · exact found false h (LockEntry.recordAnswer_holder hx)
    · exact found false h (LockEntry.recordAnswer_beyond.1 hx)
    · exact found true h (LockEntry.recordAnswer_waiter hx)
    · exact found true h (LockEntry.recordAnswer_beyond.2 hx)
  · dsimp only
    rw [← e.agentWaiters_eq, ← e.channelWaiters_eq]
    have hst := e.state.bits.isLt
    refine ⟨fun hh ha hc mode hmode => ?_, fun hq => ?_, e.leaseWord_toNat⟩
    · have hmb := (holdingModeBits e.holdingMode).isLt
      have hword := e.standingWord_toNat hh ha hc
      rw [holdingModeBits_of e hmode] at hword hmb
      have hboth := toNat_or_periodField hword t (by omega)
      rw [LockState.bits_toNat] at hword hboth
      rw [Period.bits_toNat] at hboth
      exact ⟨hword, hboth⟩
    · have hcb := e.cls.bits.isLt
      have hmk := e.mask.isLt
      have hboth := toNat_or_periodField (e.configWord_toNat hq) t (by omega)
      rw [LockState.bits_toNat, LockClass.bits_toNat, Period.bits_toNat] at hboth
      exact hboth
  · have hrecord := recordWord_toNat
    simp only [Party.bits_toNat, Mode.bits_toNat, countFields_toNat] at hrecord
    exact ⟨hrecord 2 _ _ _ _, hrecord 1 _ _ _ _⟩

end Sys2Proof.Machine
end

section
/-! Proofs: the channels' claims at the lock engine (O39, O40). -/

namespace Sys2Proof.Machine

/-! ### A channel's claim taken (R20) -/

/-- The coordinator once the engine has taken the claim of a channel. -/
def Part.claimTaken (p : Part) (c : ChanId) : Part := (p.served (chanPos c)).setClaim c none

@[simp] theorem Part.claimTaken_keeps (p : Part) (c : ChanId) :
    (∀ l, (p.claimTaken c).lock l = p.lock l) ∧ (∀ g, (p.claimTaken c).queue g = p.queue g) ∧
      (∀ a, (p.claimTaken c).agent a = p.agent a) ∧ (p.claimTaken c).clearing = p.clearing ∧
      (p.claimTaken c).transfer = p.transfer := by
  simp [Part.claimTaken]

@[simp] theorem Part.claimTaken_sets (p : Part) (c : ChanId) :
    (p.claimTaken c).engine.claims.get c = none ∧ (p.claimTaken c).engine.lastServed = chanPos c := by
  simp [Part.claimTaken]

theorem Part.claimTaken_frame (p : Part) (c : ChanId) : Frame p (p.claimTaken c) [.claim c, .lastServed] := by
  intro x hx
  cases x <;> simp_all [SameAt, Part.claimTaken, PerChan.get_set]

/-- The command by which the engine takes a claim of a channel, and what it does with it. -/
def claimService (c : ChanId) (cl : ChanClaim) : Instr × (Part → Part) :=
  match cl with
  | .acquisition l m r w owner => (.channelAcquisition c, Part.acquireFor c l m r w owner)
  | .removal l => (.channelWaiterRemoval c, Part.removeWaiterFor c l)
  | .release l => (.channelRelease c, Part.releaseFor c l)
  | .acquireGuard l =>
    (.acquireGuardCheck c, fun p => p.toTransfer (.guardAnswer c ((p.lock l).holderOf (.chan c)).isSome))
  | .fenceGuard l owner token =>
    (.fenceGuardCheck c, fun p => p.toTransfer (.guardAnswer c ((p.lock l).heldBy owner token)))

/-- A command that takes a channel's claim, where it knows the claim and the arbiter comes to the channel. -/
theorem exec_takesClaim {i : Instr} {s : State} {c : ChanId} {cl : ChanClaim} {f : Part → Part}
    {body : ChanClaim → Option (Part → Part)} (hx : exec i s = .next (s.onPart fun p => p.serveChannel c body))
    (hc : s.part.engine.claims.get c = some cl) (hb : body cl = some f) (hm : s.part.mayServe (chanPos c) = true) :
    exec i s = .next { s with part := f (s.part.claimTaken c) } := by
  rw [hx, State.onPart, Part.serveChannel_of body hc hb hm, Part.claimTaken]

theorem exec_claimService {s : State} {c : ChanId} {cl : ChanClaim} (hc : s.part.engine.claims.get c = some cl)
    (hm : s.part.mayServe (chanPos c) = true) :
    exec (claimService c cl).1 s = .next { s with part := (claimService c cl).2 (s.part.claimTaken c) } := by
  cases cl <;> exact exec_takesClaim rfl hc rfl hm

/-- What the engine does with a claim leaves the claims and the arbiter's position. -/
theorem claimService_keeps (c : ChanId) (cl : ChanClaim) (p : Part) :
    ((claimService c cl).2 p).engine.claims = p.engine.claims ∧
      ((claimService c cl).2 p).engine.lastServed = p.engine.lastServed := by
  cases cl with
  | acquisition l m r w owner =>
    simp only [claimService, Part.acquireFor]
    (repeat' split) <;> simp
  | removal l =>
    simp only [claimService, Part.removeWaiterFor]
    (repeat' split) <;> simp
  | release l =>
    simp only [claimService, Part.releaseFor]
    split <;> simp
  | acquireGuard l => simp [claimService]
  | fenceGuard l owner token => simp [claimService]

/-- A claim that has been taken has left its position, and the arbiter has moved on to it (R20). -/
theorem claimService_sets (c : ChanId) (cl : ChanClaim) (p : Part) :
    ((claimService c cl).2 (p.claimTaken c)).engine.claims.get c = none ∧
      ((claimService c cl).2 (p.claimTaken c)).engine.lastServed = chanPos c := by
  obtain ⟨hclaims, hserved⟩ := claimService_keeps c cl (p.claimTaken c)
  rw [hclaims, hserved]
  exact p.claimTaken_sets c

/-! ### The acquisition (R62) -/

section
variable {p : Part} {c : ChanId} {l : LockId} {m : Mode} {requested waitLimit : Ticks} {owner : AgentId}

theorem LockEntry.admitsChannel_iff (e : LockEntry) (m : Mode) (owner : AgentId) : e.admitsChannel m owner = true ↔
    e.state = .opened ∧ ¬(m = .shared ∧ e.cls = .exclusiveOnly) ∧ e.mask.getLsbD owner.val = true := by
  simp [LockEntry.admitsChannel, and_assoc, imp_iff_not_or, -BitVec.getLsbD_eq_getElem]

theorem Part.acquireFor_closed (h : ¬(p.lock l).admitsChannel m owner = true) :
    Part.acquireFor c l m requested waitLimit owner p = p.toTransfer (.acquisitionAnswer c .closed) := by
  simp [Part.acquireFor, h]

theorem Part.acquireFor_granted (h : (p.lock l).admitsChannel m owner = true) (hg : (p.lock l).grantableNow m = true) :
    Part.acquireFor c l m requested waitLimit owner p =
      (p.setLock l ((p.lock l).withHolding ((p.lock l).newHolding (.chan c) owner m requested))).toTransfer
        (.acquisitionAnswer c (.granted (p.lock l).nextToken ((p.lock l).effectiveLease requested))) := by
  simp only [Part.acquireFor, h, hg, Bool.not_true, Bool.false_eq_true, if_false, if_true, LockEntry.newHolding,
    LockEntry.leaseGiven_getD]

theorem Part.acquireFor_waits (h : (p.lock l).admitsChannel m owner = true) (hg : (p.lock l).grantableNow m = false) :
    Part.acquireFor c l m requested waitLimit owner p =
      (p.setLock l ((p.lock l).withWait (newWait (.chan c) owner m requested waitLimit))).toTransfer
        (.acquisitionAnswer c .waits) := by
  simp [Part.acquireFor, h, hg]

end

/-- A claim that is answered with nothing else changed. -/
theorem Part.claimAnswered (p : Part) (c : ChanId) (i : TransferItem) :
    ((p.claimTaken c).toTransfer i).transfer.inbox = p.transfer.inbox ++ [i] ∧
      Frame p ((p.claimTaken c).toTransfer i) [.claim c, .inbox, .lastServed] :=
  ⟨by simp, ((p.claimTaken_frame c).append (Part.toTransfer_frame _ i)).weaken (by simp)⟩

/-- A claim that changes one lock's entry and is answered. -/
theorem Part.claimRecorded (p : Part) (c : ChanId) (l : LockId) (e : LockEntry) (i : TransferItem) :
    (((p.claimTaken c).setLock l e).toTransfer i).transfer.inbox = p.transfer.inbox ++ [i] ∧
      (((p.claimTaken c).setLock l e).toTransfer i).lock l = e ∧
      Frame p (((p.claimTaken c).setLock l e).toTransfer i) [.claim c, .inbox, .lastServed, .lock l] :=
  ⟨by simp, by simp, (((p.claimTaken_frame c).append (Part.setLock_frame _ l e)).append (Part.toTransfer_frame _ i)).weaken
    (by simp)⟩

/-- Settles O39, by the three courses of the claim. -/
theorem channelAcquisitionAnswered : Obligations.ChannelAcquisitionAnswered := by
  intro s c l m requested waitLimit owner hc hm
  obtain ⟨hclaim, hserved⟩ := claimService_sets c (.acquisition l m requested waitLimit owner) s.part
  refine ⟨_, exec_claimService hc hm, hclaim, hserved, ?_⟩
  simp only [claimService]
  rw [← LockEntry.admitsChannel_iff]
  refine ⟨fun h => ?_, fun h hg => ?_, fun h hg => ?_⟩
  · rw [Part.acquireFor_closed (by simpa using h)]
    exact s.part.claimAnswered c _
  · rw [Part.acquireFor_granted (by simpa using h) (by simpa using hg)]
    simp only [Part.claimTaken_keeps]
    exact s.part.claimRecorded c l _ _
  · rw [Part.acquireFor_waits (by simpa using h) (by simpa using hg)]
    simp only [Part.claimTaken_keeps]
    exact s.part.claimRecorded c l _ _

/-! ### The removal of a wait, and the release (R63, R64) -/

section
variable {p : Part} {c : ChanId} {l : LockId}

theorem Part.removeWaiterFor_gone (h : (p.lock l).waiterOf (.chan c) ≠ none) : Part.removeWaiterFor c l p =
    ((p.setLock l ((p.lock l).withoutWaiter (.chan c))).runPass l).1.toTransfer (.removalAnswer c .gone) := by
  obtain ⟨w, hw⟩ := Option.ne_none_iff_exists'.1 h
  simp [Part.removeWaiterFor, hw]

theorem Part.removeWaiterFor_holds {x : Holding} (h : (p.lock l).waiterOf (.chan c) = none)
    (hx : (p.lock l).holderOf (.chan c) = some x) :
    Part.removeWaiterFor c l p = p.toTransfer (.removalAnswer c (.holds x.token)) := by
  simp [Part.removeWaiterFor, h, hx]

theorem Part.removeWaiterFor_noRecord (h : (p.lock l).waiterOf (.chan c) = none)
    (hx : (p.lock l).holderOf (.chan c) = none) :
    Part.removeWaiterFor c l p = p.toTransfer (.removalAnswer c .noRecord) := by
  simp [Part.removeWaiterFor, h, hx]

theorem Part.releaseFor_held (h : (p.lock l).holderOf (.chan c) ≠ none) : Part.releaseFor c l p =
    ((p.setLock l ((p.lock l).withoutHolder (.chan c))).settle l).1.toTransfer (.releaseAnswer c true) := by
  obtain ⟨x, hx⟩ := Option.ne_none_iff_exists'.1 h
  simp [Part.releaseFor, hx]

theorem Part.releaseFor_none (h : (p.lock l).holderOf (.chan c) = none) :
    Part.releaseFor c l p = p.toTransfer (.releaseAnswer c false) := by
  simp [Part.releaseFor, h]

end

/-- A claim that puts the entry `e` in a lock's place, runs the grant pass there, and is answered. -/
theorem Part.claimPassed (p : Part) (c : ChanId) (l : LockId) (e : LockEntry) (i : TransferItem) :
    ((((p.claimTaken c).setLock l e).runPass l).1.toTransfer i).lock l = e.grantPass.1 ∧
      (∀ b, ((((p.claimTaken c).setLock l e).runPass l).1.toTransfer i).queue (.agent b) =
        p.queueAfter b (grantsTo l b e.grantPass.2) (grantsTo l b e.grantPass.2).length) ∧
      ((((p.claimTaken c).setLock l e).runPass l).1.toTransfer i).transfer.inbox =
        p.transfer.inbox ++ grantReports e.grantPass.2 ++ [i] ∧
      Frame p ((((p.claimTaken c).setLock l e).runPass l).1.toTransfer i) (.claim c :: passPieces l) := by
  obtain ⟨hlock, _, hgrants, _⟩ := ((p.claimTaken c).setLock l e).runPass_spec l
  have hframe := (((p.claimTaken_frame c).append (Part.setLock_frame _ l e)).append (Part.runPass_frame _ l)).append
    (Part.toTransfer_frame _ i)
  rw [Part.lock_setLock, if_pos rfl] at hlock hgrants
  obtain ⟨hqueue, hinbox⟩ := hgrants.of_same (p := p) (by simp) (by simp [Part.discards]) (by simp)
  exact ⟨by simp [hlock], fun b => by simp [hqueue], by simp [hinbox],
    hframe.weaken (by simp +contextual [passPieces, or_imp])⟩

/-- The release of a channel's holding on a CLOSING lock: the lock is drained where that was the last holding (R7, R64). -/
theorem Part.releaseFor_closing (p : Part) (c : ChanId) (l : LockId) (hh : (p.lock l).holderOf (.chan c) ≠ none)
    (hst : (p.lock l).state = .closing) :
    let e := (p.lock l).withoutHolder (.chan c)
    let q := Part.releaseFor c l (p.claimTaken c)
    q.transfer.inbox = p.transfer.inbox ++ [.releaseAnswer c true] ∧
      (e.holders ≠ [] → q.lock l = e ∧ Frame p q [.claim c, .inbox, .lastServed, .lock l]) ∧
      (e.holders = [] → q.lock l = { e with state := .disabled } ∧
        q.queue .supervisor = { notices := (p.queue .supervisor).notices ++ [.lockClosed l],
                                reserved := (p.queue .supervisor).reserved - 1 } ∧
        Frame p q [.claim c, .inbox, .lastServed, .lock l, .queue .supervisor]) := by
  dsimp only
  rw [Part.releaseFor_held (by simpa using hh)]
  simp only [Part.claimTaken_keeps]
  have hclosing : ((p.lock l).withoutHolder (.chan c)).state = .closing := hst
  generalize (p.lock l).withoutHolder (.chan c) = e at hclosing ⊢
  have hentry : ((p.claimTaken c).setLock l e).lock l = e := by simp
  by_cases hlast : e.holders = []
  · rw [Part.settle_of_drained (by rwa [hentry]) (by rwa [hentry])]
    refine ⟨by simp, fun hne => absurd hlast hne, fun _ => ⟨by simp, by simp [Queue.deliver], ?_⟩⟩
    exact ((((p.claimTaken_frame c).append (Part.setLock_frame _ l e)).append (Part.drain_frame _ l)).append
      (Part.toTransfer_frame _ _)).weaken (by simp)
  · rw [Part.settle_of_held (by rwa [hentry]) (by rwa [hentry])]
    obtain ⟨hinbox, hlock, hframe⟩ := p.claimRecorded c l e (.releaseAnswer c true)
    exact ⟨hinbox, fun _ => ⟨hlock, hframe⟩, fun hnil => absurd hnil hlast⟩

/-! ### The guard checks (R110, R111) -/

theorem LockEntry.holderOf_isSome_iff (e : LockEntry) (q : Party) :
    (e.holderOf q).isSome = true ↔ ∃ h ∈ e.holders, h.party = q := by
  simp [LockEntry.holderOf]

theorem LockEntry.heldBy_iff (e : LockEntry) (owner : AgentId) (token : Word) :
    e.heldBy owner token = true ↔ ∃ h ∈ e.holders, h.party = .agent owner ∧ h.token = token := by
  simp [LockEntry.heldBy]

/-! ### O40 -/

/-- Settles O40: each claim is answered alone, or ends with a grant pass (`Part.claimPassed`) or on a CLOSING lock. -/
theorem channelClaimsAnswered : Obligations.ChannelClaimsAnswered := by
  intro s c l hm
  have answered (i : TransferItem) :
      ((s.part.claimTaken c).toTransfer i).transfer.inbox = s.part.transfer.inbox ++ grantReports [] ++ [i] := by
    simp [grantReports]
  have alone (i : TransferItem) := (s.part.claimAnswered c i).2
  have taken (cl : ChanClaim) := claimService_sets c cl s.part
  refine ⟨fun hc => ⟨_, exec_claimService hc hm, (taken _).1, (taken _).2, ?_⟩,
    fun hc => ⟨_, exec_claimService hc hm, (taken _).1, (taken _).2, ?_⟩,
    fun hc => ⟨_, exec_claimService hc hm, (taken _).1, (taken _).2, ?_⟩,
    fun owner token hc => ⟨_, exec_claimService hc hm, (taken _).1, (taken _).2, ?_⟩⟩ <;> simp only [claimService]
  · refine ⟨fun hw => ?_, fun hw => ⟨?_, fun x hx => ?_, fun hx => ?_⟩⟩
    · rw [Part.removeWaiterFor_gone (by simpa using hw)]
      simp only [Part.claimTaken_keeps]
      exact s.part.claimPassed c l _ _
    · cases hx : (s.part.lock l).holderOf (.chan c) with
      | some x =>
        rw [Part.removeWaiterFor_holds (by simpa using hw) (by simpa using hx)]
        exact alone _
      | none =>
        rw [Part.removeWaiterFor_noRecord (by simpa using hw) (by simpa using hx)]
        exact alone _
    · rw [Part.removeWaiterFor_holds (by simpa using hw) (by simpa using hx)]
      exact answered _
    · rw [Part.removeWaiterFor_noRecord (by simpa using hw) (by simpa using hx)]
      exact answered _
  · refine ⟨fun hh hst => ?_, fun hh hst => ?_, fun hh => ?_⟩
    · have hopened : ((s.part.lock l).withoutHolder (.chan c)).state = .opened := hst
      rw [Part.releaseFor_held (by simpa using hh), Part.settle_of_opened (by simpa using hopened)]
      simp only [Part.claimTaken_keeps]
      exact s.part.claimPassed c l _ _
    · obtain ⟨hinbox, hlasts⟩ := s.part.releaseFor_closing c l hh hst
      exact ⟨by simpa [grantReports] using hinbox, hlasts⟩
    · rw [Part.releaseFor_none (by simpa using hh)]
      exact ⟨answered _, alone _⟩
  · exact ⟨⟨_, LockEntry.holderOf_isSome_iff _ _, answered _⟩, alone _⟩
  · exact ⟨⟨_, LockEntry.heldBy_iff _ owner token, answered _⟩, alone _⟩

end Sys2Proof.Machine
end

section
/-! Proofs: leases, RENEW, and the two supervisor commands that store one value, SET_TIMEBASE and SET_BUS_WAIT (O26, O32,
O41). -/

namespace Sys2Proof.Machine

/-! ### The effective lease (R68) -/

theorem LockEntry.effectiveLease_of_no_leases {e : LockEntry} (h : e.maxLease = 0) (requested : Ticks) :
    e.effectiveLease requested = 0 := by
  simp [LockEntry.effectiveLease, h]

theorem LockEntry.effectiveLease_toNat {e : LockEntry} (h : e.maxLease ≠ 0) (requested : Ticks) :
    (e.effectiveLease requested).toNat =
      min (if requested = 0 then e.defaultLease else requested).toNat e.maxLease.toNat := by
  simp only [LockEntry.effectiveLease, if_neg h, BitVec.lt_def]
  generalize (if requested = 0 then e.defaultLease else requested) = r
  split
  · rw [min_eq_right (by omega)]
  · rw [min_eq_left (by omega)]

/-- Settles O32: the bounds follow from the table, since neither of the two leases whose lesser one it gives is 0. -/
theorem effectiveLease : Obligations.EffectiveLease := by
  intro e requested
  refine ⟨fun h => ⟨LockEntry.effectiveLease_of_no_leases h requested, if_pos h⟩, fun h => ⟨if_neg h, ?_⟩⟩
  have table := LockEntry.effectiveLease_toNat h requested
  refine ⟨fun hr => by rw [table, if_pos hr], fun hr => by rw [table, if_neg hr], fun hd => ?_⟩
  have hasked : (if requested = 0 then e.defaultLease else requested) ≠ 0 := by
    split
    · exact hd
    · assumption
  have pos {t : Ticks} (ht : t ≠ 0) : 1 ≤ t.toNat := Nat.one_le_iff_ne_zero.2 (BitVec.toNat_ne_iff_ne.2 ht)
  rw [table]
  exact ⟨le_min (pos hasked) (pos h), min_le_right _ _⟩

/-! ### RENEW (R71) -/

/-- RENEW of a holding: the remaining lease is set in place (R71). -/
def Part.renewed (p : Part) (a : AgentId) (l : LockId) (lease : Ticks) : Part :=
  p.setLock l ((p.lock l).onHolder (.agent a) fun h => { h with remaining := (p.lock l).leaseGiven lease })

theorem renewBody_of_held {a : AgentId} {args : Vector Word 6} {l : LockId} {lease : Ticks} {p : Part} {h : Holding}
    (hl : (pick args 0).toNat % 256 = l.val) (ht : (pick args 2).toNat = lease.toNat)
    (hh : (p.lock l).holderOf (.agent a) = some h) (hk : h.token = pick args 1) :
    Part.renewBody a args p =
      (p.renewed a l lease, accept h.token (((p.lock l).effectiveLease lease).setWidth 32)) := by
  simp [Part.renewBody, lockField_of _ _ hl, wholeTicks_of _ _ ht, LockEntry.heldUnder_of_token hh hk, Part.renewed,
    fieldAt_zero]

/-- Settles O26: the one change is that of the lock's entry (`Part.renewed`). -/
theorem renewSetsLease : Obligations.RenewSetsLease := by
  intro s a args l lease h hc hm hs hl ht hh hk
  have hexec := exec_lockTake (a := a) (c := .renew) rfl s
  have hb := renewBody_of_held (p := s.part.served (agentPos a)) hl ht (by simpa using hh) hk
  rw [Part.serveAgent_of _ hc hm hs, lockBody, hb] at hexec
  refine ⟨_, hexec, by simp [Part.renewed], ?_, ?_, ?_⟩
  · simp [Part.renewed, LockEntry.onHolder, LockEntry.leaseGiven]
  · simp only [Part.served_keeps]
    exact s.part.present_answered _ (.agent a) (accept h.token _) (by simp [Part.renewed])
  · exact (((s.part.served_frame _).append (Part.setLock_frame _ l _)).present _ _).weaken (by simp)

/-! ### SET_TIMEBASE (R67) -/

theorem periodOfCode_of {w : Word} {t : Period} (h : w.toNat = t.bits.toNat) : periodOfCode w = some t := by
  have hw : w = t.bits.setWidth 32 := BitVec.eq_of_toNat_eq (by rw [h, BitVec.toNat_setWidth_of_le (by norm_num)])
  rw [hw]
  cases t <;> rfl

theorem periodOfCode_none {w : Word} (h : 3 < w.toNat) : periodOfCode w = none := by
  have hne (v : Word) (hv : v.toNat ≤ 3) : w ≠ v := by
    rintro rfl
    omega
  simp only [periodOfCode, hne 0 (by decide), hne 1 (by decide), hne 2 (by decide), hne 3 (by decide), if_false]

theorem Part.setPeriod_frame (p : Part) (t : Period) : Frame p (p.setPeriod t) [.period] := by
  intro x hx
  cases x <;> simp_all [SameAt]

theorem setTimebaseBody_of {args : Vector Word 6} {t : Period} (h : (pick args 0).toNat = t.bits.toNat) (p : Part) :
    Part.setTimebaseBody args p = (p.setPeriod t, accept (p.period.bits.setWidth 32) 0) := by
  simp [Part.setTimebaseBody, periodOfCode_of h, fieldAt_zero]

theorem setTimebaseBody_badArgument {args : Vector Word 6} (h : 3 < (pick args 0).toNat) (p : Part) :
    Part.setTimebaseBody args p = (p, refuse .badArgument) := by
  simp [Part.setTimebaseBody, periodOfCode_none h]

theorem setTimebaseBody_frame (args : Vector Word 6) (p : Part) : Frame p (Part.setTimebaseBody args p).1 [.period] := by
  unfold Part.setTimebaseBody
  split
  · exact Frame.refl p _
  · exact p.setPeriod_frame _

/-! ### SET_BUS_WAIT (R130) -/

theorem setBusWaitBody_of {args : Vector Word 6} (h1 : 1 ≤ (pick args 0).toNat) (h2 : (pick args 0).toNat ≤ 255) (p : Part) :
    Part.setBusWaitBody args p =
      (p.setMaster { p.master with limit := (pick args 0).setWidth 8 }, accept (p.master.limit.setWidth 32) 0) := by
  simp [Part.setBusWaitBody, busWaitArg, h1, h2, fieldAt_zero]

theorem setBusWaitBody_badArgument {args : Vector Word 6} (h : (pick args 0).toNat = 0 ∨ 255 < (pick args 0).toNat)
    (p : Part) : Part.setBusWaitBody args p = (p, refuse .badArgument) := by
  simp only [Part.setBusWaitBody, busWaitArg]
  rw [if_neg (by omega)]

theorem setBusWaitBody_frame (args : Vector Word 6) (p : Part) : Frame p (Part.setBusWaitBody args p).1 [.master] := by
  unfold Part.setBusWaitBody
  split
  · exact Frame.refl p _
  · exact p.setMaster_frame _

/-! ### O41 -/

/-- Settles O41: what each command's body sets, with its answer presented. -/
theorem timebaseAndBusWaitAreSet : Obligations.TimebaseAndBusWaitAreSet := by
  intro s args hcl
  refine ⟨fun hw => ?_, fun hw => ?_⟩
  · have hexec : exec (.setTimebase .take) s =
        .next { s with part := s.part.takeSupervisor .setTimebase true Part.setTimebaseBody } := rfl
    rw [Part.takeSupervisor_of _ _ hw rfl hcl] at hexec
    refine ⟨_, hexec, fun t h => ?_, fun h => ?_, ?_⟩
    · rw [setTimebaseBody_of h]
      exact ⟨by simp, s.part.present_answered _ _ (accept _ 0) (by simp)⟩
    · rw [setTimebaseBody_badArgument h]
      exact ⟨by simp, (s.part.present_alone _ (refuse .badArgument)).1⟩
    · exact ((setTimebaseBody_frame args s.part).present _ _).weaken (by simp)
  · have hexec : exec (.setBusWait .take) s =
        .next { s with part := s.part.takeSupervisor .setBusWait true Part.setBusWaitBody } := rfl
    rw [Part.takeSupervisor_of _ _ hw rfl hcl] at hexec
    refine ⟨_, hexec, fun h1 h2 => ?_, fun h => ?_, ?_⟩
    · rw [setBusWaitBody_of h1 h2]
      exact ⟨by simp, s.part.present_answered _ _ (accept _ 0) (by simp)⟩
    · rw [setBusWaitBody_badArgument h]
      exact ⟨by simp, (s.part.present_alone _ (refuse .badArgument)).1⟩
    · exact ((setBusWaitBody_frame args s.part).present _ _).weaken (by simp)

end Sys2Proof.Machine
end

section
/-! Proofs: POP (O7), CONTROL writes (O8), and the interrupt lines (O12). -/

namespace Sys2Proof.Machine

/-! ### POP and CONTROL from a page's slot, and from another (R93, R97) -/

/-- A write from a slot that fails the page's check changes nothing (R25, R136). -/
theorem Part.writeFrom_slotFails {p : Part} {g : PageId} {slot : Slot} (hs : p.slotPasses g slot = false) (r : Reg)
    (value : Word) : p.writeFrom g slot r value = p := by
  simp [Part.writeFrom, hs]

theorem Part.writeFrom_pop {p : Part} {g : PageId} {slot : Slot} (hs : p.slotPasses g slot = true) (value : Word) :
    p.writeFrom g slot .pop value = p.onQueue g Queue.pop := by
  simp [Part.writeFrom, hs, Part.writeRegister]

theorem Part.writeFrom_control {p : Part} {g : PageId} {slot : Slot} (hs : p.slotPasses g slot = true) (value : Word) :
    p.writeFrom g slot .control value = p.setPage g ((p.page g).control value) := by
  simp [Part.writeFrom, hs, Part.writeRegister]

theorem Part.onQueue_frame (p : Part) (g : PageId) (f : Queue → Queue) : Frame p (p.onQueue g f) [.queue g] :=
  p.setQueue_frame g _

/-- A change of a queue that leaves it as it is leaves the coordinator as it is. -/
theorem Part.onQueue_of_same {p : Part} {g : PageId} {f : Queue → Queue} (hf : f (p.queue g) = p.queue g) :
    p.onQueue g f = p := by
  apply Frame.total
  intro x _
  by_cases hx : x = .queue g
  · subst hx
    simp [SameAt, hf]
  · exact p.onQueue_frame g f x (by simpa using hx)

theorem Queue.pop_of_empty {q : Queue} (hq : q.notices = []) : q.pop = q := by
  cases q
  simp_all [Queue.pop]

theorem Queue.pop_eq_drop (q : Queue) : q.pop = { notices := q.notices.drop 1, reserved := q.reserved } := by
  simp [Queue.pop]

/-- Settles O7. -/
theorem popRemovesHead : Obligations.PopRemovesHead := by
  intro s g slot value
  refine ⟨s.part.writeFrom g slot .pop value, rfl, fun hs => ?_, fun hq => ?_, fun hs => Part.writeFrom_slotFails hs _ _⟩
  · rw [Part.writeFrom_pop hs]
    exact ⟨by simp [Queue.pop_eq_drop], s.part.onQueue_frame g _⟩
  · cases hs : s.part.slotPasses g slot with
    | false => exact Part.writeFrom_slotFails hs _ _
    | true => exact (Part.writeFrom_pop hs value).trans (Part.onQueue_of_same (Queue.pop_of_empty hq))

/-- DONE and COLLIDE after a CONTROL write: kept where ACK, bit 2, is 0. -/
theorem Page.control_eq (pg : Page) (value : Word) :
    pg.control value =
      { pg with
        noticeEnable := value.getLsbD 0, doneEnable := value.getLsbD 1,
        done := pg.done && !value.getLsbD 2, collide := pg.collide && !value.getLsbD 2 } := by
  unfold Page.control
  cases value.getLsbD 2 <;> simp

/-- Settles O8. -/
theorem controlWriteSetsEnables : Obligations.ControlWriteSetsEnables := by
  intro s g slot value hs
  refine ⟨s.part.writeFrom g slot .control value, rfl, ?_⟩
  rw [Part.writeFrom_control hs, Page.control_eq]
  exact ⟨by simp, s.part.setPage_frame g _⟩

/-! ### The interrupt lines (R95) -/

theorem lineLevel_iff (pg : Page) (q : Queue) :
    lineLevel pg q = true ↔
      (pg.noticeEnable = true ∧ 0 < q.notices.length) ∨ (pg.doneEnable = true ∧ pg.done = true) := by
  simp [lineLevel, List.length_pos_iff]

/-- At reset neither enable is set. -/
theorem Part.line_reset (straps : Straps) (g : PageId) : (Part.reset straps).line g = false := by
  simp [Part.line, lineLevel, Page.reset]

/-- Settles O12. -/
theorem interruptLineLevel : Obligations.InterruptLineLevel :=
  ⟨fun p g => lineLevel_iff (p.page g) (p.queue g), Part.line_reset⟩

end Sys2Proof.Machine
end

section
/-! Proofs: what the registers of a page read, the notice words, and the result codes (O10). -/

namespace Sys2Proof.Machine

/-! ### One field of a packed word -/

theorem getLsbD_fieldAt {w : Nat} (lo : Nat) (x : BitVec w) (i : Nat) :
    (fieldAt lo x).getLsbD i = (decide (i < 32) && decide (lo ≤ i) && x.getLsbD (i - lo)) := by
  rw [fieldAt, BitVec.getLsbD_shiftLeft, BitVec.getLsbD_setWidth]
  by_cases hi : i < 32
  · by_cases hlo : lo ≤ i
    · simp [hi, hlo, show i - lo < 32 by omega]
    · simp [hlo, show i < lo by omega]
  · simp [hi]

/-- Below and above a field its word reads 0. -/
theorem getLsbD_fieldAt_outside {w : Nat} {lo : Nat} (x : BitVec w) {i : Nat} (h : i < lo ∨ lo + w ≤ i) :
    (fieldAt lo x).getLsbD i = false := by
  rw [getLsbD_fieldAt]
  obtain h | h := h
  · simp [show ¬lo ≤ i by omega]
  · simp [x.getLsbD_of_ge (i - lo) (by omega)]

theorem extractLsb'_fieldAt {w : Nat} {lo : Nat} (x : BitVec w) (h : lo + w ≤ 32) : (fieldAt lo x).extractLsb' lo w = x := by
  apply BitVec.eq_of_getLsbD_eq
  intro i hi
  rw [BitVec.getLsbD_extractLsb', getLsbD_fieldAt, Nat.add_sub_cancel_left]
  simp [hi, show lo + i < 32 by omega]

theorem extractLsb'_fieldAt_apart {w : Nat} {lo : Nat} (x : BitVec w) {k n : Nat} (h : k + n ≤ lo ∨ lo + w ≤ k) :
    (fieldAt lo x).extractLsb' k n = 0 := by
  apply BitVec.eq_of_getLsbD_eq
  intro i hi
  rw [BitVec.getLsbD_extractLsb', getLsbD_fieldAt_outside x (by omega)]
  simp

theorem getLsbD_bitAt {lo : Nat} (b : Bool) (h : lo < 32) : (bitAt lo b).getLsbD lo = b := by
  rw [bitAt, getLsbD_fieldAt, Nat.sub_self]
  simp [h]

theorem getLsbD_bitAt_apart {lo : Nat} (b : Bool) {i : Nat} (h : i ≠ lo) : (bitAt lo b).getLsbD i = false :=
  getLsbD_fieldAt_outside _ (by omega)

theorem extractLsb'_bitAt_apart {lo : Nat} (b : Bool) {k n : Nat} (h : k + n ≤ lo ∨ lo < k) :
    (bitAt lo b).extractLsb' k n = 0 :=
  extractLsb'_fieldAt_apart _ h

/-! ### STATUS (R157) -/

/-- What STATUS shows of the port's copy, in bits 5 to 3; 0 on the supervisor page. -/
def copyWord (copy : Option AgentEntry) : Word :=
  match copy with
  | some e => fieldAt 3 e.state.bits ||| bitAt 5 e.evicted
  | none => 0

theorem statusWord_eq (pg : Page) (copy : Option AgentEntry) (clear : Bool) (q : Queue) :
    statusWord pg copy clear q =
      bitAt 0 pg.inFlight.isSome ||| bitAt 1 pg.done ||| bitAt 2 pg.collide ||| copyWord copy ||| bitAt 6 clear |||
        fieldAt 8 (BitVec.ofNat 5 q.reserved) ||| fieldAt 16 (BitVec.ofNat 5 q.notices.length) |||
        fieldAt 24 pg.code.bits := by
  cases copy <;> rfl

theorem getLsbD_copyWord_outside (copy : Option AgentEntry) {i : Nat} (h : i < 3 ∨ 6 ≤ i) :
    (copyWord copy).getLsbD i = false := by
  cases copy with
  | none => exact BitVec.getLsbD_zero
  | some e =>
    rw [copyWord, BitVec.getLsbD_or, getLsbD_fieldAt_outside _ (by omega), getLsbD_bitAt_apart _ (by omega), Bool.or_false]

theorem extractLsb'_copyWord_apart (copy : Option AgentEntry) {k n : Nat} (h : k + n ≤ 3 ∨ 6 ≤ k) :
    (copyWord copy).extractLsb' k n = 0 := by
  apply BitVec.eq_of_getLsbD_eq
  intro i hi
  rw [BitVec.getLsbD_extractLsb', getLsbD_copyWord_outside copy (by omega)]
  simp

section
variable (pg : Page) (copy : Option AgentEntry) (clear : Bool) (q : Queue)

theorem statusWord_flags :
    (statusWord pg copy clear q).getLsbD 0 = pg.inFlight.isSome ∧ (statusWord pg copy clear q).getLsbD 1 = pg.done ∧
      (statusWord pg copy clear q).getLsbD 2 = pg.collide ∧ (statusWord pg copy clear q).getLsbD 6 = clear := by
  rw [statusWord_eq]
  refine ⟨?_, ?_, ?_, ?_⟩ <;>
    simp (disch := omega) only [BitVec.getLsbD_or, getLsbD_bitAt, getLsbD_bitAt_apart, getLsbD_copyWord_outside,
      getLsbD_fieldAt_outside, Bool.or_false, Bool.false_or]

theorem statusWord_counts :
    (statusWord pg copy clear q).extractLsb' 8 5 = BitVec.ofNat 5 q.reserved ∧
      (statusWord pg copy clear q).extractLsb' 16 5 = BitVec.ofNat 5 q.notices.length ∧
      (statusWord pg copy clear q).extractLsb' 24 6 = pg.code.bits := by
  rw [statusWord_eq]
  refine ⟨?_, ?_, ?_⟩ <;>
    simp (disch := omega) only [BitVec.extractLsb'_or, extractLsb'_bitAt_apart, extractLsb'_copyWord_apart,
      extractLsb'_fieldAt, extractLsb'_fieldAt_apart, BitVec.ofNat_eq_ofNat, BitVec.or_zero, BitVec.zero_or]

/-- Bits 5 to 3 of STATUS are those of the port's copy. -/
theorem statusWord_copy :
    (statusWord pg copy clear q).getLsbD 5 = (copyWord copy).getLsbD 5 ∧
      (∀ n, n ≤ 3 → (statusWord pg copy clear q).extractLsb' 3 n = (copyWord copy).extractLsb' 3 n) := by
  rw [statusWord_eq]
  refine ⟨?_, fun n hn => ?_⟩
  · simp (disch := omega) only [BitVec.getLsbD_or, getLsbD_bitAt_apart, getLsbD_fieldAt_outside, Bool.or_false,
      Bool.false_or]
  · simp (disch := omega) only [BitVec.extractLsb'_or, extractLsb'_bitAt_apart, extractLsb'_fieldAt_apart,
      BitVec.ofNat_eq_ofNat, BitVec.or_zero, BitVec.zero_or]

/-- The bits of STATUS that R157 leaves without a meaning. -/
theorem statusWord_unused {i : Nat} (h : i = 7 ∨ 13 ≤ i ∧ i < 16 ∨ 21 ≤ i ∧ i < 24 ∨ 30 ≤ i) :
    (statusWord pg copy clear q).getLsbD i = false := by
  rw [statusWord_eq]
  simp (disch := omega) only [BitVec.getLsbD_or, getLsbD_bitAt_apart, getLsbD_copyWord_outside, getLsbD_fieldAt_outside,
    Bool.or_false]

end

theorem copyWord_some (e : AgentEntry) :
    (copyWord (some e)).extractLsb' 3 2 = e.state.bits ∧ (copyWord (some e)).getLsbD 5 = e.evicted := by
  constructor
  · simp (disch := omega) only [copyWord, BitVec.extractLsb'_or, extractLsb'_fieldAt, extractLsb'_bitAt_apart,
      BitVec.ofNat_eq_ofNat, BitVec.or_zero]
  · simp (disch := omega) only [copyWord, BitVec.getLsbD_or, getLsbD_fieldAt_outside, getLsbD_bitAt, Bool.false_or]

/-- The supervisor page shows no copy. -/
theorem copyWord_none : (copyWord none).extractLsb' 3 3 = 0 := by decide

theorem AgentState.bits_eq (st : AgentState) :
    st.bits = match st with | .disabled => 0 | .detached => 1 | .attached => 2 | .evicting => 3 := by cases st <;> rfl

/-! ### The notice head, CONTROL and IDENT (R91, R157) -/

theorem Part.readRegister_notice_empty {p : Part} {g : PageId} (h : (p.queue g).notices = []) :
    p.readRegister g .notice0 = 0 ∧ p.readRegister g .notice1 = 0 ∧ p.readRegister g .notice2 = 0 := by
  simp [Part.readRegister, Queue.headWord, h]

theorem Part.readRegister_notice_head {p : Part} {g : PageId} {n : Notice} {rest : List Notice}
    (h : (p.queue g).notices = n :: rest) :
    p.readRegister g .notice0 = n.word0 ∧ p.readRegister g .notice1 = n.word1 ∧ p.readRegister g .notice2 = n.word2 := by
  simp [Part.readRegister, Queue.headWord, h]

theorem controlWord_eq (pg : Page) :
    controlWord pg = BitVec.ofNat 32 (pg.noticeEnable.toNat + 2 * pg.doneEnable.toNat) := by
  unfold controlWord
  cases pg.noticeEnable <;> cases pg.doneEnable <;> rfl

theorem identPage_toNat (g : PageId) : (identPage g).toNat = match g with | .agent a => a.val | .supervisor => 15 := by
  cases g with
  | agent a => exact Nat.mod_eq_of_lt (by omega)
  | supervisor => rfl

theorem identWord_toNat (straps : Straps) (g : PageId) :
    (identWord straps g).toNat =
      0x2408 + 2 ^ 16 * (identPage g).toNat + 2 ^ 20 * straps.supervisorSlot.toNat + 2 ^ 24 * straps.masterSlot.toNat +
        2 ^ 28 := by
  have b1 := (identPage g).isLt
  have b2 := straps.supervisorSlot.isLt
  have b3 := straps.masterSlot.isLt
  have h0 : (fieldAt 0 Config.partNumber).toNat = 0x2408 := fieldAt_zero_toNat _ (by norm_num)
  have h1 := toNat_or_fieldAt_of h0 16 (identPage g) (by norm_num) (by norm_num)
  have h2 := toNat_or_fieldAt_of h1 20 straps.supervisorSlot (by omega) (by norm_num)
  have h3 := toNat_or_fieldAt_of h2 24 straps.masterSlot (by omega) (by norm_num)
  exact toNat_or_fieldAt_of h3 28 Config.issue (by omega) (by norm_num)

/-! ### The notice words (R164) -/

/-- The kind code and the lock field, with which most of the notices begin. -/
theorem toNat_or_noticeLock (kind : Nat) (hk : kind < 2 ^ 8) (l : LockId) :
    (BitVec.ofNat 32 kind ||| noticeLock l).toNat = kind + 2 ^ 8 * l.val := by
  have h0 : (BitVec.ofNat 32 kind).toNat = kind := Nat.mod_eq_of_lt (by omega)
  have hl : (BitVec.ofNat 6 l.val).toNat = l.val := Nat.mod_eq_of_lt (by omega)
  rw [noticeLock, toNat_or_fieldAt_of h0 8 _ hk (by norm_num), hl]

theorem chanBit_toNat (c : ChanId) : (chanBit c).toNat = match c with | .c0 => 0 | .c1 => 1 := by cases c <;> rfl

/-- The kind code and the channel bit, with which the transfers' notices and CHANNEL_PAUSED begin. -/
theorem toNat_or_chanBit (kind : Nat) (hk : kind < 2 ^ 4) {c : ChanId} {b : Nat} (hb : (chanBit c).toNat = b) :
    (BitVec.ofNat 32 kind ||| bitAt 4 (chanBit c)).toNat = kind + 2 ^ 4 * b := by
  have h0 : (BitVec.ofNat 32 kind).toNat = kind := Nat.mod_eq_of_lt (by omega)
  rw [toNat_or_bitAt _ 4 _ (by omega) (by norm_num), h0, hb]

theorem CancelReason.bits_toNat (r : CancelReason) : r.bits.toNat = match r with | .closed => 1 | .broken => 2 := by
  cases r <;> rfl

theorem RevokeReason.bits_toNat (r : RevokeReason) : r.bits.toNat = match r with | .leaseExpired => 1 | .broken => 2 := by
  cases r <;> rfl

theorem TransferFault.bits_toNat (r : TransferFault) :
    r.bits.toNat =
      match r with
      | .holdingLost => 1 | .leaseLost => 2 | .lockBroken => 3 | .lockClosed => 4 | .acquireTimeout => 5
      | .sourceError => 6 | .destError => 7 | .busTimeout => 8 | .withdrawn => 9 := by cases r <;> rfl

/-! In the lemmas of NOTICE0 below, `r` is the number that codes the mode or the reason, `b` the channel's number. -/

theorem Notice.granted_word0 (l : LockId) (token : Word) {m : Mode} (lease : Ticks) {r : Nat} (hr : m.bits.toNat = r) :
    (Notice.granted l token m lease).word0.toNat = 1 + 2 ^ 8 * l.val + 2 ^ 16 * r := by
  rw [← hr]
  exact toNat_or_fieldAt_of (toNat_or_noticeLock 1 (by norm_num) l) 16 m.bits (by omega) (by norm_num)

theorem Notice.waitCancelled_word0 (l : LockId) {why : CancelReason} {r : Nat} (hr : why.bits.toNat = r) :
    (Notice.waitCancelled l why).word0.toNat = 3 + 2 ^ 8 * l.val + 2 ^ 20 * r := by
  rw [← hr]
  exact toNat_or_fieldAt_of (toNat_or_noticeLock 3 (by norm_num) l) 20 why.bits (by omega) (by norm_num)

theorem Notice.revoked_word0 (l : LockId) (token : Word) {why : RevokeReason} {r : Nat} (hr : why.bits.toNat = r) :
    (Notice.revoked l token why).word0.toNat = 4 + 2 ^ 8 * l.val + 2 ^ 20 * r := by
  rw [← hr]
  exact toNat_or_fieldAt_of (toNat_or_noticeLock 4 (by norm_num) l) 20 why.bits (by omega) (by norm_num)

theorem Notice.transferDone_word0 (tag : BitVec 16) {c : ChanId} (bytes : Nat) (value : Option Word) {b : Nat}
    (hb : (chanBit c).toNat = b) :
    (Notice.transferDone tag c bytes value).word0.toNat = 5 + 2 ^ 4 * b + 2 ^ 16 * tag.toNat := by
  have b1 := Bool.toNat_lt (chanBit c)
  rw [← hb]
  exact toNat_or_fieldAt_of (toNat_or_chanBit 5 (by norm_num) rfl) 16 tag (by omega) (by norm_num)

/-- The reason of a TRANSFER_FAULT lies between the channel bit and the tag. -/
theorem Notice.transferFault_word0 (tag : BitVec 16) {c : ChanId} {why : TransferFault} (bytes : Nat) {b r : Nat}
    (hb : (chanBit c).toNat = b) (hr : why.bits.toNat = r) :
    (Notice.transferFault tag c why bytes).word0.toNat = 6 + 2 ^ 4 * b + 2 ^ 16 * tag.toNat + 2 ^ 8 * r := by
  have b1 := Bool.toNat_lt (chanBit c)
  have b2 := why.bits.isLt
  have h1 := toNat_or_fieldAt_of (toNat_or_chanBit 6 (by norm_num) hb) 8 why.bits (by omega) (by norm_num)
  have h2 := toNat_or_fieldAt_of h1 16 tag (by omega) (by norm_num)
  exact h2.trans (by omega)

theorem Notice.agentEvicted_word0 (a : AgentId) : (Notice.agentEvicted a).word0.toNat = 9 + 2 ^ 8 * a.val := by
  have ha : (BitVec.ofNat 3 a.val).toNat = a.val := Nat.mod_eq_of_lt (by omega)
  have h9 : (9 : Word).toNat = 9 := rfl
  have h := toNat_or_fieldAt_of h9 8 (BitVec.ofNat 3 a.val) (by norm_num) (by norm_num)
  rwa [ha] at h

theorem Notice.words_of {n : Notice} {k : Nat} {w1 w2 : Word} (h0 : n.word0.toNat = k) (h1 : n.word1 = w1)
    (h2 : n.word2 = w2) : (n.word0.toNat, n.word1, n.word2) = (k, w1, w2) := by
  rw [h0, h1, h2]

/-! ### O10 -/

/-- Settles O10: STATUS, the notice words and IDENT are packed from fields that lie apart, and each is read field by field. -/
theorem registersRead : Obligations.RegistersRead := by
  refine ⟨fun p g => ?_, fun n => ?_, fun r => by cases r <;> rfl⟩
  · refine ⟨?_, Part.readRegister_notice_empty, fun n rest => Part.readRegister_notice_head, controlWord_eq _, rfl, rfl,
      fieldAt_zero _, rfl, ?_⟩
    · have status : p.readRegister g .status = statusWord (p.page g) (p.copyOf g) p.clearing (p.queue g) := rfl
      rw [status]
      obtain ⟨hbusy, hdone, hcollide, hclear⟩ := statusWord_flags (p.page g) (p.copyOf g) p.clearing (p.queue g)
      obtain ⟨hreserved, hqueued, hcode⟩ := statusWord_counts (p.page g) (p.copyOf g) p.clearing (p.queue g)
      obtain ⟨hevicted, hcopy⟩ := statusWord_copy (p.page g) (p.copyOf g) p.clearing (p.queue g)
      refine ⟨hbusy, hdone, hcollide, hclear, hreserved, hqueued, hcode, fun a hg => ?_, fun hg => ?_, fun i hi => ?_⟩
      · subst hg
        obtain ⟨hstate, hflag⟩ := copyWord_some (pick p.port.copies a)
        exact ⟨((hcopy 2 (by norm_num)).trans hstate).trans (AgentState.bits_eq _), hevicted.trans hflag⟩
      · subst hg
        exact (hcopy 3 le_rfl).trans copyWord_none
      · refine statusWord_unused _ _ _ _ ?_
        simp only [List.mem_cons, List.not_mem_nil, or_false] at hi
        omega
    · have ident := identWord_toNat p.straps g
      rwa [identPage_toNat] at ident
  · intro chan
    have hchan (c : ChanId) : (chanBit c).toNat = chan c := chanBit_toNat c
    cases n with
    | granted l token m lease =>
      exact Notice.words_of (Notice.granted_word0 l token lease (Mode.bits_toNat m)) rfl (fieldAt_zero lease)
    | waitExpired l => exact Notice.words_of (toNat_or_noticeLock 2 (by norm_num) l) rfl rfl
    | waitCancelled l why => exact Notice.words_of (Notice.waitCancelled_word0 l why.bits_toNat) rfl rfl
    | revoked l token why => exact Notice.words_of (Notice.revoked_word0 l token why.bits_toNat) rfl rfl
    | transferDone tag c bytes value =>
      exact Notice.words_of (Notice.transferDone_word0 tag bytes value (hchan c)) rfl rfl
    | transferFault tag c why bytes =>
      exact Notice.words_of (Notice.transferFault_word0 tag bytes (hchan c) why.bits_toNat) rfl rfl
    | lockClosed l => exact Notice.words_of (toNat_or_noticeLock 8 (by norm_num) l) rfl rfl
    | agentEvicted a => exact Notice.words_of (Notice.agentEvicted_word0 a) rfl rfl
    | channelPaused c => exact Notice.words_of (toNat_or_chanBit 10 (by norm_num) (hchan c)) rfl rfl
    | clearDone => rfl

end Sys2Proof.Machine
end

section
/-! Proofs: the taking of a head (O44), PAUSE_CHANNEL and RESUME_CHANNEL (O45). -/

namespace Sys2Proof.Machine

/-! ### The head of a channel's list (R99, R106, R109) -/

section
variable {p : Part} {c : ChanId} {d : Descriptor} {ds : List Descriptor}

theorem Channel.startedHead_nil {ch : Channel} (hl : ch.list = []) : ch.startedHead = none := by
  simp [Channel.startedHead, hl]

theorem Channel.startedHead_cons {ch : Channel} (hl : ch.list = d :: ds) :
    ch.startedHead = if d.started = true then some d else none := by
  cases hs : d.started <;> simp [Channel.startedHead, hl, Option.filter, hs]

theorem Part.mayTakeHead_iff (p : Part) (c : ChanId) :
    p.mayTakeHead c = true ↔
      (p.chan c).state = .idle ∧ (p.chan c).pausePending = false ∧ p.clearing = false := by
  simp [Part.mayTakeHead, and_assoc]

theorem Part.takeHead_of_not (h : ¬p.mayTakeHead c = true) : p.takeHead c = p := by
  unfold Part.takeHead
  split
  · rfl
  · rw [if_neg h]

/-- Going on with a guarded head is its guard check (R109). -/
theorem Part.goOn_guarded {cl : ChanClaim} (hl : (p.chan c).list = d :: ds) (hg : d.guardClaim = some cl) :
    p.goOn c = p.raiseClaim c cl .guardCheck := by
  simp [Part.goOn, Channel.head, hl, hg]

/-- Going on with an unguarded head is what follows a passed guard check (R109). -/
theorem Part.goOn_unguarded (hl : (p.chan c).list = d :: ds) (hg : d.guard = .none) : p.goOn c = p.afterGuard c := by
  simp [Part.goOn, Channel.head, hl, Descriptor.guardClaim, hg]

end

/-- Settles O44: a channel that may take its head does (`Part.takeHead_took`), and any other is left. -/
theorem headIsTaken : Obligations.HeadIsTaken := by
  intro p c
  refine ⟨fun d rest hl hs hp hc => Part.takeHead_took hl ((p.mayTakeHead_iff c).2 ⟨hs, hp, hc⟩), ?_⟩
  rintro (hl | h)
  · exact Part.takeHead_nil hl
  · refine Part.takeHead_of_not fun hm => ?_
    obtain ⟨hs, hp, hc⟩ := (p.mayTakeHead_iff c).1 hm
    simp [hs, hp, hc] at h

/-! ### The course of the two commands (R119, R122) -/

section
variable {p : Part} {c : ChanId} {args : Vector Word 6}

theorem pauseBody_wrongState (h0 : (pick args 0).toNat = (chanBit c).toNat)
    (h : (p.chan c).state = .paused ∨ (p.chan c).pausePending = true) :
    Part.pauseBody args p = (p, refuse .wrongState) := by
  simp [Part.pauseBody, wholeChan_of _ c h0, h]

theorem pauseBody_noRoom (h0 : (pick args 0).toNat = (chanBit c).toNat) (hs : (p.chan c).state ≠ .paused)
    (hp : (p.chan c).pausePending = false) (hr : ¬p.hasRoom .supervisor 1 = true) :
    Part.pauseBody args p = (p, refuse .noNoticeRoom) := by
  simp [Part.pauseBody, wholeChan_of _ c h0, hs, hp, hr]

theorem pauseBody_idle (h0 : (pick args 0).toNat = (chanBit c).toNat) (hs : (p.chan c).state = .idle)
    (hp : (p.chan c).pausePending = false) (hr : p.hasRoom .supervisor 1 = true) :
    Part.pauseBody args p = ((p.reserve .supervisor 1).pauseNow c, accept 1 0) := by
  simp [Part.pauseBody, wholeChan_of _ c h0, hs, hp, hr]

theorem pauseBody_busy (h0 : (pick args 0).toNat = (chanBit c).toNat) (hs : (p.chan c).state ≠ .paused)
    (hi : (p.chan c).state ≠ .idle) (hp : (p.chan c).pausePending = false) (hr : p.hasRoom .supervisor 1 = true) :
    Part.pauseBody args p =
      ((p.reserve .supervisor 1).onChan c fun ch => { ch with pausePending := true }, accept 0 0) := by
  simp [Part.pauseBody, wholeChan_of _ c h0, hs, hi, hp, hr]

theorem resumeBody_pending (h0 : (pick args 0).toNat = (chanBit c).toNat) (hp : (p.chan c).pausePending = true) :
    Part.resumeBody args p =
      ((p.onChan c fun ch => { ch with pausePending := false }).giveBack .supervisor 1, accept 0 0) := by
  simp [Part.resumeBody, wholeChan_of _ c h0, hp]

theorem resumeBody_wrongState (h0 : (pick args 0).toNat = (chanBit c).toNat) (hp : (p.chan c).pausePending = false)
    (hs : (p.chan c).state ≠ .paused) : Part.resumeBody args p = (p, refuse .wrongState) := by
  simp [Part.resumeBody, wholeChan_of _ c h0, hp, hs]

theorem resumeBody_paused (h0 : (pick args 0).toNat = (chanBit c).toNat) (hp : (p.chan c).pausePending = false)
    (hs : (p.chan c).state = .paused) : Part.resumeBody args p = (p.resume c, accept 1 0) := by
  simp [Part.resumeBody, wholeChan_of _ c h0, hp, hs]

/-- A pause of an IDLE channel takes and uses one place (R119, R120). -/
theorem Part.pauseNow_reserved (p : Part) (c : ChanId) (hp : (p.chan c).pausePending = false) :
    ((p.reserve .supervisor 1).pauseNow c).chan c = { p.chan c with state := .paused, inFlight := .nothing } ∧
      ((p.reserve .supervisor 1).pauseNow c).queue .supervisor =
        { notices := (p.queue .supervisor).notices ++ [.channelPaused c], reserved := (p.queue .supervisor).reserved } ∧
      Frame p ((p.reserve .supervisor 1).pauseNow c) [.chan c, .queue .supervisor] := by
  obtain ⟨hchan, hqueue, hframe⟩ := Part.pauseNow_paused (p.reserve .supervisor 1) c
  refine ⟨?_, ?_, ((p.reserve_frame .supervisor 1).append hframe).weaken (by simp)⟩
  · simp [hchan, hp]
  · simp [hqueue]

/-! ### How a PAUSED channel goes on (R122) -/

theorem Part.resume_ending (he : (p.chan c).ending ≠ none) :
    p.resume c = p.onChan c fun ch => { ch with state := .stopping } :=
  if_pos (Option.isSome_iff_ne_none.2 he)

theorem Part.resume_started {d : Descriptor} {ds : List Descriptor} (he : (p.chan c).ending = none)
    (hl : (p.chan c).list = d :: ds) (hd : d.started = true) :
    p.resume c = (p.onChan c fun ch => { ch with state := .moving }).goOn c := by
  simp [Part.resume, he, Channel.startedHead_cons hl, hd]

theorem Part.resume_nil (he : (p.chan c).ending = none) (hl : (p.chan c).list = []) :
    p.resume c = p.onChan c fun ch => { ch with state := .idle } := by
  simp [Part.resume, he, Channel.startedHead_nil hl, Part.takeHead_nil, hl]

/-- A PAUSED channel with no started head takes the next one (R106, R122). -/
theorem Part.resume_took {d : Descriptor} {ds : List Descriptor} (he : (p.chan c).ending = none)
    (hl : (p.chan c).list = d :: ds) (hd : d.started = false) (hp : (p.chan c).pausePending = false)
    (hc : p.clearing = false) :
    TookHead p (p.resume c) c { p.chan c with state := .idle } d ds ∧
      Frame p (p.resume c) [.chan c, .claim c, .master] := by
  have hr : p.resume c = (p.onChan c fun ch => { ch with state := .idle }).takeHead c := by
    simp [Part.resume, he, Channel.startedHead_cons hl, hd]
  rw [hr]
  obtain ⟨htook, hframe⟩ := Part.takeHead_took (p := p.onChan c fun ch => { ch with state := .idle }) (c := c) (d := d)
    (rest := ds) (by simpa using hl) ((Part.mayTakeHead_iff _ c).2 (by simp [hp, hc]))
  rw [Part.chan_onChan, if_pos rfl] at htook
  exact ⟨htook.of_same (by simp) (by simp), ((p.onChan_frame c _).append hframe).weaken (by simp)⟩

end

theorem TookHead.present {p q : Part} {c : ChanId} {ch : Channel} {d : Descriptor} {rest : List Descriptor}
    (h : TookHead p q c ch d rest) (g : PageId) (ans : Answer) : TookHead p (q.present g ans) c ch d rest := by
  unfold TookHead at h ⊢
  simpa using h

/-! ### O45 -/

/-- Settles O45: each command's course is that of its body, whose result is presented. -/
theorem pauseAndResumeChannel : Obligations.PauseAndResumeChannel := by
  refine ⟨fun s args c hw hf hcl h0 => ?_, fun s args c hw hf hcl h0 => ?_⟩
  · have hexec := exec_taken (s := s) (c := .pauseChannel) rfl
    rw [Part.takeSupervisor_of _ _ hw hf hcl, takenBody] at hexec
    refine ⟨_, hexec, fun h => ?_, fun hs hp hr => ?_, fun hs hp hr => ?_⟩
    · rw [pauseBody_wrongState h0 h]
      exact s.part.present_alone _ (refuse .wrongState)
    · rw [pauseBody_noRoom h0 hs hp (by rw [Part.hasRoom_iff]; omega)]
      exact s.part.present_alone _ (refuse .noNoticeRoom)
    · have hroom := (s.part.hasRoom_iff .supervisor 1).2 hr
      by_cases hi : (s.part.chan c).state = .idle
      · obtain ⟨hchan, hqueue, hframe⟩ := s.part.pauseNow_reserved c hp
        rw [pauseBody_idle h0 hi hp hroom]
        exact ⟨hframe.present _ _,
          fun _ => ⟨by simpa using hchan, by simpa using hqueue, s.part.present_answered _ _ (accept 1 0) (by simp)⟩,
          fun hn => absurd hi hn⟩
      · rw [pauseBody_busy h0 hs hi hp hroom]
        refine ⟨?_, fun hn => absurd hn hi, fun _ => ⟨by simp, by simp [Queue.reserve], ?_⟩⟩
        · exact (((s.part.reserve_frame .supervisor 1).append (Part.onChan_frame _ c _)).present .supervisor _).weaken
            (by simp)
        · exact s.part.present_answered _ _ (accept 0 0) (by simp)
  · have hexec := exec_taken (s := s) (c := .resumeChannel) rfl
    rw [Part.takeSupervisor_of _ _ hw hf hcl, takenBody] at hexec
    refine ⟨_, hexec, fun hp => ?_, fun hp hs => ?_, fun hp hs he => ?_,
      fun hp hs he => ⟨fun hl => ?_, fun d rest hl => ?_⟩⟩
    · rw [resumeBody_pending h0 hp]
      refine ⟨by simp, by simp [Queue.giveBack], s.part.present_answered _ _ (accept 0 0) (by simp), ?_⟩
      exact ((s.part.onChan_frame c _).append (Part.giveBack_frame _ _ 1)).present _ _
    · rw [resumeBody_wrongState h0 hp hs]
      exact s.part.present_alone _ (refuse .wrongState)
    · rw [resumeBody_paused h0 hp hs, Part.resume_ending he]
      exact ⟨by simp, s.part.present_answered _ _ (accept 1 0) (by simp), (s.part.onChan_frame c _).present _ _⟩
    · rw [resumeBody_paused h0 hp hs, Part.resume_nil he hl]
      exact ⟨by simp, s.part.present_answered _ _ (accept 1 0) (by simp), (s.part.onChan_frame c _).present _ _⟩
    rw [resumeBody_paused h0 hp hs]
    have hl' : ((s.part.onChan c fun ch => { ch with state := .moving }).chan c).list = d :: rest := by simpa using hl
    have hmoving := s.part.onChan_frame c fun ch => { ch with state := .moving }
    refine ⟨fun hd => ?_, fun hd cl hg => ?_, fun hd hg hm => ?_, fun hd hg hm => ?_⟩
    · obtain ⟨htook, hframe⟩ := Part.resume_took he hl hd hp hcl
      refine ⟨htook.present _ _, s.part.present_answered _ _ (accept 1 0) ?_, hframe.present _ _⟩
      exact hframe (.page .supervisor) (by simp)
    all_goals rw [Part.resume_started he hl hd]
    · rw [Part.goOn_guarded hl' hg]
      refine ⟨by simp, by simp, s.part.present_answered _ _ (accept 1 0) (by simp), ?_⟩
      exact ((hmoving.append (Part.raiseClaim_raised _ c cl _).2.2).present _ _).weaken (by simp)
    · obtain ⟨_, hburst, _⟩ := Part.afterGuard_course _ c d rest hl'
      obtain ⟨hchan, hmaster, hframe⟩ := hburst (by simpa using hp) hm
      rw [Part.goOn_unguarded hl' hg]
      refine ⟨by simp [hchan], by simp [hmaster], s.part.present_answered _ _ (accept 1 0) (by simp), ?_⟩
      exact ((hmoving.append hframe).present _ _).weaken (by simp)
    · obtain ⟨_, _, hend⟩ := Part.afterGuard_course _ c d rest hl'
      rw [Part.goOn_unguarded hl' hg]
      exact ⟨_, hend (by simpa using hp) hm, s.part.present_answered _ _ (accept 1 0) (by simp),
        (Part.present_alone _ _ (accept 1 0)).2⟩

end Sys2Proof.Machine
end

section
/-! Proofs: POST, unguarded (O46) and guarded (O47). -/

namespace Sys2Proof.Machine

/-! ### POST's arguments (R100, R160) -/

theorem extractLsb'_toNat_div (w : Word) (lo k : Nat) : (w.extractLsb' lo k).toNat = w.toNat / 2 ^ lo % 2 ^ k := by
  rw [BitVec.extractLsb'_toNat, Nat.shiftRight_eq_div_pow]

theorem extractLsb'_eq_of {w : Word} {lo k n : Nat} (h : w.toNat / 2 ^ lo % 2 ^ k = n) :
    w.extractLsb' lo k = BitVec.ofNat k n := by
  rw [← h, ← extractLsb'_toNat_div, BitVec.ofNat_toNat, BitVec.setWidth_eq]

theorem chanField_iff (f : BitVec 2) (c : ChanId) : chanField f = some c ↔ f.toNat = (chanBit c).toNat := by
  cases c <;> revert f <;> decide

theorem chanField_none_iff (f : BitVec 2) : chanField f = none ↔ 2 ≤ f.toNat := by
  revert f
  decide

theorem modeField_none_iff (f : BitVec 2) : modeField f = none ↔ f.toNat = 0 ∨ f.toNat = 3 := by
  revert f
  decide

theorem asIndex_none_iff (n v : Nat) : asIndex n v = none ↔ n ≤ v := by
  unfold asIndex
  split <;> simp <;> omega

section
variable {args : Vector Word 6}

theorem postOp_noKind (h : (pick args 3).toNat / 2 ^ 16 % 4 = 0) : postOp args = none := by
  simp [postOp, extractLsb'_eq_of (k := 2) h]

theorem postOp_copy (h : (pick args 3).toNat / 2 ^ 16 % 4 = 1) :
    postOp args =
      if 4 ≤ (pick args 2).toNat ∧ (pick args 2).toNat ≤ 65536 ∧ (pick args 2).toNat % 4 = 0 then
        some (.copy (pick args 0) (pick args 1) (pick args 2).toNat)
      else none := by
  simp [postOp, extractLsb'_eq_of (k := 2) h]

theorem postOp_writeWord (h : (pick args 3).toNat / 2 ^ 16 % 4 = 2) :
    postOp args = some (.writeWord (pick args 1) (pick args 2)) := by
  simp [postOp, extractLsb'_eq_of (k := 2) h]

theorem postOp_readWord (h : (pick args 3).toNat / 2 ^ 16 % 4 = 3) : postOp args = some (.readWord (pick args 0) none) := by
  simp [postOp, extractLsb'_eq_of (k := 2) h]

theorem postOp_none_iff :
    postOp args = none ↔ (pick args 3).toNat / 2 ^ 16 % 4 = 0 ∨ (pick args 3).toNat / 2 ^ 16 % 4 = 1 ∧
      ((pick args 2).toNat < 4 ∨ 65536 < (pick args 2).toNat ∨ (pick args 2).toNat % 4 ≠ 0) := by
  have hkind : (pick args 3).toNat / 2 ^ 16 % 4 < 4 := Nat.mod_lt _ (by norm_num)
  generalize hk : (pick args 3).toNat / 2 ^ 16 % 4 = kind at hkind
  interval_cases kind
  · simp [postOp_noKind hk]
  · rw [postOp_copy hk]
    split <;> simp <;> omega
  · simp [postOp_writeWord hk]
  · simp [postOp_readWord hk]

theorem postGuard_unguarded (h : (pick args 3).toNat / 2 ^ 20 % 4 = 0) : postGuard args = some .none := by
  simp [postGuard, extractLsb'_eq_of (k := 2) h]

theorem postGuard_acquire (h : (pick args 3).toNat / 2 ^ 20 % 4 = 1) :
    postGuard args = (modeField ((pick args 3).extractLsb' 22 2)).bind fun mode =>
      (asIndex 64 ((pick args 3).extractLsb' 24 8).toNat).bind fun l =>
        some (.acquire l mode ((pick args 4).extractLsb' 0 16) ((pick args 4).extractLsb' 16 16)) := by
  simp [postGuard, extractLsb'_eq_of (k := 2) h]

theorem postGuard_fence (h : (pick args 3).toNat / 2 ^ 20 % 4 = 2) :
    postGuard args = (asIndex 64 ((pick args 3).extractLsb' 24 8).toNat).bind fun l => some (.fence l (pick args 4)) := by
  simp [postGuard, extractLsb'_eq_of (k := 2) h]

theorem postGuard_noGuard (h : (pick args 3).toNat / 2 ^ 20 % 4 = 3) : postGuard args = none := by
  simp [postGuard, extractLsb'_eq_of (k := 2) h]

/-- The lock field is the register's top byte. -/
theorem postLock_toNat (w : Word) : (w.extractLsb' 24 8).toNat = w.toNat / 2 ^ 24 := by
  rw [extractLsb'_toNat_div, Nat.mod_eq_of_lt]
  have := w.isLt
  omega

theorem postGuard_none_iff :
    postGuard args = none ↔ (pick args 3).toNat / 2 ^ 20 % 4 = 3 ∨
      (pick args 3).toNat / 2 ^ 20 % 4 = 1 ∧
        ((pick args 3).toNat / 2 ^ 22 % 4 = 0 ∨ (pick args 3).toNat / 2 ^ 22 % 4 = 3) ∨
      ((pick args 3).toNat / 2 ^ 20 % 4 = 1 ∨ (pick args 3).toNat / 2 ^ 20 % 4 = 2) ∧
        63 < (pick args 3).toNat / 2 ^ 24 := by
  have hlock : asIndex 64 ((pick args 3).extractLsb' 24 8).toNat = none ↔ 63 < (pick args 3).toNat / 2 ^ 24 := by
    rw [asIndex_none_iff, postLock_toNat]
    omega
  have hmode : modeField ((pick args 3).extractLsb' 22 2) = none ↔
      (pick args 3).toNat / 2 ^ 22 % 4 = 0 ∨ (pick args 3).toNat / 2 ^ 22 % 4 = 3 := by
    rw [modeField_none_iff, extractLsb'_toNat_div, show 2 ^ 2 = 4 from rfl]
  have hguard : (pick args 3).toNat / 2 ^ 20 % 4 < 4 := Nat.mod_lt _ (by norm_num)
  rw [← hlock, ← hmode]
  generalize hg : (pick args 3).toNat / 2 ^ 20 % 4 = guard at hguard
  interval_cases guard
  · simp [postGuard_unguarded hg]
  · rw [postGuard_acquire hg]
    generalize asIndex 64 ((pick args 3).extractLsb' 24 8).toNat = lock
    cases modeField ((pick args 3).extractLsb' 22 2) <;> cases lock <;> simp
  · rw [postGuard_fence hg]
    generalize asIndex 64 ((pick args 3).extractLsb' 24 8).toNat = lock
    cases lock <;> simp
  · simp [postGuard_noGuard hg]

theorem postArgs_none_iff (a : AgentId) :
    postArgs a args = none ↔
      postOp args = none ∨ 2 ≤ (pick args 3).toNat / 2 ^ 18 % 4 ∨ postGuard args = none := by
  have hchan := chanField_none_iff ((pick args 3).extractLsb' 18 2)
  rw [extractLsb'_toNat_div] at hchan
  rw [show (4 : Nat) = 2 ^ 2 from rfl, ← hchan]
  unfold postArgs
  cases postOp args <;> cases chanField ((pick args 3).extractLsb' 18 2) <;> cases postGuard args <;> simp

/-- What the fields of an accepted POST describe (R99, R160). -/
theorem postArgs_some {a : AgentId} {c : ChanId} {d : Descriptor} (h : postArgs a args = some (c, d)) :
    postOp args = some d.op ∧ (pick args 3).toNat / 2 ^ 18 % 4 = (chanBit c).toNat ∧ postGuard args = some d.guard ∧
      d.tag.toNat = (pick args 3).toNat % 2 ^ 16 ∧ d.owner = a ∧ d.moved = 0 ∧ d.started = false := by
  simp only [postArgs, Option.bind_eq_bind, Option.bind_eq_some_iff, Option.pure_def, Option.some.injEq,
    Prod.mk.injEq] at h
  obtain ⟨op, hop, chan, hchan, guard, hguard, rfl, rfl⟩ := h
  rw [chanField_iff, extractLsb'_toNat_div] at hchan
  exact ⟨hop, hchan, hguard, by simp, rfl, rfl, rfl⟩

theorem postGuard_acquire_some {g : Guard} (h : (pick args 3).toNat / 2 ^ 20 % 4 = 1) (hg : postGuard args = some g) :
    ∃ (l : LockId) (m : Mode) (r w : Ticks), g = .acquire l m r w ∧ l.val = (pick args 3).toNat / 2 ^ 24 ∧
      (pick args 3).toNat / 2 ^ 22 % 4 = (match m with | .shared => 1 | .exclusive => 2) ∧
      r.toNat = (pick args 4).toNat % 2 ^ 16 ∧ w.toNat = (pick args 4).toNat / 2 ^ 16 := by
  rw [postGuard_acquire h] at hg
  simp only [Option.bind_eq_some_iff, Option.some.injEq] at hg
  obtain ⟨m, hm, l, hl, rfl⟩ := hg
  have hlock := asIndex_eq_some hl
  rw [postLock_toNat] at hlock
  rw [modeField_iff, extractLsb'_toNat_div] at hm
  have hw4 := (pick args 4).isLt
  refine ⟨l, m, _, _, rfl, hlock.symm, ?_, by simp, ?_⟩
  · rcases hm with ⟨hm, rfl⟩ | ⟨hm, rfl⟩ <;> exact hm
  · rw [extractLsb'_toNat_div, Nat.mod_eq_of_lt (by omega)]

theorem postGuard_fence_some {g : Guard} (h : (pick args 3).toNat / 2 ^ 20 % 4 = 2) (hg : postGuard args = some g) :
    ∃ l : LockId, g = .fence l (pick args 4) ∧ l.val = (pick args 3).toNat / 2 ^ 24 := by
  rw [postGuard_fence h] at hg
  simp only [Option.bind_eq_some_iff, Option.some.injEq] at hg
  obtain ⟨l, hl, rfl⟩ := hg
  have hlock := asIndex_eq_some hl
  rw [postLock_toNat] at hlock
  exact ⟨l, rfl, hlock.symm⟩

end

/-! ### The address checks (R101) -/

/-- A range that is not empty has a byte in the window exactly where neither lies wholly below the other. -/
theorem exists_byte_in_window {n : Nat} (window first : Nat) (hn : 0 < n) :
    (∃ i < n, window ≤ first + i ∧ first + i < window + 1024) ↔ window < first + n ∧ first < window + 1024 := by
  constructor
  · rintro ⟨i, hi, h1, h2⟩
    omega
  · rintro ⟨h1, h2⟩
    exact ⟨window - first, by omega, by omega, by omega⟩

theorem rangeAllowed_false_iff (straps : Straps) (first : Word) {n : Nat} (hn : 4 ≤ n) :
    rangeAllowed straps (first, n) = false ↔
      first.toNat % 4 ≠ 0 ∨ 2 ^ 32 < first.toNat + n ∨
        ∃ i < n, straps.base.toNat * 1024 ≤ first.toNat + i ∧ first.toNat + i < straps.base.toNat * 1024 + 1024 := by
  rw [exists_byte_in_window _ _ (by omega)]
  simp only [rangeAllowed, Bool.and_eq_false_iff, Bool.or_eq_false_iff, beq_eq_false_iff_ne, decide_eq_false_iff_not]
  simp only [windowBase, Config.windowBytes]
  omega

/-! ### The acceptance of a descriptor (R103, R106) -/

section
variable {p : Part} {a : AgentId} {c : ChanId} {d : Descriptor}

/-- A descriptor at the tail of its channel's list, with its place taken (R103). -/
def Part.joined (p : Part) (a : AgentId) (c : ChanId) (d : Descriptor) : Part :=
  (p.reserve (.agent a) 1).onChan c fun ch => { ch with list := ch.list ++ [d] }

/-- A descriptor joined, and taken as head by a channel that may (R103, R106). -/
def Part.posted (p : Part) (a : AgentId) (c : ChanId) (d : Descriptor) : Part :=
  if (p.chan c).state = .idle then (p.joined a c d).takeHead c else p.joined a c d

theorem Part.acceptPost_duplicate (h : p.findDescriptor a d.tag ≠ none) :
    p.acceptPost a c d = (p, refuse .duplicateTag) :=
  if_pos (Option.isSome_iff_ne_none.2 h)

theorem Part.acceptPost_noRoom (h : p.findDescriptor a d.tag = none) (hr : ¬p.hasRoom (.agent a) 1 = true) :
    p.acceptPost a c d = (p, refuse .noNoticeRoom) := by
  simp [Part.acceptPost, h, hr]

theorem Part.acceptPost_full (h : p.findDescriptor a d.tag = none) (hr : p.hasRoom (.agent a) 1 = true)
    (hf : p.descriptorsFree = 0) : p.acceptPost a c d = (p, refuse .noDescriptor) := by
  simp [Part.acceptPost, h, hr, hf]

theorem Part.acceptPost_posted (h : p.findDescriptor a d.tag = none) (hr : p.hasRoom (.agent a) 1 = true)
    (hf : p.descriptorsFree ≠ 0) :
    p.acceptPost a c d = (p.posted a c d, accept (wordOf ((p.chan c).list.length + 1)) 0) := by
  simp [Part.acceptPost, h, hr, hf, Part.posted, Part.joined]

theorem Part.joined_chan : (p.joined a c d).chan c = { p.chan c with list := (p.chan c).list ++ [d] } := by
  simp [Part.joined]

theorem Part.joined_frame : Frame p (p.joined a c d) [.queue (.agent a), .chan c] :=
  (p.reserve_frame _ 1).append (Part.onChan_frame _ c _)

theorem Part.posted_page (g : PageId) : (p.posted a c d).page g = p.page g := by
  unfold Part.posted
  split <;> simp [Part.joined]

theorem Part.posted_queue :
    (p.posted a c d).queue (.agent a) = { p.queue (.agent a) with reserved := (p.queue (.agent a)).reserved + 1 } := by
  have hj : (p.joined a c d).queue (.agent a) =
      { p.queue (.agent a) with reserved := (p.queue (.agent a)).reserved + 1 } := by
    simp [Part.joined, Queue.reserve]
  unfold Part.posted
  split
  · rw [← hj]
    simp [Part.queue]
  · exact hj

/-- A channel that is not IDLE, or any during a CLEAR, does not start the descriptor (R106, R123). -/
theorem Part.posted_left (h : (p.chan c).state ≠ .idle ∨ p.clearing = true) :
    (p.posted a c d).chan c = { p.chan c with list := (p.chan c).list ++ [d] } ∧
      Frame p (p.posted a c d) [.queue (.agent a), .chan c] := by
  have hj : p.posted a c d = p.joined a c d := by
    unfold Part.posted
    split
    · rename_i hs
      refine Part.takeHead_of_not fun hm => ?_
      obtain ⟨_, _, hc⟩ := (Part.mayTakeHead_iff _ c).1 hm
      have hc' : p.clearing = false := by simpa [Part.joined] using hc
      simp [hs, hc'] at h
    · rfl
  rw [hj]
  exact ⟨Part.joined_chan, Part.joined_frame⟩

/-- An IDLE channel with an empty list takes the descriptor as its head at once (R106). -/
theorem Part.posted_took (hs : (p.chan c).state = .idle) (hp : (p.chan c).pausePending = false)
    (hl : (p.chan c).list = []) (hc : p.clearing = false) :
    TookHead p (p.posted a c d) c (p.chan c) d [] ∧
      Frame p (p.posted a c d) [.queue (.agent a), .chan c, .claim c, .master] := by
  have hjc : (p.joined a c d).chan c = { p.chan c with list := [d] } := by simp [Part.joined_chan, hl]
  obtain ⟨htook, hframe⟩ := Part.takeHead_took (p := p.joined a c d) (c := c) (d := d) (rest := [])
    (by rw [hjc]) ((Part.mayTakeHead_iff _ c).2 ⟨by rw [hjc, hs], by rw [hjc, hp], by simp [Part.joined, hc]⟩)
  have hhead : headTaken ((p.joined a c d).chan c) d [] = headTaken (p.chan c) d [] := by
    rw [hjc]
    rfl
  unfold TookHead at htook
  rw [hhead] at htook
  rw [Part.posted, if_pos hs]
  exact ⟨TookHead.of_same htook (by simp [Part.joined]) (by simp [Part.joined]), (Part.joined_frame.append hframe).weaken
    (by simp)⟩

end

/-! ### POST taken (R100 to R102) -/

theorem Part.setTransferServing_frame (p : Part) (x : Option AgentId) :
    Frame p (p.setTransferServing x) [.transferServing] := by
  intro y hy
  cases y <;> simp_all [SameAt]

theorem Part.attachedBar_of_serves {p : Part} {a : AgentId} (h : p.serves a) : p.attachedBar a = none := by
  simp [Part.attachedBar, Part.agentBar_of_serves h, h.1]

section
variable {p : Part} {a : AgentId} {args : Vector Word 6} {c : ChanId} {d : Descriptor}

theorem Part.takePost_badArgument (hw : p.waits (.agent a) .post args) (hf : p.transferFree = true) (hs : p.serves a)
    (h : postArgs a args = none) : p.takePost a = p.present (.agent a) (refuse .badArgument) := by
  simp [Part.takePost, Part.writtenArgs_of hw, hf, Part.attachedBar_of_serves hs, h]

theorem Part.takePost_badAddress (hw : p.waits (.agent a) .post args) (hf : p.transferFree = true) (hs : p.serves a)
    (h : postArgs a args = some (c, d)) (hr : d.op.ranges.all (rangeAllowed p.straps) = false) :
    p.takePost a = p.present (.agent a) (refuse .badAddress) := by
  simp only [Part.takePost, Part.writtenArgs_of hw, hf, Part.attachedBar_of_serves hs, h, hr, Bool.not_false, if_true]

theorem Part.takePost_guarded (hw : p.waits (.agent a) .post args) (hf : p.transferFree = true) (hs : p.serves a)
    (h : postArgs a args = some (c, d)) (hr : d.op.ranges.all (rangeAllowed p.straps) = true) (hg : d.guard ≠ .none) :
    p.takePost a = (p.setStage (.agent a) .claimed).setTransferServing (some a) := by
  obtain ⟨l, hl⟩ : ∃ l, d.guard.lock = some l := by
    cases hd : d.guard with
    | none => exact absurd hd hg
    | acquire l => exact ⟨l, rfl⟩
    | fence l => exact ⟨l, rfl⟩
  simp only [Part.takePost, Part.writtenArgs_of hw, hf, Part.attachedBar_of_serves hs, h, hr, hl, Bool.not_true,
    Bool.false_eq_true, if_true, if_false]

theorem Part.takePost_unguarded (hw : p.waits (.agent a) .post args) (hf : p.transferFree = true) (hs : p.serves a)
    (h : postArgs a args = some (c, d)) (hr : d.op.ranges.all (rangeAllowed p.straps) = true) (hg : d.guard = .none) :
    p.takePost a = (p.acceptPost a c d).1.present (.agent a) (p.acceptPost a c d).2 := by
  simp only [Part.takePost, Part.writtenArgs_of hw, hf, Part.attachedBar_of_serves hs, h, hr, hg, Guard.lock,
    Bool.not_true, Bool.false_eq_true, if_true, if_false]

end

/-- Settles O46: the arguments field by field, and then each check in turn; an accepted descriptor is `Part.posted`. -/
theorem postIsAccepted : Obligations.PostIsAccepted := by
  refine ⟨fun a args => ⟨?_, fun c d h => ?_⟩, fun _ _ _ _ _ => ⟨rfl, rfl, rfl⟩,
    fun straps first n hn => rangeAllowed_false_iff straps first hn, fun s a args hw hf hs => ?_⟩
  · rw [postArgs_none_iff, postOp_none_iff, postGuard_none_iff]
    tauto
  · obtain ⟨hop, hchan, hguard, htag, howner, hmoved, hstarted⟩ := postArgs_some h
    refine ⟨htag, howner, hmoved, hstarted, by rw [hchan]; cases c <;> rfl, fun hk => ?_, fun hk => ?_, fun hk => ?_,
      fun hg => ?_, fun hg => postGuard_acquire_some hg hguard, fun hg => postGuard_fence_some hg hguard⟩
    · rw [postOp_copy hk] at hop
      split at hop
      · exact (Option.some.inj hop).symm
      · cases hop
    · rw [postOp_writeWord hk] at hop
      exact (Option.some.inj hop).symm
    · rw [postOp_readWord hk] at hop
      exact (Option.some.inj hop).symm
    · rw [postGuard_unguarded hg] at hguard
      exact (Option.some.inj hguard).symm
  · have hexec : exec (.post a .take) s = .next { s with part := s.part.takePost a } := rfl
    refine ⟨_, hexec, fun h => ?_, fun c d h => ⟨fun hr => ?_, fun hr => ⟨fun hg => ?_, fun hg => ?_⟩⟩⟩
    · rw [Part.takePost_badArgument hw hf hs h]
      exact s.part.present_alone _ (refuse .badArgument)
    · rw [Part.takePost_badAddress hw hf hs h hr]
      exact s.part.present_alone _ (refuse .badAddress)
    · rw [Part.takePost_guarded hw hf hs h hr hg]
      unfold Part.waits at hw
      exact ⟨by simp [Part.claims, hw], rfl,
        ((s.part.setStage_frame (.agent a) .claimed).append (Part.setTransferServing_frame _ _)).weaken (by simp)⟩
    · rw [Part.takePost_unguarded hw hf hs h hr hg]
      rw [← Part.hasRoom_iff]
      refine ⟨fun hd => ?_, fun hd hr => ?_, fun hd hr hn => ?_, fun hd hr hn => ?_⟩
      · rw [Part.acceptPost_duplicate hd]
        exact s.part.present_alone _ (refuse .duplicateTag)
      · rw [Part.acceptPost_noRoom hd hr]
        exact s.part.present_alone _ (refuse .noNoticeRoom)
      · rw [Part.acceptPost_full hd hr hn]
        exact s.part.present_alone _ (refuse .noDescriptor)
      · rw [Part.acceptPost_posted hd hr hn]
        refine ⟨s.part.present_answered _ _ (accept _ 0) (Part.posted_page _), by simpa using Part.posted_queue,
          fun hi => ?_, fun hi hp hl => ?_⟩
        · obtain ⟨hchan, hframe⟩ := Part.posted_left (a := a) (d := d) (.inl hi)
          exact ⟨by simpa using hchan, hframe.present _ _⟩
        · obtain ⟨htook, hframe⟩ := Part.posted_took (a := a) (d := d) hi hp hl hs.2
          exact ⟨htook.present _ _, hframe.present _ _⟩

end Sys2Proof.Machine
end

section
/-! Proofs: a guarded POST goes on (O47). -/

namespace Sys2Proof.Machine

/-! ### The lock's standing (R102) -/

section
variable {st : LockStanding} {a : AgentId} {g : Guard} {l : LockId}

theorem LockStanding.refusal_disabled (h : st.state = .disabled) : st.refusal a g = some .lockDisabled := if_pos h

theorem LockStanding.refusal_shared {r w : Ticks} (h : st.state ≠ .disabled) (hg : g = .acquire l .shared r w)
    (hc : st.cls = .exclusiveOnly) : st.refusal a g = some .modeNotAllowed := by
  simp [LockStanding.refusal, h, hg, hc]

/-- A lock that is not DISABLED and whose class allows the guard's mode refuses by its mask alone. -/
theorem LockStanding.refusal_of_allowed (hl : g.lock = some l) (h : st.state ≠ .disabled)
    (hg : ¬((∃ r w, g = .acquire l .shared r w) ∧ st.cls = .exclusiveOnly)) :
    st.refusal a g = if st.mask.getLsbD a.val = false then some .notPermitted else none := by
  cases g with
  | none => cases hl
  | acquire l' m r w =>
    obtain rfl : l' = l := Option.some.inj hl
    cases m with
    | shared =>
      have hc : st.cls ≠ .exclusiveOnly := fun hc => hg ⟨⟨r, w, rfl⟩, hc⟩
      simp [LockStanding.refusal, h, hc]
    | exclusive => simp [LockStanding.refusal, h]
  | fence l' t => simp [LockStanding.refusal, h]

theorem Part.standingFor_of {p : Part} {args : Vector Word 6} {c : ChanId} {d : Descriptor}
    (h : postArgs a args = some (c, d)) (hl : d.guard.lock = some l) :
    Part.standingFor a args p =
      .checked { state := (p.lock l).state, cls := (p.lock l).cls, mask := (p.lock l).mask } := by
  simp [Part.standingFor, h, hl]

end

/-! ### POST goes on with its lock check answered (R102, R103) -/

section
variable {p : Part} {a : AgentId} {args : Vector Word 6} {st : LockStanding} {c : ChanId} {d : Descriptor}

theorem Part.proceedPost_refused {code : ResultCode}
    (hf : (p.page (.agent a)).inFlight = some { cmd := .post, args, stage := .checked st })
    (h : postArgs a args = some (c, d)) (hr : st.refusal a d.guard = some code) :
    p.proceedPost a = (p.present (.agent a) (refuse code)).setTransferServing none := by
  simp [Part.proceedPost, hf, h, hr]

theorem Part.proceedPost_allowed (hf : (p.page (.agent a)).inFlight = some { cmd := .post, args, stage := .checked st })
    (h : postArgs a args = some (c, d)) (hr : st.refusal a d.guard = none) :
    p.proceedPost a =
      ((p.acceptPost a c d).1.present (.agent a) (p.acceptPost a c d).2).setTransferServing none := by
  simp [Part.proceedPost, hf, h, hr]

theorem Part.proceedPost_serving (hf : (p.page (.agent a)).inFlight = some { cmd := .post, args, stage := .checked st })
    (h : postArgs a args = some (c, d)) : (p.proceedPost a).transfer.serving = none := by
  cases hr : st.refusal a d.guard with
  | some code => rw [Part.proceedPost_refused hf h hr, Part.serving_setTransferServing]
  | none => rw [Part.proceedPost_allowed hf h hr, Part.serving_setTransferServing]

/-- A result presented over `q` before the transfer engine becomes free. -/
theorem Part.present_answered_freed {q : Part} (g : PageId) (ans : Answer) (hg : q.page g = p.page g) :
    Answered p ((q.present g ans).setTransferServing none) g ans.code ans.result0 ans.result1 := by
  simpa [Answered] using p.present_answered q g ans hg

theorem Part.present_freed_alone (p : Part) (g : PageId) (ans : Answer) :
    Answered p ((p.present g ans).setTransferServing none) g ans.code ans.result0 ans.result1 ∧
      Frame p ((p.present g ans).setTransferServing none) [.page g, .transferServing] :=
  ⟨Part.present_answered_freed g ans rfl, ((Frame.refl p []).present g ans).notServing.weaken (by simp)⟩

theorem TookHead.notServing {q : Part} {ch : Channel} {rest : List Descriptor} (h : TookHead p q c ch d rest) :
    TookHead p (q.setTransferServing none) c ch d rest := by
  unfold TookHead at h ⊢
  simpa using h

end

/-- Settles O47: the standing's refusals, and then the checks and the course of an unguarded POST. -/
theorem guardedPostIsChecked : Obligations.GuardedPostIsChecked := by
  intro s a args c d l h hl
  refine ⟨fun hc hm hs => ?_, fun st hf => ?_⟩
  · have hexec : exec (.postLockCheck a) s =
        .next { s with part := s.part.serveRaised a .post (Part.standingFor a) } := rfl
    rw [Part.serveRaised_of _ hc hm hs, Part.standingFor_of h hl] at hexec
    unfold Part.claims at hc
    exact ⟨_, hexec, by simp [hc], by simp,
      ((s.part.served_frame (agentPos a)).append (Part.setStage_frame _ (.agent a) _)).weaken (by simp)⟩
  · have hexec : exec (.post a .proceed) s = .next { s with part := s.part.proceedPost a } := rfl
    have refused {code : ResultCode} (hr : st.refusal a d.guard = some code) :
        Answered s.part (s.part.proceedPost a) (.agent a) code 0 0 ∧
          Frame s.part (s.part.proceedPost a) [.page (.agent a), .transferServing] := by
      rw [Part.proceedPost_refused hf h hr]
      exact s.part.present_freed_alone (.agent a) (refuse code)
    refine ⟨_, hexec, Part.proceedPost_serving hf h, fun h1 => ?_, fun h1 h2 hc => ?_, fun h1 h2 hm => ?_,
      fun h1 h2 hm => ?_⟩
    · exact refused (LockStanding.refusal_disabled h1)
    · obtain ⟨r, w, hg⟩ := h2
      exact refused (LockStanding.refusal_shared h1 hg hc)
    · exact refused (by rw [LockStanding.refusal_of_allowed hl h1 h2, if_pos hm])
    · rw [Part.proceedPost_allowed hf h (by rw [LockStanding.refusal_of_allowed hl h1 h2, if_neg (by simp [hm])]),
        ← Part.hasRoom_iff]
      refine ⟨fun hd => ?_, fun hd hr => ?_, fun hd hr hn => ?_, fun hd hr hn => ?_⟩
      · rw [Part.acceptPost_duplicate hd]
        exact s.part.present_freed_alone (.agent a) (refuse .duplicateTag)
      · rw [Part.acceptPost_noRoom hd hr]
        exact s.part.present_freed_alone (.agent a) (refuse .noNoticeRoom)
      · rw [Part.acceptPost_full hd hr hn]
        exact s.part.present_freed_alone (.agent a) (refuse .noDescriptor)
      · rw [Part.acceptPost_posted hd hr hn]
        have waits (hx : (s.part.chan c).state ≠ .idle ∨ s.part.clearing = true) := Part.posted_left (a := a) (d := d) hx
        refine ⟨Part.present_answered_freed _ (accept _ 0) (Part.posted_page _), by simpa using Part.posted_queue,
          fun hi => ?_, fun _ hcl => ?_, fun hi hp hli hcl => ?_⟩
        · obtain ⟨hchan, hframe⟩ := waits (.inl hi)
          exact ⟨by simpa using hchan, (hframe.present _ _).notServing.weaken (by simp)⟩
        · obtain ⟨hchan, hframe⟩ := waits (.inr hcl)
          exact ⟨by simpa using hchan, (hframe.present _ _).notServing.weaken (by simp)⟩
        · obtain ⟨htook, hframe⟩ := Part.posted_took (a := a) (d := d) hi hp hli hcl
          exact ⟨(htook.present _ _).notServing, (hframe.present _ _).notServing.weaken (by simp)⟩

end Sys2Proof.Machine
end

section
/-! Proofs: stops and WITHDRAW (O48), the lock engine's answers at a channel (O49), and how a transfer goes on (O50). -/

namespace Sys2Proof.Machine

/-! ### A stop given to a started head (R115) -/

theorem Part.raiseRemoval_of {p : Part} {c : ChanId} {l : LockId} (hl : (p.chan c).currentLock = some l) :
    p.raiseRemoval c = p.raiseClaim c (.removal l) .removal := by
  simp [Part.raiseRemoval, hl]

section
variable {p : Part} {c : ChanId} {r : StopReason} {d : Descriptor} {ds : List Descriptor}

theorem Part.giveStop_unstarted (hl : (p.chan c).list = d :: ds) (hd : d.started = false) : p.giveStop c r = p := by
  simp [Part.giveStop, Channel.startedHead_cons hl, hd]

/-- A stop given to a started head, by the channel's state (R115). -/
theorem Part.giveStop_started (hl : (p.chan c).list = d :: ds) (hd : d.started = true) :
    let stopped := p.onChan c fun ch => { ch with stop := some r, state := .stopping }
    p.giveStop c r =
      match (p.chan c).state with
      | .idle => p
      | .acquiring => if (p.chan c).inFlight = .nothing then stopped.raiseRemoval c else stopped
      | .moving => stopped
      | .stopping => p
      | .paused =>
        if (p.chan c).inFlight = .nothing then
          (p.onChan c fun ch => { ch with stop := some r }).endDescriptor c (.fault .withdrawn)
        else p := by
  cases hs : (p.chan c).state <;> simp [Part.giveStop, Channel.startedHead_cons hl, hd, hs]

theorem Part.giveStop_removal {l : LockId} (hl : (p.chan c).list = d :: ds) (hd : d.started = true)
    (hs : (p.chan c).state = .acquiring) (hi : (p.chan c).inFlight = .nothing) (hc : (p.chan c).currentLock = some l) :
    RaisedClaim (p.onChan c fun ch => { ch with stop := some r, state := .stopping }) (p.giveStop c r) c (.removal l)
      .removal := by
  rw [Part.giveStop_started hl hd, hs]
  dsimp only
  rw [if_pos hi, Part.raiseRemoval_of (by simpa using hc)]
  exact Part.raiseClaim_raised _ c _ _

theorem Part.giveStop_ends (hl : (p.chan c).list = d :: ds) (hd : d.started = true) (hs : (p.chan c).state = .paused)
    (hi : (p.chan c).inFlight = .nothing) :
    EndsWith (p.onChan c fun ch => { ch with stop := some r }) (p.giveStop c r) c (.fault .withdrawn) := by
  rw [Part.giveStop_started hl hd, hs]
  dsimp only
  rw [if_pos hi]
  exact Part.endDescriptor_ends _ c _

end

/-! ### WITHDRAW (R117, R118) -/

section
variable {p : Part} {a : AgentId} {args : Vector Word 6} {tag : BitVec 16} {c : ChanId} {d : Descriptor}

theorem Part.takeWithdraw_of (hw : p.waits (.agent a) .withdraw args) (hf : p.transferFree = true) (hs : p.serves a) :
    p.takeWithdraw a = (p.withdrawBody a args).1.present (.agent a) (p.withdrawBody a args).2 := by
  simp [Part.takeWithdraw, Part.writtenArgs_of hw, hf, Part.attachedBar_of_serves hs]

theorem withdrawBody_badArgument (h : 65535 < (pick args 0).toNat) : p.withdrawBody a args = (p, refuse .badArgument) := by
  simp [Part.withdrawBody, wholeTicks_none _ h]

theorem withdrawBody_noSuchTag (h : (pick args 0).toNat = tag.toNat) (hd : p.findDescriptor a tag = none) :
    p.withdrawBody a args = (p, refuse .noSuchTag) := by
  simp [Part.withdrawBody, wholeTicks_of _ _ h, hd]

theorem withdrawBody_unstarted (h : (pick args 0).toNat = tag.toNat) (hd : p.findDescriptor a tag = some (c, d))
    (hs : d.started = false) :
    p.withdrawBody a args = ((p.onChan c fun ch => ch.without a tag).giveBack (.agent a) 1, accept 0 0) := by
  simp [Part.withdrawBody, wholeTicks_of _ _ h, hd, hs]

theorem withdrawBody_wrongState (h : (pick args 0).toNat = tag.toNat) (hd : p.findDescriptor a tag = some (c, d))
    (hs : d.started = true) (he : (p.chan c).stop ≠ none ∨ (p.chan c).ending ≠ none) :
    p.withdrawBody a args = (p, refuse .wrongState) := by
  simp only [← Option.isSome_iff_ne_none] at he
  simp only [Part.withdrawBody, wholeTicks_of _ _ h, hd, hs, he, if_true]

theorem withdrawBody_started (h : (pick args 0).toNat = tag.toNat) (hd : p.findDescriptor a tag = some (c, d))
    (hs : d.started = true) (h1 : (p.chan c).stop = none) (h2 : (p.chan c).ending = none) :
    p.withdrawBody a args = (p.giveStop c .withdrawn, accept 1 (wordOf d.moved)) := by
  simp [Part.withdrawBody, wholeTicks_of _ _ h, hd, hs, h1, h2]

end

/-- Settles O48: a stop by the state of its channel, and WITHDRAW by the course of its body. -/
theorem withdrawStopsOrRemoves : Obligations.WithdrawStopsOrRemoves := by
  refine ⟨fun p c r d ds hl => ⟨Part.giveStop_unstarted hl, fun hd => ?_⟩, fun s a args hw hf hs h => ?_,
    fun s a args tag hw hf hs h => ?_⟩
  · have hstop := Part.giveStop_started (r := r) hl hd
    refine ⟨fun hs hi => ?_, fun l hs hi hc => Part.giveStop_removal hl hd hs hi hc, fun hs => ?_, fun hs => ?_,
      fun hs hi => Part.giveStop_ends hl hd hs hi, fun hs hi => ?_⟩
    · rw [hstop, hs]
      exact if_neg hi
    · rw [hstop, hs]
    · rw [hstop, hs]
    · rw [hstop, hs]
      exact if_neg hi
  · have hexec : exec (.withdraw a .take) s = .next { s with part := s.part.takeWithdraw a } := rfl
    rw [Part.takeWithdraw_of hw hf hs, withdrawBody_badArgument h] at hexec
    exact ⟨_, hexec, s.part.present_alone _ (refuse .badArgument)⟩
  · have hexec : exec (.withdraw a .take) s = .next { s with part := s.part.takeWithdraw a } := rfl
    rw [Part.takeWithdraw_of hw hf hs] at hexec
    refine ⟨_, hexec, fun hd => ?_, fun c d hd => ⟨fun hst => ?_, fun hst he => ?_, fun hst h1 h2 => ?_⟩⟩
    · rw [withdrawBody_noSuchTag h hd]
      exact s.part.present_alone _ (refuse .noSuchTag)
    · rw [withdrawBody_unstarted h hd hst]
      refine ⟨by simp [Channel.without], by simp [Queue.giveBack], s.part.present_answered _ _ (accept 0 0) (by simp),
        ?_⟩
      exact ((s.part.onChan_frame c _).append (Part.giveBack_frame _ _ 1)).present _ _
    · rw [withdrawBody_wrongState h hd hst he]
      exact s.part.present_alone _ (refuse .wrongState)
    · rw [withdrawBody_started h hd hst h1 h2]
      exact ⟨s.part.present_answered _ _ (accept 1 _) (by simp), (Part.present_alone _ _ (accept 1 _)).2⟩

/-! ### The lock engine's answers and reports at a channel (R107, R108, R114, R116) -/

section
variable {p : Part} {c : ChanId}

/-- What the channel waited for has come. -/
def Part.answered (p : Part) (c : ChanId) : Part := p.onChan c fun ch => { ch with inFlight := .nothing }

theorem Part.answered_chan : (p.answered c).chan c = { p.chan c with inFlight := .nothing } := by simp [Part.answered]

/-- A grant answered is a grant reported. -/
theorem Part.answered_granted (t : Word) : (p.answered c).granted c t = p.granted c t := by
  simp only [Part.answered, Part.granted, Part.onChan_onChan]

/-- An acquisition answered to an ACQUIRING channel (R107). -/
theorem Part.onAcquisition_acquiring (hs : (p.chan c).state = .acquiring) :
    Part.onAcquisition c .waits p = p.answered c ∧
      (∀ t lease, GrantReached p (Part.onAcquisition c (.granted t lease) p) c t) ∧
      EndsWith (p.answered c) (Part.onAcquisition c .closed p) c (faultOf (p.chan c) .lockClosed) := by
  simp only [Part.onAcquisition, hs]
  refine ⟨rfl, fun t _ => ?_, Part.endFault_ends (ch := p.chan c) (by rw [Part.answered_chan])⟩
  have hg := p.granted_reached c t
  rwa [← Part.answered_granted] at hg

/-- An acquisition answered to a STOPPING channel (R116). -/
theorem Part.onAcquisition_stopping (hs : (p.chan c).state = .stopping) :
    (∀ l, (p.chan c).currentLock = some l →
        RaisedClaim (p.answered c) (Part.onAcquisition c .waits p) c (.removal l) .removal) ∧
      (∀ t lease, EndsWith ((p.answered c).onChan c fun ch => { ch with holding := some t })
        (Part.onAcquisition c (.granted t lease) p) c (.fault .withdrawn)) ∧
      EndsWith (p.answered c) (Part.onAcquisition c .closed p) c (faultOf (p.chan c) .lockClosed) := by
  simp only [Part.onAcquisition, hs]
  refine ⟨fun l hl => ?_, fun t _ => Part.endWithdrawn_ends _ c,
    Part.endFault_ends (ch := p.chan c) (by rw [Part.answered_chan])⟩
  rw [Part.raiseRemoval_of (l := l) (by simpa using hl)]
  exact Part.raiseClaim_raised _ c _ _

theorem Part.onGrantReport_acquiring (hs : (p.chan c).state = .acquiring) (t : Word) :
    GrantReached p (Part.onGrantReport c t p) c t := by
  simpa only [Part.onGrantReport, hs] using p.granted_reached c t

theorem Part.onGrantReport_stopping (hs : (p.chan c).state = .stopping) (t : Word) :
    Part.onGrantReport c t p = p.onChan c fun ch => { ch with holding := some t } := by
  simp only [Part.onGrantReport, hs]

theorem Part.onWaitEnded_acquiring (hs : (p.chan c).state = .acquiring) (how : WaitEnd) :
    EndsWith p (Part.onWaitEnded c how p) c (faultOf (p.chan c) how.fault) := by
  simpa only [Part.onWaitEnded, hs] using Part.endFault_ends rfl

theorem Part.onWaitEnded_stopping (hs : (p.chan c).state = .stopping) (how : WaitEnd) : Part.onWaitEnded c how p = p := by
  simp only [Part.onWaitEnded, hs]

/-- A removal answered to a STOPPING channel, which holds no lock then (R116). -/
theorem Part.onRemoval_gone (hs : (p.chan c).state = .stopping) {ans : RemovalAnswer}
    (ha : ans = .gone ∨ ans = .noRecord) :
    EndsWith (p.answered c) (Part.onRemoval c ans p) c (.fault .withdrawn) := by
  rcases ha with rfl | rfl <;> simp only [Part.onRemoval, hs] <;> exact Part.endWithdrawn_ends _ c

theorem Part.onRemoval_holds (hs : (p.chan c).state = .stopping) (t : Word) :
    EndsWith ((p.answered c).onChan c fun ch => { ch with holding := some t }) (Part.onRemoval c (.holds t) p) c
      (.fault .withdrawn) := by
  simp only [Part.onRemoval, hs]
  exact Part.endWithdrawn_ends _ c

end

/-- Settles O49: each item is taken from the list and carried out on the channel. -/
theorem lockAnswersReachChannel : Obligations.LockAnswersReachChannel := by
  intro s c rest
  refine ⟨fun ans ht => ?_, fun t lease ht => ?_, fun how ht => ?_, fun why ht => ?_, fun ans ht => ?_⟩
  · refine ⟨_, exec_takesItem (i := .acquisitionAnswer) rfl ht rfl, fun hs => ?_, fun hs => ?_⟩
    · obtain ⟨hwaits, hgranted, hclosed⟩ := Part.onAcquisition_acquiring (p := s.part.setInbox rest) (c := c) hs
      exact ⟨by rintro rfl; exact hwaits, by rintro t lease rfl; exact hgranted t lease, by rintro rfl; exact hclosed⟩
    · obtain ⟨hwaits, hgranted, hclosed⟩ := Part.onAcquisition_stopping (p := s.part.setInbox rest) (c := c) hs
      exact ⟨by rintro l rfl hl; exact hwaits l hl, by rintro t lease rfl; exact hgranted t lease,
        by rintro rfl; exact hclosed⟩
  · exact ⟨_, exec_takesItem (i := .channelGrantReport) rfl ht rfl,
      fun hs => Part.onGrantReport_acquiring (p := s.part.setInbox rest) hs t,
      fun hs => Part.onGrantReport_stopping (p := s.part.setInbox rest) hs t⟩
  · refine ⟨_, exec_takesItem (i := .channelWaitEndedReport) rfl ht rfl, fun hs => ?_,
      fun hs => Part.onWaitEnded_stopping (p := s.part.setInbox rest) hs how⟩
    cases how <;> exact Part.onWaitEnded_acquiring (p := s.part.setInbox rest) hs _
  · exact ⟨_, exec_takesItem (i := .holdingEndedReport) rfl ht rfl, rfl⟩
  · exact ⟨_, exec_takesItem (i := .waiterRemovalAnswer) rfl ht rfl, fun hs =>
      ⟨fun ha => Part.onRemoval_gone (p := s.part.setInbox rest) hs ha,
        by rintro t rfl; exact Part.onRemoval_holds (p := s.part.setInbox rest) hs t⟩⟩

/-! ### The answers to guard checks (R109 to R111, R114, R116) -/

section
variable {p : Part} {c : ChanId} {d : Descriptor} {ds : List Descriptor}

theorem Part.guardFault_fence {l : LockId} {t : Word} (hl : (p.chan c).list = d :: ds) (hg : d.guard = .fence l t) :
    p.guardFault c = .holdingLost := by
  simp [Part.guardFault, Channel.head, hl, hg]

theorem Part.guardFault_acquire {l : LockId} {m : Mode} {r w : Ticks} (hl : (p.chan c).list = d :: ds)
    (hg : d.guard = .acquire l m r w) : p.guardFault c = p.lossFault c := by
  simp [Part.guardFault, Channel.head, hl, hg]

/-- The reason of a failed guard check, where an ACQUIRE's loss is recorded (R110, R111). -/
theorem Part.guardFault_of {why : TransferFault} (hl : (p.chan c).list = d :: ds)
    (h : (∃ l t, d.guard = .fence l t ∧ why = .holdingLost) ∨
      ∃ l m r w, d.guard = .acquire l m r w ∧
        ((p.chan c).loss = some .leaseLost ∧ why = .leaseLost ∨
          (p.chan c).loss = some .lockBroken ∧ why = .lockBroken)) :
    p.guardFault c = why := by
  rcases h with ⟨l, t, hg, rfl⟩ | ⟨l, m, r, w, hg, h⟩
  · exact Part.guardFault_fence hl hg
  · rw [Part.guardFault_acquire hl hg, Part.lossFault]
    rcases h with ⟨hloss, rfl⟩ | ⟨hloss, rfl⟩ <;> rw [hloss]

theorem Part.onGuard_passed (hs : (p.chan c).state = .moving) : Part.onGuard c true p = (p.answered c).afterGuard c := by
  simp only [Part.onGuard, hs, Part.answered]

theorem Part.onGuard_passed_stopping (hs : (p.chan c).state = .stopping) :
    EndsWith (p.answered c) (Part.onGuard c true p) c (.fault .withdrawn) := by
  simp only [Part.onGuard, hs]
  exact Part.endWithdrawn_ends _ c

theorem Part.onGuard_failed (hs : (p.chan c).state = .moving) :
    EndsWith (p.answered c).freshen (Part.onGuard c false p) c (.fault (p.guardFault c)) := by
  simp only [Part.onGuard, hs]
  exact Part.endDescriptor_ends _ c _

theorem Part.onGuard_failed_stopping (hs : (p.chan c).state = .stopping) :
    EndsWith (p.answered c).freshen (Part.onGuard c false p) c (faultOf (p.chan c) (p.guardFault c)) := by
  simp only [Part.onGuard, hs]
  exact Part.endFault_ends (by simp [Part.answered_chan])

/-! ### The outcomes of bursts (R112, R114, R116, R120) -/

theorem Descriptor.afterBurst_eq (d : Descriptor) (n : Nat) (w : Option Word) : d.afterBurst n w = d.grown n w := by
  unfold Descriptor.afterBurst Descriptor.grown
  cases hop : d.op <;> cases w <;> rfl

theorem Descriptor.grown_length (d : Descriptor) (n : Nat) (w : Option Word) : (d.grown n w).op.length = d.op.length := by
  unfold Descriptor.grown
  cases hop : d.op <;> cases w <;> rfl

/-- The channel with a completed burst added to its head (R112). -/
def Part.burstAdded (p : Part) (c : ChanId) (d : Descriptor) (ds : List Descriptor) (n : Nat) (w : Option Word) : Part :=
  (p.answered c).onChan c fun ch => { ch with list := d.grown n w :: ds }

theorem Part.onChan_congr {f g : Channel → Channel} (h : f (p.chan c) = g (p.chan c)) : p.onChan c f = p.onChan c g := by
  simp only [Part.onChan, h]

theorem Part.burstAdded_eq (hl : (p.chan c).list = d :: ds) (n : Nat) (w : Option Word) :
    ((p.answered c).onChan c fun ch => ch.onHead fun d => d.afterBurst n w) = p.burstAdded c d ds n w :=
  Part.onChan_congr (by simp [Part.answered_chan, Channel.onHead, hl, Descriptor.afterBurst_eq])

theorem Part.burstAdded_list (n : Nat) (w : Option Word) :
    ((p.burstAdded c d ds n w).chan c).list = d.grown n w :: ds := by simp [Part.burstAdded]

theorem Part.burstAdded_pausePending (n : Nat) (w : Option Word) :
    ((p.burstAdded c d ds n w).chan c).pausePending = (p.chan c).pausePending := by
  simp [Part.burstAdded, Part.answered]

theorem Part.onBurst_completed (hl : (p.chan c).list = d :: ds) (hs : (p.chan c).state = .moving) (n : Nat)
    (w : Option Word) :
    Part.onBurst c (.completed n w) p =
      if (p.chan c).pausePending = true then (p.burstAdded c d ds n w).pauseNow c
      else (p.burstAdded c d ds n w).goOn c := by
  rw [← Part.burstAdded_eq hl]
  simp only [Part.onBurst, hs, Part.answered]

theorem Part.onBurst_completed_stopping (hl : (p.chan c).list = d :: ds) (hs : (p.chan c).state = .stopping) (n : Nat)
    (w : Option Word) :
    EndsWith (p.burstAdded c d ds n w) (Part.onBurst c (.completed n w) p) c (.fault .withdrawn) := by
  rw [← Part.burstAdded_eq hl]
  simp only [Part.onBurst, hs]
  exact Part.endWithdrawn_ends _ c

/-- What follows a completed burst of a MOVING channel (R109, R112, R120). -/
theorem Part.onBurst_course (hl : (p.chan c).list = d :: ds) (hs : (p.chan c).state = .moving) (n : Nat)
    (w : Option Word) :
    let q := Part.onBurst c (.completed n w) p
    let grown := p.burstAdded c d ds n w
    ((p.chan c).pausePending = true → PausedNow grown q c) ∧
      (∀ cl, (p.chan c).pausePending = false → d.guardClaim = some cl → RaisedClaim grown q c cl .guardCheck) ∧
      ((p.chan c).pausePending = false → d.guard = .none → d.moved + n < d.op.length →
        HandedBurst grown q c (d.grown n w)) ∧
      ((p.chan c).pausePending = false → d.guard = .none → d.op.length ≤ d.moved + n →
        EndsWith grown q c .done) := by
  have hlist := p.burstAdded_list (c := c) (d := d) (ds := ds) n w
  have hpend := p.burstAdded_pausePending (c := c) (d := d) (ds := ds) n w
  have hlen := d.grown_length n w
  obtain ⟨_, hburst, hend⟩ := Part.afterGuard_course _ c _ ds hlist
  rw [hlen, hpend] at hburst hend
  dsimp only
  rw [Part.onBurst_completed hl hs]
  refine ⟨fun hp => ?_, fun cl hp hg => ?_, fun hp hg hm => ?_, fun hp hg hm => ?_⟩
  · rw [if_pos hp]
    exact Part.pauseNow_paused _ c
  all_goals rw [if_neg (by simp [hp])]
  · rw [Part.goOn_guarded hlist hg]
    exact Part.raiseClaim_raised _ c cl _
  · rw [Part.goOn_unguarded hlist hg]
    exact hburst hp hm
  · rw [Part.goOn_unguarded hlist hg]
    exact hend hp hm

/-- A failed burst ends the descriptor with its error (R112, R116). -/
theorem Part.onBurst_failed {r : BurstResult} {why : TransferFault}
    (hs : (p.chan c).state = .moving ∨ (p.chan c).state = .stopping) (hr : r.error = some why) :
    EndsWith (p.answered c) (Part.onBurst c r p) c (.fault why) := by
  cases r with
  | completed n w => cases hr
  | sourceError | destError | busTimeout =>
    obtain rfl := Option.some.inj hr
    rcases hs with hs | hs <;> simp only [Part.onBurst, hs] <;> exact Part.endDescriptor_ends _ c _

end

/-- Settles O50: a passed check and a completed burst go on by step 2 of R109, the others end the descriptor. -/
theorem transferGoesOn : Obligations.TransferGoesOn := by
  intro s c rest d ds ch answered hl
  refine ⟨fun passes ht => ?_, fun n w ht => ?_, fun r why hr ht hs => ?_⟩
  · refine ⟨_, exec_takesItem (i := .guardCheckAnswer) rfl ht rfl, ?_, ?_, ?_⟩
    · rintro rfl hs
      obtain ⟨hpause, hburst, hend⟩ := Part.afterGuard_course answered c d ds (by simpa [answered, Part.taken] using hl)
      rw [Part.taken_chan] at hpause hburst hend
      rw [Part.onGuard_passed (p := s.part.setInbox rest) hs]
      exact ⟨hpause, hburst, hend⟩
    · rintro rfl hs
      exact Part.onGuard_passed_stopping (p := s.part.setInbox rest) hs
    · rintro rfl why hwhy
      have hfault : (s.part.setInbox rest).guardFault c = why := Part.guardFault_of hl hwhy
      rw [← hfault]
      exact ⟨Part.onGuard_failed (p := s.part.setInbox rest), Part.onGuard_failed_stopping (p := s.part.setInbox rest)⟩
  · exact ⟨_, exec_takesItem (i := .burstOutcome) rfl ht rfl,
      fun hs => Part.onBurst_course (p := s.part.setInbox rest) hl hs n w,
      fun hs => Part.onBurst_completed_stopping (p := s.part.setInbox rest) hl hs n w⟩
  · refine ⟨_, exec_takesItem (i := .burstOutcome) rfl ht rfl, Part.onBurst_failed (p := s.part.setInbox rest) hs ?_⟩
    rcases hr with ⟨rfl, rfl⟩ | ⟨rfl, rfl⟩ | ⟨rfl, rfl⟩ <;> rfl

end Sys2Proof.Machine
end

section
/-! Proofs: the first stages of a CLEAR (O53). -/

namespace Sys2Proof.Machine

theorem Part.setClear_frame (p : Part) (x : Option ClearPhase) : Frame p (p.setClear x) [.clear] := by
  intro y hy
  cases y <;> simp_all [SameAt]

/-! ### CLEAR taken (R143) -/

section
variable {p : Part} {args : Vector Word 6}

/-- A CLEAR accepted: its place taken, its mark set, and the stop sent to the transfer engine (R143). -/
def Part.clearBegun (p : Part) : Part :=
  ((((p.reserve .supervisor 1).setClear (some .stopSent)).setStage .supervisor .stopAwaited).setTableServing
    (some .supervisor)).toTransfer .clearStop

theorem Part.takeClear_noRoom (hw : p.waits .supervisor .clear args) (hf : p.tableFree = true) (hc : p.clearing = false)
    (hr : ¬p.hasRoom .supervisor 1 = true) : p.takeClear = p.present .supervisor (refuse .noNoticeRoom) := by
  simp [Part.takeClear, Part.writtenArgs_of hw, hf, hc, hr]

theorem Part.takeClear_begun (hw : p.waits .supervisor .clear args) (hf : p.tableFree = true) (hc : p.clearing = false)
    (hr : p.hasRoom .supervisor 1 = true) : p.takeClear = p.clearBegun := by
  simp [Part.takeClear, Part.writtenArgs_of hw, hf, hc, hr, Part.clearBegun]

theorem Part.clearBegun_frame (p : Part) :
    Frame p p.clearBegun [.queue .supervisor, .clear, .page .supervisor, .tableServing, .inbox] :=
  ((((p.reserve_frame .supervisor 1).append (Part.setClear_frame _ _)).append (Part.setStage_frame _ _ _)).append
    (Part.setTableServing_frame _ _)).append (Part.toTransfer_frame _ _)

end

/-! ### The stop given to the channels (R123, R143) -/

/-- The number of channels whose head has started. -/
theorem Part.startedHeads_eq (p : Part) :
    p.startedHeads = [ChanId.c0, .c1].countP fun c => (p.chan c).list.head?.any Descriptor.started := by
  have hone (ch : Channel) : ch.startedHead.isSome = ch.list.head?.any Descriptor.started := by
    cases hl : ch.list with
    | nil => simp [Channel.startedHead_nil hl]
    | cons d ds => cases hd : d.started <;> simp [Channel.startedHead_cons hl, hd]
  simp only [Part.startedHeads, hone, List.countP_cons, List.countP_nil]
  omega

/-- Both channels given the stop of a CLEAR, C0 before C1 (R123). -/
def Part.channelsStopped (p : Part) : Part := (p.giveStop .c0 .cleared).giveStop .c1 .cleared

theorem Part.giveClearStop_answered (p : Part) :
    Answered p p.giveClearStop .supervisor .accepted (wordOf p.startedHeads) (wordOf p.table.evictions.length) := by
  have h := p.present_answered (p.channelsStopped.setClear (some .stopping)) .supervisor
    (accept (wordOf p.startedHeads) (wordOf p.table.evictions.length)) (by simp [Part.channelsStopped])
  simpa [Answered, Part.giveClearStop, Part.channelsStopped, accept] using h

theorem Part.giveClearStop_frame (p : Part) :
    Frame p.channelsStopped p.giveClearStop [.page .supervisor, .clear, .tableServing] :=
  (((Part.setClear_frame _ (some .stopping)).present .supervisor _).append (Part.setTableServing_frame _ none)).weaken
    (by simp)

/-! ### The channels at rest (R145) -/

theorem Channel.atRest_iff (ch : Channel) :
    ch.atRest = true ↔ (ch.state = .idle ∨ ch.state = .paused) ∧ ch.inFlight = .nothing := by
  simp [Channel.atRest]

theorem Part.reportRest_rested {p : Part} (h : p.table.clear = some .stopping)
    (h0 : ((p.chan .c0).state = .idle ∨ (p.chan .c0).state = .paused) ∧ (p.chan .c0).inFlight = .nothing)
    (h1 : ((p.chan .c1).state = .idle ∨ (p.chan .c1).state = .paused) ∧ (p.chan .c1).inFlight = .nothing) :
    p.reportRest = (p.setClear (some .atRest)).toTable .channelsAtRest :=
  if_pos ⟨h, (Channel.atRest_iff _).2 h0, (Channel.atRest_iff _).2 h1⟩

theorem Part.reportRest_unrested {p : Part}
    (h : ¬(p.table.clear = some .stopping ∧
      (((p.chan .c0).state = .idle ∨ (p.chan .c0).state = .paused) ∧ (p.chan .c0).inFlight = .nothing) ∧
      (((p.chan .c1).state = .idle ∨ (p.chan .c1).state = .paused) ∧ (p.chan .c1).inFlight = .nothing))) :
    p.reportRest = p := by
  simp only [← Channel.atRest_iff] at h
  exact if_neg h

theorem Part.raiseLockTableStep_frame (p : Part) : Frame p p.raiseLockTableStep [.purges, .clear] :=
  (p.setPurges_frame []).append (Part.setClear_frame _ _)

theorem Part.pageClaims_setReports (p : Part) (rs : List Report) (g : PageId) :
    (p.setReports rs).pageClaims g = p.pageClaims g := by
  simp only [Part.pageClaims, Part.setReports_keeps]

/-! ### O53 -/

/-- Settles O53, stage by stage. -/
theorem clearStopsChannels : Obligations.ClearStopsChannels := by
  refine ⟨fun s args hw hf hc => ?_, fun s rest ht => ?_, fun p => ⟨fun h h0 h1 => ?_, Part.reportRest_unrested⟩,
    fun s rest hr hf => ?_⟩
  · have hexec : exec (.clear .take) s = .next { s with part := s.part.takeClear } := rfl
    refine ⟨_, hexec, fun hr => ?_, fun hr => ?_⟩
    · rw [Part.takeClear_noRoom hw hf hc (by rw [Part.hasRoom_iff]; omega)]
      exact s.part.present_alone _ (refuse .noNoticeRoom)
    · rw [Part.takeClear_begun hw hf hc ((s.part.hasRoom_iff _ _).2 hr)]
      unfold Part.waits at hw
      exact ⟨by simp [Part.clearBegun], by simp [Part.clearBegun], by simp [Part.clearBegun, Queue.reserve],
        by simp [Part.clearBegun, hw], by simp [Part.clearBegun], by simp [Part.clearBegun],
        s.part.clearBegun_frame.weaken (by simp)⟩
  · refine ⟨_, exec_takesItem (i := .clear .proceed) rfl ht rfl, ?_, by simp [Part.giveClearStop],
      by simp [Part.giveClearStop], Part.giveClearStop_frame _⟩
    have hans := (s.part.setInbox rest).giveClearStop_answered
    rw [Part.startedHeads_eq] at hans
    exact hans
  · rw [Part.reportRest_rested h h0 h1]
    exact ⟨rfl, rfl, (p.setClear_frame _).append (Part.toTable_frame _ _)⟩
  · refine ⟨_, exec_takesReport (i := .channelsAtRestReport) rfl hr hf rfl, by simp [Part.raiseLockTableStep],
      by simp [Part.raiseLockTableStep], ?_, (s.part.setReports_frame rest).append (Part.raiseLockTableStep_frame _)⟩
    simp [Part.raiseLockTableStep, Part.pageClaims_setReports]

end Sys2Proof.Machine
end

section
/-! Proofs: the bursts that are asked for, and which of them the backplane master takes (O55). -/

namespace Sys2Proof.Machine

/-! ### The cut of a COPY (R125) -/

/-- What `r` remaining bytes are cut to at addresses `x` and `y`: the most that crosses no multiple of 64 bytes. -/
theorem cut_spec {r x y k : Nat} (hr : 0 < r) (hk : k = min r (min (64 - x % 64) (64 - y % 64))) :
    1 ≤ k ∧ k ≤ r ∧ x % 64 + k ≤ 64 ∧ y % 64 + k ≤ 64 ∧ (k = r ∨ x % 64 + k = 64 ∨ y % 64 + k = 64) := by omega

theorem Descriptor.nextBurst_copy {d : Descriptor} {src dst : Word} {n : Nat} (h : d.op = .copy src dst n) :
    d.nextBurst = .copy (src + wordOf d.moved) (dst + wordOf d.moved)
      (min (n - d.moved)
        (min (64 - (src + wordOf d.moved).toNat % 64) (64 - (dst + wordOf d.moved).toNat % 64))) := by
  simp [Descriptor.nextBurst, h]

theorem Descriptor.nextBurst_writeWord {d : Descriptor} {dst v : Word} (h : d.op = .writeWord dst v) :
    d.nextBurst = .write dst v := by simp [Descriptor.nextBurst, h]

theorem Descriptor.nextBurst_readWord {d : Descriptor} {src : Word} {v : Option Word} (h : d.op = .readWord src v) :
    d.nextBurst = .read src := by simp [Descriptor.nextBurst, h]

/-! ### The master's arbiter (R127 to R129) -/

/-- The channel that is not `c`. -/
def otherChan (c : ChanId) : ChanId :=
  match c with
  | .c0 => .c1
  | .c1 => .c0

@[simp] theorem PerChan.get_set_otherChan {α : Type} (x : PerChan α) (c : ChanId) (v : α) :
    (x.set c v).get (otherChan c) = x.get (otherChan c) := by cases c <;> rfl

@[simp] theorem PerChan.set_set {α : Type} (x : PerChan α) (c : ChanId) (v w : α) : (x.set c v).set c w = x.set c w := by
  cases c <;> rfl

section
variable {m : Master} {c : ChanId} {b : Burst}

/-- A channel's request is chosen where it waits alone, and of two that wait where the other channel was served last. -/
theorem Master.choice_eq (hb : m.pending.get c = some b)
    (ho : m.pending.get (otherChan c) = none ∨ m.lastServed = otherChan c) : m.choice = some c := by
  cases c with
  | c0 =>
    change m.pending.c0 = some b at hb
    change m.pending.c1 = none ∨ m.lastServed = .c1 at ho
    cases h1 : m.pending.c1 with
    | none => simp [Master.choice, hb, h1]
    | some _ => simp [Master.choice, hb, h1, ho.resolve_left (by simp [h1])]
  | c1 =>
    change m.pending.c1 = some b at hb
    change m.pending.c0 = none ∨ m.lastServed = .c0 at ho
    cases h0 : m.pending.c0 with
    | none => simp [Master.choice, hb, h0]
    | some _ => simp [Master.choice, hb, h0, ho.resolve_left (by simp [h0])]

theorem Master.arbitrate_of_busy (hp : m.phase ≠ .idle) : m.arbitrate = m := by
  cases h : m.phase with
  | idle => exact absurd h hp
  | requesting | reading | writing => simp [Master.arbitrate, h]

theorem Master.arbitrate_takes (hp : m.phase = .idle) (hb : m.pending.get c = some b)
    (ho : m.pending.get (otherChan c) = none ∨ m.lastServed = otherChan c) : m.arbitrate = m.take c b := by
  simp [Master.arbitrate, hp, Master.choice_eq hb ho, hb]

theorem Master.arbitrate_of_none (hp : m.phase = .idle) (h0 : m.pending.c0 = none) (h1 : m.pending.c1 = none) :
    m.arbitrate = m := by
  simp [Master.arbitrate, hp, Master.choice, h0, h1]

/-- A request handed to an IDLE master is taken at once. -/
theorem Master.offer_takes (hp : m.phase = .idle) (ho : m.pending.get (otherChan c) = none) : m.offer c b = m.take c b := by
  have htaken := Master.arbitrate_takes (m := { m with pending := m.pending.set c (some b) }) (c := c) (b := b) hp
    (by simp) (.inl (by simpa using ho))
  simpa [Master.offer, Master.take] using htaken

end

/-! ### O55 -/

/-- Settles O55: the cut is the least of its three bounds (`cut_spec`), and the arbiter takes the request it chooses
(`Master.choice_eq`). -/
theorem burstsAreCutAndTaken : Obligations.BurstsAreCutAndTaken := by
  refine ⟨fun d src dst n hop hm => ⟨_, Descriptor.nextBurst_copy hop, cut_spec (Nat.sub_pos_of_lt hm) rfl⟩,
    fun d dst v => Descriptor.nextBurst_writeWord, fun d src v => Descriptor.nextBurst_readWord, fun m c b => ?_⟩
  refine ⟨fun hp => Master.arbitrate_of_busy (m := { m with pending := m.pending.set c (some b) }) hp,
    fun hp ho => (Master.offer_takes hp ho).trans ?_, fun hp hb ho => (Master.arbitrate_takes hp hb ho).trans ?_,
    Master.arbitrate_of_none⟩
  · cases b <;> rfl
  · cases b <;> rfl

end Sys2Proof.Machine
end

section
/-! Proofs: the course of a burst (O56). -/

namespace Sys2Proof.Machine

theorem Part.requesting_iff (p : Part) :
    p.requesting = true ↔ p.master.phase = .requesting ∧ p.master.count ≠ some 0 := by
  simp [Part.requesting]

theorem Part.setMaster_self (p : Part) : p.setMaster p.master = p := rfl

/-! ### The grant and the timeout (R129) -/

section
variable {s : State} {b : CurrentBurst}

/-- A grant that the master does not use changes nothing. -/
theorem exec_busGrant_ignored {g : GrantFor} (h : s.part.master.grant g = s.part.master) :
    exec (.busGrant g) s = .next s := by
  simp [exec, execBusGrant, State.onPart, h, Part.setMaster_self]

theorem Master.grant_withdrawn (m : Master) : m.grant .withdrawn = m := rfl

theorem Part.grant_of_not_requesting {p : Part} (h : p.requesting = false) : p.master.grant .asserted = p.master := by
  have hr : ¬(p.master.phase = .requesting ∧ p.master.count ≠ some 0) := by rw [← Part.requesting_iff, h]; decide
  unfold Master.grant
  split
  · next hp _ => exact if_pos (by_contra fun hc => hr ⟨hp, hc⟩)
  · rfl

theorem Master.grant_begins {m : Master} (hb : m.current = some b) (hp : m.phase = .requesting) (hc : m.count ≠ some 0) :
    m.grant .asserted = { m with phase := b.burst.grantedPhase, count := none } := by
  simp only [Master.grant, hb, hp, if_neg hc]

theorem exec_busTimeout_ends (hb : s.part.master.current = some b) (hp : s.part.master.phase = .requesting)
    (hc : s.part.master.count = some 0) :
    exec .busTimeout s = .next { s with part := s.part.endBurst b.chan .busTimeout } := by
  simp [exec, execBusTimeout, State.onPart, hb, hp, hc]

/-! ### The read cycles (R131) -/

theorem exec_readCycleAnswered_data (hb : s.part.master.current = some b) (hp : s.part.master.phase = .reading)
    (w : Word) : exec (.readCycleAnswered (.data w)) s = .next { s with part := s.part.readData b w } := by
  simp [exec, execReadCycleAnswered, State.onPart, hb, hp]

theorem exec_readCycleAnswered_busError (hb : s.part.master.current = some b) (hp : s.part.master.phase = .reading) :
    exec (.readCycleAnswered .busError) s = .next { s with part := s.part.endBurst b.chan .sourceError } := by
  simp [exec, execReadCycleAnswered, State.onPart, hb, hp]

theorem Part.readData_copy (p : Part) {src dst : Word} {n : Nat} (h : b.burst = .copy src dst n) (w : Word) :
    p.readData b w = p.setMaster { p.master with
      staging := p.master.staging ++ [w],
      phase := if n ≤ 4 * (p.master.staging.length + 1) then .writing else .reading } := by
  simp [Part.readData, h]

theorem Part.readData_read (p : Part) {src : Word} (h : b.burst = .read src) (w : Word) :
    p.readData b w = p.endBurst b.chan (.completed 4 (some w)) := by
  simp [Part.readData, h]

/-! ### The write cycles (R132) -/

theorem exec_writeCycleAnswered_acknowledged (hb : s.part.master.current = some b)
    (hp : s.part.master.phase = .writing) :
    exec (.writeCycleAnswered .acknowledged) s = .next { s with part := s.part.writeDone b } := by
  simp [exec, execWriteCycleAnswered, State.onPart, hb, hp]

theorem exec_writeCycleAnswered_busError (hb : s.part.master.current = some b) (hp : s.part.master.phase = .writing) :
    exec (.writeCycleAnswered .busError) s = .next { s with part := s.part.endBurst b.chan .destError } := by
  simp [exec, execWriteCycleAnswered, State.onPart, hb, hp]

theorem Part.writeDone_more {p : Part} (h : 4 * (p.master.written + 1) < b.burst.length) :
    p.writeDone b = p.setMaster { p.master with written := p.master.written + 1 } := if_neg (by omega)

theorem Part.writeDone_last {p : Part} (h : b.burst.length ≤ 4 * (p.master.written + 1)) :
    p.writeDone b = p.endBurst b.chan (.completed b.burst.length none) := if_pos h

/-! ### The cycle driven (R124, R131, R132) -/

variable {p : Part}

theorem Part.driven_eq_none (hr : p.master.phase ≠ .reading) (hw : p.master.phase ≠ .writing) : p.driven = none := by
  cases h : p.master.phase with
  | idle | requesting => simp [Part.driven, h]
  | reading => exact absurd h hr
  | writing => exact absurd h hw

theorem Part.driven_reading (hb : p.master.current = some b) (hp : p.master.phase = .reading) {src : Word}
    (hs : b.burst.source = some src) :
    p.driven = some (p.ownCycle (src + wordOf (4 * p.master.staging.length)) none) := by
  simp [Part.driven, hb, hp, hs]

theorem Part.driven_writing (hb : p.master.current = some b) (hp : p.master.phase = .writing) {dst w : Word}
    (hd : b.burst.dest = some dst) (hw : p.master.staging[p.master.written]? = some w) :
    p.driven = some (p.ownCycle (dst + wordOf (4 * p.master.written)) (some w)) := by
  simp [Part.driven, hb, hp, hd, hw]

theorem Burst.source_eq {x : Burst} {src : Word} (h : (∃ dst n, x = .copy src dst n) ∨ x = .read src) :
    x.source = some src := by
  obtain ⟨dst, n, rfl⟩ | rfl := h <;> rfl

theorem Burst.dest_eq {x : Burst} {dst : Word} (h : (∃ src n, x = .copy src dst n) ∨ ∃ v, x = .write dst v) :
    x.dest = some dst := by
  obtain ⟨src, n, rfl⟩ | ⟨v, rfl⟩ := h <;> rfl

end

/-! ### O56 -/

/-- Settles O56, phase by phase: what each answer of the backplane makes of the current burst, and what is driven. -/
theorem masterCarriesOutBurst : Obligations.MasterCarriesOutBurst := by
  refine ⟨fun s => ⟨s.part.requesting_iff, exec_busGrant_ignored (Master.grant_withdrawn _),
    fun h => exec_busGrant_ignored (Part.grant_of_not_requesting h), Part.driven_eq_none⟩, fun s b hb => ?_⟩
  refine ⟨fun hp hc => ⟨s.part.setMaster (s.part.master.grant .asserted), rfl, ?_, Part.setMaster_frame _ _⟩,
    fun hp hc => ⟨_, exec_busTimeout_ends hb hp hc, Part.endBurst_ended _ _ _⟩, fun hp => ⟨fun w => ?_, ?_, ?_⟩,
    fun hp => ⟨?_, ?_, ?_⟩⟩
  · rw [Part.master_setMaster, Master.grant_begins hb hp hc]
    cases h : b.burst <;> rfl
  · refine ⟨_, exec_readCycleAnswered_data hb hp w, fun src dst n hcopy => ?_, fun src hread => ?_⟩
    · rw [Part.readData_copy _ hcopy]
      exact ⟨rfl, Part.setMaster_frame _ _⟩
    · rw [Part.readData_read _ hread]
      exact Part.endBurst_ended _ _ _
  · exact ⟨_, exec_readCycleAnswered_busError hb hp, Part.endBurst_ended _ _ _⟩
  · exact fun src hsrc => Part.driven_reading hb hp (Burst.source_eq hsrc)
  · refine ⟨_, exec_writeCycleAnswered_acknowledged hb hp, fun hmore => ?_, fun hlast => ?_⟩
    · rw [Part.writeDone_more hmore]
      exact ⟨rfl, Part.setMaster_frame _ _⟩
    · rw [Part.writeDone_last hlast]
      exact Part.endBurst_ended _ _ _
  · exact ⟨_, exec_writeCycleAnswered_busError hb hp, Part.endBurst_ended _ _ _⟩
  · exact fun dst w hdst hword => Part.driven_writing hb hp (Burst.dest_eq hdst) hword

end Sys2Proof.Machine
end

section
/-! Proofs: INSPECT_CHANNEL and INSPECT_AGENT stage by stage, and the layouts of what they answer (O43). -/

namespace Sys2Proof.Machine

/-! ### INSPECT_CHANNEL (R141) -/

section
variable {p : Part} {args : Vector Word 6}

theorem Part.takeInspectChannel_read {c : ChanId} {view : Bool} (hw : p.waits .supervisor .inspectChannel args)
    (hf : p.transferFree = true) (hc : (pick args 0).toNat = (chanBit c).toNat) (hv : (pick args 1).toNat = view.toNat) :
    p.takeInspectChannel = p.setStage .supervisor (.channelRead { chan := c, view, record := p.chan c }) := by
  simp [Part.takeInspectChannel, Part.writtenArgs_of hw, hf, wholeChan_of _ _ hc, wholeBit_of _ _ hv]

theorem Part.proceedInspectChannel_answers {r : ChannelReading}
    (h : (p.page .supervisor).inFlight = some { cmd := .inspectChannel, args, stage := .channelRead r }) :
    p.proceedInspectChannel = p.present .supervisor (r.answer p.master) := by
  have hp : p.port.supervisor.inFlight = some { cmd := .inspectChannel, args, stage := .channelRead r } := h
  simp [Part.proceedInspectChannel, hp]

/-! ### INSPECT_AGENT (R142) -/

variable {a : AgentId} (ha : (pick args 0).toNat = a.val)
include ha

theorem Part.takeInspectAgent_read (hw : p.waits .supervisor .inspectAgent args) (hf : p.tableFree = true) :
    p.takeInspectAgent =
      (p.setStage .supervisor (if p.table.clear = some .stepPending then .entryHeld (p.agent a)
        else .entryClaimed (p.agent a))).setTableServing (some .supervisor) := by
  simp [Part.takeInspectAgent, Part.writtenArgs_of hw, hf, wholeIndex_of _ a ha]

theorem Part.countForInspection_counts {e : AgentEntry}
    (h : (p.page .supervisor).inFlight = some { cmd := .inspectAgent, args, stage := .entryClaimed e })
    (hm : p.mayServe supervisorPos = true) :
    p.countForInspection =
      (p.served supervisorPos).raiseDueStep.setStage .supervisor (.entryCounted e (p.agentRecordCount a)) := by
  have hp : p.port.supervisor.inFlight = some { cmd := .inspectAgent, args, stage := .entryClaimed e } := h
  simp [Part.countForInspection, hp, hm, wholeIndex_of _ a ha]

theorem Part.proceedInspectAgent_counted {e : AgentEntry} {n : Nat}
    (h : (p.page .supervisor).inFlight = some { cmd := .inspectAgent, args, stage := .entryCounted e n })
    (hf : p.transferFree = true) :
    p.proceedInspectAgent = p.setStage .supervisor (.entryCountedBoth e n (p.descriptorCount a)) := by
  have hp : p.port.supervisor.inFlight = some { cmd := .inspectAgent, args, stage := .entryCounted e n } := h
  simp [Part.proceedInspectAgent, hp, hf, wholeIndex_of _ a ha]

theorem Part.proceedInspectAgent_answers {e : AgentEntry} {n d : Nat}
    (h : (p.page .supervisor).inFlight = some { cmd := .inspectAgent, args, stage := .entryCountedBoth e n d }) :
    p.proceedInspectAgent =
      (p.present .supervisor (accept (agentWord e (p.queue (.agent a))) (agentCountsWord n d))).setTableServing none := by
  have hp : p.port.supervisor.inFlight = some { cmd := .inspectAgent, args, stage := .entryCountedBoth e n d } := h
  simp [Part.proceedInspectAgent, hp, wholeIndex_of _ a ha]

end

/-! ### The layouts (R163) -/

theorem ChanState.bits_toNat (st : ChanState) :
    st.bits.toNat =
      match st with | .idle => 0 | .acquiring => 1 | .moving => 2 | .stopping => 3 | .paused => 4 := by
  cases st <;> rfl

theorem stopBits_toNat (r : Option StopReason) :
    (stopBits r).toNat =
      match r with | none => 0 | some .withdrawn => 1 | some .evicted => 2 | some .cleared => 3 := by
  rcases r with _ | r
  · rfl
  · cases r <;> rfl

theorem lossBits_toNat (r : Option LossReason) :
    (lossBits r).toNat = match r with | none => 0 | some .leaseLost => 1 | some .lockBroken => 2 := by
  rcases r with _ | r
  · rfl
  · cases r <;> rfl

theorem InFlight.bits_toNat (f : InFlight) :
    f.bits.toNat =
      match f with
      | .nothing => 0 | .acquisition => 1 | .removal => 2 | .guardCheck => 3 | .release => 4 | .burst => 5 := by
  cases f <;> rfl

theorem AgentState.bits_toNat (st : AgentState) :
    st.bits.toNat = match st with | .disabled => 0 | .detached => 1 | .attached => 2 | .evicting => 3 := by
  cases st <;> rfl

/-- A bit put above the bits of a word of known value. -/
theorem toNat_or_bitAt_of {n : Nat} {x : Word} (hx : x.toNat = n) (lo : Nat) (b : Bool) (hn : n < 2 ^ lo)
    (hw : 1 + lo ≤ 32) : (x ||| bitAt lo b).toNat = n + 2 ^ lo * b.toNat := by
  rw [toNat_or_bitAt x lo b (by omega) hw, hx]

/-- The number of a channel's current lock, 0 when it has none. -/
def lockNumber (l : Option LockId) : BitVec 6 := BitVec.ofNat 6 (l.elim 0 Fin.val)

theorem fieldAt_lockNumber (l : Option LockId) :
    fieldAt 16 (lockNumber l) =
      match l with
      | some l => fieldAt 16 (BitVec.ofNat 6 l.val)
      | none => 0 := by
  cases l <;> rfl

theorem lockNumber_fields (l : Option LockId) :
    2 ^ 15 * l.isSome.toNat + 2 ^ 16 * (lockNumber l).toNat =
      match l with | none => 0 | some l => 2 ^ 15 + 2 ^ 16 * l.val := by
  cases l with
  | none => rfl
  | some l => simp [lockNumber]

theorem Channel.stateWord_toNat (ch : Channel) (phase : BitVec 3) (hlen : ch.list.length ≤ 32) :
    (ch.stateWord phase).toNat =
      ch.state.bits.toNat + 2 ^ 3 * ch.pausePending.toNat + 2 ^ 4 * (stopBits ch.stop).toNat +
        2 ^ 6 * (lossBits ch.loss).toNat + 2 ^ 8 * ch.holding.isSome.toNat + 2 ^ 9 * ch.inFlight.bits.toNat +
        2 ^ 12 * phase.toNat + (2 ^ 15 * ch.currentLock.isSome.toNat + 2 ^ 16 * (lockNumber ch.currentLock).toNat) +
        2 ^ 24 * ch.list.length := by
  have b0 := ch.state.bits.isLt
  have b1 := Bool.toNat_lt ch.pausePending
  have b2 := (stopBits ch.stop).isLt
  have b3 := (lossBits ch.loss).isLt
  have b4 := Bool.toNat_lt ch.holding.isSome
  have b5 := ch.inFlight.bits.isLt
  have b6 := phase.isLt
  have b7 := Bool.toNat_lt ch.currentLock.isSome
  have b8 := (lockNumber ch.currentLock).isLt
  have n9 : (BitVec.ofNat 6 ch.list.length).toNat = ch.list.length := Nat.mod_eq_of_lt (by omega)
  have h0 := fieldAt_zero_toNat ch.state.bits (by norm_num)
  have h1 := toNat_or_bitAt_of h0 3 ch.pausePending (by omega) (by norm_num)
  have h2 := toNat_or_fieldAt_of h1 4 (stopBits ch.stop) (by omega) (by norm_num)
  have h3 := toNat_or_fieldAt_of h2 6 (lossBits ch.loss) (by omega) (by norm_num)
  have h4 := toNat_or_bitAt_of h3 8 ch.holding.isSome (by omega) (by norm_num)
  have h5 := toNat_or_fieldAt_of h4 9 ch.inFlight.bits (by omega) (by norm_num)
  have h6 := toNat_or_fieldAt_of h5 12 phase (by omega) (by norm_num)
  have h7 := toNat_or_bitAt_of h6 15 ch.currentLock.isSome (by omega) (by norm_num)
  have h8 := toNat_or_fieldAt_of h7 16 (lockNumber ch.currentLock) (by omega) (by norm_num)
  have h9 := toNat_or_fieldAt_of h8 24 (BitVec.ofNat 6 ch.list.length) (by omega) (by norm_num)
  rw [n9, Nat.add_assoc _ (2 ^ 15 * _), fieldAt_lockNumber] at h9
  exact h9

theorem Channel.headWord_nil {ch : Channel} (h : ch.list = []) (limit : BitVec 8) :
    (ch.headWord limit).toNat = 2 ^ 24 * limit.toNat := by
  rw [Channel.headWord, h]
  exact (toNat_or_fieldAt_of (a := 0) (n := 0) rfl 24 limit (by norm_num) (by norm_num)).trans (Nat.zero_add _)

theorem Channel.headWord_cons {ch : Channel} {d : Descriptor} {rest : List Descriptor} (h : ch.list = d :: rest)
    (limit : BitVec 8) :
    (ch.headWord limit).toNat =
      d.tag.toNat + 2 ^ 16 * d.owner.val + 2 ^ 19 * d.started.toNat + 2 ^ 24 * limit.toNat := by
  have b0 := d.tag.isLt
  have b2 := Bool.toNat_lt d.started
  have n1 : (BitVec.ofNat 3 d.owner.val).toNat = d.owner.val := Nat.mod_eq_of_lt (by omega)
  have h0 := fieldAt_zero_toNat d.tag (by norm_num)
  have h1 := toNat_or_fieldAt_of h0 16 (BitVec.ofNat 3 d.owner.val) (by omega) (by norm_num)
  have h2 := toNat_or_bitAt_of h1 19 d.started (by omega) (by norm_num)
  have h3 := toNat_or_fieldAt_of h2 24 limit (by omega) (by norm_num)
  rw [n1] at h3
  rw [Channel.headWord, h]
  exact h3

theorem Master.phaseFor_current {m : Master} {c : ChanId} {b : Burst} (h : m.current = some { chan := c, burst := b }) :
    m.phaseFor c = match m.phase with | .idle => 0 | .requesting => 2 | .reading => 3 | .writing => 4 := by
  have hany : m.current.any (fun x => x.chan == c) = true := by simp [h]
  exact if_pos hany

theorem Master.phaseFor_other {m : Master} {c : ChanId} (h : ∀ b, m.current ≠ some { chan := c, burst := b }) :
    m.phaseFor c = if (m.pending.get c).isSome then 1 else 0 := by
  have hany : m.current.any (fun x => x.chan == c) = false := by
    cases hx : m.current with
    | none => rfl
    | some x =>
      have hne : x.chan ≠ c := by
        rintro rfl
        exact h x.burst hx
      simpa using hne
  simp [Master.phaseFor, hany]

/-- The two fields of an entry's slot: a bit that says it is there, and its number (R163). -/
theorem slotFields_toNat (slot : Option Slot) :
    2 ^ 3 * slot.isSome.toNat + 2 ^ 4 * (slot.getD 0).toNat =
      match slot with | none => 0 | some slot => 2 ^ 3 + 2 ^ 4 * slot.toNat := by
  cases slot <;> simp

theorem agentWord_toNat (e : AgentEntry) (q : Queue) (hr : q.reserved ≤ 16) (hn : q.notices.length ≤ 16) :
    (agentWord e q).toNat =
      e.state.bits.toNat + 2 ^ 2 * e.evicted.toNat + (2 ^ 3 * e.slot.isSome.toNat + 2 ^ 4 * (e.slot.getD 0).toNat) +
        2 ^ 8 * q.reserved + 2 ^ 16 * q.notices.length := by
  have b0 := e.state.bits.isLt
  have b1 := Bool.toNat_lt e.evicted
  have b2 := Bool.toNat_lt e.slot.isSome
  have b3 := (e.slot.getD 0).isLt
  have n4 : (BitVec.ofNat 5 q.reserved).toNat = q.reserved := Nat.mod_eq_of_lt (by omega)
  have n5 : (BitVec.ofNat 5 q.notices.length).toNat = q.notices.length := Nat.mod_eq_of_lt (by omega)
  have h0 := fieldAt_zero_toNat e.state.bits (by norm_num)
  have h1 := toNat_or_bitAt_of h0 2 e.evicted (by omega) (by norm_num)
  have h2 := toNat_or_bitAt_of h1 3 e.slot.isSome (by omega) (by norm_num)
  have h3 := toNat_or_fieldAt_of h2 4 (e.slot.getD 0) (by omega) (by norm_num)
  have h4 := toNat_or_fieldAt_of h3 8 (BitVec.ofNat 5 q.reserved) (by omega) (by norm_num)
  have h5 := toNat_or_fieldAt_of h4 16 (BitVec.ofNat 5 q.notices.length) (by omega) (by norm_num)
  rw [n4, n5, Nat.add_assoc _ (2 ^ 3 * _)] at h5
  exact h5

theorem agentCountsWord_toNat {n d : Nat} (hn : n < 2 ^ 16) (hd : d < 2 ^ 16) :
    (agentCountsWord n d).toNat = n + 2 ^ 16 * d := by
  have n0 : (BitVec.ofNat 16 n).toNat = n := Nat.mod_eq_of_lt hn
  have n1 : (BitVec.ofNat 16 d).toNat = d := Nat.mod_eq_of_lt hd
  have h0 := fieldAt_zero_toNat (BitVec.ofNat 16 n) (by norm_num)
  have h1 := toNat_or_fieldAt_of h0 16 (BitVec.ofNat 16 d) (by omega) (by norm_num)
  rw [n0, n1] at h1
  exact h1

/-! ### O43 -/

/-- Settles O43: each stage of the two commands, then the layouts, field by field. -/
theorem inspectionsRead : Obligations.InspectionsRead := by
  refine ⟨fun s args => ⟨fun c view hw hf hc hv => ?_, fun c view ch h => ?_, fun a ha =>
      ⟨fun hw hf => ?_, fun e => ⟨fun h hm => ?_, fun n h hf => ?_, fun n d h => ?_⟩⟩⟩,
    fun ch phase hlen => ?_, fun ch limit => ⟨fun h => ⟨Channel.headWord_nil h limit, by rw [Channel.headMoved, h]⟩,
      fun d rest h => ⟨Channel.headWord_cons h limit, by rw [Channel.headMoved, h]⟩⟩,
    fun m c => ⟨fun b => Master.phaseFor_current, fun h => ?_⟩, fun e q hr hn => ?_, fun n d => agentCountsWord_toNat⟩
  · have hexec : exec (.inspectChannel .take) s = .next { s with part := s.part.takeInspectChannel } := rfl
    rw [Part.takeInspectChannel_read hw hf hc hv] at hexec
    unfold Part.waits at hw
    exact ⟨_, hexec, by simp [hw], s.part.setStage_frame _ _⟩
  · have hexec : exec (.inspectChannel .proceed) s = .next { s with part := s.part.proceedInspectChannel } := rfl
    rw [Part.proceedInspectChannel_answers h] at hexec
    obtain ⟨hans, hframe⟩ := s.part.present_alone .supervisor
      (ChannelReading.answer { chan := c, view, record := ch } s.part.master)
    refine ⟨_, hexec, ?_, ?_, hframe⟩
    · rintro rfl
      exact hans
    · rintro rfl
      exact hans
  · have hexec : exec (.inspectAgent .take) s = .next { s with part := s.part.takeInspectAgent } := rfl
    rw [Part.takeInspectAgent_read ha hw hf] at hexec
    unfold Part.waits at hw
    exact ⟨_, hexec, by simp [hw], rfl, (s.part.setStage_frame _ _).append (Part.setTableServing_frame _ _)⟩
  · have hexec : exec .inspectAgentRecordCount s = .next { s with part := s.part.countForInspection } := rfl
    rw [Part.countForInspection_counts ha h hm] at hexec
    refine ⟨_, hexec, by simp [h], by simp, by simp [Part.clearServed], ?_⟩
    exact (((s.part.served_frame _).append (Part.raiseDueStep_frame _)).append (Part.setStage_frame _ _ _)).weaken (by simp)
  · have hexec : exec (.inspectAgent .proceed) s = .next { s with part := s.part.proceedInspectAgent } := rfl
    rw [Part.proceedInspectAgent_counted ha h hf] at hexec
    exact ⟨_, hexec, by simp [h], s.part.setStage_frame _ _⟩
  · have hexec : exec (.inspectAgent .proceed) s = .next { s with part := s.part.proceedInspectAgent } := rfl
    rw [Part.proceedInspectAgent_answers ha h] at hexec
    obtain ⟨hfree, hans, hframe⟩ := s.part.present_notServing s.part .supervisor
      (accept (agentWord e (s.part.queue (.agent a))) (agentCountsWord n d)) rfl (Frame.refl _ [])
    exact ⟨_, hexec, hans, hfree, hframe⟩
  · have hword := ch.stateWord_toNat phase hlen
    rw [ChanState.bits_toNat, stopBits_toNat, lossBits_toNat, InFlight.bits_toNat, lockNumber_fields] at hword
    exact hword
  · rw [Master.phaseFor_other h]
    exact ⟨fun hp => if_pos (Option.isSome_iff_ne_none.2 hp), fun hp => by simp [hp]⟩
  · have hword := agentWord_toNat e q hr hn
    rw [AgentState.bits_toNat, slotFields_toNat] at hword
    exact hword

end Sys2Proof.Machine
end

section
/-! Proofs: the later stages of a CLEAR (O54). -/

namespace Sys2Proof.Machine

/-! ### An operation repeated -/

theorem Frame.foldl {α : Type} {f : Part → α → Part} {ys : List Piece} (h : ∀ p x, Frame p (f p x) ys) (xs : List α)
    (p : Part) : Frame p (xs.foldl f p) ys := by
  induction xs generalizing p with
  | nil => exact Frame.refl p ys
  | cons x xs ih => exact (h p x).trans (ih (f p x))

theorem Part.notifySupervisors_frame {α : Type} (f : α → Notice) (xs : List α) (p : Part) :
    Frame p (xs.foldl (fun q x => q.notifySupervisor (f x)) p) [.queue .supervisor] :=
  Frame.foldl (fun q x => q.notifySupervisor_frame (f x)) xs p

/-! ### The lock-table step (R145) -/

/-- Every lock cleared, with the arbiter moved on to the supervisor page's position. -/
def Part.locksCleared (p : Part) : Part := allLocks.foldl Part.clearLock (p.served supervisorPos)

/-- The lock-table step carried out, before the claim that was kept back is raised. -/
def Part.lockTableStepDone (p : Part) : Part := (p.locksCleared.setClear (some .stepDone)).toTable .lockTableStep

theorem exec_clearLockTableStep {s : State} (hc : s.part.table.clear = some .stepPending)
    (hm : s.part.mayServe supervisorPos = true) :
    exec .clearLockTableStep s = .next { s with part := s.part.lockTableStepDone.raiseHeld } := by
  have hexec : exec .clearLockTableStep s = .next (s.onPart fun p =>
      if p.table.clear = some .stepPending ∧ p.mayServe supervisorPos then p.lockTableStepDone.raiseHeld else p) := rfl
  rw [hexec, State.onPart, if_pos ⟨hc, hm⟩]

theorem Part.locksCleared_lock (p : Part) (l : LockId) :
    p.locksCleared.lock l = { p.lock l with
      state := (if (p.lock l).state = .closing then .disabled else (p.lock l).state), holders := [], waiters := [] } := by
  obtain ⟨hlock, _⟩ := Part.clearLocks_spec allLocks (p.served supervisorPos) allLocks_nodup
  exact (hlock l).trans (if_pos (mem_allLocks l))

theorem Part.locksCleared_supervisor (p : Part) :
    p.locksCleared.queue .supervisor =
      { notices := (p.queue .supervisor).notices ++
          (allLocks.filter fun l => (p.lock l).state == .closing).map .lockClosed,
        reserved := (p.queue .supervisor).reserved -
          (allLocks.filter fun l => (p.lock l).state == .closing).length } := by
  obtain ⟨_, _, hqueue, _⟩ := Part.clearLocks_spec allLocks (p.served supervisorPos) allLocks_nodup
  exact hqueue

theorem Part.locksCleared_frame (p : Part) :
    Frame p p.locksCleared (.lastServed :: .queue .supervisor :: lockPieces) := by
  obtain ⟨_, hagents, _, hinbox⟩ := Part.clearLocks_spec allLocks (p.served supervisorPos) allLocks_nodup
  refine (p.served_frame supervisorPos).append (ys := .queue .supervisor :: lockPieces) fun x hx => ?_
  simp only [List.mem_cons, mem_lockPieces, not_or, not_exists] at hx
  cases x with
  | queue g =>
    cases g with
    | agent a => exact hagents a
    | supervisor => exact absurd rfl hx.1
  | lock l => exact absurd rfl (hx.2 l)
  | _ => simp_all [SameAt, Part.locksCleared]

theorem Part.lockTableStepDone_frame (p : Part) : Frame p.locksCleared p.lockTableStepDone [.clear, .reports] :=
  (Part.setClear_frame _ _).append (Part.toTable_frame _ _)

/-! ### The transfer step (R146) -/

/-- The channels whose pause is pending, C0 before C1. -/
def Part.pausing (p : Part) : List ChanId := [ChanId.c0, .c1].filter fun c => (p.chan c).pausePending

/-- Every descriptor freed, both channels settled, and no withdraw-all remembered. -/
def Part.channelsCleared (p : Part) : Part :=
  ((p.setWithdrawing []).onChan .c0 Channel.cleared).onChan .c1 Channel.cleared

theorem Part.clearTransfer_eq (p : Part) :
    p.clearTransfer = ((p.pausing.foldl (fun q c => q.notifySupervisor (.channelPaused c)) p.channelsCleared).setClear
      (some .transferDone)).toTable .transferStep := by
  unfold Part.clearTransfer Part.pausing
  cases h0 : (p.chan .c0).pausePending <;> cases h1 : (p.chan .c1).pausePending <;>
    simp [h0, h1, Part.channelsCleared]

theorem Part.channelsCleared_chan (p : Part) (c : ChanId) : p.channelsCleared.chan c = (p.chan c).cleared := by
  cases c <;> simp [Part.channelsCleared]

theorem Part.clearTransfer_transfer (p : Part) : p.clearTransfer.transfer = p.channelsCleared.transfer := by
  obtain ⟨_, _, htransfer, _⟩ := Part.notifySupervisors_keeps Notice.channelPaused p.pausing p.channelsCleared
  rw [p.clearTransfer_eq]
  exact htransfer

theorem Part.clearTransfer_chan (p : Part) (c : ChanId) : p.clearTransfer.chan c = (p.chan c).cleared := by
  rw [← p.channelsCleared_chan, Part.chan, Part.chan, p.clearTransfer_transfer]

theorem Part.clearTransfer_descriptorsFree (p : Part) : p.clearTransfer.descriptorsFree = 32 := by
  simp [Part.descriptorsFree, p.clearTransfer_chan, Channel.cleared, Config.descriptorRecords]

theorem Part.clearTransfer_notices (p : Part) :
    p.clearTransfer.queue .supervisor =
      { notices := (p.queue .supervisor).notices ++ p.pausing.map .channelPaused,
        reserved := (p.queue .supervisor).reserved - p.pausing.length } := by
  obtain ⟨_, _, _, _, _, hqueue⟩ := Part.notifySupervisors_keeps Notice.channelPaused p.pausing p.channelsCleared
  rw [p.clearTransfer_eq]
  simpa [Part.channelsCleared] using hqueue

theorem Part.clearTransfer_frame (p : Part) :
    Frame p p.clearTransfer [.withdrawing, .chan .c0, .chan .c1, .queue .supervisor, .clear, .reports] := by
  rw [p.clearTransfer_eq]
  exact (((((p.setWithdrawing_frame []).append (Part.onChan_frame _ .c0 _)).append (Part.onChan_frame _ .c1 _)).append
    (Part.notifySupervisors_frame _ _ _)).append (Part.setClear_frame _ _)).append (Part.toTable_frame _ _)

/-! ### The agent step (R147) -/

theorem Part.setAgents_frame (p : Part) (es : Vector AgentEntry 8) :
    Frame p (p.setAgents es) (allAgents.map .agent) := by
  intro x hx
  cases x <;> simp_all [SameAt, allAgents]

theorem Part.setQueues_frame (p : Part) (qs : Vector Queue 8) : Frame p (p.setQueues qs) agentQueues := by
  intro x hx
  rw [mem_agentQueues] at hx
  cases x with
  | queue g =>
    cases g with
    | agent a => exact absurd ⟨a, rfl⟩ hx
    | supervisor => rfl
  | _ => simp [SameAt]

theorem AgentEntry.cleared_eq (e : AgentEntry) :
    e.cleared =
      if e.state = .attached ∨ e.state = .evicting then { e with state := .detached, evicted := true } else e := by
  unfold AgentEntry.cleared
  cases e.state <;> rfl

/-- The agents, their queues and the evictions as CLEAR leaves them, before its notices are delivered. -/
def Part.agentsCleared (p : Part) : Part :=
  ((p.setAgents (each AgentEntry.cleared p.table.agents)).setQueues
    (each (fun _ => Queue.emptied) p.notices.agents)).setEvictions []

theorem Part.completeClear_eq (p : Part) :
    p.completeClear =
      ((p.table.evictions.foldl (fun q v => q.notifySupervisor (.agentEvicted v.agent)) p.agentsCleared).notifySupervisor
        .clearDone).setClear none := rfl

theorem Part.completeClear_agents (p : Part) :
    p.completeClear.table.agents = each AgentEntry.cleared p.table.agents ∧
      p.completeClear.port.copies = each AgentEntry.cleared p.table.agents ∧
      ∀ a, p.completeClear.queue (.agent a) = Queue.emptied := by
  obtain ⟨hport, htable, _, _, hqueue, _⟩ := Part.notifySupervisors_keeps (fun v : Eviction => .agentEvicted v.agent)
    p.table.evictions p.agentsCleared
  simp only [p.completeClear_eq, Part.setClear_keeps, Part.notifySupervisor_keeps, Part.queue_notifySupervisor,
    reduceCtorEq, if_false, hport, htable, hqueue]
  exact ⟨rfl, rfl, fun a => by simp [Part.agentsCleared]⟩

theorem Part.completeClear_frame (p : Part) :
    Frame p p.completeClear
      (allAgents.map .agent ++ agentQueues ++ [.evictions] ++ [.queue .supervisor] ++ [.queue .supervisor] ++ [.clear]) :=
  (((((p.setAgents_frame _).append (Part.setQueues_frame _ _)).append (Part.setEvictions_frame _ [])).append
    (Part.notifySupervisors_frame _ _ _)).append (Part.notifySupervisor_frame _ _)).append (Part.setClear_frame _ none)

/-! ### O54 -/

/-- Settles O54, step by step. -/
theorem clearSettlesEverything : Obligations.ClearSettlesEverything := by
  intro s
  refine ⟨fun hc hm => ?_, fun rest hr hf => ?_, fun rest ht => ?_, fun rest hr hf => ?_⟩
  · have hcleared := s.part.locksCleared_frame
    have hstep := s.part.lockTableStepDone_frame
    have hheld := s.part.lockTableStepDone.raiseHeld_frame
    have hrest := hstep.append hheld
    have hsame : s.part.lockTableStepDone.page .supervisor = s.part.page .supervisor :=
      (hcleared.append hstep) (.page .supervisor) (by simp [mem_lockPieces])
    have hpage := s.part.lockTableStepDone.raiseHeld_page
    rw [hsame] at hpage
    refine ⟨_, exec_clearLockTableStep hc hm, fun l => ?_, ?_, ?_, ?_, ?_, hpage, ?_⟩
    · exact Eq.trans (hrest (.lock l) (by simp)) (s.part.locksCleared_lock l)
    · exact Eq.trans (hrest (.queue .supervisor) (by simp)) s.part.locksCleared_supervisor
    · simp [Part.lockTableStepDone]
    · simp [Part.lockTableStepDone, Part.locksCleared]
    · exact Eq.trans (hrest .lastServed (by simp)) (by simp [Part.locksCleared])
    · exact (hcleared.append hrest).weaken fun x hx => by grind
  · exact ⟨_, exec_takesReport (i := .lockTableStepReport) rfl hr hf rfl, rfl, rfl, rfl,
      ((s.part.setReports_frame rest).append (Part.setClear_frame _ _)).append (Part.toTransfer_frame _ _)⟩
  · obtain ⟨hinbox, hclear, _, hreports, _⟩ := (s.part.setInbox rest).clearTransfer_course
    have hexec := exec_takesItem (i := .clearTransferStep) rfl ht rfl
    rw [Part.reportRest_of_not_stopping (by simp [hclear])] at hexec
    refine ⟨_, hexec, hinbox, fun c => ?_, Part.clearTransfer_descriptorsFree _, Part.clearTransfer_notices _, hclear,
      hreports, ?_, ?_⟩
    · exact Part.clearTransfer_chan _ c
    · rw [Part.clearTransfer_transfer]
      rfl
    · exact ((s.part.setInbox_frame rest).append (Part.clearTransfer_frame _)).weaken (by simp)
  · obtain ⟨_, hclear, hevictions, hreports, hqueue⟩ := (s.part.setReports rest).completeClear_course
    obtain ⟨hagents, hcopies, hqueues⟩ := (s.part.setReports rest).completeClear_agents
    refine ⟨_, exec_takesReport (i := .clearAgentStep) rfl hr hf rfl, hreports, fun a => ?_, fun a => ?_, hqueues, ?_,
      hevictions, by simp [Part.clearing, hclear], ?_⟩
    · rw [Part.agent, hagents, pick_each, AgentEntry.cleared_eq]
      rfl
    · rw [Part.agent, hagents, hcopies]
    · rw [hqueue, Nat.sub_sub]
      rfl
    · exact ((s.part.setReports_frame rest).append (Part.completeClear_frame _)).weaken fun x hx => by grind

end Sys2Proof.Machine
end

section
/-! Proofs: every command as a change of the coordinator alone (O2), a COMMAND write to a BUSY page (O6), and the window by
its addresses (O9). -/

namespace Sys2Proof.Machine

/-! ### Every command completes (O2) -/

/-- Every arm of `exec` is a change of the coordinator, which answers a next state and keeps the queue (log 1). -/
theorem exec_onPart (c : Instr) : ∃ f : Part → Part, ∀ s : State, exec c s = .next (s.onPart f) := by
  cases c <;> exact ⟨_, fun _ => rfl⟩

/-- Settles O2. -/
theorem everyCommandCompletesAndKeepsQueue : Obligations.EveryCommandCompletesAndKeepsQueue := by
  intro c s
  obtain ⟨f, hf⟩ := exec_onPart c
  exact ⟨s.onPart f, hf s, s.onPart_pending f⟩

/-! ### Collisions (R155) -/

theorem Part.commandWrite_busy {p : Part} {g : PageId} (hf : (p.page g).inFlight ≠ none) (value : Word) :
    p.commandWrite g value = p.setPage g { p.page g with collide := true } := by
  obtain ⟨x, hx⟩ := Option.ne_none_iff_exists'.1 hf
  simp [Part.commandWrite, hx]

/-- A write from a slot that passes the page's check is the register's own write (R25, R136). -/
theorem Part.writeFrom_of_passes {p : Part} {g : PageId} {slot : Slot} (hs : p.slotPasses g slot = true) (r : Reg)
    (value : Word) : p.writeFrom g slot r value = p.writeRegister g r value := by
  simp [Part.writeFrom, hs]

/-- Settles O6. -/
theorem collisionSetsCollide : Obligations.CollisionSetsCollide := by
  intro s g slot value hs hf
  have hwrite : s.part.writeFrom g slot .command value = s.part.setPage g { s.part.page g with collide := true } :=
    (Part.writeFrom_of_passes hs .command value).trans (Part.commandWrite_busy hf value)
  refine ⟨s.part.writeFrom g slot .command value, rfl, ?_⟩
  rw [hwrite]
  exact ⟨by simp, s.part.setPage_frame g _⟩

/-! ### Where the pages and the registers lie (9.2) -/

/-- The 64-byte block of the window at which a page starts is that page. -/
theorem pageAt_of_start {i : BitVec 4} {g : PageId} (h : 64 * i.toNat = pageStart g) : pageAt i = some g := by
  unfold pageAt
  cases g with
  | supervisor =>
    have hi : i = 0 := BitVec.eq_of_toNat_eq (by simp only [pageStart] at h; simp; omega)
    rw [if_pos hi]
  | agent a =>
    have hi : i.toNat = a.val + 4 := by simp only [pageStart] at h; omega
    have h0 : i ≠ 0 := fun hz => by simp [hz] at hi
    rw [if_neg h0, if_pos (by omega), asIndex_of_lt a (by omega), Option.map_some]

theorem pageAt_eq_none {i : BitVec 4} (h : 1 ≤ i.toNat ∧ i.toNat ≤ 3 ∨ 12 ≤ i.toNat) : pageAt i = none := by
  have h0 : i ≠ 0 := fun hz => by simp [hz] at h
  unfold pageAt
  rw [if_neg h0]
  split
  · rw [asIndex_eq_none (by omega), Option.map_none]
  · rfl

/-- The word of a page at which a register lies is that register. -/
theorem regAt_of_offset {i : BitVec 4} {r : Reg} (h : 4 * i.toNat = r.offset) : regAt i = r := by
  have hlist : (allRegs[r.offset / 4]?).getD .arg5 = r := by cases r <;> rfl
  rw [regAt, show i.toNat = r.offset / 4 by omega, hlist]

theorem Reg.offset_lt (r : Reg) : r.offset < 64 := by cases r <;> decide

theorem pageStart_mod (g : PageId) : pageStart g % 64 = 0 := by
  cases g with
  | supervisor => rfl
  | agent a => simp only [pageStart]; omega

/-- The block of an address, from its offset in the window. -/
theorem blockField_toNat (w : Word) : (w.extractLsb' 6 4).toNat = w.toNat % 1024 / 64 := by
  rw [extractLsb'_toNat_div]
  omega

/-- The word within the block of an address, from its offset in the window. -/
theorem wordField_toNat (w : Word) : (w.extractLsb' 2 4).toNat = w.toNat % 1024 % 64 / 4 := by
  rw [extractLsb'_toNat_div]
  omega

/-! ### The judgement of an access (R149, R150) -/

section
variable {p : Part} {acc : Access} {g : PageId} {r : Reg}

theorem Part.judge_outside (h : acc.address.extractLsb' 10 22 ≠ p.straps.base) : p.judge acc = .notOurs := by
  simp only [Part.judge, if_pos h]

/-- An access that the port judges by its page has passed the two tests before (R149, R150). -/
theorem Part.passes_of_reaches (h : p.reaches acc) :
    ¬acc.address.extractLsb' 10 22 ≠ p.straps.base ∧ ¬(acc.address.extractLsb' 0 2 ≠ 0 ∨ acc.lanes ≠ 15) := by
  obtain ⟨hbase, halign, hlanes⟩ := h
  exact ⟨not_not.2 hbase, not_or.2 ⟨not_not.2 ((extractLsb'_two_eq_zero_iff _).2 halign), not_not.2 hlanes⟩⟩

theorem Part.judge_unused (h : p.reaches acc)
    (ho : 0x040 ≤ acc.address.toNat % 1024 ∧ acc.address.toNat % 1024 ≤ 0x0FF ∨ 0x300 ≤ acc.address.toNat % 1024) :
    p.judge acc = .unused := by
  obtain ⟨hbase, hword⟩ := Part.passes_of_reaches h
  have hpage : pageAt (acc.address.extractLsb' 6 4) = none := pageAt_eq_none (by rw [blockField_toNat]; omega)
  simp only [Part.judge, if_neg hbase, if_neg hword, hpage]

/-- An access at a register's offset is judged by its page's slot check. -/
theorem Part.judge_register (h : p.reaches acc) (ho : acc.address.toNat % 1024 = pageStart g + r.offset) :
    p.judge acc = if p.slotPasses g acc.slot then .register g r else .busError := by
  have ⟨_, halign, _⟩ := h
  obtain ⟨hbase, hword⟩ := Part.passes_of_reaches h
  have hstart := pageStart_mod g
  have hoffset := r.offset_lt
  have hpage : pageAt (acc.address.extractLsb' 6 4) = some g :=
    pageAt_of_start (by rw [blockField_toNat]; omega)
  have hreg : regAt (acc.address.extractLsb' 2 4) = r :=
    regAt_of_offset (by rw [wordField_toNat]; omega)
  simp only [Part.judge, if_neg hbase, if_neg hword, hpage, hreg]

/-! ### What an access does, by its judgement (R150) -/

theorem exec_registerWrite (acc : Access) (s : State) :
    exec (.registerWrite acc) s = .next { s with part := s.part.access acc } := rfl

/-- An access that is not accepted at a register of a page changes nothing. -/
theorem exec_registerWrite_of_no_register {s : State} (h : ∀ g r, s.part.judge acc ≠ .register g r) :
    exec (.registerWrite acc) s = .next s := by
  have haccess : s.part.access acc = s.part := by
    unfold Part.access
    cases hj : s.part.judge acc with
    | notOurs | busError | unused => rfl
    | register g r => exact absurd hj (h g r)
  rw [exec_registerWrite, haccess]

theorem exec_registerWrite_of_read {s : State} (h : acc.isWrite = false) : exec (.registerWrite acc) s = .next s := by
  have haccess : s.part.access acc = s.part := by
    unfold Part.access
    cases s.part.judge acc with
    | notOurs | busError | unused => rfl
    | register g r => exact if_neg (by simp [h])
  rw [exec_registerWrite, haccess]

theorem Part.access_writes (hj : p.judge acc = .register g r) (hw : acc.isWrite = true) :
    p.access acc = p.writeRegister g r acc.data := by
  simp [Part.access, hj, hw]

/-! ### Argument registers, and registers for reading only (R152) -/

/-- The register of argument `i` of a page. -/
def argReg (i : Fin 6) : Reg :=
  match i with
  | 0 => .arg0
  | 1 => .arg1
  | 2 => .arg2
  | 3 => .arg3
  | 4 => .arg4
  | 5 => .arg5

/-- Argument 5 is a register of the supervisor page alone. -/
theorem isArgument_iff (g : PageId) (r : Reg) : isArgument g r ↔ ∃ i, r = argReg i ∧ (i = 5 → g = .supervisor) := by
  cases r <;> simp [isArgument, argReg, Fin.exists_fin_succ]

theorem Part.writeRegister_argReg {i : Fin 6} (hi : i = 5 → g = .supervisor) (value : Word) :
    p.writeRegister g (argReg i) value = p.setPage g ((p.page g).setArg i value) := by
  match i with
  | 0 | 1 | 2 | 3 | 4 => rfl
  | 5 => exact if_pos (hi rfl)

theorem Part.readRegister_argReg {i : Fin 6} (hi : i = 5 → g = .supervisor) :
    p.readRegister g (argReg i) = pick (p.page g).args i := by
  match i with
  | 0 | 1 | 2 | 3 | 4 => rfl
  | 5 => exact if_pos (hi rfl)

theorem Part.copyOf_setPage (p : Part) (g : PageId) (pg : Page) (g' : PageId) :
    (p.setPage g pg).copyOf g' = p.copyOf g' := by
  cases g' <;> simp [Part.copyOf]

/-- Every register but that of argument `i` reads as before once argument `i` is written. -/
theorem Part.readRegister_setArg_of_ne (p : Part) (g : PageId) {i : Fin 6} {k : Reg} (hk : k ≠ argReg i) (value : Word) :
    (p.setPage g ((p.page g).setArg i value)).readRegister g k = p.readRegister g k := by
  have hplace (j : Fin 6) (hj : k = argReg j) : pick (put (p.page g).args i value) j = pick (p.page g).args j := by
    rw [pick_put, if_neg fun e => hk (hj.trans (congrArg argReg e))]
  simp only [Part.readRegister, Part.page_setPage, if_true, Part.copyOf_setPage, Part.setPage_keeps, Page.setArg]
  cases k with
  | arg0 => exact hplace 0 rfl
  | arg1 => exact hplace 1 rfl
  | arg2 => exact hplace 2 rfl
  | arg3 => exact hplace 3 rfl
  | arg4 => exact hplace 4 rfl
  | arg5 => exact congrArg (if g = .supervisor then · else 0) (hplace 5 rfl)
  | _ => rfl

theorem Part.writeRegister_readOnly (h : isReadOnly g r) (value : Word) : p.writeRegister g r value = p := by
  cases r <;> simp_all [isReadOnly, Part.writeRegister]

/-- An accepted write to an argument register stores its value there and nowhere else. -/
theorem Part.writeRegister_argument (h : isArgument g r) (value : Word) :
    (p.writeRegister g r value).readRegister g r = value ∧
      (∀ k, k ≠ r → (p.writeRegister g r value).readRegister g k = p.readRegister g k) ∧
      (p.writeRegister g r value).page g = { p.page g with args := ((p.writeRegister g r value).page g).args } ∧
      Frame p (p.writeRegister g r value) [.page g] := by
  obtain ⟨i, rfl, hi⟩ := (isArgument_iff g r).1 h
  rw [Part.writeRegister_argReg hi]
  exact ⟨by simp [Part.readRegister_argReg hi, Page.setArg], fun k hk => p.readRegister_setArg_of_ne g hk value,
    by simp [Page.setArg], p.setPage_frame g _⟩

end

/-! ### An access by its address (O9) -/

/-- Settles O9: the address tells the port's judgement, and the judgement what the access does and reads. -/
theorem registerWriteStoresArgument : Obligations.RegisterWriteStoresArgument := by
  refine ⟨fun s acc hbase => ?_, fun s acc hr => ⟨fun ho => ?_, fun g r ho => ⟨fun hs => ?_, fun hs => ?_⟩⟩⟩
  · have hj := Part.judge_outside hbase
    exact ⟨exec_registerWrite_of_no_register (by simp [hj]), by simp [Part.windowRead, hj]⟩
  · have hj := Part.judge_unused hr ho
    exact ⟨exec_registerWrite_of_no_register (by simp [hj]), by simp [Part.windowRead, hj]⟩
  · have hj : s.part.judge acc = .busError := by simp [Part.judge_register hr ho, hs]
    exact ⟨exec_registerWrite_of_no_register (by simp [hj]), by simp [Part.windowRead, hj]⟩
  · have hj : s.part.judge acc = .register g r := by simp [Part.judge_register hr ho, hs]
    refine ⟨by simp [Part.windowRead, hj], exec_registerWrite_of_read, fun hw => ?_⟩
    have hexec : exec (.registerWrite acc) s = .next { s with part := s.part.writeRegister g r acc.data } := by
      rw [exec_registerWrite, Part.access_writes hj hw]
    have hrow : exec (.registerWrite acc) s = .next { s with part := s.part.writeFrom g acc.slot r acc.data } := by
      rw [hexec, Part.writeFrom_of_passes hs]
    refine ⟨fun ha => ⟨_, hexec, Part.writeRegister_argument ha acc.data⟩, fun hro => ?_, ?_, ?_, ?_⟩
    · rw [hexec, Part.writeRegister_readOnly hro]
    all_goals
      rintro rfl
      exact hrow

end Sys2Proof.Machine
end

section
/-! Proofs: one step of the machine, by whether a command stands at the front of the queue (O1). -/

namespace Sys2Proof.Machine

theorem State.takeFront_cons (c : Instr) (rest : List Instr) (p : Part) :
    State.takeFront { pending := c :: rest, part := p } = some (c, { pending := rest, part := p }) := rfl

theorem State.takeFront_nil (p : Part) : State.takeFront { pending := [], part := p } = none := rfl

theorem step_of_takeFront_some {s t : State} {c : Instr} (h : s.takeFront = some (c, t)) : step s = exec c t := by
  rw [step, h]

/-- With no command to take the block idles (log 1). -/
theorem step_of_takeFront_none {s : State} (h : s.takeFront = none) : step s = .next s := by
  rw [step, h]

/-- Settles O1, by whether there is a command to take from the queue. -/
theorem stepRunsFrontCommand : Obligations.StepRunsFrontCommand :=
  ⟨fun c rest p => step_of_takeFront_some (State.takeFront_cons c rest p),
    fun p => step_of_takeFront_none (State.takeFront_nil p)⟩

end Sys2Proof.Machine
end
